-- ==== Sys2Proof/Word.lean ====
section
/-! DEFINITION. The word types of the core (spec/00_scope.md R9) and the one way a single bit is placed in a word. -/

namespace Sys2Proof

/-- A byte of system memory or of a packet. -/
abbrev Byte := BitVec 8

/-- A 16-bit word of an endpoint's FIFO data port (R9, R47). -/
abbrev Half := BitVec 16

/-- A command word, a command argument, a register value (R9, R70). -/
abbrev Word := BitVec 32

end Sys2Proof
end

