-- ==== Sys2Proof/Config.lean ====
section
/-! DEFINITION. The implementation parameters of spec/00_scope.md R8, held as one record so that every statement is
about every configuration, the test configuration of R8 and spec/95_test_vectors.md section 0, and the one free value. -/

namespace Sys2Proof

/-- Direction of an endpoint, named as the spec names it (R13): IN is device to host, OUT is host to device. -/
inductive Dir where
  | IN
  | OUT
deriving DecidableEq, Repr

/-- The fields the class driver gives a request record of `REQ_TABLE` at launch (R33, R36, R208). -/
structure RequestInit where
  /-- `none` is the spec's NONE: the record has no buffer. -/
  buf      : Option Word
  length   : Word
  zero     : Bool
  callback : Option Nat
deriving DecidableEq, Repr

/-! ### The lower-port register fields and their silicon places -/

/-- The bits of `SSR` by name (R39). -/
inductive SsrField where
  | vbusOn
  | vbusOff
  | reset
  | speedDone
  | hs
  | suspend
  | resume
  | error
deriving DecidableEq, Repr

/-- The bits of `ESR[i]` by name (R42). -/
inductive EsrField where
  | rxReady
  | txDone
  | lwo
  | psifTwo
  | stallSent
  | flushReq
  | ctlEot
  | txSpace
deriving DecidableEq, Repr

/-- The bits of `ECR[i]` by name (R43). -/
inductive EcrField where
  | stall
  | flush
  | dirIn
deriving DecidableEq, Repr

/-- A field of a lower-port register (R39 to R47); the per-endpoint ones carry the endpoint's index, and `EIR` and `EIER`
hold one bit for each endpoint. -/
inductive SieField where
  | ssr (f : SsrField)
  | eir (i : Nat)
  | eier (i : Nat)
  | esr (i : Nat) (f : EsrField)
  | ecr (i : Nat) (f : EcrField)
  | mps (i : Nat)
  | txBcnt (i : Nat)
  | rxWcnt (i : Nat)
  | fifo (i : Nat)
deriving DecidableEq, Repr

/-- Where the silicon has a field: a register's address and the position of the field's lowest bit in it. -/
structure SiePlace where
  address : Word
  bit     : Nat
deriving DecidableEq, Repr

/-- The fields of endpoint i's bits and registers. -/
def SieField.ofEndpoint (i : Nat) : List SieField :=
  [.eir i, .eier i] ++
  [EsrField.rxReady, .txDone, .lwo, .psifTwo, .stallSent, .flushReq, .ctlEot, .txSpace].map (.esr i) ++
  [EcrField.stall, .flush, .dirIn].map (.ecr i) ++ [.mps i, .txBcnt i, .rxWcnt i, .fifo i]

/-- Every field of the lower port of a core with n endpoints. -/
def SieField.all (n : Nat) : List SieField :=
  [SsrField.vbusOn, .vbusOff, .reset, .speedDone, .hs, .suspend, .resume, .error].map .ssr ++
  (List.range n).flatMap SieField.ofEndpoint

/-- A field's bit position in the normalized layout of R39 to R47. -/
def SieField.normalizedBit : SieField → Nat
  | .ssr .vbusOn | .esr _ .rxReady | .ecr _ .stall => 0
  | .ssr .vbusOff | .esr _ .txDone | .ecr _ .flush => 1
  | .ssr .reset | .esr _ .lwo | .ecr _ .dirIn => 2
  | .ssr .speedDone | .esr _ .psifTwo => 3
  | .ssr .hs | .esr _ .stallSent => 4
  | .ssr .suspend | .esr _ .flushReq => 5
  | .ssr .resume | .esr _ .ctlEot => 6
  | .ssr .error | .esr _ .txSpace => 7
  | .eir i | .eier i => i
  | .mps _ | .txBcnt _ | .rxWcnt _ | .fifo _ => 0

/-- DESIGN CHOICE (assumption 12): the register addresses of the test configuration, which R8 leaves unused. -/
def SieField.testAddress : SieField → Word
  | .ssr _ => 0x000
  | .eir _ => 0x004
  | .eier _ => 0x008
  | .esr i _ => BitVec.ofNat 32 (0x100 + 0x20 * i)
  | .ecr i _ => BitVec.ofNat 32 (0x104 + 0x20 * i)
  | .mps i => BitVec.ofNat 32 (0x108 + 0x20 * i)
  | .txBcnt i => BitVec.ofNat 32 (0x10C + 0x20 * i)
  | .rxWcnt i => BitVec.ofNat 32 (0x110 + 0x20 * i)
  | .fifo i => BitVec.ofNat 32 (0x114 + 0x20 * i)

/-- A field with its place in the test configuration (assumption 12). -/
def SieField.testPlace (f : SieField) : SieField × SiePlace := (f, ⟨f.testAddress, f.normalizedBit⟩)

/-! ### The class driver's actions and answers -/

/-- A class-driver write to a request record it owns, or to a byte of system memory (R179). -/
inductive Machine.DriverWrite where
  | reqBuf (h : Word) (buf : Option Word)
  | reqLength (h : Word) (length : Word)
  | reqZero (h : Word) (zero : Bool)
  | reqCallback (h : Word) (callback : Option Nat)
  | memByte (addr : Word) (byte : Byte)
deriving DecidableEq, Repr

/-- What the class driver does inside an upcall: issue a command, or write what it owns (R177, R179). -/
inductive Machine.DriverAction where
  | command (cmd arg : Word)
  | write (w : Machine.DriverWrite)
deriving DecidableEq, Repr

/-- The class driver's answer to one upcall: its actions in order, and what `setup` returns (R180). -/
structure Machine.DriverResponse where
  actions : List Machine.DriverAction
  ret     : Word
deriving DecidableEq, Repr

/-! ### The parameters -/

/-- The parameters of R8. -/
structure Config where
  /-- `NUM_ENDPOINTS` -/
  numEndpoints : Nat
  /-- `EP_DIR`: entry k is the direction of data endpoint k + 1. -/
  epDir        : List Dir
  /-- `FIFO_PKTS` -/
  fifoPkts     : Nat
  /-- `EP0_MPS_FS` -/
  ep0MpsFs     : BitVec 11
  /-- `EP0_MPS_HS` -/
  ep0MpsHs     : BitVec 11
  /-- `BULK_MPS_FS` -/
  bulkMpsFs    : BitVec 11
  /-- `BULK_MPS_HS` -/
  bulkMpsHs    : BitVec 11
  /-- `DEVICE_STATUS` -/
  deviceStatus : Half
  /-- `SIE_MAP`: every field of the lower port with its place in the silicon.  No rule reads it: a model is written
  against field names (R38, R64, assumption 12). -/
  sieMap       : List (SieField × SiePlace)
  /-- `MEM_SIZE` -/
  memSize      : Nat
  /-- `REQ_TABLE`: the request handles that exist at launch, each with its record's fields. -/
  reqTable     : List (Word × RequestInit)
  /-- `CLASS_DRIVER`: the class driver's answers to the upcalls of a run, in the order they happen (assumption 2). -/
  classDriver  : List Machine.DriverResponse
deriving DecidableEq, Repr

/-- `SIE_MAP` places every field of the lower port, no two at one place (R8). -/
def Config.sieMapOk (c : Config) : Bool :=
  decide (c.sieMap.map (·.1) = SieField.all c.numEndpoints) && decide ((c.sieMap.map (·.2)).Nodup)

/-- The constraints of R8's third column, and distinct handles in `REQ_TABLE`. -/
def Config.wf (c : Config) : Bool :=
  decide (3 ≤ c.numEndpoints ∧ c.numEndpoints ≤ 16) &&
  decide (c.epDir.length + 1 = c.numEndpoints) &&
  decide (c.fifoPkts = 1 ∨ c.fifoPkts = 2) &&
  decide (c.ep0MpsFs ∈ [8#11, 16#11, 32#11, 64#11]) &&
  decide (c.ep0MpsHs = 64#11) &&
  decide (c.bulkMpsFs ∈ [8#11, 16#11, 32#11, 64#11]) &&
  decide (c.bulkMpsHs = 512#11) &&
  decide (c.deviceStatus.toNat < 4) &&
  decide (c.memSize ≤ 2 ^ 32) &&
  decide ((c.reqTable.map (·.1)).Nodup) && c.sieMapOk

/-- The "test value" column of R8, with the request table of spec/95_test_vectors.md section 0 (h1 to h8).  The column
gives `SIE_MAP` no value and leaves `CLASS_DRIVER` to each program (assumptions 2 and 12). -/
def Config.test : Config where
  numEndpoints := 3
  epDir        := [.IN, .OUT]
  fifoPkts     := 2
  ep0MpsFs     := 64
  ep0MpsHs     := 64
  bulkMpsFs    := 64
  bulkMpsHs    := 512
  deviceStatus := 0
  sieMap       := (SieField.all 3).map SieField.testPlace
  memSize      := 2 ^ 32
  reqTable     :=
    [ (1, ⟨some 0x3000, 18, false, some 1⟩), (2, ⟨some 0x4000, 128, true, some 2⟩),
      (3, ⟨some 0x5000, 4, false, some 3⟩), (4, ⟨some 0x6000, 100, false, some 4⟩),
      (5, ⟨some 0x7000, 100, false, some 5⟩), (6, ⟨some 0x5100, 128, false, some 6⟩),
      (7, ⟨some 0x5200, 10, false, some 7⟩), (8, ⟨none, 0, false, some 8⟩) ]
  classDriver  := []

/-- FREE VALUE: what the class driver's `setup` answers once its answers are used up (R178: any signed 32-bit
integer; R180: the behaviour is a parameter).  It has no body, so nothing can be proved of its value; a fresh one is
drawn with the counter `State.freeCount` (assumption 3). -/
opaque Config.freeSetupReturn : Nat → Word

end Sys2Proof
end

