-- ==== Sys2Proof/Syntax.lean ====
section
/-! DEFINITION. The instructions: one constructor per row of spec/opcode_table.json, with the operands its encoding
leaves open (spec/30_encoding.md R71, R72, R75 to R80, R82 to R84). -/

namespace Sys2Proof

/-- The rows of spec/opcode_table.json.

* CMD rows: the commands of the upper port (R72); `ep` is CMD bits 7:4, `v` is CMD bit 8, the word is ARG.
* SETUP rows: the setup requests the dispatcher tells apart (R87).  `dirIn` is `bmRequestType[7]`, `rcpt` is
  `bmRequestType[4:0]`, then `wValue`, `wIndex`, `wLength` (R75, R76).  FORWARD keeps the whole packet.
* SSR rows: the system events (R83); SPEED_DONE carries the HS level read with it.
* ESR rows: the endpoint events (R84), with the endpoint they were read from; TX_DONE and RX_READY carry the PSIF_TWO
  level read with them, which R107 uses. -/
inductive Instr where
  | task
  | bind (d : Word)
  | enable (ep : BitVec 4) (addr : Word)
  | disable (ep : BitVec 4)
  | queue (ep : BitVec 4) (h : Word)
  | dequeue (ep : BitVec 4) (h : Word)
  | setHalt (ep : BitVec 4) (v : Bool)
  | fifoFlush (ep : BitVec 4)
  | reservedCmd (cmd arg : Word)
  | getStatus (dirIn : Bool) (rcpt : BitVec 5) (wValue wIndex wLength : Half)
  | clearFeature (dirIn : Bool) (rcpt : BitVec 5) (wValue wIndex wLength : Half)
  | setFeature (dirIn : Bool) (rcpt : BitVec 5) (wValue wIndex wLength : Half)
  | setAddress (dirIn : Bool) (rcpt : BitVec 5) (wValue wIndex wLength : Half)
  | setConfiguration (wValue wIndex wLength : Half)
  | getDescriptor (dirIn : Bool) (rcpt : BitVec 5) (wValue wIndex wLength : Half)
  | forward (packet : BitVec 64)
  | vbusOn
  | reset
  | speedDone (hs : Bool)
  | suspend
  | resume
  | error
  | vbusOff
  | stallSent (ep : BitVec 4)
  | flushReq (ep : BitVec 4)
  | txDone (ep : BitVec 4) (psifTwo : Bool)
  | rxReady (ep : BitVec 4) (psifTwo : Bool)
deriving DecidableEq, Repr

end Sys2Proof
end

