-- ==== Sys2Proof/WellFormed.lean ====
section
/-! DEFINITION. Which instruction terms the encodings can spell: the operand conditions of spec/30_encoding.md R72, R73
and R87 that the types of the operands do not already carry. -/

namespace Sys2Proof

/-- The FORWARD row (mask 0) is reached only by a packet that no earlier SETUP row takes (R87): not a standard request
with code 0x00, 0x01, 0x03, 0x05 or 0x06, and not exactly `bmRequestType = 0x00`, `bRequest = 0x09`. -/
def isForwardPacket (packet : BitVec 64) : Bool :=
  let ty := packet.extractLsb' 5 2
  let req : Byte := packet.extractLsb' 8 8
  !(ty == 0#2 && (req == 0x00 || req == 0x01 || req == 0x03 || req == 0x05 || req == 0x06)) &&
  !(packet.extractLsb' 0 16 == 0x0900#16)

/-- BIND names a nonzero driver (R72); a reserved command has OPC 0x8 to 0xF (R73); FORWARD takes what no earlier row
takes (R87).  Every other constructor's operands are free at every value of their types. -/
def Instr.wf : Instr → Bool
  | .bind d => d != 0
  | .reservedCmd cmd _ => cmd.getLsbD 3
  | .forward packet => isForwardPacket packet
  | .task | .enable _ _ | .disable _ | .queue _ _ | .dequeue _ _ | .setHalt _ _ | .fifoFlush _ => true
  | .getStatus .. | .clearFeature .. | .setFeature .. | .setAddress .. | .setConfiguration .. | .getDescriptor .. => true
  | .vbusOn | .reset | .speedDone _ | .suspend | .resume | .error | .vbusOff => true
  | .stallSent _ | .flushReq _ | .txDone _ _ | .rxReady _ _ => true

end Sys2Proof
end

