-- ==== Sys2Proof/Decode.lean ====
section
/-! DEFINITION. The decoder and the encoder of the four formats of spec/opcode_table.json: the command port (CMD), the
setup packet (SETUP) and the two status words (SSR, ESR), from spec/30_encoding.md. -/

namespace Sys2Proof

/-- What the core decodes, as it arrives: a command triple's word and argument (R70), the 8 bytes of a setup packet as
one 64-bit value with byte 0 in bits 7:0 (R75), a system status word, or the status word of an endpoint (R82). -/
inductive Fetched where
  | command (cmd arg : Word)
  | setup (packet : BitVec 64)
  | systemStatus (ssr : Word)
  | endpointStatus (ep : BitVec 4) (esr : Word)
deriving DecidableEq, Repr

/-- Why the decoder gives no instruction: the command word is reserved or ill-formed (R73), or the status word shows
no event (R82). -/
inductive Reject where
  | reservedCommand
  | noEvent
deriving DecidableEq, Repr

/-- The word with one bit set when `b` holds. -/
def bitAt (k : Nat) (b : Bool) : Word := if b then 1#32 <<< k else 0

/-! ### The command port -/

/-- OPC = CMD[3:0] (R71). -/
def cmdOpc (cmd : Word) : BitVec 4 := cmd.extractLsb' 0 4

/-- EP = CMD[7:4] (R71). -/
def cmdEp (cmd : Word) : BitVec 4 := cmd.extractLsb' 4 4

/-- V = CMD[8] (R71). -/
def cmdV (cmd : Word) : Bool := cmd.getLsbD 8

/-- RSV = CMD[31:9] (R71). -/
def cmdRsv (cmd : Word) : BitVec 23 := cmd.extractLsb' 9 23

/-- A command word and its argument, decoded as R72 and R73 say.  OPC 0x8 to 0xF is the row RESERVED_CMD; every other
ill-formed word is rejected by name.  BIND with ARG = 0 decodes to BIND, whose own rule refuses it (R117). -/
def decodeCmd (cmd arg : Word) : Except Reject Instr :=
  if cmd.getLsbD 3 then .ok (.reservedCmd cmd arg)
  else if cmdRsv cmd != 0 then .error .reservedCommand
  else if cmdOpc cmd == 6#4 then
    if arg == 0 then .ok (.setHalt (cmdEp cmd) (cmdV cmd)) else .error .reservedCommand
  else if cmdV cmd then .error .reservedCommand
  else if cmdOpc cmd == 0#4 then
    if cmdEp cmd == 0 && arg == 0 then .ok .task else .error .reservedCommand
  else if cmdOpc cmd == 1#4 then
    if cmdEp cmd == 0 then .ok (.bind arg) else .error .reservedCommand
  else if cmdOpc cmd == 2#4 then .ok (.enable (cmdEp cmd) arg)
  else if cmdOpc cmd == 3#4 then
    if arg == 0 then .ok (.disable (cmdEp cmd)) else .error .reservedCommand
  else if cmdOpc cmd == 4#4 then .ok (.queue (cmdEp cmd) arg)
  else if cmdOpc cmd == 5#4 then .ok (.dequeue (cmdEp cmd) arg)
  else
    if arg == 0 then .ok (.fifoFlush (cmdEp cmd)) else .error .reservedCommand

/-! ### The setup packet -/

/-- `bmRequestType = S[7:0]` (R75). -/
def setupRequestType (S : BitVec 64) : Byte := S.extractLsb' 0 8

/-- `bRequest = S[15:8]` (R75). -/
def setupRequest (S : BitVec 64) : Byte := S.extractLsb' 8 8

/-- `wValue = S[31:16]` (R75). -/
def setupValue (S : BitVec 64) : Half := S.extractLsb' 16 16

/-- `wIndex = S[47:32]` (R75). -/
def setupIndex (S : BitVec 64) : Half := S.extractLsb' 32 16

/-- `wLength = S[63:48]` (R75). -/
def setupLength (S : BitVec 64) : Half := S.extractLsb' 48 16

/-- `bmRequestType[7]`: 1 is IN (R76). -/
def setupDirIn (S : BitVec 64) : Bool := S.getLsbD 7

/-- `bmRequestType[6:5]`: 0 is standard (R76). -/
def setupType (S : BitVec 64) : BitVec 2 := S.extractLsb' 5 2

/-- `bmRequestType[4:0]`: the recipient (R76). -/
def setupRecipient (S : BitVec 64) : BitVec 5 := S.extractLsb' 0 5

/-- `{byte 7, …, byte 0}`: the eight bytes of a packet, byte 0 in bits 7:0 (R54, R75). -/
def setupOfBytes (b : List Byte) : BitVec 64 :=
  b.getD 7 0 ++ b.getD 6 0 ++ b.getD 5 0 ++ b.getD 4 0 ++ b.getD 3 0 ++ b.getD 2 0 ++ b.getD 1 0 ++ b.getD 0 0

/-- The eight bytes of a setup packet in wire order (R54, R75). -/
def setupBytes (S : BitVec 64) : List Byte :=
  [S.extractLsb' 0 8, S.extractLsb' 8 8, S.extractLsb' 16 8, S.extractLsb' 24 8,
   S.extractLsb' 32 8, S.extractLsb' 40 8, S.extractLsb' 48 8, S.extractLsb' 56 8]

/-- A SETUP row takes a packet when `S[15:0] & mask = match` (R87). -/
def setupRowTakes (matchBits mask : Half) (S : BitVec 64) : Bool :=
  S.extractLsb' 0 16 &&& mask == matchBits

/-- A setup packet decoded by the SETUP rows of the table in table order; the last row takes everything (R87, R90). -/
def decodeSetup (S : BitVec 64) : Instr :=
  let d := setupDirIn S; let r := setupRecipient S
  let v := setupValue S; let x := setupIndex S; let l := setupLength S
  if setupRowTakes 0x0000 0xFF60 S then .getStatus d r v x l
  else if setupRowTakes 0x0100 0xFF60 S then .clearFeature d r v x l
  else if setupRowTakes 0x0300 0xFF60 S then .setFeature d r v x l
  else if setupRowTakes 0x0500 0xFF60 S then .setAddress d r v x l
  else if setupRowTakes 0x0900 0xFFFF S then .setConfiguration v x l
  else if setupRowTakes 0x0600 0xFF60 S then .getDescriptor d r v x l
  else .forward S

/-- The packet of a request from its fields: `{wLength, wIndex, wValue, bRequest, bmRequestType}` (R75). -/
def setupWord (requestType request : Byte) (v x l : Half) : BitVec 64 :=
  l ++ x ++ v ++ request ++ requestType

/-- `bmRequestType` of a standard request (type 0) from its direction and recipient (R76). -/
def standardType (dirIn : Bool) (rcpt : BitVec 5) : Byte :=
  BitVec.ofBool dirIn ++ 0#2 ++ rcpt

/-! ### The status words -/

/-- The pending mask of the system status word: every bit but the HS level (R83). -/
def ssrPendingMask : Word := 0xEF

/-- The events a system status word shows, in the order R153 handles them: VBUS_ON, RESET, SPEED_DONE (with the HS
level, bit 4), SUSPEND, RESUME, ERROR, VBUS_OFF. -/
def decodeSsr (ssr : Word) : List Instr :=
  (if ssr.getLsbD 0 then [.vbusOn] else []) ++ (if ssr.getLsbD 2 then [.reset] else []) ++
  (if ssr.getLsbD 3 then [.speedDone (ssr.getLsbD 4)] else []) ++ (if ssr.getLsbD 5 then [.suspend] else []) ++
  (if ssr.getLsbD 6 then [.resume] else []) ++ (if ssr.getLsbD 7 then [.error] else []) ++
  (if ssr.getLsbD 1 then [.vbusOff] else [])

/-- The events an endpoint status word makes its handler act on, in the handler's order.  Endpoint 0 (R131):
STALL_SENT alone, or FLUSH_REQ, TX_DONE, RX_READY.  A data IN endpoint (R155): STALL_SENT alone, or TX_DONE.  A data
OUT endpoint (R156): STALL_SENT alone, or FLUSH_REQ alone, or RX_READY.  An event of the wrong direction is there to be
acknowledged when it is W1C (D65): FLUSH_REQ of an IN endpoint, TX_DONE of an OUT endpoint, in endpoint 0's order
(DESIGN CHOICE, assumption 30). -/
def decodeEsr (ep : BitVec 4) (dir : Dir) (esr : Word) : List Instr :=
  if esr.getLsbD 4 then [.stallSent ep]
  else
    let flush := if esr.getLsbD 5 then [.flushReq ep] else []
    let tx := if esr.getLsbD 1 then [.txDone ep (esr.getLsbD 3)] else []
    let rx := if esr.getLsbD 0 then [.rxReady ep (esr.getLsbD 3)] else []
    if ep == 0 then flush ++ tx ++ rx
    else match dir with
      | .IN => flush ++ tx
      | .OUT => if esr.getLsbD 5 then flush else tx ++ rx

/-- The first event a status word shows, as an instruction. -/
def firstEvent : List Instr → Except Reject Instr
  | [] => .error .noEvent
  | i :: _ => .ok i

/-- The decoder, total on everything the core can fetch.  The endpoint status word is read here without the endpoint's
direction, as endpoint 0 reads it; `decodeEsr` is what the pump uses. -/
def decode : Fetched → Except Reject Instr
  | .command cmd arg => decodeCmd cmd arg
  | .setup S => .ok (decodeSetup S)
  | .systemStatus ssr => firstEvent (decodeSsr ssr)
  | .endpointStatus ep esr =>
      if esr.getLsbD 4 then .ok (.stallSent ep)
      else if esr.getLsbD 5 then .ok (.flushReq ep)
      else if esr.getLsbD 1 then .ok (.txDone ep (esr.getLsbD 3))
      else if esr.getLsbD 0 then .ok (.rxReady ep (esr.getLsbD 3))
      else .error .noEvent

/-! ### The encoder -/

/-- CMD = OPC | EP << 4 | V << 8 (R71). -/
def cmdWord (opc ep : BitVec 4) (v : Bool) : Word :=
  0#23 ++ BitVec.ofBool v ++ ep ++ opc

/-- The words of an instruction, from the same tables: R71 and R72 for commands, R75 and R78 for setup requests, the
event bits of R83 and R84 for events. -/
def encode : Instr → Fetched
  | .task => .command (cmdWord 0 0 false) 0
  | .bind d => .command (cmdWord 1 0 false) d
  | .enable ep addr => .command (cmdWord 2 ep false) addr
  | .disable ep => .command (cmdWord 3 ep false) 0
  | .queue ep h => .command (cmdWord 4 ep false) h
  | .dequeue ep h => .command (cmdWord 5 ep false) h
  | .setHalt ep v => .command (cmdWord 6 ep v) 0
  | .fifoFlush ep => .command (cmdWord 7 ep false) 0
  | .reservedCmd cmd arg => .command cmd arg
  | .getStatus d r v x l => .setup (setupWord (standardType d r) 0x00 v x l)
  | .clearFeature d r v x l => .setup (setupWord (standardType d r) 0x01 v x l)
  | .setFeature d r v x l => .setup (setupWord (standardType d r) 0x03 v x l)
  | .setAddress d r v x l => .setup (setupWord (standardType d r) 0x05 v x l)
  | .setConfiguration v x l => .setup (setupWord 0x00 0x09 v x l)
  | .getDescriptor d r v x l => .setup (setupWord (standardType d r) 0x06 v x l)
  | .forward S => .setup S
  | .vbusOn => .systemStatus (bitAt 0 true)
  | .vbusOff => .systemStatus (bitAt 1 true)
  | .reset => .systemStatus (bitAt 2 true)
  | .speedDone hs => .systemStatus (bitAt 3 true ||| bitAt 4 hs)
  | .suspend => .systemStatus (bitAt 5 true)
  | .resume => .systemStatus (bitAt 6 true)
  | .error => .systemStatus (bitAt 7 true)
  | .stallSent ep => .endpointStatus ep (bitAt 4 true)
  | .flushReq ep => .endpointStatus ep (bitAt 5 true)
  | .txDone ep p => .endpointStatus ep (bitAt 1 true ||| bitAt 3 p)
  | .rxReady ep p => .endpointStatus ep (bitAt 0 true ||| bitAt 3 p)

/-- The setup packet of a SETUP row's instruction, and 0 for any other (`decodeSetup` gives only SETUP rows). -/
def setupPacketOf (i : Instr) : BitVec 64 :=
  match encode i with
  | .setup S => S
  | _ => 0

/-! ### The opcode table's own words -/

/-- The words of a table row, by the width the table gives its format: 32 bits a command word (its argument above it,
so that 64 bits are the whole triple), 16 bits `S[15:0]` of a setup packet, 8 bits a status word.  The table's SSR and
ESR rows share the values 0x01, 0x02 and 0x20; an 8-bit word is read as a system status word first, and as a status
word of endpoint 0 when it shows no system event (assumption 14). -/
def fetchedOfTableWord (nbits w : Nat) : Option Fetched :=
  if nbits = 32 ∨ nbits = 64 then some (.command (BitVec.ofNat 32 w) (BitVec.ofNat 32 (w / 2 ^ 32)))
  else if nbits = 16 then some (.setup (BitVec.ofNat 64 w))
  else if nbits = 8 then
    if decodeSsr (BitVec.ofNat 32 w) = [] then some (.endpointStatus 0 (BitVec.ofNat 32 w))
    else some (.systemStatus (BitVec.ofNat 32 w))
  else none

/-- The instruction the decoder reads from a row's word. -/
def decodeTableWord (nbits w : Nat) : Option Instr :=
  match fetchedOfTableWord nbits w with
  | none => none
  | some f =>
    match decode f with
    | .ok i => some i
    | .error _ => none

end Sys2Proof
end

