-- ==== Sys2Proof/Machine/State.lean ====
section
/-! DEFINITION. The state of the machine (spec/10_state.md, the SIE's hidden state of spec/45_bus_environment.md R164,
and the environment's inputs as plain data), the reasons a step can stop, and the state after controller
initialization (spec/70_reset_and_hazards.md R207, R208). -/

namespace Sys2Proof.Machine

/-! ### The Device record (R17 to R23) -/

/-- `dev.state` (R17), in the order of R118. -/
inductive DevState where
  | notAttached
  | attached
  | default
  | address
  | configured
deriving DecidableEq, Repr

/-- `dev.speed` (R18). -/
inductive Speed where
  | unknown
  | full
  | high
deriving DecidableEq, Repr

/-- `dev.ctl`, the control sub-state of endpoint 0 (R20). -/
inductive Ctl where
  | waitForSetup
  | xmit
  | recv
deriving DecidableEq, Repr

/-- The Device record, `dev`. -/
structure Device where
  state       : DevState
  speed       : Speed
  /-- the selected configuration, 0 = unconfigured (R19) -/
  config      : Byte
  /-- the function address SET_ADDRESS recorded (R21) -/
  address     : BitVec 7
  ctl         : Ctl
  /-- the bound class driver, or NONE (R22) -/
  driver      : Option Word
  /-- the number of active upcalls (R23) -/
  upcallDepth : Nat
deriving DecidableEq, Repr

/-! ### Requests and endpoints (R26 to R37) -/

/-- The status codes of R85; models compare them by name. -/
inductive Status where
  | ok
  | invalidArgument
  | rangeError
  | shutdownError
  | tryAgainError
  | protocolError
  | connectionReset
  | connectionAborted
  | overflowError
  | inProgress
deriving DecidableEq, Repr

/-- A request's name: a handle of the request table, or the core's own `STATUS_REQ`, which no command argument can
name (R37). -/
inductive Handle where
  | user (h : Word)
  | statusReq
deriving DecidableEq, Repr

/-- A request's buffer: NONE, a byte address of system memory (R33), or the core's own two bytes (R37). -/
inductive Buffer where
  | none
  | sysMem (addr : Word)
  | coreBytes
deriving DecidableEq, Repr

/-- A request record (R33).  `length` and `actual` are exact counts (R182).  The last two fields are the model's own. -/
structure Request where
  buf      : Buffer
  length   : Nat
  actual   : Nat
  zero     : Bool
  callback : Option Nat
  status   : Status
  /-- the endpoint whose queue holds the request, or NONE -/
  queuedOn : Option Nat
  /-- how many times QUEUE has accepted the request: whether it has been queued again since a nuke began (R95,
  assumption 20) -/
  queuings : Nat
deriving DecidableEq, Repr

/-- What an endpoint record stores (R26).  Its type is CONTROL for endpoint 0 and BULK otherwise, its direction is
derived for endpoint 0 (R27) and is `EP_DIR[i]` for a data endpoint (R28): see `State.epType` and `State.epDir`. -/
structure Endpoint where
  mps     : BitVec 11
  enabled : Bool
  halted  : Bool
  queue   : List Handle
deriving DecidableEq, Repr

/-! ### The SIE: the lower-port registers and the hidden state behind them (R38 to R47, R164) -/

/-- A received packet staged in a FIFO, with the end-of-transfer flag endpoint 0 uses (R164). -/
structure RxPacket where
  bytes : List Byte
  eot   : Bool
deriving DecidableEq, Repr

/-- The IN packet being written: its count and the bytes written so far (R164). -/
structure TxPartial where
  count : BitVec 11
  bytes : List Byte
deriving DecidableEq, Repr

/-- The SIE's state of one endpoint (R164). -/
structure SieEndpoint where
  /-- `ECR[i].STALL` -/
  stall     : Bool
  /-- `ECR[i].DIR_IN` -/
  dirIn     : Bool
  /-- `MPS[i]` -/
  mps       : BitVec 11
  /-- `ESR[i].TX_DONE` -/
  txDone    : Bool
  /-- `ESR[i].STALL_SENT` -/
  stallSent : Bool
  /-- `ESR[i].FLUSH_REQ` -/
  flushReq  : Bool
  eirLatch  : Bool
  rxQueue   : List RxPacket
  rxPos     : Nat
  txQueue   : List (List Byte)
  txCur     : Option TxPartial
deriving DecidableEq, Repr

/-- The address of a SET_ADDRESS setup the SIE has accepted, and how many packets it has staged on endpoint 0 since, which
stand behind the setup packet (R176, assumption 8). -/
structure PendingAddress where
  address : BitVec 7
  behind  : Nat
deriving DecidableEq, Repr

/-- The SIE's state (R164), one record of `eps` per endpoint. -/
structure Sie where
  vbus           : Bool
  connected      : Bool
  hs             : Bool
  sieAddress     : BitVec 7
  /-- the address of a SET_ADDRESS setup whose status stage is not done (R176) -/
  pendingAddress : Option PendingAddress
  /-- the event bits of `SSR`; bit 4 (HS) is not stored here but computed from `hs` (R165) -/
  ssr            : Byte
  eier           : Word
  eps            : List SieEndpoint
deriving DecidableEq, Repr

/-! ### System memory (R51) -/

/-- System memory: the bytes that differ from what an unlisted address reads as, addresses strictly rising
(`Memory.wf` in Machine/Ops.lean). -/
abbrev Memory := List Host.Cell

/-! ### The agents around the core (R161, R170, R177 to R180) -/

/-- The SIE and host moves of R170. -/
inductive Move where
  | vbusOn
  | vbusOff
  | reset
  | speedDone (hs : Bool)
  | suspend
  | resume
  | error
  | flushReq (ep : BitVec 4)
  | setup (packet : BitVec 64)
  | out (ep : BitVec 4) (bytes : List Byte) (eot : Bool)
  | inToken (ep : BitVec 4)
deriving DecidableEq, Repr

/-- One top-level step of a run (R162): a command on the upper port, a move of the SIE or host, or a class-driver
write. -/
inductive Input where
  | command (cmd arg : Word)
  | move (m : Move)
  | write (w : DriverWrite)
deriving DecidableEq, Repr

/-- The upcalls of R178; the `dev` argument is the state itself. -/
inductive Upcall where
  | init
  | setup (packet : BitVec 64)
  | vbusOn
  | vbusOff
  | complete (callback : Nat) (h : Handle)
deriving DecidableEq, Repr

/-- What the host got from an `~IN` move (R174); nothing for the other moves. -/
inductive HostReply where
  | nothing
  | packet (bytes : List Byte)
  | stall
deriving DecidableEq, Repr

/-- What a run shows, in the order it happens (R181): command results (nested ones between their upcall's two entries),
upcalls with their arguments and returns, and the host's moves with what each delivered. -/
inductive TraceEntry where
  | result (status : Status)
  | upcall (u : Upcall)
  | upcallReturn (ret : Option Word)
  | busMove (m : Move) (reply : HostReply)
deriving DecidableEq, Repr

/-! ### The whole state -/

/-- The machine state: the configuration it is built with, the core's own state (R15), the SIE's state, system memory,
the RESULT port (R70), and the environment's inputs and the run's trace as plain data. -/
structure State where
  /-- the parameters of R8; no step writes it -/
  cfg          : Config
  dev          : Device
  /-- `ep[0..N-1]` -/
  eps          : List Endpoint
  /-- the request table: each handle with its record -/
  reqs         : List (Word × Request)
  /-- `req[STATUS_REQ]` (R37) -/
  statusReq    : Request
  /-- `core_status_bytes`: byte 0 and byte 1 (R37, R143) -/
  statusBytes  : Byte × Byte
  sie          : Sie
  mem          : Memory
  /-- RESULT of the last command (R70) -/
  result       : Status
  /-- the top-level steps still to come (R162) -/
  inputs       : List Input
  /-- the class driver's answers to the upcalls still to come: what is left of `CLASS_DRIVER` (R180) -/
  driverScript : List DriverResponse
  /-- the moves the SIE makes before each of the next register accesses of the core (R60, R162) -/
  betweenMoves : List (List Move)
  /-- the model's own counter: how many free values have been drawn -/
  freeCount    : Nat
  trace        : List TraceEntry
deriving DecidableEq, Repr

/-! ### How a step can stop -/

/-- The machine stops: the ModelFaults of R12.  Each records the command whose rule met it (R198; `none` for a
class-driver write, which is no command).  Safe: the spec itself ends the run there. -/
inductive Fault where
  /-- A system-memory access at or above `MEM_SIZE` (R12, R198), raised by the memory operations; it records the address. -/
  | modelFault (command : Option Instr) (address : Nat)
  /-- A read of a request's fields before its record exists (R12), raised where a rule takes a request off a queue. -/
  | noRecord (command : Option Instr) (h : Handle)
  /-- `length - actual` of a request would be negative, or its length more than 32 bits (R9, R12, R182), raised where a
  rule serves a request. -/
  | outOfWidth (command : Option Instr) (h : Handle)
deriving DecidableEq, Repr

/-- The command or action has no meaning. -/
inductive Refusal where
  /-- An instruction of the table without a meaning yet, by its mnemonic; raised by no arm of this model.  Safe. -/
  | notModelled (mnemonic : String)
  /-- A command word that spells no command, or BIND 0 (R73, R117); raised by the decoder's caller, RESERVED_CMD and
  BIND.  Safe: the spec refuses it. -/
  | reservedCommand
  /-- QUEUE or DEQUEUE of a handle without a record (R73), or a class-driver write to one.  Safe: the spec refuses it. -/
  | unknownHandle
  /-- TASK or BIND inside an upcall (R197).  Safe: the spec refuses it. -/
  | reentrantTask
  /-- A class-driver write to a queued request's record or buffer (R179, R197).  Safe: the spec refuses it. -/
  | ownershipViolation
deriving DecidableEq, Repr

/-! ### Controller initialization's state (R32, R207, R208) -/

/-- A record of `REQ_TABLE` at launch: the class driver's fields, `actual` 0, status OK, not queued (R36, R208). -/
def Request.launch (r : RequestInit) : Request where
  buf      := match r.buf with
    | some a => .sysMem a
    | none => .none
  length   := r.length.toNat
  actual   := 0
  zero     := r.zero
  callback := r.callback
  status   := .ok
  queuedOn := none
  queuings := 0

/-- `req[STATUS_REQ]` at launch (R208). -/
def Request.statusLaunch : Request where
  buf      := .coreBytes
  length   := 0
  actual   := 0
  zero     := false
  callback := none
  status   := .ok
  queuedOn := none
  queuings := 0

/-- The SIE's state of an endpoint at launch, as R164 and R208 take it, with the MPS that CTRL_INIT wrote. -/
def SieEndpoint.launch (mps : BitVec 11) : SieEndpoint where
  stall     := false
  dirIn     := false
  mps       := mps
  txDone    := false
  stallSent := false
  flushReq  := false
  eirLatch  := false
  rxQueue   := []
  rxPos     := 0
  txQueue   := []
  txCur     := none

/-- The state CTRL_INIT leaves (R32, R208), for any configuration: no cable, no event, empty FIFOs (assumption 5), no
listed memory (assumption 6), no input, every answer of `CLASS_DRIVER` still to come, no move between accesses. -/
def State.resetWith (c : Config) : State where
  cfg := c
  dev :=
    { state := .notAttached, speed := .unknown, config := 0, address := 0, ctl := .waitForSetup,
      driver := none, upcallDepth := 0 }
  eps := ⟨c.ep0MpsFs, true, false, []⟩ :: List.replicate (c.numEndpoints - 1) ⟨c.bulkMpsFs, false, true, []⟩
  reqs := c.reqTable.map fun (h, r) => (h, Request.launch r)
  statusReq := Request.statusLaunch
  statusBytes := (0, 0)
  sie :=
    { vbus := false, connected := false, hs := false, sieAddress := 0, pendingAddress := none, ssr := 0, eier := 1,
      eps := SieEndpoint.launch c.ep0MpsFs ::
        List.replicate (c.numEndpoints - 1) (SieEndpoint.launch c.bulkMpsFs) }
  mem := []
  result := .ok
  inputs := []
  driverScript := c.classDriver
  betweenMoves := []
  freeCount := 0
  trace := []

/-- The machine right after controller initialization, in the test configuration of R8. -/
def State.reset : State := State.resetWith Config.test

end Sys2Proof.Machine
end

