-- ==== Sys2Proof/Machine/Flags.lean ====
section
/-! DEFINITION. The flag bits of the status and control registers by name (spec/10_state.md R39, R42, R43), and the
encodings of the core's own enumerated fields (R17, R18, R20) and status codes (spec/30_encoding.md R85).  The core has
no arithmetic condition codes (R49). -/

namespace Sys2Proof.Machine

/-! ### Bits of `ESR[i]` (R42) -/

def esrRxReady (esr : Word) : Bool := esr.getLsbD 0
def esrTxDone (esr : Word) : Bool := esr.getLsbD 1
def esrLwo (esr : Word) : Bool := esr.getLsbD 2
def esrPsifTwo (esr : Word) : Bool := esr.getLsbD 3
def esrStallSent (esr : Word) : Bool := esr.getLsbD 4
def esrFlushReq (esr : Word) : Bool := esr.getLsbD 5
def esrCtlEot (esr : Word) : Bool := esr.getLsbD 6
def esrTxSpace (esr : Word) : Bool := esr.getLsbD 7

/-! ### Bits of `ECR[i]` (R43) -/

def ecrStall (ecr : Word) : Bool := ecr.getLsbD 0
def ecrFlush (ecr : Word) : Bool := ecr.getLsbD 1
def ecrDirIn (ecr : Word) : Bool := ecr.getLsbD 2

/-- Bits 10:0 of a register value: the field of `MPS[i]`, `TX_BCNT[i]` and `RX_WCNT[i]` (R44 to R46). -/
def low11 (v : Word) : BitVec 11 := v.extractLsb' 0 11

/-! ### Encodings of the enumerated fields -/

/-- The 3-bit encoding of `dev.state` (R17). -/
def DevState.code : DevState → BitVec 3
  | .notAttached => 0
  | .attached => 1
  | .default => 2
  | .address => 3
  | .configured => 4

/-- `dev.state < ADDRESS` in the order of R17. -/
def DevState.belowAddress (d : DevState) : Bool := d.code.ult DevState.address.code

/-- The 2-bit encoding of `dev.speed` (R18). -/
def Speed.code : Speed → BitVec 2
  | .unknown => 0
  | .full => 1
  | .high => 2

/-- The 2-bit encoding of `dev.ctl` (R20). -/
def Ctl.code : Ctl → BitVec 2
  | .waitForSetup => 0
  | .xmit => 1
  | .recv => 2

/-- The numeric status codes of R85, as signed 32-bit words. -/
def Status.code : Status → Word
  | .ok => 0
  | .invalidArgument => BitVec.ofInt 32 (-22)
  | .rangeError => BitVec.ofInt 32 (-34)
  | .shutdownError => BitVec.ofInt 32 (-108)
  | .tryAgainError => BitVec.ofInt 32 (-11)
  | .protocolError => BitVec.ofInt 32 (-71)
  | .connectionReset => BitVec.ofInt 32 (-104)
  | .connectionAborted => BitVec.ofInt 32 (-103)
  | .overflowError => BitVec.ofInt 32 (-75)
  | .inProgress => BitVec.ofInt 32 (-115)

/-- `ret < 0`, compared as signed (R182). -/
def isNegative (ret : Word) : Bool := ret.msb

/-- The result -1 with which the core itself answers a setup it will not forward (R142, R146). -/
def minusOne : Word := BitVec.ofInt 32 (-1)

end Sys2Proof.Machine
end

