-- ==== Sys2Proof/Machine/Sie.lean ====
section
/-! DEFINITION. The SIE below the lower port: what its registers read as and how it takes writes
(spec/10_state.md R39 to R47, spec/45_bus_environment.md R165 to R169), and the moves of the SIE and the host
(R170 to R176). -/

namespace Sys2Proof.Machine

/-- The lower-port registers; the per-endpoint ones carry the endpoint's index (R38). -/
inductive Reg where
  | ssr
  | eir
  | eier
  | esr (i : Nat)
  | ecr (i : Nat)
  | mps (i : Nat)
  | txBcnt (i : Nat)
  | rxWcnt (i : Nat)
  | fifo (i : Nat)
deriving DecidableEq, Repr

/-- What the access functions give for an endpoint that does not exist: a record with nothing set (every caller checks
the index first). -/
def SieEndpoint.absent : SieEndpoint := SieEndpoint.launch 0

/-- The SIE's record of endpoint i. -/
def Sie.ep (x : Sie) (i : Nat) : SieEndpoint := x.eps.getD i SieEndpoint.absent

/-- Replace the SIE's record of endpoint i by `f` of it; an index outside the list changes nothing. -/
def Sie.setEp (x : Sie) (i : Nat) (f : SieEndpoint → SieEndpoint) : Sie := { x with eps := x.eps.modify i f }

/-- `ceil_half(n)`: the number of 16-bit words that hold n bytes (R10). -/
def ceilHalf (n : Nat) : Nat := (n + 1) / 2

/-! ### The levels (R165) -/

def SieEndpoint.rxReady (e : SieEndpoint) : Bool := !e.rxQueue.isEmpty

/-- The byte count of the head staged packet, 0 with none staged. -/
def SieEndpoint.headLength (e : SieEndpoint) : Nat :=
  match e.rxQueue with
  | [] => 0
  | p :: _ => p.bytes.length

def SieEndpoint.lwo (e : SieEndpoint) : Bool := e.rxReady && e.headLength % 2 == 1

def SieEndpoint.headEot (e : SieEndpoint) : Bool :=
  match e.rxQueue with
  | [] => false
  | p :: _ => p.eot

/-- 1 while an IN packet is being written. -/
def SieEndpoint.partialCount (e : SieEndpoint) : Nat := if e.txCur.isSome then 1 else 0

def SieEndpoint.psifTwo (fifoPkts : Nat) (e : SieEndpoint) : Bool :=
  if e.dirIn then decide (2 ≤ fifoPkts - e.txQueue.length - e.partialCount)
  else decide (2 ≤ e.rxQueue.length)

def SieEndpoint.txSpace (fifoPkts : Nat) (e : SieEndpoint) : Bool :=
  decide (e.txQueue.length < fifoPkts) && e.txCur.isNone

def SieEndpoint.rxWordCount (e : SieEndpoint) : Nat :=
  if e.rxReady then ceilHalf e.headLength - e.rxPos / 2 else 0

/-! ### What the registers read as -/

/-- `ESR[i]` (R42, R165); CTL_EOT is endpoint 0's only. -/
def SieEndpoint.esrWord (fifoPkts i : Nat) (e : SieEndpoint) : Word :=
  bitAt 0 e.rxReady ||| bitAt 1 e.txDone ||| bitAt 2 e.lwo ||| bitAt 3 (e.psifTwo fifoPkts) |||
  bitAt 4 e.stallSent ||| bitAt 5 e.flushReq ||| bitAt 6 (decide (i = 0) && e.headEot) ||| bitAt 7 (e.txSpace fifoPkts)

/-- `ECR[i]`: FLUSH reads 0 (R43). -/
def SieEndpoint.ecrWord (e : SieEndpoint) : Word := bitAt 0 e.stall ||| bitAt 2 e.dirIn

/-- `SSR`: the stored event bits and the HS level (R39, R165). -/
def Sie.ssrWord (x : Sie) : Word := (x.ssr.zeroExtend 32 &&& ssrPendingMask) ||| bitAt 4 x.hs

/-- `EIR` bit i: the latch ORed with RX_READY (R40, R166). -/
def SieEndpoint.eirBit (e : SieEndpoint) : Bool := e.eirLatch || e.rxReady

/-- The word with bit `k + j` set where entry j of the list is true. -/
def wordOfBits : Nat → List Bool → Word
  | _, [] => 0
  | k, b :: bs => bitAt k b ||| wordOfBits (k + 1) bs

/-- `EIR`: one bit per endpoint, the bits from N on read 0 (R40). -/
def Sie.eirWord (x : Sie) : Word := wordOfBits 0 (x.eps.map SieEndpoint.eirBit)

/-- Bits 0 to N-1. -/
def epMask (n : Nat) : Word := BitVec.ofNat 32 (2 ^ n - 1)

/-! ### Reads of the data port and the word count (R169) -/

/-- One word of packet bytes from offset `pos`: a byte past the end reads 0x00. -/
def packetWord (bytes : List Byte) (pos : Nat) : Half := bytes.getD (pos + 1) 0 ++ bytes.getD pos 0

/-- A read of `FIFO[i]`: the next word, which is consumed; the last word consumed pops the packet. -/
def SieEndpoint.readFifo (e : SieEndpoint) : Half × SieEndpoint :=
  match e.rxQueue with
  | [] => (0, e)
  | p :: rest =>
    (packetWord p.bytes e.rxPos,
      if p.bytes.length ≤ e.rxPos + 2 then { e with rxQueue := rest, rxPos := 0 } else { e with rxPos := e.rxPos + 2 })

/-- A read of `RX_WCNT[i]`: a head packet of length 0 is popped by it. -/
def SieEndpoint.readWordCount (e : SieEndpoint) : Nat × SieEndpoint :=
  match e.rxQueue with
  | [] => (0, e)
  | p :: rest =>
    if p.bytes.length = 0 then (0, { e with rxQueue := rest, rxPos := 0 }) else (e.rxWordCount, e)

/-- One read access of a register: its value and the SIE after it (R61, R169).  TX_BCNT is write-only and reads 0. -/
def Sie.read (cfg : Config) (x : Sie) : Reg → Word × Sie
  | .ssr => (x.ssrWord, x)
  | .eir => (x.eirWord, x)
  | .eier => (x.eier, x)
  | .esr i => ((x.ep i).esrWord cfg.fifoPkts i, x)
  | .ecr i => ((x.ep i).ecrWord, x)
  | .mps i => ((x.ep i).mps.zeroExtend 32, x)
  | .txBcnt _ => (0, x)
  | .rxWcnt i =>
    (BitVec.ofNat 32 ((x.ep i).readWordCount.1 % 2 ^ 11), x.setEp i fun e => e.readWordCount.2)
  | .fifo i => ((x.ep i).readFifo.1.zeroExtend 32, x.setEp i fun e => e.readFifo.2)

/-! ### Writes (R167, R168) -/

/-- Commit an IN packet: staged when a slot is free, discarded otherwise (R168). -/
def SieEndpoint.commit (fifoPkts : Nat) (bytes : List Byte) (e : SieEndpoint) : SieEndpoint :=
  { e with
    txQueue := if e.txQueue.length < fifoPkts then e.txQueue ++ [bytes] else e.txQueue
    txCur := none }

/-- `TX_BCNT[i] <- n`: begin a packet; 0 commits a zero-length packet at once (R167). -/
def SieEndpoint.writeByteCount (fifoPkts : Nat) (v : Word) (e : SieEndpoint) : SieEndpoint :=
  if low11 v = 0 then e.commit fifoPkts [] else { e with txCur := some ⟨low11 v, []⟩ }

/-- `FIFO[i] <- w`: append a word to the packet being written, committing it when its count is reached; ignored when
none is being written (R167). -/
def SieEndpoint.writeFifo (fifoPkts : Nat) (w : Half) (e : SieEndpoint) : SieEndpoint :=
  match e.txCur with
  | none => e
  | some p =>
    let b1 := p.bytes ++ [w.extractLsb' 0 8]
    let b := if b1.length < p.count.toNat then b1 ++ [w.extractLsb' 8 8] else b1
    if b.length = p.count.toNat then e.commit fifoPkts b else { e with txCur := some ⟨p.count, b⟩ }

/-- `ECR[i] <- v`: STALL and DIR_IN are stored, FLUSH discards the IN packets (R167). -/
def SieEndpoint.writeControl (v : Word) (e : SieEndpoint) : SieEndpoint :=
  { e with
    stall := ecrStall v
    dirIn := ecrDirIn v
    txQueue := if ecrFlush v then [] else e.txQueue
    txCur := if ecrFlush v then none else e.txCur }

/-- `ESR[i] <- v`: the W1C bits written 1 are cleared (R42, R62). -/
def SieEndpoint.clearEvents (v : Word) (e : SieEndpoint) : SieEndpoint :=
  { e with
    txDone := e.txDone && !esrTxDone v
    stallSent := e.stallSent && !esrStallSent v
    flushReq := e.flushReq && !esrFlushReq v }

/-- Whether the core has taken the setup packet of a SET_ADDRESS from the FIFO: what is left there came after it. -/
def Sie.setupRead (x : Sie) (p : PendingAddress) : Bool := decide ((x.ep 0).rxQueue.length ≤ p.behind)

/-- The pending address when the core stalls endpoint 0: none any more if it is that SET_ADDRESS transfer that is stalled,
its setup packet having been read (R147, R176). -/
def Sie.addressAfterStall (x : Sie) : Option PendingAddress :=
  match x.pendingAddress with
  | none => none
  | some p => if x.setupRead p then none else some p

/-- `EIR <- v` on the records from index k on: the latches written 1 are cleared (R166). -/
def clearLatches (v : Word) : Nat → List SieEndpoint → List SieEndpoint
  | _, [] => []
  | k, e :: es => { e with eirLatch := e.eirLatch && !v.getLsbD k } :: clearLatches v (k + 1) es

/-- One write access of a register (R62, R167).  RX_WCNT is read-only: a write is ignored.  A write that sets
`ECR[0].STALL` stalls the control transfer in progress (R147, R176). -/
def Sie.write (cfg : Config) (x : Sie) (r : Reg) (v : Word) : Sie :=
  match r with
  | .ssr => { x with ssr := x.ssr &&& ~~~(v.truncate 8) }
  | .eir => { x with eps := clearLatches v 0 x.eps }
  | .eier => { x with eier := (v &&& epMask cfg.numEndpoints) ||| 1 }
  | .esr i => x.setEp i (SieEndpoint.clearEvents v)
  | .ecr i =>
    { x.setEp i (SieEndpoint.writeControl v) with
      pendingAddress :=
        if i = 0 ∧ ecrStall v = true ∧ (x.ep 0).stall = false then x.addressAfterStall else x.pendingAddress }
  | .mps i => x.setEp i fun e => { e with mps := low11 v }
  | .txBcnt i => x.setEp i (SieEndpoint.writeByteCount cfg.fifoPkts v)
  | .rxWcnt _ => x
  | .fifo i => x.setEp i (SieEndpoint.writeFifo cfg.fifoPkts (v.truncate 16))

/-! ### The moves of the SIE and the host (R170 to R174) -/

/-- An emptied FIFO (R170). -/
def SieEndpoint.emptied (e : SieEndpoint) : SieEndpoint :=
  { e with rxQueue := [], rxPos := 0, txQueue := [], txCur := none }

/-- Stage a received packet, which raises the endpoint's interrupt (R166, R170). -/
def SieEndpoint.stage (p : RxPacket) (e : SieEndpoint) : SieEndpoint :=
  { e with rxQueue := e.rxQueue ++ [p], eirLatch := true }

/-- Set `SSR` event bit k. -/
def Sie.raise (x : Sie) (k : Nat) : Sie := { x with ssr := x.ssr ||| (1#8 <<< k) }

/-- Every FIFO emptied, and with them a setup whose status stage is not done. -/
def Sie.emptyFifos (x : Sie) : Sie :=
  { x with eps := x.eps.map SieEndpoint.emptied, pendingAddress := none }

/-- Whether the move can happen now: the precondition column of R170.  A host token that the SIE NAKs is a move that is
not enabled. -/
def Sie.moveEnabled (cfg : Config) (x : Sie) : Move → Bool
  | .vbusOn => !x.vbus
  | .vbusOff | .reset | .suspend | .resume | .error => x.vbus
  | .speedDone _ => x.vbus && !x.connected
  | .flushReq i => decide (1 ≤ i.toNat ∧ i.toNat < cfg.numEndpoints) && !(x.ep i.toNat).dirIn
  | .setup _ => x.connected && decide ((x.ep 0).rxQueue.length < cfg.fifoPkts)
  | .out i bytes _ =>
    decide (i.toNat < cfg.numEndpoints) && x.connected && !(x.ep i.toNat).dirIn &&
    decide (bytes.length ≤ (x.ep i.toNat).mps.toNat) &&
    ((x.ep i.toNat).stall || decide ((x.ep i.toNat).rxQueue.length < cfg.fifoPkts))
  | .inToken i =>
    decide (i.toNat < cfg.numEndpoints) && x.connected && ((x.ep i.toNat).dirIn || decide (i = 0)) &&
    ((x.ep i.toNat).stall || !(x.ep i.toNat).txQueue.isEmpty)

/-- What a SET_ADDRESS setup leaves the SIE to do: `bmRequestType = 0x00`, `bRequest = 0x05`, `wValue[6:0]` (R176). -/
def setAddressOf (packet : BitVec 64) : Option PendingAddress :=
  if packet.extractLsb' 0 16 = 0x0500#16 then some ⟨packet.extractLsb' 16 7, 0⟩ else none

/-- A packet is staged behind the setup packet of a pending SET_ADDRESS. -/
def PendingAddress.staged (p : PendingAddress) : PendingAddress := { p with behind := p.behind + 1 }

/-- The effect of a move that is enabled: the effect column of R170 (R171 to R174). -/
def Sie.moveEffect (x : Sie) : Move → Sie
  | .vbusOn => { x with vbus := true }.raise 0
  | .vbusOff => ({ x with vbus := false, connected := false }.emptyFifos).raise 1
  | .reset => ({ x with connected := false, sieAddress := 0 }.emptyFifos).raise 2
  | .speedDone hs => { x with hs := hs, connected := true }.raise 3
  | .suspend => x.raise 5
  | .resume => x.raise 6
  | .error => x.raise 7
  | .flushReq i => x.setEp i.toNat fun e => { e with flushReq := true, eirLatch := true }
  | .setup packet =>
    { x.setEp 0 fun e => { e with txQueue := [], txCur := none }.stage ⟨setupBytes packet, false⟩ with
      pendingAddress := setAddressOf packet }
  | .out i bytes eot =>
    { x.setEp i.toNat fun e =>
        if e.stall then { e with stallSent := true, eirLatch := true }
        else e.stage ⟨bytes, eot && decide (i = 0)⟩ with
      pendingAddress :=
        if i = 0 ∧ (x.ep 0).stall = false then x.pendingAddress.map PendingAddress.staged else x.pendingAddress }
  | .inToken i =>
    x.setEp i.toNat fun e =>
      if e.stall then { e with stallSent := true, eirLatch := true }
      else { e with txQueue := e.txQueue.tail, txDone := true, eirLatch := true }

/-- What the host gets from a move (R174). -/
def Sie.hostReply (x : Sie) : Move → HostReply
  | .out i _ _ => if (x.ep i.toNat).stall then .stall else .nothing
  | .inToken i =>
    if (x.ep i.toNat).stall then .stall
    else match (x.ep i.toNat).txQueue with
      | [] => .nothing
      | p :: _ => .packet p
  | _ => .nothing

/-- One move of the SIE or host: its effect and its entry in the run's trace; a move that is not enabled does not
happen (R170, assumption 7). -/
def State.move (s : State) (m : Move) : State :=
  if s.sie.moveEnabled s.cfg m then
    { s with sie := s.sie.moveEffect m, trace := s.trace ++ [.busMove m (s.sie.hostReply m)] }
  else s

/-- Several moves in order. -/
def State.moves (s : State) : List Move → State
  | [] => s
  | m :: ms => (s.move m).moves ms

/-- The SIE's part of a status stage (R147, R176), once the setup packet of a SET_ADDRESS has been read: with the sub-state
back in WAIT_FOR_SETUP the SIE takes the address, unless endpoint 0 is stalled, which ends the transfer without it. -/
def State.settleStatusStage (s : State) : State :=
  match s.sie.pendingAddress with
  | none => s
  | some p =>
    if s.sie.setupRead p then
      if (s.sie.ep 0).stall then { s with sie := { s.sie with pendingAddress := none } }
      else if s.dev.ctl = .waitForSetup then
        { s with sie := { s.sie with sieAddress := p.address, pendingAddress := none } }
      else s
    else s

end Sys2Proof.Machine
end

