-- ==== Sys2Proof/Machine/Ops.lean ====
section
/-! DEFINITION. The named operations the rules are written over: the pseudocode primitives of spec/00_scope.md R11
(state updates, RegRead, RegWrite, MemRead, MemWrite, refuse, ModelFault), command results, entry into and return from
an upcall (spec/60_exceptions.md R199, R200), and controller initialization (spec/70_reset_and_hazards.md R207). -/

namespace Sys2Proof.Machine

/-! ### Procedures -/

/-- How a procedure stops: `raise ModelFault` or `refuse` (R11). -/
inductive Stop where
  | fault (f : Fault)
  | refusal (r : Refusal)
deriving DecidableEq, Repr

/-- A procedure of the pseudocode: it reads and changes the state and gives a value, or stops. -/
abbrev Proc (α : Type) := StateT State (Except Stop) α

/-- The procedure that stops. -/
def stopWith {α : Type} (e : Stop) : Proc α := fun _ => .error e

/-- `refuse(reason)` (R11, R197). -/
def refuse {α : Type} (r : Refusal) : Proc α := stopWith (.refusal r)

/-- A state change without an access to the lower port or to memory. -/
def change (f : State → State) : Proc Unit := fun s => .ok ((), f s)

/-- A value read from the state. -/
def look {α : Type} (f : State → α) : Proc α := fun s => .ok (f s, s)

/-- A procedure run from a state, as the outcome of a step. -/
def outcome {α : Type} (p : Proc α) (s : State) : Host.Outcome State Fault Refusal :=
  match p s with
  | .ok (_, t) => .next t
  | .error (.fault f) => .fault f
  | .error (.refusal r) => .refused r

/-- A ModelFault that records no command yet records this one (R198). -/
def Fault.inCommand (i : Instr) : Fault → Fault
  | .modelFault c a => .modelFault (c <|> some i) a
  | .noRecord c h => .noRecord (c <|> some i) h
  | .outOfWidth c h => .outOfWidth (c <|> some i) h

/-- A command's rule: a ModelFault in it records the command. -/
def inCommand {α : Type} (i : Instr) (p : Proc α) : Proc α := fun s =>
  match p s with
  | .error (.fault f) => .error (.fault (f.inCommand i))
  | r => r

/-- `if c: p` -/
def onlyIf (c : Bool) (p : Proc Unit) : Proc Unit := if c then p else pure ()

/-- `for x in l: f x`, in order. -/
def eachOf {α : Type} (f : α → Proc Unit) : List α → Proc Unit
  | [] => pure ()
  | x :: xs => do
    f x
    eachOf f xs

/-! ### Fields of the core's state -/

/-- What the access functions give for an endpoint that does not exist (every rule checks the index first). -/
def Endpoint.absent : Endpoint := ⟨0, false, false, []⟩

/-- What the access functions give for a request record that does not exist (commands refuse such a handle, R73). -/
def Request.absent : Request := ⟨.none, 0, 0, false, none, .ok, none, 0⟩

/-- `ep[i]` -/
def State.ep (s : State) (i : Nat) : Endpoint := s.eps.getD i Endpoint.absent

/-- `ep[i].f <- v`: replace `ep[i]` by `f` of it. -/
def State.setEp (s : State) (i : Nat) (f : Endpoint → Endpoint) : State := { s with eps := s.eps.modify i f }

/-- `dev.f <- v`: replace `dev` by `f` of it. -/
def State.setDev (s : State) (f : Device → Device) : State := { s with dev := f s.dev }

/-- `NUM_ENDPOINTS` -/
def State.numEps (s : State) : Nat := s.cfg.numEndpoints

/-- `EP_DIR[i]` for a data endpoint i (R8). -/
def Config.dirOf (c : Config) (i : Nat) : Dir := c.epDir.getD (i - 1) .OUT

/-- `ep[i].dir`: derived from the control sub-state for endpoint 0 (R27), `EP_DIR[i]` for a data endpoint (R28). -/
def State.epDir (s : State) (i : Nat) : Dir :=
  if i = 0 then (if s.dev.ctl = .xmit then .IN else .OUT) else Config.dirOf s.cfg i

/-- The record of a handle in a request table. -/
def findRequest (h : Word) : List (Word × Request) → Option Request
  | [] => none
  | (k, r) :: rest => if k = h then some r else findRequest h rest

/-- Replace the record of a handle by `f` of it; the table's handles never change. -/
def updateRequest (h : Word) (f : Request → Request) : List (Word × Request) → List (Word × Request)
  | [] => []
  | (k, r) :: rest => if k = h then (k, f r) :: rest else (k, r) :: updateRequest h f rest

/-- `req[h]` -/
def State.req (s : State) : Handle → Request
  | .user h => (findRequest h s.reqs).getD Request.absent
  | .statusReq => s.statusReq

/-- `req[h].f <- v`: replace `req[h]` by `f` of it. -/
def State.setReq (s : State) (h : Handle) (f : Request → Request) : State :=
  match h with
  | .user k => { s with reqs := updateRequest k f s.reqs }
  | .statusReq => { s with statusReq := f s.statusReq }

/-- Whether a command argument names a record of the request table (R73). -/
def State.hasRequest (s : State) (h : Word) : Bool := (findRequest h s.reqs).isSome

/-- Whether a handle has a record. -/
def State.known (s : State) : Handle → Bool
  | .user h => s.hasRequest h
  | .statusReq => true

/-- The fields of a request are read: a ModelFault when it has no record (R12, assumption 22). -/
def needRecord (h : Handle) : Proc Unit := fun s =>
  if s.known h then .ok ((), s) else .error (.fault (.noRecord none h))

/-- `length - actual` is a natural number and `length` has 32 bits (R9, R182). -/
def Request.inWidth (r : Request) : Bool := decide (r.actual ≤ r.length ∧ r.length < 2 ^ 32)

/-- `req[h].length <- n`, keeping `actual ≤ length` (R34, R182): an `actual` above the new length becomes it
(assumption 21). -/
def Request.withLength (n : Nat) (r : Request) : Request := { r with length := n, actual := min r.actual n }

/-- The counts of a request are used: a ModelFault when one is outside its width (R12, assumption 21). -/
def needCounts (h : Handle) : Proc Unit := fun s =>
  if (s.req h).inWidth then .ok ((), s) else .error (.fault (.outOfWidth none h))

/-- `dev.ctl <- c` -/
def setCtl (c : Ctl) : Proc Unit := change fun s => s.setDev fun d => { d with ctl := c }

/-! ### System memory (R51, R53, R198) -/

/-- What an address that nothing has written reads as (assumption 6). -/
def Memory.unlisted : Byte := 0x00

/-- The byte at an address. -/
def Memory.read : Memory → Nat → Byte
  | [], _ => Memory.unlisted
  | (k, b) :: rest, a => if k = a then b else Memory.read rest a

/-- The memory with one byte written, in canonical form. -/
def Memory.write : Memory → Nat → Byte → Memory
  | [], a, b => if b = Memory.unlisted then [] else [(a, b)]
  | (k, c) :: rest, a, b =>
    if a < k then (if b = Memory.unlisted then (k, c) :: rest else (a, b) :: (k, c) :: rest)
    else if a = k then (if b = Memory.unlisted then rest else (a, b) :: rest)
    else (k, c) :: Memory.write rest a b

/-- The canonical form: addresses strictly rising, no entry that reads as an unlisted address does. -/
abbrev Memory.wf (m : Memory) : Prop :=
  m.Pairwise (fun x y => x.1 < y.1) ∧ ∀ c ∈ m, c.2 ≠ Memory.unlisted

/-- The byte of system memory at an address. -/
def State.byte (s : State) (a : Nat) : Byte := Memory.read s.mem a

/-- The state with one byte of system memory written. -/
def State.setByte (s : State) (a : Nat) (b : Byte) : State := { s with mem := Memory.write s.mem a b }

/-- One byte of `MemRead`: a ModelFault outside `[0, MEM_SIZE)` (R12, R183). -/
def memReadByte (a : Nat) : Proc Byte := fun s =>
  if a < s.cfg.memSize then .ok (s.byte a, s) else .error (.fault (.modelFault none a))

/-- `MemRead(addr, n)`: n bytes in address order (R11). -/
def memRead (a : Nat) : Nat → Proc (List Byte)
  | 0 => pure []
  | n + 1 => do
    let b ← memReadByte a
    let bs ← memRead (a + 1) n
    pure (b :: bs)

/-- One byte of `MemWrite`: a ModelFault outside `[0, MEM_SIZE)` (R12, R183). -/
def memWriteByte (a : Nat) (b : Byte) : Proc Unit := fun s =>
  if a < s.cfg.memSize then .ok ((), s.setByte a b) else .error (.fault (.modelFault none a))

/-! ### The lower port (R11, R60 to R62) -/

/-- The moves the SIE makes before the next register access (R60, R162). -/
def State.busTick (s : State) : State :=
  match s.betweenMoves with
  | [] => s
  | ms :: rest => ({ s with betweenMoves := rest }).moves ms

/-- The state after one read access. -/
def State.afterRead (s : State) (r : Reg) : State :=
  { s.busTick with sie := (Sie.read s.busTick.cfg s.busTick.sie r).2 }

/-- The value one read access gives. -/
def State.readValue (s : State) (r : Reg) : Word := (Sie.read s.busTick.cfg s.busTick.sie r).1

/-- The state after one write access. -/
def State.afterWrite (s : State) (r : Reg) (v : Word) : State :=
  { s.busTick with sie := Sie.write s.busTick.cfg s.busTick.sie r v }

/-- `RegRead(R)` -/
def regRead (r : Reg) : Proc Word := fun s => .ok (s.readValue r, s.afterRead r)

/-- `RegWrite(R, v)` -/
def regWrite (r : Reg) (v : Word) : Proc Unit := fun s => .ok ((), s.afterWrite r v)

/-- `RegWrite(EIER, RegRead(EIER) & ~(1 << i))` -/
def maskInterrupt (i : Nat) : Proc Unit := do
  let e ← regRead .eier
  regWrite .eier (e &&& ~~~(bitAt i true))

/-- `RegWrite(EIER, RegRead(EIER) | (1 << i))` -/
def unmaskInterrupt (i : Nat) : Proc Unit := do
  let e ← regRead .eier
  regWrite .eier (e ||| bitAt i true)

/-- `e <- RegRead(ECR[i]); RegWrite(ECR[i], e | 0x1)` -/
def setStallBit (i : Nat) : Proc Unit := do
  let e ← regRead (.ecr i)
  regWrite (.ecr i) (e ||| 0x1)

/-- `e <- RegRead(ECR[i]); RegWrite(ECR[i], e & ~0x1)` -/
def clearStallBit (i : Nat) : Proc Unit := do
  let e ← regRead (.ecr i)
  regWrite (.ecr i) (e &&& ~~~0x1)

/-- `repeat n times: RegRead(FIFO[i])`, the words discarded. -/
def discardWords (i : Nat) : Nat → Proc Unit
  | 0 => pure ()
  | n + 1 => do
    let _ ← regRead (.fifo i)
    discardWords i n

/-- `e <- RegRead(ECR[i]); RegWrite(ECR[i], v == 1 ? (e | 0x1) : (e & ~0x1))` -/
def writeStallBit (i : Nat) (v : Bool) : Proc Unit := if v then setStallBit i else clearStallBit i

/-! ### Command results (R70, R187) -/

/-- A command ends with a RESULT, which the port shows and the run's trace records. -/
def State.returned (s : State) (r : Status) : State := { s with result := r, trace := s.trace ++ [.result r] }

/-- Run a command's rule and return its RESULT. -/
def command (i : Instr) (rule : Proc Status) : Proc Unit := do
  let r ← inCommand i rule
  change fun s => s.returned r

/-! ### Upcall entry and return (R199, R200) -/

/-- Entry: `dev.upcall_depth` is incremented; nothing else changes.  The saved continuation of the rule is the rest of
the procedure that makes the upcall. -/
def State.enterUpcall (s : State) (u : Upcall) : State :=
  { s with dev := { s.dev with upcallDepth := s.dev.upcallDepth + 1 }, trace := s.trace ++ [.upcall u] }

/-- Return: `dev.upcall_depth` is decremented and the rule that made the upcall goes on. -/
def State.leaveUpcall (s : State) (ret : Option Word) : State :=
  { s with dev := { s.dev with upcallDepth := s.dev.upcallDepth - 1 }, trace := s.trace ++ [.upcallReturn ret] }

/-- The class driver's answer to the next upcall: the head of the script; with the script used up, no action and a free
value (assumption 3). -/
def State.nextResponse (s : State) : DriverResponse :=
  match s.driverScript with
  | [] => ⟨[], Config.freeSetupReturn s.freeCount⟩
  | r :: _ => r

/-- The state after the answer has been taken. -/
def State.afterResponse (s : State) : State :=
  match s.driverScript with
  | [] => { s with freeCount := s.freeCount + 1 }
  | _ :: rest => { s with driverScript := rest }

/-- What an upcall returns: only `setup` returns a value (R178). -/
def Upcall.returns (u : Upcall) (ret : Word) : Option Word :=
  match u with
  | .setup _ => some ret
  | .init | .vbusOn | .vbusOff | .complete _ _ => none

/-- One upcall, given how the class driver's actions are carried out: entry, the answer's actions in order, return. -/
def upcallWith (act : DriverAction → Proc Unit) (u : Upcall) : Proc Word := do
  change fun s => s.enterUpcall u
  let resp ← look State.nextResponse
  change State.afterResponse
  eachOf act resp.actions
  change fun s => s.leaveUpcall (u.returns resp.ret)
  pure resp.ret

/-! ### Class-driver writes (R179) -/

/-- Whether an address lies in the buffer of a queued request (R34, R179). -/
def Request.ownsByte (r : Request) (a : Nat) : Bool :=
  match r.buf with
  | .sysMem base => r.queuedOn.isSome && decide (base.toNat ≤ a ∧ a < base.toNat + r.length)
  | .none | .coreBytes => false

/-- A write to a field of the record of a handle: refused while the request is queued, or without a record. -/
def writeRecord (h : Word) (f : Request → Request) : Proc Unit := do
  let r ← look fun s => findRequest h s.reqs
  match r with
  | none => refuse .unknownHandle
  | some r => if r.queuedOn.isSome then refuse .ownershipViolation else change fun s => s.setReq (.user h) f

/-- One class-driver write. -/
def driverWrite : DriverWrite → Proc Unit
  | .reqBuf h buf => writeRecord h fun r =>
      { r with buf := match buf with
          | some a => .sysMem a
          | none => .none }
  | .reqLength h length => writeRecord h (Request.withLength length.toNat)
  | .reqZero h zero => writeRecord h fun r => { r with zero := zero }
  | .reqCallback h callback => writeRecord h fun r => { r with callback := callback }
  | .memByte addr byte => do
    let owned ← look fun s => s.reqs.any fun p => p.2.ownsByte addr.toNat
    if owned then refuse .ownershipViolation else memWriteByte addr.toNat byte

/-! ### Controller initialization (R207) -/

/-- A record as CTRL_INIT leaves it: not queued. -/
def Request.unqueued (r : Request) : Request := { r with queuedOn := none }

/-- CTRL_INIT's register writes for the endpoints of a list: `ECR[i] <- 0`, `MPS[i] <- ep[i].mps`. -/
def initEndpointRegisters (cfg : Config) (eps : List Endpoint) (x : Sie) : List Nat → Sie
  | [] => x
  | i :: is =>
    let x1 := Sie.write cfg x (.ecr i) 0
    let x2 := Sie.write cfg x1 (.mps i) ((eps.getD i Endpoint.absent).mps.zeroExtend 32)
    initEndpointRegisters cfg eps x2 is

/-- The endpoint records CTRL_INIT leaves (R32). -/
def initEndpoints (c : Config) : List Endpoint :=
  ⟨c.ep0MpsFs, true, false, []⟩ :: List.replicate (c.numEndpoints - 1) ⟨c.bulkMpsFs, false, true, []⟩

/-- CTRL_INIT, the core's reset (R207): it runs once at power-up and is not a command.  It acknowledges no event of the
SIE and writes no request field but `queued_on`. -/
def ctrlInit (s : State) : State :=
  let x := Sie.write s.cfg s.sie .eier 0x1
  { s with
    dev := { state := .notAttached, speed := .unknown, config := 0, address := 0, ctl := .waitForSetup,
             driver := none, upcallDepth := 0 }
    eps := initEndpoints s.cfg
    reqs := s.reqs.map fun p => (p.1, p.2.unqueued)
    statusReq := s.statusReq.unqueued
    sie := initEndpointRegisters s.cfg (initEndpoints s.cfg) x (List.range s.cfg.numEndpoints) }

end Sys2Proof.Machine
end

