-- ==== Sys2Proof/Machine/Operands.lean ====
section
/-! DEFINITION. The operand forms of the rules: the endpoint type and address (spec/10_state.md R26, R27), the endpoint
descriptor ENABLE reads (spec/30_encoding.md R81), a request's buffer as base plus running offset
(spec/46_operand_laws.md R183, R184), the speed's maximum packet sizes (spec/40_endpoint_ops.md) and the received byte
count (R103). -/

namespace Sys2Proof.Machine

/-! ### Endpoint type, address, sizes -/

/-- `ep[i].type` (R26 to R28). -/
inductive EpType where
  | CONTROL
  | BULK
deriving DecidableEq, Repr

/-- `ep[i].type`: CONTROL for endpoint 0, BULK for a data endpoint (R27, R28). -/
def State.epType (_s : State) (i : Nat) : EpType := if i = 0 then .CONTROL else .BULK

/-- The endpoint address byte `{dir == IN, 000, i[3:0]}` (R26). -/
def State.epAddress (s : State) (i : Nat) : Byte :=
  BitVec.ofBool (s.epDir i == .IN) ++ 0#3 ++ BitVec.ofNat 4 i

/-- `EP0_MPS(sp)` -/
def Config.ep0Mps (c : Config) (sp : Speed) : BitVec 11 := if sp = .high then c.ep0MpsHs else c.ep0MpsFs

/-- `BULK_MPS(sp)` -/
def Config.bulkMps (c : Config) (sp : Speed) : BitVec 11 := if sp = .high then c.bulkMpsHs else c.bulkMpsFs

/-! ### The endpoint descriptor (R81) -/

/-- Byte k of a descriptor's seven bytes. -/
def descByte (d : List Byte) (k : Nat) : Byte := d.getD k 0

/-- `bDescriptorType` -/
def descType (d : List Byte) : Byte := descByte d 1

/-- `bEndpointAddress` bits 3:0, the number. -/
def descNumber (d : List Byte) : BitVec 4 := (descByte d 2).extractLsb' 0 4

/-- `bEndpointAddress` bit 7, the direction. -/
def descDir (d : List Byte) : Dir := if (descByte d 2).getLsbD 7 then .IN else .OUT

/-- `bmAttributes` bits 1:0, the transfer type. -/
def descTransferType (d : List Byte) : BitVec 2 := (descByte d 3).extractLsb' 0 2

/-- `wMaxPacketSize = {d[5], d[4]}` -/
def descMaxPacket (d : List Byte) : Half := descByte d 5 ++ descByte d 4

/-- `m[10:0]`, the size. -/
def descSize (d : List Byte) : BitVec 11 := (descMaxPacket d).extractLsb' 0 11

/-- `m[15:11]`, extra transactions and reserved bits. -/
def descExtra (d : List Byte) : BitVec 5 := (descMaxPacket d).extractLsb' 11 5

/-! ### The buffer of a request (R34, R57, R183) -/

/-- The address of byte `off` of a buffer at `base`, computed as a natural (R183). -/
def bufAddress (base : Word) (off : Nat) : Nat := base.toNat + off

/-- Byte k of `core_status_bytes`. -/
def State.statusByte (s : State) (k : Nat) : Byte :=
  if k = 0 then s.statusBytes.1 else if k = 1 then s.statusBytes.2 else 0

/-- `core_status_bytes` with byte k replaced; there are two bytes. -/
def State.setStatusByte (s : State) (k : Nat) (b : Byte) : State :=
  { s with statusBytes :=
      if k = 0 then (b, s.statusBytes.2) else if k = 1 then (s.statusBytes.1, b) else s.statusBytes }

/-- `core_status_bytes[off .. off + n - 1]` -/
def statusRead (off : Nat) : Nat → State → List Byte
  | 0, _ => []
  | n + 1, s => s.statusByte off :: statusRead (off + 1) n s

/-- Read n bytes of a request's buffer from offset `off`; no rule reads the buffer of a request without one. -/
def bufRead (b : Buffer) (off n : Nat) : Proc (List Byte) :=
  match b with
  | .none => pure (List.replicate n 0)
  | .sysMem base => memRead (bufAddress base off) n
  | .coreBytes => look (statusRead off n)

/-- Write one byte of a request's buffer at offset `off`; no rule writes the buffer of a request without one. -/
def bufWriteByte (b : Buffer) (off : Nat) (v : Byte) : Proc Unit :=
  match b with
  | .none => pure ()
  | .sysMem base => memWriteByte (bufAddress base off) v
  | .coreBytes => change fun s => s.setStatusByte off v

/-! ### The received byte count (R103) -/

/-- `avail`: 0 when no word is pending, else two bytes a word less the trimmed one. -/
def receivedBytes (wcnt : Nat) (esr : Word) : Nat :=
  if wcnt = 0 then 0 else 2 * wcnt - (if esrLwo esr then 1 else 0)

/-- `RegRead(RX_WCNT[i])[10:0]` -/
def readWordCount (i : Nat) : Proc Nat := do
  let v ← regRead (.rxWcnt i)
  pure (low11 v).toNat

/-- Bits 7:0 of a FIFO word: the byte at the lower buffer offset (R47, R55). -/
def lowByte (w : Word) : Byte := w.extractLsb' 0 8

/-- Bits 15:8 of a FIFO word: the next byte (R47, R55). -/
def highByte (w : Word) : Byte := w.extractLsb' 8 8

/-- The FIFO word `{hi, lo}` (R98). -/
def fifoWord (lo hi : Byte) : Word := (hi ++ lo).zeroExtend 32

end Sys2Proof.Machine
end

