-- ==== Sys2Proof/Machine/Fifo.lean ====
section
/-! DEFINITION. The internal procedures of spec/40_endpoint_ops.md section 1: completion, nuke, the FIFO write and read
algorithms with their terminators, two-packet servicing, endpoint re-initialization and the endpoint 0 stall.  Each
takes `up`, the way an upcall is made, because a completion calls the class driver back. -/

namespace Sys2Proof.Machine

/-- How the core makes an upcall: the class driver runs, and its return value comes back. -/
abbrev Upcalls := Upcall → Proc Word

/-! ### Completion and nuke -/

/-- A request's record as COMPLETE leaves it: not queued, and its status recorded unless an OverflowError survives a
normal completion (R94). -/
def Request.completed (st : Status) (r : Request) : Request :=
  { r with
    queuedOn := none
    status := if st = .ok ∧ r.status = .overflowError then r.status else st }

/-- What COMPLETE writes before it calls back (R94). -/
def State.completed (s : State) (i : Nat) (h : Handle) (st : Status) : State :=
  let s1 := s.setEp i fun e => { e with queue := e.queue.erase h }
  let s2 := s1.setReq h (Request.completed st)
  if i = 0 then s2.setDev fun d => { d with ctl := .waitForSetup } else s2

/-- The completion callback, when the record names one (R94, R178). -/
def callback (up : Upcalls) (h : Handle) : Proc Unit := do
  let cb ← look fun s => (s.req h).callback
  match cb with
  | none => pure ()
  | some c => do
    let _ ← up (.complete c h)
    pure ()

/-- COMPLETE(i, h, st) (R94). -/
def complete (up : Upcalls) (i : Nat) (h : Handle) (st : Status) : Proc Unit := do
  change fun s => s.completed i h st
  callback up h

/-- NUKE's snapshot: the requests queued on endpoint i, each with how often QUEUE has accepted it (R95). -/
def State.snapshot (s : State) (i : Nat) : List (Handle × Nat) := (s.ep i).queue.map fun h => (h, (s.req h).queuings)

/-- Whether a request of NUKE's snapshot is still to be cancelled: no callback has queued it again since, so it is marked
as endpoint i's or, when one has dequeued it, as in no queue (R95, D18, assumption 20). -/
def State.awaitsNuke (s : State) (i : Nat) (x : Handle × Nat) : Bool :=
  decide ((s.req x.1).queuings = x.2) && decide ((s.req x.1).queuedOn = some i ∨ (s.req x.1).queuedOn = none)

/-- One turn of NUKE's loop (R95). -/
def cancel (up : Upcalls) (i : Nat) (st : Status) (x : Handle × Nat) : Proc Unit := do
  needRecord x.1
  let waits ← look fun s => s.awaitsNuke i x
  onlyIf waits (complete up i x.1 st)

/-- NUKE(i, st): the queue is emptied, then the snapshot's requests complete, head first (R95). -/
def nuke (up : Upcalls) (i : Nat) (st : Status) : Proc Unit := do
  let l ← look fun s => s.snapshot i
  change fun s => s.setEp i fun e => { e with queue := [] }
  eachOf (cancel up i st) l

/-! ### Starting a transfer -/

/-- CAN_START(i): not halted; on endpoint 0 not in WAIT_FOR_SETUP; and FIFO space (IN) or a staged packet (OUT).  The
status register is read only when the first two hold (R96, assumption 9). -/
def canStart (i : Nat) : Proc Bool := do
  let allowed ← look fun s => !(s.ep i).halted && !(decide (i = 0) && decide (s.dev.ctl = .waitForSetup))
  if allowed then do
    let dir ← look fun s => s.epDir i
    let esr ← regRead (.esr i)
    pure (match dir with
      | .IN => esrTxSpace esr
      | .OUT => esrRxReady esr)
  else pure false

/-- Write the packet's bytes as 16-bit words, an odd last byte padded with 0x00 (R98). -/
def writeWords (i : Nat) : List Byte → Proc Unit
  | [] => pure ()
  | [lo] => regWrite (.fifo i) (fifoWord lo 0)
  | lo :: hi :: rest => do
    regWrite (.fifo i) (fifoWord lo hi)
    writeWords i rest

/-- LAST_IN(i, h, n), after `actual` has been advanced (R99). -/
def State.lastIn (s : State) (i : Nat) (h : Handle) (n : Nat) : Bool :=
  decide (n < (s.ep i).mps.toNat) || (decide ((s.req h).actual = (s.req h).length) && !(s.req h).zero)

/-- The size of the next IN packet: `min(length - actual, mps)` (R98). -/
def State.nextPacket (s : State) (i : Nat) (h : Handle) : Nat :=
  min ((s.req h).length - (s.req h).actual) (s.ep i).mps.toNat

/-- `req[h].actual <- req[h].actual + n` -/
def advance (h : Handle) (n : Nat) : Proc Unit := change fun s => s.setReq h fun r => { r with actual := r.actual + n }

/-- WRITE_FIFO(i, h), the packet framer (R98); it gives `last`. -/
def writeFifo (up : Upcalls) (i : Nat) (h : Handle) : Proc Bool := do
  let n ← look fun s => s.nextPacket i h
  regWrite (.txBcnt i) (BitVec.ofNat 32 n)
  let r ← look fun s => s.req h
  let bytes ← bufRead r.buf r.actual n
  writeWords i bytes
  advance h n
  let last ← look fun s => s.lastIn i h n
  if last then do
    complete up i h .ok
    pure true
  else pure false

/-- Read `m` words of the packet from word k on, storing the bytes before offset n of the packet (R102, R105). -/
def readWords (i : Nat) (b : Buffer) (off n : Nat) : Nat → Nat → Proc Unit
  | 0, _ => pure ()
  | m + 1, k => do
    let w ← regRead (.fifo i)
    onlyIf (2 * k < n) (bufWriteByte b (off + 2 * k) (lowByte w))
    onlyIf (2 * k + 1 < n) (bufWriteByte b (off + 2 * k + 1) (highByte w))
    readWords i b off n m (k + 1)

/-- LAST_OUT(i, h, avail, est), after `actual` has been advanced (R106). -/
def State.lastOut (s : State) (i : Nat) (h : Handle) (avail : Nat) (esr : Word) : Bool :=
  decide (avail < (s.ep i).mps.toNat) || decide ((s.req h).actual = (s.req h).length) ||
    (decide (i = 0) && esrCtlEot esr)

/-- `if avail > room: req[h].status <- OverflowError` (R104) -/
def recordOverflow (h : Handle) (overflow : Bool) : Proc Unit :=
  change fun s => s.setReq h fun r => { r with status := if overflow then .overflowError else r.status }

/-- READ_FIFO(i, h), the FIFO read algorithm (R102 to R106); it gives `last`.  The SIE may act before each of the accesses
(R60); when it empties the FIFOs there, the remaining words read 0x0000 (R169, R220, assumption 29). -/
def readFifo (up : Upcalls) (i : Nat) (h : Handle) : Proc Bool := do
  let wcnt ← readWordCount i
  let esr ← regRead (.esr i)
  let r ← look fun s => s.req h
  let avail := receivedBytes wcnt esr
  let room := r.length - r.actual
  let n := min avail room
  recordOverflow h (room < avail)
  readWords i r.buf r.actual n wcnt 0
  advance h n
  let last ← look fun s => s.lastOut i h avail esr
  if last then do
    complete up i h .ok
    pure true
  else pure false

/-- START(i): service the head request with one packet (R97).  Callers evaluate CAN_START first, with a non-empty
queue. -/
def start (up : Upcalls) (i : Nat) : Proc Bool := do
  let q ← look fun s => (s.ep i).queue
  match q with
  | [] => pure false
  | h :: _ => do
    needRecord h
    needCounts h
    let dir ← look fun s => s.epDir i
    match dir with
    | .IN => writeFifo up i h
    | .OUT => readFifo up i h

/-- `if ep[i].queue != [] and CAN_START(i): START(i)`; the value says whether a transfer started. -/
def tryStart (up : Upcalls) (i : Nat) : Proc Bool := do
  let pending ← look fun s => !(s.ep i).queue.isEmpty
  if pending then do
    let can ← canStart i
    if can then do
      let _ ← start up i
      pure true
    else pure false
  else pure false

/-- TWO_PACKET(i, est), with the PSIF_TWO level of the status the handler read (R107). -/
def twoPacket (up : Upcalls) (i : Nat) (psifTwo : Bool) : Proc Unit :=
  if psifTwo then do
    let _ ← tryStart up i
    pure ()
  else pure ()

/-! ### Re-initialization, shutdown, stall -/

/-- Mark a data endpoint disabled and halted. -/
def disableFields (i : Nat) : Proc Unit :=
  change fun s => s.setEp i fun e => { e with enabled := false, halted := true }

/-- Mask a data endpoint's interrupt, and mark it disabled and halted (R113, R121, R146). -/
def shutFields (i : Nat) : Proc Unit := do
  maskInterrupt i
  disableFields i

/-- `ECR[i].STALL <- v; ep[i].halted <- v`, the other `ECR` bits kept (R109, R115, R132). -/
def haltFields (i : Nat) (v : Bool) : Proc Unit := do
  writeStallBit i v
  change fun s => s.setEp i fun e => { e with halted := v }

/-- What EP_REINIT does before its NUKE (R108). -/
def reinitFields (i : Nat) : Proc Unit :=
  if i = 0 then do
    change fun s => s.setEp 0 fun e => { e with halted := false, mps := Config.ep0Mps s.cfg s.dev.speed }
    regWrite (.ecr 0) 0
    let m ← look fun s => (s.ep 0).mps
    regWrite (.mps 0) (m.zeroExtend 32)
  else do
    change fun s => s.setEp i fun e =>
      { e with enabled := false, halted := true, mps := Config.bulkMps s.cfg s.dev.speed }
    maskInterrupt i
    regWrite (.ecr i) 0
    let m ← look fun s => (s.ep i).mps
    regWrite (.mps i) (m.zeroExtend 32)

/-- The data endpoints, 1 to N-1. -/
def State.dataEps (s : State) : List Nat := List.range' 1 (s.numEps - 1)

/-- `for i in 0 .. N-1: EP_REINIT(i, st)` (R108, R122, R123).  Every endpoint is re-initialized before the first nuke
makes an upcall, so that every data endpoint is disabled in all of them (R122's corner case, R128, R129, R219,
assumption 19). -/
def reinitAll (up : Upcalls) (st : Status) : Proc Unit := do
  let l ← look State.dataEps
  eachOf reinitFields (0 :: l)
  eachOf (fun i => nuke up i st) (0 :: l)

/-- STALL_EP0 (R109). -/
def stallEp0 : Proc Unit := haltFields 0 true

/-- `repeat p times: w <- RegRead(RX_WCNT[i])[10:0]; repeat w times: RegRead(FIFO[i])` -/
def drainPackets (i : Nat) : Nat → Proc Unit
  | 0 => pure ()
  | p + 1 => do
    let w ← readWordCount i
    discardWords i w
    drainPackets i p

/-- `e <- RegRead(ECR[i]); RegWrite(ECR[i], e | 0x2)` (the IN branch of R116). -/
def flushIn (i : Nat) : Proc Unit := do
  let e ← regRead (.ecr i)
  regWrite (.ecr i) (e ||| 0x2)

/-- FLUSH_OUT(i): drain the packets staged when it starts (the OUT branch of R116, R158). -/
def flushOut (i : Nat) : Proc Unit := do
  let esr ← regRead (.esr i)
  drainPackets i (if esrRxReady esr then (if esrPsifTwo esr then 2 else 1) else 0)

end Sys2Proof.Machine
end

