-- ==== Sys2Proof/Machine/Endpoint.lean ====
section
/-! DEFINITION. The commands of the upper port but TASK (spec/40_endpoint_ops.md section 2, spec/30_encoding.md R73):
ENABLE, DISABLE, QUEUE, DEQUEUE, SET_HALT, FIFO_FLUSH, BIND and RESERVED_CMD; the class driver's side of an upcall
(spec/45_bus_environment.md R177 to R180); and the meaning of each of these commands as an instruction. -/

namespace Sys2Proof.Machine

/-! ### The rules, given how upcalls are made -/

/-- ENABLE's descriptor checks, in the order R110 lists them; `none` when all pass. -/
def descriptorError (s : State) (ep : BitVec 4) (d : List Byte) : Option Status :=
  if descType d ≠ 0x05 then some .invalidArgument
  else if descNumber d ≠ ep then some .invalidArgument
  else if descDir d ≠ Config.dirOf s.cfg ep.toNat then some .invalidArgument
  else if descTransferType d ≠ 2 then some .invalidArgument
  else if descSize d = 0 ∨ descExtra d ≠ 0 ∨ descSize d ≠ (s.ep ep.toNat).mps then some .rangeError
  else if s.dev.driver = none ∨ s.dev.speed = .unknown ∨ s.dev.state.belowAddress then some .shutdownError
  else none

/-- `EP_DIR[i] == IN ? 0x4 : 0x0`, the value ENABLE writes to `ECR[i]` (R110). -/
def bindDirection (d : Dir) : Word :=
  match d with
  | .IN => 0x4
  | .OUT => 0x0

/-- `if ep[i].dir == IN and ep[i].queue != [] and CAN_START(i): START(i)` (R110, R115). -/
def resumeIn (up : Upcalls) (i : Nat) : Proc Unit := do
  let isIn ← look fun s => decide (s.epDir i = .IN)
  if isIn then do
    let _ ← tryStart up i
    pure ()
  else pure ()

/-- What a successful ENABLE writes: direction and size to the registers, the endpoint's fields, its interrupt unmasked
(R110). -/
def enableFields (i : Nat) (size : BitVec 11) : Proc Unit := do
  let dir ← look fun s => Config.dirOf s.cfg i
  regWrite (.ecr i) (bindDirection dir)
  regWrite (.mps i) (size.zeroExtend 32)
  change fun s => s.setEp i fun e => { e with mps := size, enabled := true, halted := false }
  unmaskInterrupt i

/-- ENABLE (R110). -/
def enableRule (up : Upcalls) (ep : BitVec 4) (addr : Word) : Proc Status := do
  let i := ep.toNat
  let n ← look State.numEps
  if n ≤ i then pure .rangeError
  else if i = 0 then pure .invalidArgument
  else do
    let d ← memRead addr.toNat 7
    let err ← look fun s => descriptorError s ep d
    match err with
    | some e => pure e
    | none => do
      enableFields i (descSize d)
      resumeIn up i
      pure .ok

/-- DISABLE (R113). -/
def disableRule (up : Upcalls) (ep : BitVec 4) : Proc Status := do
  let i := ep.toNat
  let n ← look State.numEps
  if n ≤ i then pure .rangeError
  else if i = 0 then pure .invalidArgument
  else do
    shutFields i
    nuke up i .shutdownError
    pure .ok

/-- Why QUEUE fails, in the order R111 checks; `none` when it does not. -/
def queueError (s : State) (i : Nat) (h : Handle) : Option Status :=
  if s.numEps ≤ i then some .rangeError
  else if (s.req h).buf = .none ∨ (s.req h).queuedOn ≠ none then some .invalidArgument
  else if s.dev.driver = none ∨ s.dev.speed = .unknown then some .shutdownError
  else if i ≠ 0 ∧ (s.ep i).enabled = false then some .shutdownError
  else none

/-- The record of a request QUEUE accepts: `req[h].actual <- 0; req[h].status <- IN_PROGRESS` (R111); the model counts
the QUEUE and forgets a cut-off of an earlier one (assumptions 20 and 29). -/
def Request.begun (r : Request) : Request :=
  { r with actual := 0, status := .inProgress, queuings := r.queuings + 1 }

/-- QUEUE accepts request h (R111). -/
def beginRequest (h : Handle) : Proc Unit := change fun s => s.setReq h Request.begun

/-- `append h to ep[i].queue; req[h].queued_on <- i` -/
def appendRequest (i : Nat) (h : Handle) : Proc Unit :=
  change fun s =>
    (s.setEp i fun e => { e with queue := e.queue ++ [h] }).setReq h fun r => { r with queuedOn := some i }

/-- QUEUE(i, h) (R111), also what GET_STATUS uses for `STATUS_REQ` (R143). -/
def queueRule (up : Upcalls) (i : Nat) (h : Handle) : Proc Status := do
  let err ← look fun s => queueError s i h
  match err with
  | some e => pure e
  | none => do
    beginRequest h
    let immediate ← look fun s => decide (i = 0) && decide ((s.req h).length = 0)
    if immediate then do
      complete up 0 h .ok
      pure .ok
    else do
      appendRequest i h
      let alone ← look fun s => decide ((s.ep i).queue = [h])
      if alone then do
        let _ ← tryStart up i
        pure .ok
      else pure .ok

/-- A QUEUE or DEQUEUE whose ARG names no record is refused before anything else (R73, R190). -/
def withRequest (h : Word) (rule : Proc Status) : Proc Status := do
  let known ← look fun s => s.hasRequest h
  if known then rule else refuse .unknownHandle

/-- The QUEUE command (R111). -/
def queueCommand (up : Upcalls) (ep : BitVec 4) (h : Word) : Proc Status :=
  withRequest h (queueRule up ep.toNat (.user h))

/-- The DEQUEUE command (R114). -/
def dequeueCommand (up : Upcalls) (ep : BitVec 4) (h : Word) : Proc Status :=
  withRequest h do
    let i := ep.toNat
    let n ← look State.numEps
    if n ≤ i then pure .rangeError
    else do
      let here ← look fun s => decide ((s.req (.user h)).queuedOn = some i)
      if here then do
        complete up i (.user h) .connectionReset
        pure .ok
      else pure .invalidArgument

/-- Why SET_HALT fails, in the order R115 checks; `none` when it does not. -/
def setHaltError (s : State) (i : Nat) (v : Bool) : Option Status :=
  if s.numEps ≤ i then some .rangeError
  else if i ≠ 0 ∧ (s.ep i).enabled = false then some .invalidArgument
  else if v = true ∧ s.epDir i = .IN ∧ (s.ep i).queue ≠ [] then some .tryAgainError
  else none

/-- SET_HALT(i, v) (R115), also what FEATURE uses (R145). -/
def setHaltRule (up : Upcalls) (i : Nat) (v : Bool) : Proc Status := do
  let err ← look fun s => setHaltError s i v
  match err with
  | some e => pure e
  | none => do
    haltFields i v
    if v then pure .ok
    else do
      resumeIn up i
      pure .ok

/-- FIFO_FLUSH (R116). -/
def fifoFlushRule (ep : BitVec 4) : Proc Status := do
  let i := ep.toNat
  let n ← look State.numEps
  if n ≤ i then pure .rangeError
  else do
    let dir ← look fun s => s.epDir i
    match dir with
    | .IN => do
      flushIn i
      pure .ok
    | .OUT => do
      flushOut i
      pure .ok

/-- `if dev.upcall_depth > 0: refuse(REENTRANT_TASK)` (R151, R197). -/
def topLevelOnly : Proc Unit := do
  let depth ← look fun s => s.dev.upcallDepth
  if 0 < depth then refuse .reentrantTask else pure ()

/-- BIND (R117); not from inside an upcall (R197). -/
def bindRule (up : Upcalls) (d : Word) : Proc Status := do
  if d = 0 then refuse .reservedCommand
  else do
    topLevelOnly
    let bound ← look fun s => s.dev.driver
    match bound with
    | some _ => pure .invalidArgument
    | none => do
      change fun s => s.setDev fun v => { v with driver := some d }
      let _ ← up .init
      pure .ok

/-! ### The class driver inside an upcall -/

/-- A command issued inside an upcall (R177): TASK and BIND are refused there, where `upcall_depth > 0` (R197; BIND 0 by
its first check, assumption 25), and only the command rows are commands. -/
def nestedCommand (up : Upcalls) : Instr → Proc Unit
  | .task => refuse .reentrantTask
  | .bind d => refuse (if d = 0 then .reservedCommand else .reentrantTask)
  | .enable ep addr => command (.enable ep addr) (enableRule up ep addr)
  | .disable ep => command (.disable ep) (disableRule up ep)
  | .queue ep h => command (.queue ep h) (queueCommand up ep h)
  | .dequeue ep h => command (.dequeue ep h) (dequeueCommand up ep h)
  | .setHalt ep v => command (.setHalt ep v) (setHaltRule up ep.toNat v)
  | .fifoFlush ep => command (.fifoFlush ep) (fifoFlushRule ep)
  | .reservedCmd _ _ => refuse .reservedCommand
  | .getStatus .. | .clearFeature .. | .setFeature .. | .setAddress .. | .setConfiguration .. | .getDescriptor ..
  | .forward _ => refuse .reservedCommand
  | .vbusOn | .reset | .speedDone _ | .suspend | .resume | .error | .vbusOff => refuse .reservedCommand
  | .stallSent _ | .flushReq _ | .txDone _ _ | .rxReady _ _ => refuse .reservedCommand

/-- One action of the class driver inside an upcall (R177, R179). -/
def driverAction (up : Upcalls) : DriverAction → Proc Unit
  | .command cmd arg =>
    match decodeCmd cmd arg with
    | .ok i => nestedCommand up i
    | .error _ => refuse .reservedCommand
  | .write w => driverWrite w

/-- Upcalls nested at most `fuel` deep below the first (R200).  Every answer that holds an action is taken off the
script, so with `fuel` at the script's length the last level finds the script used up: nothing is cut off
(`Laws/Upcall.lean`). -/
def upcalls : Nat → Upcalls
  | 0 => upcallWith fun _ => pure ()
  | fuel + 1 => upcallWith (driverAction (upcalls fuel))

/-- Run a procedure with as many levels of upcalls as the class driver's script can need. -/
def withUpcalls {α : Type} (p : Upcalls → Proc α) : Proc α := fun s => p (upcalls s.driverScript.length) s

/-! ### The meanings -/

/-- BIND -/
def execBind (d : Word) (s : State) : Host.Outcome State Fault Refusal :=
  outcome (withUpcalls fun up => command (.bind d) (bindRule up d)) s

/-- ENABLE -/
def execEnable (ep : BitVec 4) (addr : Word) (s : State) : Host.Outcome State Fault Refusal :=
  outcome (withUpcalls fun up => command (.enable ep addr) (enableRule up ep addr)) s

/-- DISABLE -/
def execDisable (ep : BitVec 4) (s : State) : Host.Outcome State Fault Refusal :=
  outcome (withUpcalls fun up => command (.disable ep) (disableRule up ep)) s

/-- QUEUE -/
def execQueue (ep : BitVec 4) (h : Word) (s : State) : Host.Outcome State Fault Refusal :=
  outcome (withUpcalls fun up => command (.queue ep h) (queueCommand up ep h)) s

/-- DEQUEUE -/
def execDequeue (ep : BitVec 4) (h : Word) (s : State) : Host.Outcome State Fault Refusal :=
  outcome (withUpcalls fun up => command (.dequeue ep h) (dequeueCommand up ep h)) s

/-- SET_HALT -/
def execSetHalt (ep : BitVec 4) (v : Bool) (s : State) : Host.Outcome State Fault Refusal :=
  outcome (withUpcalls fun up => command (.setHalt ep v) (setHaltRule up ep.toNat v)) s

/-- FIFO_FLUSH -/
def execFifoFlush (ep : BitVec 4) (s : State) : Host.Outcome State Fault Refusal :=
  outcome (command (.fifoFlush ep) (fifoFlushRule ep)) s

/-- RESERVED_CMD: OPC 0x8 to 0xF spells no command and is refused (R73, R89). -/
def execReservedCmd (_cmd _arg : Word) (_s : State) : Host.Outcome State Fault Refusal :=
  .refused .reservedCommand

end Sys2Proof.Machine
end

