-- ==== Sys2Proof/Machine/Control.lean ====
section
/-! DEFINITION. The control-transfer dispatcher (spec/42_control_dispatcher.md sections 2 and 3): what the core does with
a setup packet once it has it, the requests it answers itself, forwarding, the SET_CONFIGURATION post-processing, setup
reception, and the meaning of each SETUP row as an instruction. -/

namespace Sys2Proof.Machine

/-! ### The dispatcher's branches: each gives the signed result of R141 -/

/-- FORWARD(S): -1 with no driver bound, else the class driver's answer (R142). -/
def forwardRule (up : Upcalls) (S : BitVec 64) : Proc Word := do
  let bound ← look fun s => s.dev.driver
  match bound with
  | none => pure minusOne
  | some _ => up (.setup S)

/-- `wIndex[3:0]`: the endpoint a request names (R77). -/
def requestEndpoint (S : BitVec 64) : Nat := ((setupIndex S).extractLsb' 0 4).toNat

/-- GET_STATUS's answer, or `none` when the request is not resolved inline (R143). -/
def statusReply (s : State) (S : BitVec 64) : Option Half :=
  if setupDirIn S = false then none
  else if setupRecipient S = 0 then some s.cfg.deviceStatus
  else if setupRecipient S = 1 then some 0x0000
  else if setupRecipient S = 2 ∧ requestEndpoint S < s.numEps then
    some (if (s.ep (requestEndpoint S)).halted then 0x0001 else 0x0000)
  else none

/-- Fill the core's reply bytes, little-endian, and the length of `STATUS_REQ` (R34, R143). -/
def prepareStatus (v : Half) (wLength : Half) : Proc Unit :=
  change fun s =>
    { s with
      statusBytes := (v.extractLsb' 0 8, v.extractLsb' 8 8)
      statusReq := { s.statusReq.withLength (min 2 wLength.toNat) with zero := false } }

/-- GET_STATUS(S), forwarded when not resolved (R141, R143). -/
def getStatusRule (up : Upcalls) (S : BitVec 64) : Proc Word := do
  let reply ← look fun s => statusReply s S
  match reply with
  | none => forwardRule up S
  | some v => do
    prepareStatus v (setupLength S)
    let r ← queueRule up 0 .statusReq
    pure r.code

/-- Whether FEATURE resolves the request inline: `bmRequestType = 0x02`, `wValue = 0`, `wLength = 0`, an endpoint
below N (R145). -/
def featureInline (s : State) (S : BitVec 64) : Bool :=
  decide (setupRequestType S = 0x02 ∧ setupValue S = 0 ∧ setupLength S = 0 ∧ requestEndpoint S < s.numEps)

/-- FEATURE(S): set (v) or clear the endpoint's halt, SET_HALT's result ignored; forwarded when not resolved (R141,
R145). -/
def featureRule (up : Upcalls) (v : Bool) (S : BitVec 64) : Proc Word := do
  let inl ← look fun s => featureInline s S
  if inl then do
    let _ ← setHaltRule up (requestEndpoint S) v
    pure 0
  else forwardRule up S

/-- `dev.state` after SET_ADDRESS: ATTACHED, DEFAULT and ADDRESS move to ADDRESS (R125, R144). -/
def DevState.afterSetAddress : DevState → DevState
  | .notAttached => .notAttached
  | .attached | .default | .address => .address
  | .configured => .configured

/-- What SET_ADDRESS records: `wValue[6:0]` and the state (R125, R144). -/
def Device.withAddress (a : BitVec 7) (d : Device) : Device :=
  { d with address := a, state := d.state.afterSetAddress }

/-- SET_ADDRESS(S), forwarded when not resolved (R141, R144). -/
def setAddressRule (up : Upcalls) (S : BitVec 64) : Proc Word :=
  if setupRequestType S ≠ 0x00 ∨ setupLength S ≠ 0 then forwardRule up S
  else do
    change fun s => s.setDev (Device.withAddress ((setupValue S).extractLsb' 0 7))
    pure 0

/-- Disable data endpoint i and cancel its requests with ShutdownError (R146). -/
def shutDownEndpoint (up : Upcalls) (i : Nat) : Proc Unit := do
  shutFields i
  nuke up i .shutdownError

/-- The core's part of an accepted SET_CONFIGURATION (R126, R146). -/
def configure (up : Upcalls) (v : Byte) : Proc Unit := do
  nuke up 0 .connectionReset
  change fun s => s.setDev fun d => { d with config := v, state := if v = 0 then .address else .configured }
  if v = 0 then do
    let l ← look State.dataEps
    eachOf (shutDownEndpoint up) l
  else pure ()

/-- SET_CONFIGURATION(S) with `bmRequestType = 0x00`: below ADDRESS -1 without forwarding; else forwarded and, when
accepted, post-processed (R146). -/
def setConfigurationRule (up : Upcalls) (S : BitVec 64) : Proc Word := do
  let below ← look fun s => s.dev.state.belowAddress
  if below then pure minusOne
  else do
    let ret ← forwardRule up S
    if isNegative ret then pure ret
    else do
      configure up ((setupValue S).extractLsb' 0 8)
      pure ret

/-! ### The transfer around the dispatcher -/

/-- The end of R136: a negative result stalls endpoint 0; a request without data stage is over. -/
def finishSetup (S : BitVec 64) (ret : Word) : Proc Unit :=
  if isNegative ret then do
    stallEp0
    setCtl .waitForSetup
  else if setupLength S = 0 then setCtl .waitForSetup
  else pure ()

/-- What R136 does with a setup packet it has read: the direction-dependent sub-state (R140), the dispatch, the end of
the transfer's setup stage. -/
def runSetup (S : BitVec 64) (dispatch : Proc Word) : Proc Unit := do
  setCtl (if setupDirIn S then .xmit else .recv)
  let ret ← dispatch
  finishSetup S ret

/-- DISPATCH(S) (R141): the SETUP row that takes the packet says which branch answers it. -/
def dispatchRule (up : Upcalls) (S : BitVec 64) : Instr → Proc Word
  | .getStatus .. => getStatusRule up S
  | .clearFeature .. => featureRule up false S
  | .setFeature .. => featureRule up true S
  | .setAddress .. => setAddressRule up S
  | .setConfiguration .. => setConfigurationRule up S
  | .getDescriptor .. => forwardRule up S
  | .forward _ => forwardRule up S
  | .task | .bind _ | .enable _ _ | .disable _ | .queue _ _ | .dequeue _ _ | .setHalt _ _ | .fifoFlush _
  | .reservedCmd _ _ => forwardRule up S
  | .vbusOn | .reset | .speedDone _ | .suspend | .resume | .error | .vbusOff => forwardRule up S
  | .stallSent _ | .flushReq _ | .txDone _ _ | .rxReady _ _ => forwardRule up S

/-- The four words of a setup packet, the first in the low bits (R136). -/
def readSetupPacket : Proc (BitVec 64) := do
  let w0 ← regRead (.fifo 0)
  let w1 ← regRead (.fifo 0)
  let w2 ← regRead (.fifo 0)
  let w3 ← regRead (.fifo 0)
  pure (w3.truncate 16 ++ w2.truncate 16 ++ w1.truncate 16 ++ w0.truncate 16)

/-- `e <- RegRead(ECR[0]); if e.STALL == 1: RegWrite(ECR[0], e & ~0x1)`, and endpoint 0 is no longer halted (R138). -/
def clearSetupStall : Proc Unit := do
  let e ← regRead (.ecr 0)
  onlyIf (ecrStall e) (regWrite (.ecr 0) (e &&& ~~~0x1))
  change fun s => s.setEp 0 fun ep => { ep with halted := false }

/-- PROCESS_SETUP (R136 to R140). -/
def processSetup (up : Upcalls) : Proc Unit := do
  nuke up 0 .protocolError
  clearSetupStall
  let wcnt ← readWordCount 0
  let esr ← regRead (.esr 0)
  if receivedBytes wcnt esr ≠ 8 then do
    discardWords 0 wcnt
    stallEp0
    setCtl .waitForSetup
  else do
    let S ← readSetupPacket
    runSetup S (dispatchRule up S (decodeSetup S))

/-! ### The meanings -/

/-- A SETUP row as an instruction: its packet has been received, and R136 runs its branch of the dispatcher. -/
def execSetup (i : Instr) (branch : Upcalls → BitVec 64 → Proc Word) (s : State) :
    Host.Outcome State Fault Refusal :=
  outcome (withUpcalls fun up => inCommand i (runSetup (setupPacketOf i) (branch up (setupPacketOf i)))) s

/-- GET_STATUS -/
def execGetStatus (d : Bool) (r : BitVec 5) (v x l : Half) (s : State) : Host.Outcome State Fault Refusal :=
  execSetup (.getStatus d r v x l) getStatusRule s

/-- CLEAR_FEATURE -/
def execClearFeature (d : Bool) (r : BitVec 5) (v x l : Half) (s : State) : Host.Outcome State Fault Refusal :=
  execSetup (.clearFeature d r v x l) (fun up => featureRule up false) s

/-- SET_FEATURE -/
def execSetFeature (d : Bool) (r : BitVec 5) (v x l : Half) (s : State) : Host.Outcome State Fault Refusal :=
  execSetup (.setFeature d r v x l) (fun up => featureRule up true) s

/-- SET_ADDRESS -/
def execSetAddress (d : Bool) (r : BitVec 5) (v x l : Half) (s : State) : Host.Outcome State Fault Refusal :=
  execSetup (.setAddress d r v x l) setAddressRule s

/-- SET_CONFIGURATION -/
def execSetConfiguration (v x l : Half) (s : State) : Host.Outcome State Fault Refusal :=
  execSetup (.setConfiguration v x l) setConfigurationRule s

/-- GET_DESCRIPTOR: forwarded (R78, R79, R142) -/
def execGetDescriptor (d : Bool) (r : BitVec 5) (v x l : Half) (s : State) : Host.Outcome State Fault Refusal :=
  execSetup (.getDescriptor d r v x l) forwardRule s

/-- FORWARD: every other request (R142, R148) -/
def execForward (packet : BitVec 64) (s : State) : Host.Outcome State Fault Refusal :=
  execSetup (.forward packet) forwardRule s

end Sys2Proof.Machine
end

