-- ==== Sys2Proof/Machine/Device.lean ====
section
/-! DEFINITION. The device state machine's handlers for the system events (spec/41_device_state_machine.md section 2),
each with the write that acknowledges its bit (spec/43_interrupt_pump.md R151, R153), and the meaning of each SSR row
as an instruction. -/

namespace Sys2Proof.Machine

/-- `RegWrite(SSR, 1 << k)`: acknowledge one system event (R151). -/
def ackSystem (k : Nat) : Proc Unit := regWrite .ssr (bitAt k true)

/-- The upcall of a system event, with a driver bound (R120, R121). -/
def notify (up : Upcalls) (u : Upcall) : Proc Unit := do
  let bound ← look fun s => s.dev.driver
  match bound with
  | none => pure ()
  | some _ => do
    let _ ← up u
    pure ()

/-- VBUS_ON: acknowledged, then ON_VBUS_ON (R120). -/
def vbusOnRule (up : Upcalls) : Proc Unit := do
  ackSystem 0
  let detached ← look fun s => decide (s.dev.state = .notAttached)
  if detached then do
    change fun s => s.setDev fun d => { d with state := .attached }
    notify up .vbusOn
  else pure ()

/-- The device fields ON_VBUS_OFF writes (R121). -/
def Device.detached (d : Device) : Device :=
  { d with state := .notAttached, speed := .unknown, config := 0, address := 0, ctl := .waitForSetup }

/-- VBUS_OFF: acknowledged, then ON_VBUS_OFF (R121). -/
def vbusOffRule (up : Upcalls) : Proc Unit := do
  ackSystem 1
  change fun s => s.setDev Device.detached
  let l ← look State.dataEps
  eachOf shutFields l
  eachOf (fun i => nuke up i .shutdownError) (0 :: l)
  notify up .vbusOff

/-- The device fields ON_RESET writes; the speed is kept (R122). -/
def Device.busReset (d : Device) : Device :=
  { d with state := .attached, config := 0, address := 0, ctl := .waitForSetup }

/-- RESET: acknowledged, then ON_RESET (R122). -/
def resetRule (up : Upcalls) : Proc Unit := do
  ackSystem 2
  change fun s => s.setDev Device.busReset
  reinitAll up .connectionReset

/-- The device fields ON_SPEED_DONE writes (R123). -/
def Device.speedDone (hs : Bool) (d : Device) : Device :=
  { d with speed := if hs then .high else .full, state := .default, config := 0, address := 0, ctl := .waitForSetup }

/-- SPEED_DONE: acknowledged, then ON_SPEED_DONE with the HS level read with it (R123, R152). -/
def speedDoneRule (up : Upcalls) (hs : Bool) : Proc Unit := do
  ackSystem 3
  change fun s => s.setDev (Device.speedDone hs)
  reinitAll up .connectionReset

/-- VBUS_ON -/
def execVbusOn (s : State) : Host.Outcome State Fault Refusal :=
  outcome (withUpcalls fun up => inCommand .vbusOn (vbusOnRule up)) s

/-- RESET -/
def execReset (s : State) : Host.Outcome State Fault Refusal :=
  outcome (withUpcalls fun up => inCommand .reset (resetRule up)) s

/-- SPEED_DONE -/
def execSpeedDone (hs : Bool) (s : State) : Host.Outcome State Fault Refusal :=
  outcome (withUpcalls fun up => inCommand (.speedDone hs) (speedDoneRule up hs)) s

/-- SUSPEND: acknowledged only (R124) -/
def execSuspend (s : State) : Host.Outcome State Fault Refusal :=
  outcome (ackSystem 5) s

/-- RESUME: acknowledged only (R124) -/
def execResume (s : State) : Host.Outcome State Fault Refusal :=
  outcome (ackSystem 6) s

/-- ERROR: acknowledged only (R124) -/
def execError (s : State) : Host.Outcome State Fault Refusal :=
  outcome (ackSystem 7) s

/-- VBUS_OFF -/
def execVbusOff (s : State) : Host.Outcome State Fault Refusal :=
  outcome (withUpcalls fun up => inCommand .vbusOff (vbusOffRule up)) s

end Sys2Proof.Machine
end

