-- ==== Sys2Proof/Machine/Pump.lean ====
section
/-! DEFINITION. The endpoint events (spec/42_control_dispatcher.md R131 to R135, spec/43_interrupt_pump.md R155 to
R158), the TASK command that samples the status registers and runs the events they show in order (R151 to R154), and
the meaning of each ESR row and of TASK as an instruction. -/

namespace Sys2Proof.Machine

/-! ### Endpoint events -/

/-- `RegWrite(ESR[i], 1 << k)`: acknowledge one endpoint event. -/
def ackEndpoint (i k : Nat) : Proc Unit := regWrite (.esr i) (bitAt k true)

/-- An endpoint's handler runs for endpoint 0 and for an enabled data endpoint; otherwise it is skipped (R154), and
there is no endpoint from N on (R91). -/
def endpointServed (s : State) (i : Nat) : Bool :=
  decide (i < s.numEps) && (decide (i = 0) || (s.ep i).enabled)

/-- Run an endpoint's handler when it is served. -/
def ifServed (i : Nat) (handler : Proc Unit) : Proc Unit := do
  let served ← look fun s => endpointServed s i
  if served then handler else pure ()

/-- EP0_STALL_SENT (R132). -/
def ep0StallSent (up : Upcalls) : Proc Unit := do
  ackEndpoint 0 4
  haltFields 0 false
  nuke up 0 .connectionAborted
  setCtl .waitForSetup

/-- STALL_SENT: the stall recovery of endpoint 0 (R132); acknowledged on a data endpoint, and nothing else (R157). -/
def stallSentRule (up : Upcalls) (i : Nat) : Proc Unit :=
  if i = 0 then ep0StallSent up else ackEndpoint i 4

/-- FLUSH_REQ: acknowledged on endpoint 0 (R135); acknowledged and the FIFO drained on a data OUT endpoint (R158);
acknowledged and ignored on a data IN endpoint (R155, D65, assumption 30). -/
def flushReqRule (i : Nat) : Proc Unit :=
  if i = 0 then ackEndpoint 0 5
  else do
    let dir ← look fun s => s.epDir i
    match dir with
    | .IN => ackEndpoint i 5
    | .OUT => do
      ackEndpoint i 5
      flushOut i

/-- The service of a data endpoint's interrupt: one packet, then TWO_PACKET (R155, R156). -/
def service (up : Upcalls) (i : Nat) (psifTwo : Bool) : Proc Unit := do
  let started ← tryStart up i
  if started then twoPacket up i psifTwo else pure ()

/-- EP0_TX_DONE (R133). -/
def ep0TxDone (up : Upcalls) : Proc Unit := do
  ackEndpoint 0 1
  let sending ← look fun s => decide (s.dev.ctl = .xmit)
  if sending then do
    let _ ← tryStart up 0
    pure ()
  else pure ()

/-- TX_DONE: EP0_TX_DONE (R133); acknowledged and served on a data IN endpoint (R155); acknowledged and ignored on a
data OUT endpoint (R156, D65, assumption 30). -/
def txDoneRule (up : Upcalls) (i : Nat) (psifTwo : Bool) : Proc Unit :=
  if i = 0 then ep0TxDone up
  else do
    let dir ← look fun s => s.epDir i
    match dir with
    | .IN => do
      ackEndpoint i 1
      service up i psifTwo
    | .OUT => ackEndpoint i 1

/-- EP0_RX_READY: data in RECV, a setup packet otherwise (R134). -/
def ep0RxReady (up : Upcalls) : Proc Unit := do
  let data ← look fun s => decide (s.dev.ctl = .recv)
  if data then do
    let _ ← tryStart up 0
    pure ()
  else processSetup up

/-- RX_READY: EP0_RX_READY (R134); served on a data OUT endpoint (R156); ignored on a data IN endpoint (R155). -/
def rxReadyRule (up : Upcalls) (i : Nat) (psifTwo : Bool) : Proc Unit :=
  if i = 0 then ep0RxReady up
  else do
    let dir ← look fun s => s.epDir i
    match dir with
    | .IN => pure ()
    | .OUT => service up i psifTwo

/-! ### The pump -/

/-- The rule of an event the status words show; the pump decodes nothing else (`decodeSsr`, `decodeEsr`). -/
def eventRule (up : Upcalls) : Instr → Proc Unit
  | .vbusOn => vbusOnRule up
  | .reset => resetRule up
  | .speedDone hs => speedDoneRule up hs
  | .suspend => ackSystem 5
  | .resume => ackSystem 6
  | .error => ackSystem 7
  | .vbusOff => vbusOffRule up
  | .stallSent ep => ifServed ep.toNat (stallSentRule up ep.toNat)
  | .flushReq ep => ifServed ep.toNat (flushReqRule ep.toNat)
  | .txDone ep p => ifServed ep.toNat (txDoneRule up ep.toNat p)
  | .rxReady ep p => ifServed ep.toNat (rxReadyRule up ep.toNat p)
  | .task | .bind _ | .enable _ _ | .disable _ | .queue _ _ | .dequeue _ _ | .setHalt _ _ | .fifoFlush _
  | .reservedCmd _ _ => pure ()
  | .getStatus .. | .clearFeature .. | .setFeature .. | .setAddress .. | .setConfiguration .. | .getDescriptor ..
  | .forward _ => pure ()

/-- Endpoint i's turn in a TASK that sampled its `EIR` bit as 1: the bit is acknowledged and, when the endpoint is
served, its status is read once and the events it shows are run (R131, R151, R154 to R156). -/
def endpointTurn (up : Upcalls) (i : Nat) : Proc Unit := do
  regWrite .eir (bitAt i true)
  ifServed i do
    let esr ← regRead (.esr i)
    let dir ← look fun s => Config.dirOf s.cfg i
    eachOf (eventRule up) (decodeEsr (BitVec.ofNat 4 i) dir esr)

/-- TASK's poll: the system events the sampled status shows, in order, then the endpoints whose sampled `EIR` bit is 1,
endpoint 0 first (R151, R153, R154). -/
def pump (up : Upcalls) (ssr eir : Word) : Proc Unit := do
  eachOf (eventRule up) (decodeSsr ssr)
  let n ← look State.numEps
  eachOf (fun i => if eir.getLsbD i then endpointTurn up i else pure ()) (List.range n)

/-- TASK (R151, R152): three reads; nothing more when no unmasked event is pending. -/
def taskRule (up : Upcalls) : Proc Status := do
  topLevelOnly
  let ssr ← regRead .ssr
  let eir ← regRead .eir
  let eier ← regRead .eier
  let n ← look State.numEps
  if ssr &&& ssrPendingMask = 0 ∧ eir &&& eier &&& epMask n = 0 then pure .ok
  else do
    pump up ssr eir
    pure .ok

/-! ### The meanings -/

/-- TASK -/
def execTask (s : State) : Host.Outcome State Fault Refusal :=
  outcome (withUpcalls fun up => command .task (taskRule up)) s

/-- STALL_SENT -/
def execStallSent (ep : BitVec 4) (s : State) : Host.Outcome State Fault Refusal :=
  outcome (withUpcalls fun up => inCommand (.stallSent ep) (ifServed ep.toNat (stallSentRule up ep.toNat))) s

/-- FLUSH_REQ -/
def execFlushReq (ep : BitVec 4) (s : State) : Host.Outcome State Fault Refusal :=
  outcome (ifServed ep.toNat (flushReqRule ep.toNat)) s

/-- TX_DONE -/
def execTxDone (ep : BitVec 4) (p : Bool) (s : State) : Host.Outcome State Fault Refusal :=
  outcome (withUpcalls fun up => inCommand (.txDone ep p) (ifServed ep.toNat (txDoneRule up ep.toNat p))) s

/-- RX_READY -/
def execRxReady (ep : BitVec 4) (p : Bool) (s : State) : Host.Outcome State Fault Refusal :=
  outcome (withUpcalls fun up => inCommand (.rxReady ep p) (ifServed ep.toNat (rxReadyRule up ep.toNat p))) s

end Sys2Proof.Machine
end

