-- ==== Sys2Proof/Machine/Dispatch.lean ====
section
/-! DEFINITION. The dispatch of an instruction to its meaning: one arm per row of spec/opcode_table.json. -/

namespace Sys2Proof.Machine

def exec (i : Instr) (s : State) : Host.Outcome State Fault Refusal :=
  match i with
  | .task => Sys2Proof.Machine.execTask s
  | .bind d => Sys2Proof.Machine.execBind d s
  | .enable ep addr => Sys2Proof.Machine.execEnable ep addr s
  | .disable ep => Sys2Proof.Machine.execDisable ep s
  | .queue ep h => Sys2Proof.Machine.execQueue ep h s
  | .dequeue ep h => Sys2Proof.Machine.execDequeue ep h s
  | .setHalt ep v => Sys2Proof.Machine.execSetHalt ep v s
  | .fifoFlush ep => Sys2Proof.Machine.execFifoFlush ep s
  | .reservedCmd cmd arg => Sys2Proof.Machine.execReservedCmd cmd arg s
  | .getStatus d r v x l => Sys2Proof.Machine.execGetStatus d r v x l s
  | .clearFeature d r v x l => Sys2Proof.Machine.execClearFeature d r v x l s
  | .setFeature d r v x l => Sys2Proof.Machine.execSetFeature d r v x l s
  | .setAddress d r v x l => Sys2Proof.Machine.execSetAddress d r v x l s
  | .setConfiguration v x l => Sys2Proof.Machine.execSetConfiguration v x l s
  | .getDescriptor d r v x l => Sys2Proof.Machine.execGetDescriptor d r v x l s
  | .forward packet => Sys2Proof.Machine.execForward packet s
  | .vbusOn => Sys2Proof.Machine.execVbusOn s
  | .reset => Sys2Proof.Machine.execReset s
  | .speedDone hs => Sys2Proof.Machine.execSpeedDone hs s
  | .suspend => Sys2Proof.Machine.execSuspend s
  | .resume => Sys2Proof.Machine.execResume s
  | .error => Sys2Proof.Machine.execError s
  | .vbusOff => Sys2Proof.Machine.execVbusOff s
  | .stallSent ep => Sys2Proof.Machine.execStallSent ep s
  | .flushReq ep => Sys2Proof.Machine.execFlushReq ep s
  | .txDone ep p => Sys2Proof.Machine.execTxDone ep p s
  | .rxReady ep p => Sys2Proof.Machine.execRxReady ep p s

end Sys2Proof.Machine
end

