-- ==== Sys2Proof/Machine/Fetch.lean ====
section
/-! DEFINITION. How a run's next step is taken from the inputs (spec/45_bus_environment.md R162, R163) and how a table
row's word is placed where the next step fetches it. -/

namespace Sys2Proof.Machine

/-- After a command the SIE finishes the status stage it can finish (R147, R176). -/
def afterCommand : Host.Outcome State Fault Refusal → Host.Outcome State Fault Refusal
  | .next t => .next t.settleStatusStage
  | .fault f => .fault f
  | .refused r => .refused r

/-- A command word and its argument on the upper port at top level: decoded, and refused or run (R73, R163). -/
def runCommand (cmd arg : Word) (s : State) : Host.Outcome State Fault Refusal :=
  match decodeCmd cmd arg with
  | .ok i => afterCommand (exec i s)
  | .error _ => .refused .reservedCommand

/-- One top-level step of a run (R162). -/
def runInput (x : Input) (s : State) : Host.Outcome State Fault Refusal :=
  match x with
  | .command cmd arg => runCommand cmd arg s
  | .move m => .next (s.move m)
  | .write w => outcome (driverWrite w) s

/-- The next step: the head of the inputs; with none left the core does nothing, since it never runs by itself (R195,
assumption 10). -/
def stepInputs (s : State) : Host.Outcome State Fault Refusal :=
  match s.inputs with
  | [] => .next s
  | x :: rest => runInput x { s with inputs := rest }

/-- An endpoint of the SIE that shows no event. -/
def SieEndpoint.quiet (e : SieEndpoint) : SieEndpoint :=
  { e with txDone := false, stallSent := false, flushReq := false, eirLatch := false, rxQueue := [], rxPos := 0 }

/-- The state whose next step is TASK, with no event pending, no move between the accesses and no upcall active. -/
def State.beforeTask (s : State) : State :=
  { s with
    dev := { s.dev with upcallDepth := 0 }
    sie := { s.sie with ssr := 0, eps := s.sie.eps.map SieEndpoint.quiet }
    betweenMoves := []
    inputs := .command 0 0 :: s.inputs }

/-- Place what the core fetches so that the very next step runs it: a command at the head of the inputs; a setup packet
staged in endpoint 0's FIFO in WAIT_FOR_SETUP, or a status word's events raised, with a TASK at the head of the inputs,
because the core meets setup packets and events only inside a TASK (R195). -/
def State.withFetched (s : State) : Fetched → State
  | .command cmd arg => { s with inputs := .command cmd arg :: s.inputs }
  | .setup packet =>
    let t := s.beforeTask
    { t with
      dev := { t.dev with ctl := .waitForSetup }
      sie := { t.sie.setEp 0 (SieEndpoint.stage ⟨setupBytes packet, false⟩) with pendingAddress := setAddressOf packet } }
  | .systemStatus ssr =>
    let t := s.beforeTask
    { t with sie := { t.sie with ssr := (ssr &&& ssrPendingMask).truncate 8, hs := ssr.getLsbD 4 } }
  | .endpointStatus ep esr =>
    let t := s.beforeTask
    { t with sie := t.sie.setEp ep.toNat fun e =>
        { e with txDone := esrTxDone esr, stallSent := esrStallSent esr, flushReq := esrFlushReq esr, eirLatch := true } }

/-- `State.withFetched` of the words a table row's value stands for. -/
def fetchTableWord (s : State) (nbits w : Nat) : State :=
  match fetchedOfTableWord nbits w with
  | none => s
  | some f => s.withFetched f

end Sys2Proof.Machine
end

