-- ==== Sys2Proof/Machine/Step.lean ====
section
/-! DEFINITION. One step of the machine, and the state that fetches a given word next. -/

namespace Sys2Proof.Machine

/-- One step of a run (R162). -/
def step (s : State) : Host.Outcome State Fault Refusal := stepInputs s

/-- The state whose next step fetches and runs the row's word, numbered as spec/opcode_table.json numbers it. -/
def State.withFetchWord (s : State) (nbits w : Nat) : State := fetchTableWord s nbits w

end Sys2Proof.Machine
end

