-- ==== Sys2Proof/Safety.lean ====
section
/-! DEFINITION. What counts as a safe state, in the terms the statements use: the invariants of the state
(spec/10_state.md, spec/43_interrupt_pump.md R154, spec/45_bus_environment.md R164 to R169), the conditions under which
the agents around the core do not interfere with a command, and what one operation of the spec does in one piece when
they do not: its register accesses put together, and each upcall answered without an action. -/

namespace Sys2Proof.Machine

/-! ### Invariants -/

/-- What the SIE keeps true of an endpoint's FIFOs (R164 to R169): no packet is longer than an 11-bit count can say, no
more packets are staged than fit, a packet half read is read up to an even offset inside it, and a packet half written
still lacks a byte. -/
structure SieEndpoint.FifoOk (fifoPkts : Nat) (e : SieEndpoint) : Prop where
  rxSizes : ∀ p ∈ e.rxQueue, p.bytes.length ≤ 2047
  rxCount : e.rxQueue.length ≤ fifoPkts
  rxEven  : e.rxPos % 2 = 0
  rxInside : e.rxPos = 0 ∨ e.rxPos < e.headLength
  txSizes : ∀ p ∈ e.txQueue, p.length ≤ 2047
  txCount : e.txQueue.length ≤ fifoPkts
  txLacks : ∀ p, e.txCur = some p → p.bytes.length < p.count.toNat

/-- What holds of a request record's counts: `actual ≤ length` at all times, and `length`, so `actual` too, is a 32-bit
unsigned number (R9, R33, R34, R182). -/
structure Request.CountsOk (r : Request) : Prop where
  order : r.actual ≤ r.length
  length : r.length < 2 ^ 32

/-- What holds of `req[STATUS_REQ]`: its two bytes, no callback, no padding (R37, R143), and `actual ≤ length` (R34). -/
structure Request.ReplyOk (r : Request) : Prop where
  buf : r.buf = .coreBytes
  callback : r.callback = none
  zero : r.zero = false
  length : r.length ≤ 2
  order : r.actual ≤ r.length

/-- What holds of the requests and the queues. -/
structure State.RequestsOk (s : State) : Prop where
  counts : ∀ p ∈ s.reqs, p.2.CountsOk
  /-- the core's own request (R37) -/
  reply : s.statusReq.ReplyOk
  /-- a request in an endpoint's queue has a record that says so; so it is in no other endpoint's (R31, R33, R35) -/
  owned : ∀ i, ∀ h ∈ (s.ep i).queue, (s.req h).queuedOn = some i
  /-- no request stands twice in a queue (R31) -/
  distinct : ∀ i, (s.ep i).queue.Nodup

/-- What holds in every state of a run, inside an upcall too. -/
structure State.Inv (s : State) : Prop where
  /-- the constraints of R8 -/
  configuration : s.cfg.wf = true
  endpoints : s.eps.length = s.numEps
  sieEndpoints : s.sie.eps.length = s.numEps
  /-- system memory is in its canonical form -/
  memory : Memory.wf s.mem
  /-- endpoint 0 is always enabled (R27) -/
  control : (s.ep 0).enabled = true
  /-- a disabled data endpoint is halted (R29) -/
  disabledHalted : ∀ i, 1 ≤ i → i < s.numEps → (s.ep i).enabled = false → (s.ep i).halted = true
  /-- `EIER` has exactly the enabled endpoints' bits (R41, R154) -/
  interrupts : ∀ k, s.sie.eier.getLsbD k = (decide (k < s.numEps) && (s.ep k).enabled)
  /-- an endpoint the SIE stalls is halted (R29, R109, R115) -/
  stalled : ∀ i, i < s.numEps → (s.sie.ep i).stall = true → (s.ep i).halted = true
  /-- `MPS[i]` is the endpoint's maximum packet size (R44) -/
  sizes : ∀ i, i < s.numEps → (s.sie.ep i).mps = (s.ep i).mps
  /-- endpoint 0's maximum packet size is that of one of the two speeds (R30) -/
  controlSize : (s.ep 0).mps = s.cfg.ep0MpsFs ∨ (s.ep 0).mps = s.cfg.ep0MpsHs
  /-- a data endpoint's maximum packet size is that of one of the two speeds (R30) -/
  dataSizes : ∀ i, 1 ≤ i → i < s.numEps → (s.ep i).mps = s.cfg.bulkMpsFs ∨ (s.ep i).mps = s.cfg.bulkMpsHs
  /-- the direction ENABLE bound is the endpoint's (R110) -/
  directions : ∀ i, 1 ≤ i → i < s.numEps → (s.ep i).enabled = true →
    (s.sie.ep i).dirIn = decide (Config.dirOf s.cfg i = .IN)
  /-- R25 (a) -/
  configured : s.dev.config ≠ 0 → s.dev.state = .configured
  requests : s.RequestsOk
  fifos : ∀ e ∈ s.sie.eps, e.FifoOk s.cfg.fifoPkts

/-- What holds besides between the top-level steps of a run. -/
structure State.AtRest (s : State) : Prop where
  inv : s.Inv
  /-- R25 (b) -/
  unconfigured : s.dev.state.belowAddress = true → ∀ i, 1 ≤ i → i < s.numEps → (s.ep i).enabled = false
  /-- no upcall is active (R23) -/
  topLevel : s.dev.upcallDepth = 0

/-! ### Agents that do not interfere -/

/-- The SIE makes no move between the register accesses to come, the class driver answers every upcall to come without
an action, and every request's buffer lies in memory (R58). -/
structure State.Undisturbed (s : State) : Prop where
  quiet : s.betweenMoves = []
  idle : ∀ r ∈ s.driverScript, r.actions = []
  buffers : ∀ h a, (s.req h).buf = .sysMem a → a.toNat + (s.req h).length ≤ s.cfg.memSize

/-! ### What an operation does in one piece -/

/-- An upcall the class driver answers without an action: its two trace entries, and one answer taken (R199, R200). -/
def State.afterUpcall (s : State) (u : Upcall) : State :=
  ((s.enterUpcall u).afterResponse).leaveUpcall (u.returns s.nextResponse.ret)

/-- Request h has ended on endpoint i with status st and its callback has run (R94). -/
def State.finished (s : State) (i : Nat) (h : Handle) (st : Status) : State :=
  match ((s.completed i h st).req h).callback with
  | none => s.completed i h st
  | some c => (s.completed i h st).afterUpcall (.complete c h)

/-- Every request queued on endpoint i has ended with status st, head first (R95). -/
def State.finishedAll (s : State) (i : Nat) (st : Status) : State :=
  (s.ep i).queue.foldl (fun t h => t.finished i h st) (s.setEp i fun e => { e with queue := [] })

/-- The SIE's record of endpoint i replaced by `f` of it. -/
def State.setSieEp (s : State) (i : Nat) (f : SieEndpoint → SieEndpoint) : State := { s with sie := s.sie.setEp i f }

/-- `EIER` bit i cleared. -/
def State.masked (s : State) (i : Nat) : State := { s with sie := { s.sie with eier := s.sie.eier &&& ~~~(bitAt i true) } }

/-- `EIER` bit i set. -/
def State.unmasked (s : State) (i : Nat) : State := { s with sie := { s.sie with eier := s.sie.eier ||| bitAt i true } }

/-- `SSR` event bit k cleared. -/
def State.systemAcked (s : State) (k : Nat) : State := { s with sie := { s.sie with ssr := s.sie.ssr &&& ~~~(1#8 <<< k) } }

/-- Whether a FIFO transfer may start on endpoint i now (R96). -/
def State.canStart (s : State) (i : Nat) : Bool :=
  !(s.ep i).halted && !(decide (i = 0) && decide (s.dev.ctl = .waitForSetup)) &&
  (match s.epDir i with
    | .IN => (s.sie.ep i).txSpace s.cfg.fifoPkts
    | .OUT => (s.sie.ep i).rxReady)

/-- Bytes `off` to `off + n - 1` of a buffer (R34, R57). -/
def State.bufferBytes (s : State) (b : Buffer) (off n : Nat) : List Byte :=
  match b with
  | .none => List.replicate n 0
  | .sysMem base => (List.range n).map fun k => s.byte (base.toNat + off + k)
  | .coreBytes => (List.range n).map fun k => s.statusByte (off + k)

/-- Bytes stored into a buffer from offset `off` on (R57). -/
def State.storeBytes (b : Buffer) (off : Nat) : List Byte → State → State
  | [], s => s
  | x :: xs, s =>
    State.storeBytes b (off + 1) xs
      (match b with
        | .none => s
        | .sysMem base => s.setByte (base.toNat + off) x
        | .coreBytes => s.setStatusByte off x)

/-- One IN packet of request h is staged on endpoint i: the next `min(length - actual, mps)` bytes of its buffer; the
request ends when the packet is the last one (R98, R99). -/
def State.sentPacket (s : State) (i : Nat) (h : Handle) : State :=
  let n := s.nextPacket i h
  let data := s.bufferBytes (s.req h).buf (s.req h).actual n
  let t := (s.setSieEp i fun e => { e with txQueue := e.txQueue ++ [data], txCur := none }).setReq h
    fun r => { r with actual := r.actual + n }
  if t.lastIn i h n then t.finished i h .ok else t

/-- The bytes of the head staged packet that have not been read. -/
def SieEndpoint.pendingBytes (e : SieEndpoint) : List Byte :=
  match e.rxQueue with
  | [] => []
  | p :: _ => p.bytes.drop e.rxPos

/-- The FIFO without its `n` oldest received packets. -/
def SieEndpoint.dropPackets (n : Nat) (e : SieEndpoint) : SieEndpoint :=
  { e with rxQueue := e.rxQueue.drop n, rxPos := if n = 0 then e.rxPos else 0 }

/-- Whether the CTL_EOT bit shows when the packet's word count has been read (R46, R165): a zero-length packet is gone
by then. -/
def SieEndpoint.eotSeen (e : SieEndpoint) : Bool := e.readWordCount.2.headEot

/-- The head staged packet of endpoint i is received into request h: what fits is stored, the rest discarded with
OverflowError, the packet leaves the FIFO; the request ends when the packet is the last one (R102 to R106). -/
def State.receivedPacket (s : State) (i : Nat) (h : Handle) : State :=
  let e := s.sie.ep i
  let r := s.req h
  let room := r.length - r.actual
  let n := min e.pendingBytes.length room
  let t := ((State.storeBytes r.buf r.actual (e.pendingBytes.take n) s).setSieEp i (SieEndpoint.dropPackets 1)).setReq h
    fun q => { q with status := if room < e.pendingBytes.length then .overflowError else q.status,
                      actual := q.actual + n }
  if e.pendingBytes.length < (s.ep i).mps.toNat ∨ (t.req h).actual = (t.req h).length ∨ (i = 0 ∧ e.eotSeen = true) then
    t.finished i h .ok
  else t

/-- The head request of endpoint i is served with one packet (R97). -/
def State.served (s : State) (i : Nat) : State :=
  match (s.ep i).queue with
  | [] => s
  | h :: _ =>
    match s.epDir i with
    | .IN => s.sentPacket i h
    | .OUT => s.receivedPacket i h

/-- Whether endpoint i has a queued request that can be served now. -/
def State.ready (s : State) (i : Nat) : Bool := !(s.ep i).queue.isEmpty && s.canStart i

/-- One packet is served if the endpoint has a request and a transfer may start. -/
def State.tried (s : State) (i : Nat) : State := if s.ready i then s.served i else s

/-- A data endpoint's interrupt service: one packet, and a second at once when two were reported (R107, R155, R156). -/
def State.serviced (s : State) (i : Nat) (psifTwo : Bool) : State :=
  if s.ready i then (if psifTwo then (s.served i).tried i else s.served i) else s

/-- Request h has been accepted by QUEUE on endpoint i (R111, from `actual <- 0` on). -/
def State.queued (s : State) (i : Nat) (h : Handle) : State :=
  let t := s.setReq h Request.begun
  if i = 0 ∧ (t.req h).length = 0 then t.finished 0 h .ok
  else
    let u := (t.setEp i fun e => { e with queue := e.queue ++ [h] }).setReq h fun r => { r with queuedOn := some i }
    if (u.ep i).queue = [h] then u.tried i else u

/-- `ECR[i].STALL <- v`: a stall that is set on endpoint 0 ends the control transfer in progress (R147, R176). -/
def State.stallWritten (s : State) (i : Nat) (v : Bool) : State :=
  { s with sie := { s.sie.setEp i fun e => { e with stall := v } with
      pendingAddress :=
        if i = 0 ∧ v = true ∧ (s.sie.ep 0).stall = false then s.sie.addressAfterStall else s.sie.pendingAddress } }

/-- Endpoint i's halt and hardware stall set to v (R115); clearing an IN endpoint resumes it. -/
def State.haltSet (s : State) (i : Nat) (v : Bool) : State :=
  let t := (s.stallWritten i v).setEp i fun e => { e with halted := v }
  if v = false ∧ t.epDir i = .IN then t.tried i else t

/-- STALL_EP0 (R109). -/
def State.stalled0 (s : State) : State :=
  (s.stallWritten 0 true).setEp 0 fun e => { e with halted := true }

/-- Data endpoint i disabled and halted, its interrupt masked (R113, R121, R146). -/
def State.shutDown (s : State) (i : Nat) : State :=
  (s.masked i).setEp i fun e => { e with enabled := false, halted := true }

/-- `dev.ctl <- c` -/
def State.withCtl (s : State) (c : Ctl) : State := s.setDev fun d => { d with ctl := c }

/-- What EP_REINIT does to endpoint i before its nuke (R108). -/
def State.reinitialized (s : State) (i : Nat) : State :=
  let m := if i = 0 then Config.ep0Mps s.cfg s.dev.speed else Config.bulkMps s.cfg s.dev.speed
  let t := if i = 0 then s.setEp 0 fun e => { e with halted := false, mps := m }
    else (s.masked i).setEp i fun e => { e with enabled := false, halted := true, mps := m }
  t.setSieEp i fun e => { e with stall := false, dirIn := false, mps := m }

/-- Every endpoint re-initialized, endpoint 0 first (R108, R122, R123). -/
def State.allReinitialized (s : State) : State := (0 :: s.dataEps).foldl State.reinitialized s

/-- The result of a setup request acted on (R136): a negative one stalls endpoint 0, and a request without data stage
is over. -/
def State.setupEnded (s : State) (S : BitVec 64) (ret : Word) : State :=
  if isNegative ret then s.stalled0.withCtl .waitForSetup
  else if setupLength S = 0 then s.withCtl .waitForSetup
  else s

/-- A setup packet handed to the class driver, or answered by the core when none is bound (R142), with the sub-state set
(R140) and the result acted on (R136). -/
def State.forwarded (s : State) (S : BitVec 64) : State :=
  let t := s.withCtl (if setupDirIn S then .xmit else .recv)
  if s.dev.driver = none then t.setupEnded S minusOne
  else (t.afterUpcall (.setup S)).setupEnded S s.nextResponse.ret

/-! ### Operands in memory -/

/-- The seven bytes at an address are an endpoint descriptor for data endpoint `ep` as the core is built: type, number,
direction, bulk transfers (R81, R110). -/
def State.descriptorMatches (s : State) (ep : BitVec 4) (addr : Word) : Prop :=
  s.byte (addr.toNat + 1) = 0x05 ∧ (s.byte (addr.toNat + 2)).extractLsb' 0 4 = ep ∧
  ((s.byte (addr.toNat + 2)).getLsbD 7 = true ↔ Config.dirOf s.cfg ep.toNat = .IN) ∧
  (s.byte (addr.toNat + 3)).extractLsb' 0 2 = 2#2

/-- `wMaxPacketSize` of the descriptor, little-endian (R56, R81). -/
def State.descriptorSize (s : State) (addr : Word) : Half := s.byte (addr.toNat + 5) ++ s.byte (addr.toNat + 4)

/-- The descriptor's size is the endpoint's, not 0, with nothing above bit 10 (R110). -/
def State.descriptorFits (s : State) (ep : BitVec 4) (addr : Word) : Prop :=
  (s.descriptorSize addr).extractLsb' 0 11 ≠ 0 ∧ (s.descriptorSize addr).extractLsb' 11 5 = 0 ∧
  (s.descriptorSize addr).extractLsb' 0 11 = (s.ep ep.toNat).mps

/-- A driver is bound, the speed is known and the state is ADDRESS or CONFIGURED (R110). -/
def State.mayEnable (s : State) : Prop :=
  s.dev.driver ≠ none ∧ s.dev.speed ≠ .unknown ∧ (s.dev.state = .address ∨ s.dev.state = .configured)

/-- A request QUEUE accepts on endpoint i: it has a buffer and is in no queue; a driver is bound and the speed is known;
a data endpoint is enabled (R111). -/
def State.mayQueue (s : State) (i : Nat) (h : Handle) : Prop :=
  (s.req h).buf ≠ .none ∧ (s.req h).queuedOn = none ∧ s.dev.driver ≠ none ∧ s.dev.speed ≠ .unknown ∧
  (i ≠ 0 → (s.ep i).enabled = true)

/-- Endpoint i exists, and is endpoint 0 or enabled: its events are handled (R154). -/
def State.serves (s : State) (i : Nat) : Prop := i < s.numEps ∧ (i = 0 ∨ (s.ep i).enabled = true)

/-- How many packets a drain of endpoint i takes: those staged now, at most two (R116). -/
def State.stagedPackets (s : State) (i : Nat) : Nat :=
  if (s.sie.ep i).rxQueue = [] then 0 else if (s.sie.ep i).psifTwo s.cfg.fifoPkts then 2 else 1

/-! ### Several instructions in a row -/

/-- The instructions of a list executed in order; the first that does not answer a next state ends the run. -/
def execAll : List Instr → State → Host.Outcome State Fault Refusal
  | [], s => .next s
  | i :: is, s =>
    match exec i s with
    | .next t => execAll is t
    | .fault f => .fault f
    | .refused r => .refused r

/-- An upcall, whatever the class driver's answer to it does (R199, R200). -/
def upcalled (u : Upcall) (s : State) : Host.Outcome State Fault Refusal := outcome (withUpcalls fun up => up u) s

/-- The actions of a class driver's answer, each command executed as an instruction (R177). -/
def runActions : List DriverAction → State → Host.Outcome State Fault Refusal
  | [], s => .next s
  | .command cmd arg :: rest, s =>
    match decodeCmd cmd arg with
    | .error _ => .refused .reservedCommand
    | .ok i =>
      match exec i s with
      | .next t => runActions rest t
      | .fault f => .fault f
      | .refused r => .refused r
  | .write w :: rest, s =>
    match outcome (driverWrite w) s with
    | .next t => runActions rest t
    | .fault f => .fault f
    | .refused r => .refused r

/-- The state after TASK's three samples (R151). -/
def State.sampled (s : State) : State := ((s.afterRead .ssr).afterRead .eir).afterRead .eier

/-- The `SSR` value TASK samples. -/
def State.sampledSsr (s : State) : Word := s.readValue .ssr

/-- The `EIR` value TASK samples. -/
def State.sampledEir (s : State) : Word := (s.afterRead .ssr).readValue .eir

/-- The `EIER` value TASK samples. -/
def State.sampledEier (s : State) : Word := ((s.afterRead .ssr).afterRead .eir).readValue .eier

/-- Endpoint i's turn in a TASK that sampled its `EIR` bit as 1: the bit is acknowledged and, unless the endpoint is a
data endpoint not enabled now, its status is read once and its events run as instructions (R154). -/
def endpointPass (i : Nat) (s : State) : Host.Outcome State Fault Refusal :=
  let t := s.afterWrite .eir (bitAt i true)
  if endpointServed t i then
    execAll (decodeEsr (BitVec.ofNat 4 i) (Config.dirOf t.cfg i) (t.readValue (.esr i))) (t.afterRead (.esr i))
  else .next t

/-- The endpoints of a list in order, those whose sampled `EIR` bit is 1 (R154). -/
def endpointPasses (eir : Word) : List Nat → State → Host.Outcome State Fault Refusal
  | [], s => .next s
  | i :: is, s =>
    if eir.getLsbD i then
      match endpointPass i s with
      | .next t => endpointPasses eir is t
      | .fault f => .fault f
      | .refused r => .refused r
    else endpointPasses eir is s

end Sys2Proof.Machine
end

