-- ==== Sys2Proof/Certificates/Slice0/Obligations.lean ====
section
/-! DEFINITION. The statements for the provers.  Where a premise is `s.Undisturbed` the SIE makes no move between the
accesses of the command and the class driver answers without an action; every other statement holds whatever the class
driver and the SIE do. -/

section
open Sys2Proof Sys2Proof.Machine

/-! ### Encodings -/

/-- O1.  Decoding the words of a well-formed instruction gives the instruction back: no operand bit of R71, R72, R75,
R83, R84 is dropped. -/
def Obligations.DecodeAfterEncode : Prop :=
  ∀ i : Instr, i.wf = true → decode (encode i) = .ok i

/-- O2.  A command word that decodes, and every setup packet, is the encoding of what it decodes to; what it decodes to
is well-formed, but for BIND 0, which BIND refuses (R72, R75, R87, R90, R117). -/
def Obligations.EncodeAfterDecode : Prop :=
  (∀ (cmd arg : Word) (i : Instr), decodeCmd cmd arg = .ok i →
    encode i = .command cmd arg ∧ (i.wf = true ∨ i = .bind 0)) ∧
  (∀ S : BitVec 64, encode (decodeSetup S) = .setup S ∧ (decodeSetup S).wf = true)

/-- O3.  The SETUP row that takes a packet, by type, request code and request type (R76, R78, R87, R141). -/
def Obligations.SetupRowsByFields : Prop :=
  ∀ S : BitVec 64,
    (setupType S = 0#2 → setupRequest S = 0x00 → decodeSetup S =
      .getStatus (setupDirIn S) (setupRecipient S) (setupValue S) (setupIndex S) (setupLength S)) ∧
    (setupType S = 0#2 → setupRequest S = 0x01 → decodeSetup S =
      .clearFeature (setupDirIn S) (setupRecipient S) (setupValue S) (setupIndex S) (setupLength S)) ∧
    (setupType S = 0#2 → setupRequest S = 0x03 → decodeSetup S =
      .setFeature (setupDirIn S) (setupRecipient S) (setupValue S) (setupIndex S) (setupLength S)) ∧
    (setupType S = 0#2 → setupRequest S = 0x05 → decodeSetup S =
      .setAddress (setupDirIn S) (setupRecipient S) (setupValue S) (setupIndex S) (setupLength S)) ∧
    (setupType S = 0#2 → setupRequest S = 0x06 → decodeSetup S =
      .getDescriptor (setupDirIn S) (setupRecipient S) (setupValue S) (setupIndex S) (setupLength S)) ∧
    (setupRequestType S = 0x00 → setupRequest S = 0x09 → decodeSetup S =
      .setConfiguration (setupValue S) (setupIndex S) (setupLength S)) ∧
    (¬(setupType S = 0#2 ∧ (setupRequest S = 0x00 ∨ setupRequest S = 0x01 ∨ setupRequest S = 0x03 ∨
        setupRequest S = 0x05 ∨ setupRequest S = 0x06)) →
      ¬(setupRequestType S = 0x00 ∧ setupRequest S = 0x09) → decodeSetup S = .forward S)

/-- O4.  Words and packets written in spec/95_test_vectors.md (section 0 and V1.1) decode to what they stand for (R72,
R75, R78, R83). -/
def Obligations.SpecWordsDecode : Prop :=
  decodeCmd 0x00000000 0 = .ok .task ∧ decodeCmd 0x00000001 1 = .ok (.bind 1) ∧
  decodeCmd 0x00000012 0x1000 = .ok (.enable 1 0x1000) ∧ decodeCmd 0x00000023 0 = .ok (.disable 2) ∧
  decodeCmd 0x00000014 2 = .ok (.queue 1 2) ∧ decodeCmd 0x00000015 2 = .ok (.dequeue 1 2) ∧
  decodeCmd 0x00000116 0 = .ok (.setHalt 1 true) ∧ decodeCmd 0x00000027 0 = .ok (.fifoFlush 2) ∧
  decodeSetup (setupOfBytes [0x80, 0x06, 0x00, 0x01, 0x00, 0x00, 0x40, 0x00]) =
    .getDescriptor true 0 0x0100 0 0x0040 ∧
  decodeSsr 0x00000008 = [.speedDone false]

/-- O5.  What is refused: reserved and ill-formed command words, BIND 0, QUEUE and DEQUEUE of a handle without a record,
TASK and BIND inside an upcall, class-driver writes to a queued request's record or buffer (R73, R197).  That BIND 0
inside an upcall is a ReservedCommand too, and no ReentrantTask, is the model's choice (assumption 25). -/
def Obligations.RefusedCommandsAndActions : Prop :=
  (∀ (cmd arg : Word) (s : State),
    (8 ≤ (cmdOpc cmd).toNat ∨ cmdRsv cmd ≠ 0 ∨ (cmdV cmd = true ∧ cmdOpc cmd ≠ 6#4) ∨
      (cmdEp cmd ≠ 0 ∧ (cmdOpc cmd = 0#4 ∨ cmdOpc cmd = 1#4)) ∨
      (arg ≠ 0 ∧ (cmdOpc cmd = 0#4 ∨ cmdOpc cmd = 3#4 ∨ cmdOpc cmd = 6#4 ∨ cmdOpc cmd = 7#4)) ∨
      (arg = 0 ∧ cmdOpc cmd = 1#4)) →
    runCommand cmd arg s = .refused .reservedCommand) ∧
  (∀ (cmd arg : Word) (s : State), exec (.reservedCmd cmd arg) s = .refused .reservedCommand) ∧
  (∀ (ep : BitVec 4) (h : Word) (s : State), findRequest h s.reqs = none →
    exec (.queue ep h) s = .refused .unknownHandle ∧ exec (.dequeue ep h) s = .refused .unknownHandle) ∧
  (∀ s : State, 0 < s.dev.upcallDepth →
    exec .task s = .refused .reentrantTask ∧ ∀ d : Word, d ≠ 0 → exec (.bind d) s = .refused .reentrantTask) ∧
  (∀ (h : Word) (r : Request) (s : State), findRequest h s.reqs = some r → r.queuedOn ≠ none →
    (∀ buf, outcome (driverWrite (.reqBuf h buf)) s = .refused .ownershipViolation) ∧
    (∀ length, outcome (driverWrite (.reqLength h length)) s = .refused .ownershipViolation) ∧
    (∀ zero, outcome (driverWrite (.reqZero h zero)) s = .refused .ownershipViolation) ∧
    (∀ cb, outcome (driverWrite (.reqCallback h cb)) s = .refused .ownershipViolation)) ∧
  (∀ (h : Word) (r : Request) (base addr : Word) (b : Byte) (s : State), (h, r) ∈ s.reqs → r.queuedOn ≠ none →
    r.buf = .sysMem base → base.toNat ≤ addr.toNat → addr.toNat < base.toNat + r.length →
    outcome (driverWrite (.memByte addr b)) s = .refused .ownershipViolation)

/-! ### A step, a TASK, an upcall -/

/-- O6.  A step takes the first input: a command word that decodes is executed as its instruction, after which the SIE
finishes the status stage it can finish; a word that does not decode is refused; a move and a class-driver write take
effect (R162, R163, R195).  The status stage of a SET_ADDRESS whose setup packet has been read (what is left in endpoint
0's FIFO was staged behind it): once the sub-state is WAIT_FOR_SETUP the address becomes the SIE's, and it is forgotten
when endpoint 0 is stalled, by the write that sets STALL or found so then; a stall before the packet is read is not that
transfer's (R147, R176; that the stage is done at the end of a command is the model's choice, assumption 8).  That a move which is not enabled answers the
same state is the model's choice (assumption 7), and so is that nothing happens with no input left (assumption 10). -/
def Obligations.StepRunsTheInput : Prop :=
  ∀ (s : State) (rest : List Input),
    (∀ (cmd arg : Word) (i : Instr), s.inputs = .command cmd arg :: rest → decodeCmd cmd arg = .ok i →
      (∀ t, exec i { s with inputs := rest } = .next t → step s = .next t.settleStatusStage) ∧
      (∀ f, exec i { s with inputs := rest } = .fault f → step s = .fault f) ∧
      (∀ r, exec i { s with inputs := rest } = .refused r → step s = .refused r)) ∧
    (∀ (cmd arg : Word) (e : Reject), s.inputs = .command cmd arg :: rest → decodeCmd cmd arg = .error e →
      step s = .refused .reservedCommand) ∧
    (∀ m : Move, s.inputs = .move m :: rest → step s = .next (({ s with inputs := rest } : State).move m)) ∧
    (∀ w : DriverWrite, s.inputs = .write w :: rest → step s = outcome (driverWrite w) { s with inputs := rest }) ∧
    (s.inputs = [] → step s = .next s) ∧
    (s.sie.pendingAddress = none → s.settleStatusStage = s) ∧
    (∀ p : PendingAddress, s.sie.pendingAddress = some p →
      let read : Prop := (s.sie.ep 0).rxQueue.length ≤ p.behind
      (read → (s.sie.ep 0).stall = false → s.dev.ctl = .waitForSetup →
        s.settleStatusStage = { s with sie := { s.sie with sieAddress := p.address, pendingAddress := none } }) ∧
      (read → (s.sie.ep 0).stall = true →
        s.settleStatusStage = { s with sie := { s.sie with pendingAddress := none } }) ∧
      (¬read ∨ ((s.sie.ep 0).stall = false ∧ s.dev.ctl ≠ .waitForSetup) → s.settleStatusStage = s) ∧
      (∀ v : Word, (read → v.getLsbD 0 = true → (s.sie.ep 0).stall = false →
          (Sie.write s.cfg s.sie (.ecr 0) v).pendingAddress = none) ∧
        (¬read ∨ v.getLsbD 0 = false ∨ (s.sie.ep 0).stall = true →
          (Sie.write s.cfg s.sie (.ecr 0) v).pendingAddress = some p)))

/-- O7.  TASK reads SSR, EIR and EIER once; with no pending event it returns OK; otherwise it executes the system events
the sample shows, in order, then the turn of each endpoint whose sampled EIR bit is 1, and returns OK; when the agents
around the core do not interfere, all of these complete (R151 to R154).  The system events by their bits, in order:
VBUS_ON, RESET, SPEED_DONE with the HS level, SUSPEND, RESUME, ERROR, VBUS_OFF (R83, R153).  An endpoint's events:
STALL_SENT alone; else endpoint 0's FLUSH_REQ, TX_DONE, RX_READY (R84, R131), a data IN endpoint's TX_DONE (R155), a data
OUT endpoint's FLUSH_REQ alone or else RX_READY (R156, R157, R158).  That D65's events of the wrong direction, IN's
FLUSH_REQ and OUT's TX_DONE, come where endpoint 0's order has them is the model's choice (assumption 30). -/
def Obligations.TaskRunsItsEvents : Prop :=
  (∀ ssr : Word, decodeSsr ssr =
    ([(0, Instr.vbusOn), (2, .reset), (3, .speedDone (ssr.getLsbD 4)), (5, .suspend), (6, .resume), (7, .error),
      (1, .vbusOff)].filter fun e => ssr.getLsbD e.1).map fun e => e.2) ∧
  (∀ (ep : BitVec 4) (dir : Dir) (esr : Word), decodeEsr ep dir esr =
    let two := esr.getLsbD 3
    let order : List (Nat × Instr) :=
      if esr.getLsbD 4 then [(4, .stallSent ep)]
      else if ep = 0 then [(5, .flushReq ep), (1, .txDone ep two), (0, .rxReady ep two)]
      else if dir = .IN then [(5, .flushReq ep), (1, .txDone ep two)]
      else if esr.getLsbD 5 then [(5, .flushReq ep)]
      else [(1, .txDone ep two), (0, .rxReady ep two)]
    (order.filter fun e => esr.getLsbD e.1).map fun e => e.2) ∧
  ∀ s : State, s.dev.upcallDepth = 0 →
    (s.sampledSsr &&& 0xEF = 0 ∧ s.sampledEir &&& s.sampledEier &&& epMask s.numEps = 0 →
      exec .task s = .next (s.sampled.returned .ok)) ∧
    (∀ t u : State, ¬(s.sampledSsr &&& 0xEF = 0 ∧ s.sampledEir &&& s.sampledEier &&& epMask s.numEps = 0) →
      execAll (decodeSsr s.sampledSsr) s.sampled = .next t →
      endpointPasses s.sampledEir (List.range s.numEps) t = .next u → exec .task s = .next (u.returned .ok)) ∧
    (s.Inv → s.Undisturbed → ¬(s.sampledSsr &&& 0xEF = 0 ∧ s.sampledEir &&& s.sampledEier &&& epMask s.numEps = 0) →
      ∃ t u : State, execAll (decodeSsr s.sampledSsr) s.sampled = .next t ∧
        endpointPasses s.sampledEir (List.range s.numEps) t = .next u ∧ exec .task s = .next (u.returned .ok))

/-- O8.  A TASK when no system event is pending and every enabled endpoint has its latch at 0 and no staged packet
changes nothing but the result: endpoints that are not enabled do not count (R151, R152, R166). -/
def Obligations.TaskIsACheapPoll : Prop :=
  ∀ s : State, s.Inv → s.betweenMoves = [] → s.dev.upcallDepth = 0 → s.sie.ssr &&& 0xEF = 0 →
    (∀ i, i < s.numEps → (s.ep i).enabled = true → (s.sie.ep i).eirLatch = false ∧ (s.sie.ep i).rxQueue = []) →
    exec .task s = .next (s.returned .ok)

/-- O9.  An upcall: entry, the class driver's actions in order, each command executed as its instruction, and return; a
refusal inside ends it, which is how the model reads R197's refused nested command (assumption 15) (R177, R179, R199,
R200). -/
def Obligations.UpcallRunsItsActions : Prop :=
  ∀ (u : Upcall) (s : State),
    (∀ t, runActions s.nextResponse.actions (s.enterUpcall u).afterResponse = .next t →
      upcalled u s = .next (t.leaveUpcall (u.returns s.nextResponse.ret))) ∧
    (∀ r, runActions s.nextResponse.actions (s.enterUpcall u).afterResponse = .refused r → upcalled u s = .refused r)

/-- O10.  An upcall's entry raises the depth by one and changes nothing else; a whole instruction, with every upcall it
makes at any depth, leaves the depth as it was (R23, R199, R200). -/
def Obligations.UpcallDepthBalanced : Prop :=
  (∀ (u : Upcall) (s : State), s.enterUpcall u =
    { s with dev := { s.dev with upcallDepth := s.dev.upcallDepth + 1 }, trace := s.trace ++ [.upcall u] }) ∧
  (∀ (i : Instr) (s t : State), exec i s = .next t → t.dev.upcallDepth = s.dev.upcallDepth)

/-! ### The lower-port registers -/

/-- O11.  The core's reads as the SIE takes them (R169). -/
def Obligations.RegisterReads : Prop :=
  ∀ (c : Config) (x : Sie) (i : Nat), i < x.eps.length →
    (∀ p rest, (x.ep i).rxQueue = p :: rest →
      (Sie.read c x (.fifo i)).1 =
        (p.bytes.getD ((x.ep i).rxPos + 1) 0 ++ p.bytes.getD (x.ep i).rxPos 0 : Half).zeroExtend 32 ∧
      (Sie.read c x (.fifo i)).2 = x.setEp i fun e =>
        if p.bytes.length ≤ e.rxPos + 2 then { e with rxQueue := rest, rxPos := 0 } else { e with rxPos := e.rxPos + 2 }) ∧
    ((x.ep i).rxQueue = [] → Sie.read c x (.fifo i) = (0, x)) ∧
    (∀ p rest, (x.ep i).rxQueue = p :: rest → p.bytes = [] →
      Sie.read c x (.rxWcnt i) = (0, x.setEp i fun e => { e with rxQueue := rest, rxPos := 0 })) ∧
    (∀ p rest, (x.ep i).rxQueue = p :: rest → p.bytes ≠ [] → (Sie.read c x (.rxWcnt i)).2 = x) ∧
    ((x.ep i).rxQueue = [] → (Sie.read c x (.rxWcnt i)).2 = x) ∧
    (∀ r, r ∈ [Reg.ssr, .eir, .eier, .esr i, .ecr i, .mps i, .txBcnt i] → (Sie.read c x r).2 = x)

/-- O12.  The levels the core reads, computed from the SIE's state (R165). -/
def Obligations.StatusLevels : Prop :=
  ∀ (c : Config) (x : Sie) (i : Nat), i < x.eps.length → (x.ep i).FifoOk c.fifoPkts →
    let e := x.ep i
    let esr := (Sie.read c x (.esr i)).1
    let head := e.rxQueue.head?
    (Sie.read c x .ssr).1.getLsbD 4 = x.hs ∧
    (esr.getLsbD 0 = true ↔ e.rxQueue ≠ []) ∧
    (esr.getLsbD 2 = true ↔ ∃ p, head = some p ∧ p.bytes.length % 2 = 1) ∧
    (esr.getLsbD 3 = true ↔
      if e.dirIn then 2 ≤ c.fifoPkts - e.txQueue.length - (if e.txCur = none then 0 else 1) else 2 ≤ e.rxQueue.length) ∧
    (esr.getLsbD 7 = true ↔ e.txQueue.length < c.fifoPkts ∧ e.txCur = none) ∧
    (esr.getLsbD 6 = true ↔ i = 0 ∧ ∃ p, head = some p ∧ p.eot = true) ∧
    (Sie.read c x (.rxWcnt i)).1.toNat =
      match head with
      | none => 0
      | some p => (p.bytes.length + 1) / 2 - e.rxPos / 2

/-- O13.  A W1C bit is cleared by a 1 and kept by a 0, and nothing else of the SIE changes; EIR reads the latch or a
staged packet (R39, R42, R62, R166). -/
def Obligations.WriteOneToClear : Prop :=
  ∀ (c : Config) (x : Sie) (v : Word) (i : Nat), x.eps.length ≤ 16 → i < x.eps.length →
    (∀ k, k < 8 → (Sie.write c x .ssr v).ssr.getLsbD k = (x.ssr.getLsbD k && !v.getLsbD k)) ∧
    { Sie.write c x .ssr v with ssr := x.ssr } = x ∧
    ((Sie.write c x .eir v).ep i = { x.ep i with eirLatch := (x.ep i).eirLatch && !v.getLsbD i }) ∧
    { Sie.write c x .eir v with eps := x.eps } = x ∧
    Sie.write c x (.esr i) v = x.setEp i (fun e =>
      { e with txDone := e.txDone && !v.getLsbD 1, stallSent := e.stallSent && !v.getLsbD 4,
               flushReq := e.flushReq && !v.getLsbD 5 }) ∧
    ((Sie.read c x .eir).1.getLsbD i = true ↔ (x.ep i).eirLatch = true ∨ (x.ep i).rxQueue ≠ []) ∧
    (∀ k, x.eps.length ≤ k → (Sie.read c x .eir).1.getLsbD k = false)

/-- O14.  What a register that can be written reads as after the write: EIER keeps bits 1 to N-1 and bit 0 is 1; ECR
keeps STALL and DIR_IN, FLUSH reads 0; MPS keeps bits 10:0; TX_BCNT reads 0 (R41, R43, R44, R45, R167). -/
def Obligations.WrittenRegistersReadBack : Prop :=
  ∀ (c : Config) (x : Sie) (v : Word) (i : Nat), c.numEndpoints ≤ 16 → i < x.eps.length →
    (∀ k, (Sie.read c (Sie.write c x .eier v) .eier).1.getLsbD k =
      (decide (k = 0) || (decide (k < c.numEndpoints) && v.getLsbD k))) ∧
    (Sie.read c (Sie.write c x (.ecr i) v) (.ecr i)).1 = v &&& 0x5 ∧
    (Sie.read c (Sie.write c x (.mps i) v) (.mps i)).1 = v &&& 0x7FF ∧
    (Sie.read c (Sie.write c x (.txBcnt i) v) (.txBcnt i)).1 = 0

/-! ### Commands -/

/-- O15.  A command on an endpoint index of N or more returns RangeError and changes nothing (R74). -/
def Obligations.EndpointIndexOutOfRange : Prop :=
  ∀ (ep : BitVec 4) (s : State), s.numEps ≤ ep.toNat →
    (∀ addr, exec (.enable ep addr) s = .next (s.returned .rangeError)) ∧
    exec (.disable ep) s = .next (s.returned .rangeError) ∧
    (∀ h, s.hasRequest h = true → exec (.queue ep h) s = .next (s.returned .rangeError)) ∧
    (∀ h, s.hasRequest h = true → exec (.dequeue ep h) s = .next (s.returned .rangeError)) ∧
    (∀ v, exec (.setHalt ep v) s = .next (s.returned .rangeError)) ∧
    exec (.fifoFlush ep) s = .next (s.returned .rangeError)

/-- O16.  A command that returns an error status has changed no state: only the result port and the run's trace show it
(R191). -/
def Obligations.ErrorsChangeNothing : Prop :=
  ∀ (cmd arg : Word) (i : Instr) (s t : State), decodeCmd cmd arg = .ok i → exec i s = .next t → t.result ≠ .ok →
    t = s.returned t.result

/-- O17.  BIND: refused for driver 0 and inside an upcall, InvalidArgument with a driver bound, otherwise the driver is
recorded, `init` is called, whatever the class driver does in it, and the result is OK (R117, R197).  That the check of
the driver comes before the check of the upcall depth is the model's choice (assumption 25). -/
def Obligations.BindRegistersTheDriver : Prop :=
  ∀ (d : Word) (s : State),
    (d = 0 → exec (.bind d) s = .refused .reservedCommand) ∧
    (d ≠ 0 → 0 < s.dev.upcallDepth → exec (.bind d) s = .refused .reentrantTask) ∧
    (d ≠ 0 → s.dev.upcallDepth = 0 → s.dev.driver ≠ none → exec (.bind d) s = .next (s.returned .invalidArgument)) ∧
    (d ≠ 0 → s.dev.upcallDepth = 0 → s.dev.driver = none →
      (∀ t, upcalled .init (s.setDev fun v => { v with driver := some d }) = .next t →
        exec (.bind d) s = .next (t.returned .ok)) ∧
      (s.nextResponse.actions = [] → exec (.bind d) s =
        .next (((s.setDev fun v => { v with driver := some d }).afterUpcall .init).returned .ok)))

/-- O18.  ENABLE's checks on a data endpoint, in order: the descriptor, its size, the device; endpoint 0 is refused with
InvalidArgument (R81, R110, R190). -/
def Obligations.EnableChecksInOrder : Prop :=
  ∀ (ep : BitVec 4) (addr : Word) (s : State), ep.toNat < s.numEps →
    (ep = 0 → exec (.enable ep addr) s = .next (s.returned .invalidArgument)) ∧
    (ep ≠ 0 → addr.toNat + 7 ≤ s.cfg.memSize →
      (¬s.descriptorMatches ep addr → exec (.enable ep addr) s = .next (s.returned .invalidArgument)) ∧
      (s.descriptorMatches ep addr → ¬s.descriptorFits ep addr →
        exec (.enable ep addr) s = .next (s.returned .rangeError)) ∧
      (s.descriptorMatches ep addr → s.descriptorFits ep addr → ¬s.mayEnable →
        exec (.enable ep addr) s = .next (s.returned .shutdownError)))

/-- O19.  ENABLE's success: direction and size in the registers, STALL clear, the endpoint enabled and not halted, its
interrupt unmasked, and an IN endpoint's pending work resumed (R110). -/
def Obligations.EnableBindsTheEndpoint : Prop :=
  ∀ (ep : BitVec 4) (addr : Word) (s : State), s.Inv → s.Undisturbed → ep ≠ 0 → ep.toNat < s.numEps →
    addr.toNat + 7 ≤ s.cfg.memSize → s.descriptorMatches ep addr → s.descriptorFits ep addr → s.mayEnable →
    let i := ep.toNat
    let t := ((s.setSieEp i fun e =>
      { e with stall := false, dirIn := decide (Config.dirOf s.cfg i = .IN), mps := (s.ep i).mps }).setEp i
        fun e => { e with enabled := true, halted := false }).unmasked i
    exec (.enable ep addr) s = .next ((if Config.dirOf s.cfg i = .IN then t.tried i else t).returned .ok)

/-- O20.  A descriptor that extends past memory is a ModelFault that records the command and an address (R183, R198).
That the address is the first one outside memory is the model's choice (assumption 26). -/
def Obligations.EnablePastMemoryFaults : Prop :=
  ∀ (ep : BitVec 4) (addr : Word) (s : State), ep ≠ 0 → ep.toNat < s.numEps → s.cfg.memSize < addr.toNat + 7 →
    exec (.enable ep addr) s = .fault (.modelFault (some (.enable ep addr)) (max addr.toNat s.cfg.memSize))

/-- O21.  DISABLE: a data endpoint is masked, disabled and halted, then its requests end with ShutdownError, head first;
endpoint 0 is refused with InvalidArgument (R113). -/
def Obligations.DisableShutsTheEndpoint : Prop :=
  ∀ (ep : BitVec 4) (s : State), ep.toNat < s.numEps →
    (ep = 0 → exec (.disable ep) s = .next (s.returned .invalidArgument)) ∧
    (ep ≠ 0 → s.Inv → s.Undisturbed →
      exec (.disable ep) s = .next (((s.shutDown ep.toNat).finishedAll ep.toNat .shutdownError).returned .ok))

/-- O22.  QUEUE's checks in order: no buffer or already queued, no driver or unknown speed, data endpoint not enabled
(R111, R112, R190). -/
def Obligations.QueueChecksInOrder : Prop :=
  ∀ (ep : BitVec 4) (h : Word) (s : State), ep.toNat < s.numEps → s.hasRequest h = true →
    ((s.req (.user h)).buf = .none ∨ (s.req (.user h)).queuedOn ≠ none →
      exec (.queue ep h) s = .next (s.returned .invalidArgument)) ∧
    ((s.req (.user h)).buf ≠ .none → (s.req (.user h)).queuedOn = none →
      (s.dev.driver = none ∨ s.dev.speed = .unknown ∨ (ep ≠ 0 ∧ (s.ep ep.toNat).enabled = false)) →
      exec (.queue ep h) s = .next (s.returned .shutdownError))

/-- O23.  QUEUE's success: a zero-length request on endpoint 0 ends at once; any other is appended, and served with one
packet when it is alone and a transfer may start (R111). -/
def Obligations.QueueAcceptsTheRequest : Prop :=
  ∀ (ep : BitVec 4) (h : Word) (s : State), s.Inv → s.Undisturbed → ep.toNat < s.numEps → s.hasRequest h = true →
    s.mayQueue ep.toNat (.user h) → exec (.queue ep h) s = .next ((s.queued ep.toNat (.user h)).returned .ok)

/-- O24.  The first packet of an IN request: the next `min(length, mps)` bytes of its buffer are staged whole, `actual`
counts them, and the request ends when the packet is short or exact without padding; memory is only read (R98, R99,
R111). -/
def Obligations.QueueSendsTheFirstPacket : Prop :=
  ∀ (ep : BitVec 4) (h base : Word) (s : State), s.Inv → s.Undisturbed → ep ≠ 0 → ep.toNat < s.numEps →
    s.hasRequest h = true → s.mayQueue ep.toNat (.user h) → (s.req (.user h)).buf = .sysMem base →
    Config.dirOf s.cfg ep.toNat = .IN → (s.ep ep.toNat).halted = false → (s.ep ep.toNat).queue = [] →
    (s.sie.ep ep.toNat).txCur = none → (s.sie.ep ep.toNat).txQueue.length < s.cfg.fifoPkts →
    let i := ep.toNat
    let r := s.req (.user h)
    let n := min r.length (s.ep i).mps.toNat
    let last : Bool := decide (n < (s.ep i).mps.toNat) || (decide (n = r.length) && !r.zero)
    ∃ t, exec (.queue ep h) s = .next t ∧ t.result = .ok ∧
      (t.sie.ep i).txQueue = (s.sie.ep i).txQueue ++ [(List.range n).map fun k => s.byte (base.toNat + k)] ∧
      (t.req (.user h)).actual = n ∧
      (t.req (.user h)).status = (if last then .ok else .inProgress) ∧
      (t.req (.user h)).queuedOn = (if last then none else some i) ∧
      (t.ep i).queue = (if last then [] else [.user h]) ∧ ∀ a, t.byte a = s.byte a

/-- O25.  DEQUEUE: InvalidArgument for a request not in the endpoint's queue; otherwise the request leaves the queue
wherever it stands and ends with ConnectionReset, no register and no byte of memory changes, and endpoint 0's sub-state
returns to WAIT_FOR_SETUP (R94, R114). -/
def Obligations.DequeueEndsTheRequest : Prop :=
  ∀ (ep : BitVec 4) (h : Word) (s : State), ep.toNat < s.numEps → s.hasRequest h = true →
    ((s.req (.user h)).queuedOn ≠ some ep.toNat →
      exec (.dequeue ep h) s = .next (s.returned .invalidArgument)) ∧
    ((s.req (.user h)).queuedOn = some ep.toNat → s.Inv → s.Undisturbed →
      ∃ t, exec (.dequeue ep h) s = .next t ∧ t = (s.finished ep.toNat (.user h) .connectionReset).returned .ok ∧
        (t.ep ep.toNat).queue = (s.ep ep.toNat).queue.erase (.user h) ∧
        t.req (.user h) = { s.req (.user h) with queuedOn := none, status := .connectionReset } ∧
        t.dev.ctl = (if ep = 0 then .waitForSetup else s.dev.ctl) ∧ t.sie = s.sie ∧ t.mem = s.mem ∧
        (∀ g, g ≠ Handle.user h → t.req g = s.req g) ∧ ∀ j, j ≠ ep.toNat → t.ep j = s.ep j)

/-- O26.  SET_HALT: its errors in order, and its success: `ECR[i].STALL` and the halt flag take the value, and clearing
them resumes an IN endpoint's pending work (R115, R190). -/
def Obligations.SetHaltStallsTheEndpoint : Prop :=
  ∀ (ep : BitVec 4) (v : Bool) (s : State), ep.toNat < s.numEps →
    (ep ≠ 0 → (s.ep ep.toNat).enabled = false → exec (.setHalt ep v) s = .next (s.returned .invalidArgument)) ∧
    ((ep = 0 ∨ (s.ep ep.toNat).enabled = true) →
      (v = true ∧ s.epDir ep.toNat = .IN ∧ (s.ep ep.toNat).queue ≠ [] →
        exec (.setHalt ep v) s = .next (s.returned .tryAgainError)) ∧
      (¬(v = true ∧ s.epDir ep.toNat = .IN ∧ (s.ep ep.toNat).queue ≠ []) → s.Inv → s.Undisturbed →
        exec (.setHalt ep v) s = .next ((s.haltSet ep.toNat v).returned .ok)))

/-- O27.  FIFO_FLUSH: an IN endpoint's staged and half-written packets are discarded; an OUT endpoint's staged packets,
at most two, are drained; no queue and no request changes (R116). -/
def Obligations.FifoFlushDiscards : Prop :=
  ∀ (ep : BitVec 4) (s : State), s.Inv → s.betweenMoves = [] → ep.toNat < s.numEps →
    (s.epDir ep.toNat = .IN → exec (.fifoFlush ep) s =
      .next ((s.setSieEp ep.toNat fun e => { e with txQueue := [], txCur := none }).returned .ok)) ∧
    (s.epDir ep.toNat = .OUT → exec (.fifoFlush ep) s =
      .next ((s.setSieEp ep.toNat (SieEndpoint.dropPackets (s.stagedPackets ep.toNat))).returned .ok))

/-! ### Setup requests -/

/-- O28.  GET_STATUS: resolved for the device, an interface and an endpoint below N, read direction only; the two reply
bytes are the status little-endian, at most wLength of them; QUEUE's error stalls endpoint 0; anything else is forwarded
(R136, R140, R143).  That an old `actual` above the new length is cut to it, which R34 needs, is the model's choice
(assumption 21); an accepted request's is 0 at once. -/
def Obligations.GetStatusReplies : Prop :=
  ∀ (d : Bool) (rcpt : BitVec 5) (v x l : Half) (s : State), s.Inv → s.Undisturbed →
    let S := setupWord (standardType d rcpt) 0x00 v x l
    let e := (x.extractLsb' 0 4).toNat
    let answer : Option Half :=
      if d = false then none
      else if rcpt = 0 then some s.cfg.deviceStatus
      else if rcpt = 1 then some 0
      else if rcpt = 2 ∧ e < s.numEps then some (if (s.ep e).halted then 1 else 0)
      else none
    exec (.getStatus d rcpt v x l) s = .next (match answer with
      | none => s.forwarded S
      | some w =>
        let t := { s.withCtl .xmit with
          statusBytes := (w.extractLsb' 0 8, w.extractLsb' 8 8)
          statusReq := { s.statusReq with
            length := min 2 l.toNat, zero := false, actual := min s.statusReq.actual (min 2 l.toNat) } }
        if s.statusReq.queuedOn ≠ none then t.setupEnded S Status.invalidArgument.code
        else if s.dev.driver = none ∨ s.dev.speed = .unknown then t.setupEnded S Status.shutdownError.code
        else (t.queued 0 .statusReq).setupEnded S 0)

/-- O29.  CLEAR_FEATURE and SET_FEATURE of ENDPOINT_HALT for an endpoint below N do SET_HALT, whose error is ignored, and
succeed; any other feature request is forwarded (R136, R140, R145). -/
def Obligations.FeatureSetsTheHalt : Prop :=
  ∀ (d : Bool) (rcpt : BitVec 5) (v x l : Half) (s : State), s.Inv → s.Undisturbed →
    let e := (x.extractLsb' 0 4).toNat
    let inline_ : Prop := d = false ∧ rcpt = 2 ∧ v = 0 ∧ l = 0 ∧ e < s.numEps
    let may : Prop := e = 0 ∨ (s.ep e).enabled = true
    (inline_ → exec (.clearFeature d rcpt v x l) s =
      .next ((if may then (s.withCtl .recv).haltSet e false else s.withCtl .recv).withCtl .waitForSetup)) ∧
    (inline_ → exec (.setFeature d rcpt v x l) s =
      .next ((if may ∧ ¬((s.withCtl .recv).epDir e = .IN ∧ (s.ep e).queue ≠ []) then (s.withCtl .recv).haltSet e true
        else s.withCtl .recv).withCtl .waitForSetup)) ∧
    (¬inline_ → exec (.clearFeature d rcpt v x l) s =
      .next (s.forwarded (setupWord (standardType d rcpt) 0x01 v x l))) ∧
    (¬inline_ → exec (.setFeature d rcpt v x l) s =
      .next (s.forwarded (setupWord (standardType d rcpt) 0x03 v x l)))

/-- O30.  SET_ADDRESS to the device without data records `wValue[6:0]`, moves ATTACHED, DEFAULT and ADDRESS to ADDRESS
and leaves NOT_ATTACHED and CONFIGURED; the core writes no register; any other is forwarded (R125, R136, R144). -/
def Obligations.SetAddressRecordsTheAddress : Prop :=
  ∀ (d : Bool) (rcpt : BitVec 5) (v x l : Half) (s : State),
    (d = false → rcpt = 0 → l = 0 → exec (.setAddress d rcpt v x l) s =
      .next (s.setDev fun q => { q with
        address := v.extractLsb' 0 7
        state := if q.state = .notAttached ∨ q.state = .configured then q.state else .address
        ctl := .waitForSetup })) ∧
    (¬(d = false ∧ rcpt = 0 ∧ l = 0) → s.Undisturbed → exec (.setAddress d rcpt v x l) s =
      .next (s.forwarded (setupWord (standardType d rcpt) 0x05 v x l)))

/-- O31.  SET_CONFIGURATION: below ADDRESS endpoint 0 is stalled without asking the driver; a negative answer stalls it;
otherwise endpoint 0's requests end with ConnectionReset, the configuration is recorded, and the state becomes
CONFIGURED, or ADDRESS with every data endpoint shut down for value 0 (R126, R136, R146). -/
def Obligations.SetConfigurationConfigures : Prop :=
  ∀ (v x l : Half) (s : State), s.Inv → s.Undisturbed →
    let S := setupWord 0x00 0x09 v x l
    let t := s.withCtl .recv
    let c : Byte := v.extractLsb' 0 8
    let ret := s.nextResponse.ret
    let w := (t.afterUpcall (.setup S)).finishedAll 0 .connectionReset
    (s.dev.state.belowAddress = true → exec (.setConfiguration v x l) s = .next (t.setupEnded S minusOne)) ∧
    (s.dev.state.belowAddress = false → s.dev.driver = none →
      exec (.setConfiguration v x l) s = .next (t.setupEnded S minusOne)) ∧
    (s.dev.state.belowAddress = false → s.dev.driver ≠ none → isNegative ret = true →
      exec (.setConfiguration v x l) s = .next ((t.afterUpcall (.setup S)).setupEnded S ret)) ∧
    (s.dev.state.belowAddress = false → s.dev.driver ≠ none → isNegative ret = false → c ≠ 0 →
      exec (.setConfiguration v x l) s =
        .next ((w.setDev fun q => { q with config := c, state := .configured }).setupEnded S ret)) ∧
    (s.dev.state.belowAddress = false → s.dev.driver ≠ none → isNegative ret = false → c = 0 →
      exec (.setConfiguration v x l) s =
        .next ((s.dataEps.foldl (fun q i => (q.shutDown i).finishedAll i .shutdownError)
          (w.setDev fun q => { q with config := 0, state := .address })).setupEnded S ret))

/-- O32.  GET_DESCRIPTOR and every request no other row takes go to the class driver whole; with none bound the answer is
-1; a negative answer stalls endpoint 0, and a request without data stage is over (R136, R140, R142, R148). -/
def Obligations.RequestsAreForwarded : Prop :=
  (∀ (d : Bool) (rcpt : BitVec 5) (v x l : Half) (s : State), s.Undisturbed → exec (.getDescriptor d rcpt v x l) s =
    .next (s.forwarded (setupWord (standardType d rcpt) 0x06 v x l))) ∧
  (∀ (S : BitVec 64) (s : State), s.Undisturbed → exec (.forward S) s = .next (s.forwarded S)) ∧
  (∀ (S : BitVec 64) (s t : State),
    let r := s.withCtl (if setupDirIn S then .xmit else .recv)
    s.dev.driver ≠ none → upcalled (.setup S) r = .next t → t.betweenMoves = [] →
      exec (.forward S) s = .next (t.setupEnded S s.nextResponse.ret))

/-! ### System events -/

/-- O33.  VBUS_ON is acknowledged; only in NOT_ATTACHED does it move the state to ATTACHED and call `vbus_on`, when a
driver is bound (R120, R151). -/
def Obligations.VbusOnAttaches : Prop :=
  ∀ s : State,
    let a := s.afterWrite .ssr 0x1
    let b := a.setDev fun d => { d with state := .attached }
    (s.dev.state ≠ .notAttached → exec .vbusOn s = .next a) ∧
    (s.dev.state = .notAttached → s.dev.driver = none → exec .vbusOn s = .next b) ∧
    (s.dev.state = .notAttached → s.dev.driver ≠ none →
      (∀ t, upcalled .vbusOn b = .next t → exec .vbusOn s = .next t) ∧
      (s.nextResponse.actions = [] → exec .vbusOn s = .next (b.afterUpcall .vbusOn)))

/-- O34.  VBUS_OFF: acknowledged; the device fields go to their detached values, every data endpoint is shut, every
endpoint's requests end with ShutdownError, endpoint 0 first, and `vbus_off` is called when a driver is bound (R121,
R151). -/
def Obligations.VbusOffDetaches : Prop :=
  ∀ s : State, s.Inv → s.Undisturbed →
    let a := (s.systemAcked 1).setDev fun d =>
      { d with state := .notAttached, speed := .unknown, config := 0, address := 0, ctl := .waitForSetup }
    let b := (0 :: s.dataEps).foldl (fun t i => t.finishedAll i .shutdownError) (s.dataEps.foldl State.shutDown a)
    exec .vbusOff s = .next (if s.dev.driver = none then b else b.afterUpcall .vbusOff)

/-- O35.  RESET: acknowledged; ATTACHED, unconfigured, address 0, WAIT_FOR_SETUP, speed kept.  Every endpoint is
re-initialized, so that every data endpoint is disabled and halted, before the first request ends and the class driver
is called, whatever the class driver is; then the requests end with ConnectionReset, endpoint 0's first (R108, R122,
R128, R129, R151, R219; that the corner case of R122 goes before the order of its pseudocode is the model's choice,
assumption 19). -/
def Obligations.BusResetReinitializes : Prop :=
  ∀ s : State, s.Inv → s.betweenMoves = [] →
    let a := ((s.systemAcked 2).setDev fun d =>
      { d with state := .attached, config := 0, address := 0, ctl := .waitForSetup }).allReinitialized
    (∀ j, 1 ≤ j → j < s.numEps → (a.ep j).enabled = false ∧ (a.ep j).halted = true) ∧
    exec .reset s = outcome (withUpcalls fun up =>
      inCommand .reset (eachOf (fun i => nuke up i .connectionReset) (0 :: s.dataEps))) a ∧
    (s.Undisturbed → exec .reset s =
      .next ((0 :: s.dataEps).foldl (fun t i => t.finishedAll i .connectionReset) a))

/-- O36.  SPEED_DONE: acknowledged; the speed read with it, DEFAULT, unconfigured, address 0, WAIT_FOR_SETUP.  Every
endpoint is re-initialized for that speed, so that every data endpoint is disabled and halted, before the first request
ends and the class driver is called, whatever the class driver is; then the requests end with ConnectionReset, endpoint
0's first (R108, R123, R128, R129, R151, R219; assumption 19 as in O35). -/
def Obligations.SpeedDoneReinitializes : Prop :=
  ∀ (hs : Bool) (s : State), s.Inv → s.betweenMoves = [] →
    let a := ((s.systemAcked 3).setDev fun d =>
      { d with speed := if hs then .high else .full, state := .default, config := 0, address := 0,
               ctl := .waitForSetup }).allReinitialized
    (∀ j, 1 ≤ j → j < s.numEps → (a.ep j).enabled = false ∧ (a.ep j).halted = true) ∧
    exec (.speedDone hs) s = outcome (withUpcalls fun up =>
      inCommand (.speedDone hs) (eachOf (fun i => nuke up i .connectionReset) (0 :: s.dataEps))) a ∧
    (s.Undisturbed → exec (.speedDone hs) s =
      .next ((0 :: s.dataEps).foldl (fun t i => t.finishedAll i .connectionReset) a))

/-- O37.  SUSPEND, RESUME and ERROR are acknowledged and nothing else happens (R124). -/
def Obligations.SuspendResumeErrorOnlyAcknowledged : Prop :=
  ∀ s : State,
    exec .suspend s = .next (s.afterWrite .ssr 0x20) ∧ exec .resume s = .next (s.afterWrite .ssr 0x40) ∧
    exec .error s = .next (s.afterWrite .ssr 0x80) ∧
    (s.betweenMoves = [] →
      exec .suspend s = .next (s.systemAcked 5) ∧ exec .resume s = .next (s.systemAcked 6) ∧
      exec .error s = .next (s.systemAcked 7))

/-! ### Endpoint events -/

/-- O38.  An event of a data endpoint that is not enabled changes nothing (R154).  An event its direction does not handle
is acknowledged when it is W1C, FLUSH_REQ of an IN endpoint and TX_DONE of an OUT endpoint, and nothing else happens;
RX_READY of an IN endpoint changes nothing (R155, R156, with D65, assumption 30).  That an event of no endpoint changes
nothing is the model's choice (assumption 17): R91 says that none arises. -/
def Obligations.UnhandledEvents : Prop :=
  ∀ (ep : BitVec 4) (p : Bool) (s : State),
    (¬s.serves ep.toNat → exec (.stallSent ep) s = .next s ∧ exec (.flushReq ep) s = .next s ∧
      exec (.txDone ep p) s = .next s ∧ exec (.rxReady ep p) s = .next s) ∧
    (ep ≠ 0 → Config.dirOf s.cfg ep.toNat = .IN →
      exec (.rxReady ep p) s = .next s ∧
      (s.serves ep.toNat → exec (.flushReq ep) s = .next (s.afterWrite (.esr ep.toNat) 0x20))) ∧
    (ep ≠ 0 → Config.dirOf s.cfg ep.toNat = .OUT → s.serves ep.toNat →
      exec (.txDone ep p) s = .next (s.afterWrite (.esr ep.toNat) 0x2))

/-- O39.  STALL_SENT: on endpoint 0 it is acknowledged, the stall and the halt end, the requests end with
ConnectionAborted and the sub-state is WAIT_FOR_SETUP; on a data endpoint it is only acknowledged (R132, R157). -/
def Obligations.StallSentRecovers : Prop :=
  (∀ s : State, s.Inv → s.Undisturbed → exec (.stallSent 0) s =
    .next ((((s.setSieEp 0 fun e => { e with stallSent := false, stall := false }).setEp 0
      fun e => { e with halted := false }).finishedAll 0 .connectionAborted).withCtl .waitForSetup)) ∧
  (∀ (ep : BitVec 4) (s : State), ep ≠ 0 → s.serves ep.toNat → s.betweenMoves = [] → exec (.stallSent ep) s =
    .next (s.setSieEp ep.toNat fun e => { e with stallSent := false }))

/-- O40.  FLUSH_REQ: acknowledged; on a data OUT endpoint the staged packets, at most two, are drained; on endpoint 0
and on a data IN endpoint nothing else happens (R116, R135, R155, R158, with D65 for the IN endpoint). -/
def Obligations.FlushRequestDrains : Prop :=
  ∀ (ep : BitVec 4) (s : State), s.Inv → s.betweenMoves = [] → s.serves ep.toNat →
    (ep = 0 ∨ Config.dirOf s.cfg ep.toNat = .IN →
      exec (.flushReq ep) s = .next (s.setSieEp ep.toNat fun e => { e with flushReq := false })) ∧
    (ep ≠ 0 → Config.dirOf s.cfg ep.toNat = .OUT → exec (.flushReq ep) s =
      .next ((s.setSieEp ep.toNat fun e => { e with flushReq := false }).setSieEp ep.toNat
        (SieEndpoint.dropPackets (s.stagedPackets ep.toNat))))

/-- O41.  TX_DONE: acknowledged; endpoint 0 in XMIT sends its head request's next packet, a data IN endpoint one packet,
or two when two slots were reported free; on a data OUT endpoint nothing else happens (R107, R133, R155, R156, with D65
for the OUT endpoint). -/
def Obligations.TxDoneSendsTheNextPacket : Prop :=
  ∀ (ep : BitVec 4) (p : Bool) (s : State), s.Inv → s.Undisturbed → s.serves ep.toNat →
    let a := s.setSieEp ep.toNat fun e => { e with txDone := false }
    (ep = 0 → exec (.txDone ep p) s = .next (if s.dev.ctl = .xmit then a.tried 0 else a)) ∧
    (ep ≠ 0 → Config.dirOf s.cfg ep.toNat = .IN → exec (.txDone ep p) s = .next (a.serviced ep.toNat p)) ∧
    (ep ≠ 0 → Config.dirOf s.cfg ep.toNat = .OUT → exec (.txDone ep p) s = .next a)

/-- O42.  RX_READY as data: endpoint 0 in RECV receives one packet into its head request, a data OUT endpoint one packet,
or two when two were reported staged (R107, R134, R156). -/
def Obligations.RxReadyReceivesThePacket : Prop :=
  ∀ (ep : BitVec 4) (p : Bool) (s : State), s.Inv → s.Undisturbed → s.serves ep.toNat →
    (ep = 0 → s.dev.ctl = .recv → exec (.rxReady ep p) s = .next (s.tried 0)) ∧
    (ep ≠ 0 → Config.dirOf s.cfg ep.toNat = .OUT → exec (.rxReady ep p) s = .next (s.serviced ep.toNat p))

/-- O43.  One received packet, byte by byte: what fits is stored at `buf + actual + k`, every other byte of memory is
unchanged, the packet leaves the FIFO, an overflow is recorded and survives, and the request ends when the packet is
short or the request full (R57, R102 to R106).  Whatever the SIE does between the accesses, the request ends exactly when
the count and the status read then say so (R60, R106).  A bus reset between the count and the first word: the words read
as zeros, which are stored, and the request stays in its queue unless this packet is its last (R169).  That a last packet
cut off by a bus reset or VBUS loss ends its request too is the model's choice (assumption 29): it puts R102 and R106
before the closing sentences of R220, which leave that request to the reset's event, and this statement does not claim
those sentences. -/
def Obligations.ReceivedPacketIsStored : Prop :=
  (∀ (ep : BitVec 4) (h base : Word) (rest : List Handle) (p : RxPacket) (ps : List RxPacket) (s : State),
    s.Inv → s.Undisturbed → ep ≠ 0 → s.serves ep.toNat → Config.dirOf s.cfg ep.toNat = .OUT →
    (s.ep ep.toNat).halted = false → (s.ep ep.toNat).queue = .user h :: rest → s.hasRequest h = true →
    (s.req (.user h)).buf = .sysMem base → (s.sie.ep ep.toNat).rxQueue = p :: ps → (s.sie.ep ep.toNat).rxPos = 0 →
    let i := ep.toNat
    let r := s.req (.user h)
    let room := r.length - r.actual
    let n := min p.bytes.length room
    let status : Status := if room < p.bytes.length then .overflowError else r.status
    let last : Bool := decide (p.bytes.length < (s.ep i).mps.toNat) || decide (r.actual + n = r.length)
    ∃ t, exec (.rxReady ep false) s = .next t ∧
      (∀ a, t.byte a = if base.toNat + r.actual ≤ a ∧ a < base.toNat + r.actual + n
        then p.bytes.getD (a - (base.toNat + r.actual)) 0 else s.byte a) ∧
      (t.sie.ep i).rxQueue = ps ∧ (t.sie.ep i).rxPos = 0 ∧ (t.req (.user h)).actual = r.actual + n ∧
      (t.req (.user h)).status =
        (if last then (if status = .overflowError then .overflowError else .ok) else status) ∧
      (t.req (.user h)).queuedOn = (if last then none else r.queuedOn) ∧
      (t.ep i).queue = (if last then rest else .user h :: rest)) ∧
  (∀ (ep : BitVec 4) (h : Word) (rest : List Handle) (s t : State), s.Inv → ep ≠ 0 → s.serves ep.toNat →
    Config.dirOf s.cfg ep.toNat = .OUT → (s.ep ep.toNat).halted = false → (s.ep ep.toNat).queue = .user h :: rest →
    (s.req (.user h)).callback = none → esrRxReady (s.readValue (.esr ep.toNat)) = true →
    exec (.rxReady ep false) s = .next t →
    let i := ep.toNat
    let r := s.req (.user h)
    let found := s.afterRead (.esr i)
    let counted := found.afterRead (.rxWcnt i)
    let avail := receivedBytes (low11 (found.readValue (.rxWcnt i))).toNat (counted.readValue (.esr i))
    let n := min avail (r.length - r.actual)
    let last : Bool := decide (avail < (s.ep i).mps.toNat) || decide (r.actual + n = r.length)
    (t.req (.user h)).actual = r.actual + n ∧ (t.req (.user h)).queuedOn = (if last then none else r.queuedOn) ∧
    (t.ep i).queue = (if last then rest else .user h :: rest)) ∧
  ∀ (ep : BitVec 4) (h base : Word) (rest : List Handle) (p : RxPacket) (ps : List RxPacket) (s : State),
    s.Inv → s.Undisturbed → ep ≠ 0 → s.serves ep.toNat → Config.dirOf s.cfg ep.toNat = .OUT →
    (s.ep ep.toNat).halted = false → (s.ep ep.toNat).queue = .user h :: rest → s.hasRequest h = true →
    (s.req (.user h)).buf = .sysMem base → (s.sie.ep ep.toNat).rxQueue = p :: ps → (s.sie.ep ep.toNat).rxPos = 0 →
    p.bytes ≠ [] → s.sie.vbus = true →
    let i := ep.toNat
    let r := s.req (.user h)
    let n := min p.bytes.length (r.length - r.actual)
    let last : Bool := decide (p.bytes.length < (s.ep i).mps.toNat) || decide (r.actual + n = r.length)
    ∃ t, exec (.rxReady ep false) { s with betweenMoves := [[], [], [], [.reset]] } = .next t ∧
      (∀ a, t.byte a = if base.toNat + r.actual ≤ a ∧ a < base.toNat + r.actual + n then 0 else s.byte a) ∧
      (t.sie.ep i).rxQueue = [] ∧ t.sie.ssr = s.sie.ssr ||| 0x04 ∧ (t.req (.user h)).actual = r.actual + n ∧
      (t.req (.user h)).queuedOn = (if last then none else r.queuedOn) ∧
      (t.ep i).queue = (if last then rest else .user h :: rest)

/-- O44.  RX_READY on endpoint 0 outside RECV with an 8-byte packet at the head: the queued requests end with
ProtocolError, the stall and the halt end, the packet is read, and it is executed as the SETUP row that takes it (R87,
R134, R136, R137, R138, R141). -/
def Obligations.RxReadyExecutesTheSetup : Prop :=
  ∀ (S : BitVec 64) (eot p : Bool) (rest : List RxPacket) (s t : State), s.Inv → s.betweenMoves = [] →
    ((s.ep 0).queue = [] ∨ s.Undisturbed) → s.dev.ctl ≠ .recv →
    (s.sie.ep 0).rxQueue = ⟨setupBytes S, eot⟩ :: rest → (s.sie.ep 0).rxPos = 0 →
    exec (decodeSetup S) (((s.finishedAll 0 .protocolError).setSieEp 0
      fun e => { e with stall := false, rxQueue := rest }).setEp 0 fun e => { e with halted := false }) = .next t →
    exec (.rxReady 0 p) s = .next t

/-- O45.  RX_READY on endpoint 0 outside RECV with a packet of any other length: the queued requests end with
ProtocolError, the packet is drained, endpoint 0 is stalled and halted, the sub-state is WAIT_FOR_SETUP and the class
driver is not asked (R92, R109, R136, R139). -/
def Obligations.RxReadyStallsABadSetup : Prop :=
  ∀ (p : Bool) (s : State), s.Inv → s.Undisturbed → s.dev.ctl ≠ .recv → (s.sie.ep 0).pendingBytes.length ≠ 8 →
    exec (.rxReady 0 p) s = .next (((((s.finishedAll 0 .protocolError).setSieEp 0
      fun e => { SieEndpoint.dropPackets 1 e with stall := false }).stallWritten 0 true).setEp 0
        fun e => { e with halted := true }).withCtl .waitForSetup)

/-- O46.  The packets of an IN request: packet k of a request of length L at size M has M bytes, or L mod M at the end,
and it is the last exactly when k + 1 is the count of R100, a zero-length packet included where R100 has one. -/
def Obligations.PacketsOfATransfer : Prop :=
  ∀ (s : State) (i : Nat) (h : Word) (k : Nat), s.hasRequest h = true →
    let r := s.req (.user h)
    let M := (s.ep i).mps.toNat
    let count := r.length / M + (if r.length % M ≠ 0 ∨ r.length = 0 ∨ r.zero = true then 1 else 0)
    0 < M → k < count → r.actual = k * M →
    let n := s.nextPacket i (.user h)
    n = (if k < r.length / M then M else r.length % M) ∧
    ((s.setReq (.user h) fun q => { q with actual := q.actual + n }).lastIn i (.user h) n = true ↔ k + 1 = count)

/-! ### Whole-machine rules -/

/-- O47.  Whatever the class driver and the SIE do meanwhile, after RESET, SPEED_DONE and VBUS_OFF the device fields are
those the event sets, the sub-state is WAIT_FOR_SETUP and every data endpoint is disabled and halted (R121, R122, R123,
R128). -/
def Obligations.ResetsLeaveTheDeviceShut : Prop :=
  ∀ s t : State, s.Inv →
    (exec .reset s = .next t → t.dev.state = .attached ∧ t.dev.speed = s.dev.speed) ∧
    (∀ hs, exec (.speedDone hs) s = .next t →
      t.dev.state = .default ∧ t.dev.speed = (if hs then .high else .full)) ∧
    (exec .vbusOff s = .next t → t.dev.state = .notAttached ∧ t.dev.speed = .unknown) ∧
    ((exec .reset s = .next t ∨ (∃ hs, exec (.speedDone hs) s = .next t) ∨ exec .vbusOff s = .next t) →
      t.dev.config = 0 ∧ t.dev.address = 0 ∧ t.dev.ctl = .waitForSetup ∧
      ∀ j, 1 ≤ j → j < t.numEps → (t.ep j).enabled = false ∧ (t.ep j).halted = true)

/-- O48.  No command but TASK changes the device's state, speed, configuration or address, or sets the control sub-state
to anything but WAIT_FOR_SETUP; no instruction but BIND, TASK and the event and setup rows included, changes the driver
(R17 to R22, R119, R127). -/
def Obligations.CommandsKeepTheDevice : Prop :=
  (∀ (cmd arg : Word) (i : Instr) (s t : State), decodeCmd cmd arg = .ok i → i ≠ .task → exec i s = .next t →
    t.dev.state = s.dev.state ∧ t.dev.speed = s.dev.speed ∧ t.dev.config = s.dev.config ∧
    t.dev.address = s.dev.address ∧ (t.dev.ctl = s.dev.ctl ∨ t.dev.ctl = .waitForSetup)) ∧
  (∀ (i : Instr) (s t : State), (∀ d, i ≠ .bind d) → exec i s = .next t → t.dev.driver = s.dev.driver)

/-- O49.  No command but TASK, with every command its upcalls nest in it, clears or sets an event bit of SSR, a latch of
EIR or an event bit of ESR, when the SIE makes no move meanwhile (R160). -/
def Obligations.OnlyTaskAcknowledges : Prop :=
  ∀ (cmd arg : Word) (i : Instr) (s t : State), decodeCmd cmd arg = .ok i → i ≠ .task → s.betweenMoves = [] →
    exec i s = .next t →
    t.sie.ssr = s.sie.ssr ∧ ∀ j, (t.sie.ep j).eirLatch = (s.sie.ep j).eirLatch ∧
      (t.sie.ep j).txDone = (s.sie.ep j).txDone ∧ (t.sie.ep j).stallSent = (s.sie.ep j).stallSent ∧
      (t.sie.ep j).flushReq = (s.sie.ep j).flushReq

/-- O50.  Every step keeps the configuration, the names of the request table and a bound driver, and only appends to the
run's trace (R16, R22, R181, R209). -/
def Obligations.StepsKeepWhatOnlyLaunchSets : Prop :=
  ∀ s t : State, step s = .next t →
    t.cfg = s.cfg ∧ t.reqs.map (fun p => p.1) = s.reqs.map (fun p => p.1) ∧
    (∀ d, s.dev.driver = some d → t.dev.driver = some d) ∧ s.trace <+: t.trace

/-- O51.  A fault of an instruction is a ModelFault that names a command: an address at or above MEM_SIZE, a request
without a record, or a request with a count outside its width.  In a state that meets the invariants only the first
happens (R9, R12, R182, R198; where the last two are raised is the model's choice, assumptions 21 and 22). -/
def Obligations.FaultsNameTheAccess : Prop :=
  ∀ (i : Instr) (s : State) (f : Fault), exec i s = .fault f →
    ((∃ (c : Instr) (a : Nat), f = .modelFault (some c) a ∧ s.cfg.memSize ≤ a) ∨
      (∃ (c : Instr) (h : Handle), f = .noRecord (some c) h ∧ s.known h = false) ∨
      (∃ (c : Instr) (h : Handle), f = .outOfWidth (some c) h ∧ s.known h = true)) ∧
    (s.Inv → ∃ (c : Instr) (a : Nat), f = .modelFault (some c) a)

/-- O52.  With a class driver that takes no action, an instruction changes no byte of memory outside the buffers of the
requests in an endpoint's queue and of the request it queues (R34, R53, R63). -/
def Obligations.MemoryChangesOnlyInBuffers : Prop :=
  ∀ (i : Instr) (s t : State) (a : Nat), s.Inv → (∀ r ∈ s.driverScript, r.actions = []) → exec i s = .next t →
    (∀ (h : Handle) (base : Word), ((∃ j, h ∈ (s.ep j).queue) ∨ (∃ ep k, i = .queue ep k ∧ h = .user k)) →
      (s.req h).buf = .sysMem base → ¬(base.toNat ≤ a ∧ a < base.toNat + (s.req h).length)) →
    t.byte a = s.byte a

/-- O53.  With a class driver that takes no action, only TASK, QUEUE and RX_READY store to memory at all (R51, R63). -/
def Obligations.OnlyReceptionStores : Prop :=
  ∀ (i : Instr) (s t : State), (∀ r ∈ s.driverScript, r.actions = []) → exec i s = .next t →
    i ≠ .task → (∀ ep h, i ≠ .queue ep h) → (∀ ep p, i ≠ .rxReady ep p) → t.mem = s.mem

/-- O54.  Every instruction but the reserved command completes when the agents around the core do not interfere: TASK and
BIND outside an upcall, BIND of a driver, QUEUE and DEQUEUE of a record, ENABLE of a descriptor in memory (R159, R187,
R192). -/
def Obligations.EveryInstructionCompletes : Prop :=
  ∀ (i : Instr) (s : State), s.Inv → s.Undisturbed → s.dev.upcallDepth = 0 → (∀ cmd arg, i ≠ .reservedCmd cmd arg) →
    (∀ d, i = .bind d → d ≠ 0) → (∀ ep h, i = .queue ep h ∨ i = .dequeue ep h → s.hasRequest h = true) →
    (∀ ep addr, i = .enable ep addr → addr.toNat + 7 ≤ s.cfg.memSize) → ∃ t, exec i s = .next t

/-- O55.  Between steps the invariants hold: if they hold before a step they hold after it, whatever the class driver and
the SIE do in it; R25 (a) and (b) are among them, and so are `actual ≤ length` of every request, the widths of its
counts, and that a request is in one queue at most (R9, R25, R29, R30, R31, R33, R34, R41, R128, R154, R182). -/
def Obligations.StepsKeepTheInvariants : Prop :=
  ∀ s t : State, s.AtRest → step s = .next t → t.AtRest

/-- O56.  The invariants hold after controller initialization, with the values the model chose for what the spec leaves to
the SIE (assumption 5) (R25, R32, R208). -/
def Obligations.ResetMeetsTheInvariants : Prop := State.reset.AtRest

/-- O57.  Controller initialization, from any state with as many endpoints as its configuration has, leaves the values
of R207, acknowledges no event and touches no FIFO, request field or byte of memory besides (R207). -/
def Obligations.ControllerInitialization : Prop :=
  ∀ s : State, s.cfg.wf = true → s.sie.eps.length = s.numEps →
    (ctrlInit s).dev = { state := .notAttached, speed := .unknown, config := 0, address := 0, ctl := .waitForSetup,
                         driver := none, upcallDepth := 0 } ∧
    (ctrlInit s).ep 0 = { mps := s.cfg.ep0MpsFs, enabled := true, halted := false, queue := [] } ∧
    (∀ i, 1 ≤ i → i < s.numEps →
      (ctrlInit s).ep i = { mps := s.cfg.bulkMpsFs, enabled := false, halted := true, queue := [] }) ∧
    (ctrlInit s).sie.eier = 0x1 ∧
    (∀ i, i < s.numEps → (ctrlInit s).sie.ep i = { s.sie.ep i with
      stall := false, dirIn := false, mps := if i = 0 then s.cfg.ep0MpsFs else s.cfg.bulkMpsFs }) ∧
    (∀ h, (ctrlInit s).req (.user h) =
      if s.hasRequest h then { s.req (.user h) with queuedOn := none } else s.req (.user h)) ∧
    (ctrlInit s).statusReq = { s.statusReq with queuedOn := none } ∧
    (ctrlInit s).sie.ssr = s.sie.ssr ∧ (ctrlInit s).mem = s.mem

/-- O58.  The state after reset, for every configuration that meets R8, is a state controller initialization leaves
unchanged and holds the values R208 gives: the request table's records as the table gives them, the core's own record
and bytes, the device, the endpoints, EIER, ECR and MPS.  The values R208 leaves to the SIE or unspecified are the
model's choice (assumptions 5, 6 and 13) and are not named here. -/
def Obligations.ResetIsWhatInitializationLeaves : Prop :=
  ∀ c : Config, c.wf = true →
    let s := State.resetWith c
    ctrlInit s = s ∧
    s.dev = { state := .notAttached, speed := .unknown, config := 0, address := 0, ctl := .waitForSetup,
              driver := none, upcallDepth := 0 } ∧
    s.ep 0 = { mps := c.ep0MpsFs, enabled := true, halted := false, queue := [] } ∧
    (∀ i, 1 ≤ i → i < c.numEndpoints →
      s.ep i = { mps := c.bulkMpsFs, enabled := false, halted := true, queue := [] }) ∧
    s.reqs.map (fun p => p.1) = c.reqTable.map (fun p => p.1) ∧
    (∀ (h : Word) (r : RequestInit), (h, r) ∈ c.reqTable →
      (s.req (.user h)).buf = (match r.buf with
        | none => .none
        | some a => .sysMem a) ∧
      (s.req (.user h)).length = r.length.toNat ∧ (s.req (.user h)).zero = r.zero ∧
      (s.req (.user h)).callback = r.callback ∧ (s.req (.user h)).queuedOn = none) ∧
    s.statusReq.buf = .coreBytes ∧ s.statusReq.length = 0 ∧ s.statusReq.zero = false ∧ s.statusReq.callback = none ∧
    s.statusReq.queuedOn = none ∧ s.statusBytes = (0, 0) ∧ s.sie.eier = 0x1 ∧
    (∀ i, i < c.numEndpoints → (s.sie.ep i).stall = false ∧ (s.sie.ep i).dirIn = false ∧
      (s.sie.ep i).mps = if i = 0 then c.ep0MpsFs else c.bulkMpsFs)

/-! ### The agents around the core -/

/-- O59.  What a move of the SIE or the host does: when it can happen, what it changes in the SIE, and what the host gets;
the core's state and memory stay, and the run's trace records it (R166, R170 to R174, R181).  The model's choices: a move
that is not enabled answers the same state (assumption 7), the address of a SET_ADDRESS setup waits in `pendingAddress`,
with a count of the packets staged behind it, which the moves that empty the FIFOs drop (assumption 8). -/
def Obligations.MovesOfTheBus : Prop :=
  ∀ (c : Config) (x : Sie),
    let drained : Sie := { x with
      eps := x.eps.map fun e => { e with rxQueue := [], rxPos := 0, txQueue := [], txCur := none }
      pendingAddress := none }
    let room (i : Nat) : Prop := (x.ep i).rxQueue.length < c.fifoPkts
    ((Sie.moveEnabled c x .vbusOn = true ↔ x.vbus = false) ∧
      (∀ m, m ∈ [Move.vbusOff, .reset, .suspend, .resume, .error] → (Sie.moveEnabled c x m = true ↔ x.vbus = true)) ∧
      (∀ hs, Sie.moveEnabled c x (.speedDone hs) = true ↔ x.vbus = true ∧ x.connected = false) ∧
      (∀ i : BitVec 4, Sie.moveEnabled c x (.flushReq i) = true ↔
        1 ≤ i.toNat ∧ i.toNat < c.numEndpoints ∧ (x.ep i.toNat).dirIn = false) ∧
      (∀ S, Sie.moveEnabled c x (.setup S) = true ↔ x.connected = true ∧ room 0) ∧
      (∀ (i : BitVec 4) bytes eot, Sie.moveEnabled c x (.out i bytes eot) = true ↔
        i.toNat < c.numEndpoints ∧ x.connected = true ∧ (x.ep i.toNat).dirIn = false ∧
        bytes.length ≤ (x.ep i.toNat).mps.toNat ∧ ((x.ep i.toNat).stall = true ∨ room i.toNat)) ∧
      (∀ i : BitVec 4, Sie.moveEnabled c x (.inToken i) = true ↔
        i.toNat < c.numEndpoints ∧ x.connected = true ∧ ((x.ep i.toNat).dirIn = true ∨ i = 0) ∧
        ((x.ep i.toNat).stall = true ∨ (x.ep i.toNat).txQueue ≠ []))) ∧
    (x.moveEffect .vbusOn = { x with vbus := true, ssr := x.ssr ||| 0x01 } ∧
      x.moveEffect .vbusOff = { drained with vbus := false, connected := false, ssr := x.ssr ||| 0x02 } ∧
      x.moveEffect .reset = { drained with connected := false, sieAddress := 0, ssr := x.ssr ||| 0x04 } ∧
      (∀ hs, x.moveEffect (.speedDone hs) = { x with hs := hs, connected := true, ssr := x.ssr ||| 0x08 }) ∧
      x.moveEffect .suspend = { x with ssr := x.ssr ||| 0x20 } ∧
      x.moveEffect .resume = { x with ssr := x.ssr ||| 0x40 } ∧
      x.moveEffect .error = { x with ssr := x.ssr ||| 0x80 } ∧
      (∀ i : BitVec 4, x.moveEffect (.flushReq i) =
        x.setEp i.toNat fun e => { e with flushReq := true, eirLatch := true }) ∧
      (∀ S : BitVec 64, x.moveEffect (.setup S) = { x.setEp 0 fun e =>
        { e with txQueue := [], txCur := none, rxQueue := e.rxQueue ++ [⟨setupBytes S, false⟩], eirLatch := true } with
          pendingAddress := if S.extractLsb' 0 16 = 0x0500#16 then some ⟨S.extractLsb' 16 7, 0⟩ else none }) ∧
      (∀ (i : BitVec 4) bytes eot, x.moveEffect (.out i bytes eot) = { x.setEp i.toNat fun e =>
        if e.stall = true then { e with stallSent := true, eirLatch := true }
        else { e with rxQueue := e.rxQueue ++ [⟨bytes, eot && decide (i = 0)⟩], eirLatch := true } with
          pendingAddress := if i = 0 ∧ (x.ep 0).stall = false
            then x.pendingAddress.map fun p => { p with behind := p.behind + 1 } else x.pendingAddress }) ∧
      (∀ i : BitVec 4, x.moveEffect (.inToken i) = x.setEp i.toNat fun e =>
        if e.stall = true then { e with stallSent := true, eirLatch := true }
        else { e with txQueue := e.txQueue.tail, txDone := true, eirLatch := true })) ∧
    ((∀ (i : BitVec 4) bytes eot, (x.ep i.toNat).stall = true →
        x.hostReply (.out i bytes eot) = .stall ∧ x.hostReply (.inToken i) = .stall) ∧
      (∀ (i : BitVec 4) (p : List Byte) rest, (x.ep i.toNat).stall = false → (x.ep i.toNat).txQueue = p :: rest →
        x.hostReply (.inToken i) = .packet p) ∧
      (∀ (i : BitVec 4) bytes eot, (x.ep i.toNat).stall = false → x.hostReply (.out i bytes eot) = .nothing)) ∧
    ∀ (m : Move) (s : State), s.cfg = c → s.sie = x →
      (Sie.moveEnabled c x m = true →
        s.move m = { s with sie := x.moveEffect m, trace := s.trace ++ [.busMove m (x.hostReply m)] }) ∧
      (Sie.moveEnabled c x m = false → s.move m = s)

/-- O60.  A class-driver write it may make: a field of a record that is not queued changes exactly that field, a byte of
memory outside the buffers of queued requests changes exactly that byte; at top level and inside an upcall (R179).  That
a `length` below `actual` cuts `actual` to it, which R34 needs, is the model's choice (assumption 21). -/
def Obligations.AllowedDriverWritesTakeEffect : Prop :=
  (∀ (h : Word) (r : Request) (s : State), findRequest h s.reqs = some r → r.queuedOn = none →
    let leaves (w : DriverWrite) (q : Request) : Prop := ∃ t, outcome (driverWrite w) s = .next t ∧ t.req (.user h) = q ∧
      (∀ g, g ≠ Handle.user h → t.req g = s.req g) ∧ t.reqs.map (fun p => p.1) = s.reqs.map (fun p => p.1) ∧
      { t with reqs := s.reqs } = s
    leaves (.reqBuf h none) { r with buf := .none } ∧ (∀ a, leaves (.reqBuf h (some a)) { r with buf := .sysMem a }) ∧
    (∀ n : Word, leaves (.reqLength h n) { r with length := n.toNat, actual := min r.actual n.toNat }) ∧
    (∀ z, leaves (.reqZero h z) { r with zero := z }) ∧ (∀ cb, leaves (.reqCallback h cb) { r with callback := cb })) ∧
  (∀ (addr : Word) (b : Byte) (s : State), Memory.wf s.mem → addr.toNat < s.cfg.memSize →
    (∀ (h : Word) (r : Request) (base : Word), (h, r) ∈ s.reqs → r.queuedOn ≠ none → r.buf = .sysMem base →
      ¬(base.toNat ≤ addr.toNat ∧ addr.toNat < base.toNat + r.length)) →
    ∃ t, outcome (driverWrite (.memByte addr b)) s = .next t ∧ t.byte addr.toNat = b ∧
      (∀ a, a ≠ addr.toNat → t.byte a = s.byte a) ∧ { t with mem := s.mem } = s) ∧
  (∀ (w : DriverWrite) (s t : State), outcome (driverWrite w) s = .next t → runActions [.write w] s = .next t)

end
end

