-- ==== Sys2Proof/Laws/Proc.lean ====
section
/-! SUPPORT. Running a procedure: one equation per primitive and per way of putting procedures together, and `Within`,
which says that every completed run of a procedure relates its start to its end. -/

namespace Sys2Proof.Machine

section run
variable {α β : Type}

@[simp] theorem pure_run (a : α) (s : State) : (pure a : Proc α) s = .ok (a, s) := rfl

theorem bind_run (p : Proc α) (f : α → Proc β) (s : State) :
    (p >>= f) s = match p s with
      | .ok (a, t) => f a t
      | .error e => .error e := by
  show (p s >>= fun q => f q.1 q.2) = _
  cases p s <;> rfl

/-- A first procedure that completes hands its value and state to the rest. -/
theorem bind_run_ok {p : Proc α} {f : α → Proc β} {s t : State} {a : α} (h : p s = .ok (a, t)) :
    (p >>= f) s = f a t := by rw [bind_run, h]

theorem bind_run_error {p : Proc α} {f : α → Proc β} {s : State} {e : Stop} (h : p s = .error e) :
    (p >>= f) s = .error e := by rw [bind_run, h]

/-- A sequence completes exactly when its first part completes and the rest completes from there. -/
theorem bind_ok_iff {p : Proc α} {f : α → Proc β} {s t : State} {b : β} :
    (p >>= f) s = .ok (b, t) ↔ ∃ a u, p s = .ok (a, u) ∧ f a u = .ok (b, t) := by
  rw [bind_run]
  cases p s with
  | error e => simp
  | ok q => exact ⟨fun h => ⟨q.1, q.2, rfl, h⟩, fun ⟨_, _, h1, h2⟩ => by cases h1; exact h2⟩

@[simp] theorem ite_run (c : Prop) [Decidable c] (p q : Proc α) (s : State) :
    (if c then p else q) s = if c then p s else q s := by split <;> rfl

@[simp] theorem change_run (f : State → State) (s : State) : change f s = .ok ((), f s) := rfl

@[simp] theorem look_run (f : State → α) (s : State) : look f s = .ok (f s, s) := rfl

@[simp] theorem regRead_run (r : Reg) (s : State) : regRead r s = .ok (s.readValue r, s.afterRead r) := rfl

@[simp] theorem regWrite_run (r : Reg) (v : Word) (s : State) : regWrite r v s = .ok ((), s.afterWrite r v) := rfl

@[simp] theorem refuse_run (r : Refusal) (s : State) : (refuse r : Proc α) s = .error (.refusal r) := rfl

@[simp] theorem stopWith_run (e : Stop) (s : State) : (stopWith e : Proc α) s = .error e := rfl

@[simp] theorem change_bind_run (f : State → State) (g : Unit → Proc β) (s : State) :
    (change f >>= g) s = g () (f s) := rfl

@[simp] theorem look_bind_run (f : State → α) (g : α → Proc β) (s : State) : (look f >>= g) s = g (f s) s := rfl

@[simp] theorem pure_bind_run (a : α) (g : α → Proc β) (s : State) : ((pure a : Proc α) >>= g) s = g a s := rfl

@[simp] theorem regRead_bind_run (r : Reg) (g : Word → Proc β) (s : State) :
    (regRead r >>= g) s = g (s.readValue r) (s.afterRead r) := rfl

@[simp] theorem regWrite_bind_run (r : Reg) (v : Word) (g : Unit → Proc β) (s : State) :
    (regWrite r v >>= g) s = g () (s.afterWrite r v) := rfl

@[simp] theorem onlyIf_run (c : Bool) (p : Proc Unit) (s : State) :
    onlyIf c p s = if c then p s else .ok ((), s) := by
  unfold onlyIf
  split <;> rfl

@[simp] theorem eachOf_nil (f : α → Proc Unit) : eachOf f [] = pure () := rfl

theorem eachOf_cons (f : α → Proc Unit) (x : α) (xs : List α) :
    eachOf f (x :: xs) = (f x >>= fun _ => eachOf f xs) := rfl

/-- A completed run inside a command is a completed run of the rule. -/
@[simp] theorem inCommand_ok_iff {i : Instr} {p : Proc α} {s t : State} {a : α} :
    inCommand i p s = .ok (a, t) ↔ p s = .ok (a, t) := by
  unfold inCommand
  split <;> simp_all

/-- The outcome is a next state exactly when the procedure completes there. -/
theorem outcome_next_iff {p : Proc α} {s t : State} : outcome p s = .next t ↔ ∃ a, p s = .ok (a, t) := by
  unfold outcome
  split <;> simp_all

theorem outcome_of_ok {p : Proc α} {s t : State} {a : α} (h : p s = .ok (a, t)) : outcome p s = .next t :=
  outcome_next_iff.mpr ⟨a, h⟩

end run

/-! ### Relating the start and the end of every completed run -/

/-- Every completed run of `p` relates its start to its end by `R`. -/
def Within {α : Type} (R : State → State → Prop) (p : Proc α) : Prop := ∀ s a t, p s = .ok (a, t) → R s t

section within
variable {α β : Type} {R : State → State → Prop}

theorem Within.bind (htrans : ∀ s t u, R s t → R t u → R s u) {p : Proc α} {f : α → Proc β}
    (hp : Within R p) (hf : ∀ a, Within R (f a)) : Within R (p >>= f) := fun s b t h => by
  obtain ⟨a, u, h1, h2⟩ := bind_ok_iff.mp h
  exact htrans s u t (hp s a u h1) (hf a u b t h2)

theorem Within.pure (hrefl : ∀ s, R s s) (a : α) : Within R (pure a : Proc α) := fun s b t h => by
  cases h
  exact hrefl s

theorem Within.look (hrefl : ∀ s, R s s) (f : State → α) : Within R (look f) := fun s b t h => by
  cases h
  exact hrefl s

theorem Within.change {f : State → State} (hf : ∀ s, R s (f s)) : Within R (change f) := fun s b t h => by
  cases h
  exact hf s

theorem Within.refuse (r : Refusal) : Within R (refuse r : Proc α) := fun s b t h => by cases h

theorem Within.ite {c : Prop} [Decidable c] {p q : Proc α} (hp : c → Within R p) (hq : ¬c → Within R q) :
    Within R (if c then p else q) := by
  split
  · exact hp ‹_›
  · exact hq ‹_›

theorem Within.onlyIf (hrefl : ∀ s, R s s) {c : Bool} {p : Proc Unit} (hp : c = true → Within R p) :
    Within R (onlyIf c p) := Within.ite hp fun _ => Within.pure hrefl ()

theorem Within.eachOf (hrefl : ∀ s, R s s) (htrans : ∀ s t u, R s t → R t u → R s u) {f : α → Proc Unit}
    {l : List α} (hf : ∀ x ∈ l, Within R (f x)) : Within R (eachOf f l) := by
  induction l with
  | nil => exact Within.pure hrefl ()
  | cons x xs ih =>
    exact Within.bind htrans (hf x (by simp)) fun _ => ih fun y hy => hf y (by simp [hy])

theorem Within.inCommand {i : Instr} {p : Proc α} (hp : Within R p) : Within R (inCommand i p) := fun s a t h =>
  hp s a t (inCommand_ok_iff.mp h)

end within

end Sys2Proof.Machine
end

