-- ==== Sys2Proof/Laws/State.lean ====
section
/-! SUPPORT. What each update of the state leaves alone (one lemma per field per update), and reading back what an
update wrote. -/

namespace Sys2Proof.Machine

/-! ### `ep[i].f <- v` -/

@[simp] theorem setEp_cfg (s : State) (i : Nat) (f : Endpoint → Endpoint) : (s.setEp i f).cfg = s.cfg := rfl
@[simp] theorem setEp_dev (s : State) (i : Nat) (f : Endpoint → Endpoint) : (s.setEp i f).dev = s.dev := rfl
@[simp] theorem setEp_reqs (s : State) (i : Nat) (f : Endpoint → Endpoint) : (s.setEp i f).reqs = s.reqs := rfl
@[simp] theorem setEp_statusReq (s : State) (i : Nat) (f : Endpoint → Endpoint) : (s.setEp i f).statusReq = s.statusReq := rfl
@[simp] theorem setEp_statusBytes (s : State) (i : Nat) (f : Endpoint → Endpoint) : (s.setEp i f).statusBytes = s.statusBytes := rfl
@[simp] theorem setEp_sie (s : State) (i : Nat) (f : Endpoint → Endpoint) : (s.setEp i f).sie = s.sie := rfl
@[simp] theorem setEp_mem (s : State) (i : Nat) (f : Endpoint → Endpoint) : (s.setEp i f).mem = s.mem := rfl
@[simp] theorem setEp_result (s : State) (i : Nat) (f : Endpoint → Endpoint) : (s.setEp i f).result = s.result := rfl
@[simp] theorem setEp_inputs (s : State) (i : Nat) (f : Endpoint → Endpoint) : (s.setEp i f).inputs = s.inputs := rfl
@[simp] theorem setEp_driverScript (s : State) (i : Nat) (f : Endpoint → Endpoint) : (s.setEp i f).driverScript = s.driverScript := rfl
@[simp] theorem setEp_betweenMoves (s : State) (i : Nat) (f : Endpoint → Endpoint) : (s.setEp i f).betweenMoves = s.betweenMoves := rfl
@[simp] theorem setEp_freeCount (s : State) (i : Nat) (f : Endpoint → Endpoint) : (s.setEp i f).freeCount = s.freeCount := rfl
@[simp] theorem setEp_trace (s : State) (i : Nat) (f : Endpoint → Endpoint) : (s.setEp i f).trace = s.trace := rfl

/-! ### `dev.f <- v` -/

@[simp] theorem setDev_cfg (s : State) (f : Device → Device) : (s.setDev f).cfg = s.cfg := rfl
@[simp] theorem setDev_eps (s : State) (f : Device → Device) : (s.setDev f).eps = s.eps := rfl
@[simp] theorem setDev_reqs (s : State) (f : Device → Device) : (s.setDev f).reqs = s.reqs := rfl
@[simp] theorem setDev_statusReq (s : State) (f : Device → Device) : (s.setDev f).statusReq = s.statusReq := rfl
@[simp] theorem setDev_statusBytes (s : State) (f : Device → Device) : (s.setDev f).statusBytes = s.statusBytes := rfl
@[simp] theorem setDev_sie (s : State) (f : Device → Device) : (s.setDev f).sie = s.sie := rfl
@[simp] theorem setDev_mem (s : State) (f : Device → Device) : (s.setDev f).mem = s.mem := rfl
@[simp] theorem setDev_result (s : State) (f : Device → Device) : (s.setDev f).result = s.result := rfl
@[simp] theorem setDev_inputs (s : State) (f : Device → Device) : (s.setDev f).inputs = s.inputs := rfl
@[simp] theorem setDev_driverScript (s : State) (f : Device → Device) : (s.setDev f).driverScript = s.driverScript := rfl
@[simp] theorem setDev_betweenMoves (s : State) (f : Device → Device) : (s.setDev f).betweenMoves = s.betweenMoves := rfl
@[simp] theorem setDev_freeCount (s : State) (f : Device → Device) : (s.setDev f).freeCount = s.freeCount := rfl
@[simp] theorem setDev_trace (s : State) (f : Device → Device) : (s.setDev f).trace = s.trace := rfl

/-! ### `req[h].f <- v` -/

@[simp] theorem setReq_cfg (s : State) (h : Handle) (f : Request → Request) : (s.setReq h f).cfg = s.cfg := by cases h <;> rfl
@[simp] theorem setReq_dev (s : State) (h : Handle) (f : Request → Request) : (s.setReq h f).dev = s.dev := by cases h <;> rfl
@[simp] theorem setReq_eps (s : State) (h : Handle) (f : Request → Request) : (s.setReq h f).eps = s.eps := by cases h <;> rfl
@[simp] theorem setReq_statusBytes (s : State) (h : Handle) (f : Request → Request) : (s.setReq h f).statusBytes = s.statusBytes := by cases h <;> rfl
@[simp] theorem setReq_sie (s : State) (h : Handle) (f : Request → Request) : (s.setReq h f).sie = s.sie := by cases h <;> rfl
@[simp] theorem setReq_mem (s : State) (h : Handle) (f : Request → Request) : (s.setReq h f).mem = s.mem := by cases h <;> rfl
@[simp] theorem setReq_result (s : State) (h : Handle) (f : Request → Request) : (s.setReq h f).result = s.result := by cases h <;> rfl
@[simp] theorem setReq_inputs (s : State) (h : Handle) (f : Request → Request) : (s.setReq h f).inputs = s.inputs := by cases h <;> rfl
@[simp] theorem setReq_driverScript (s : State) (h : Handle) (f : Request → Request) : (s.setReq h f).driverScript = s.driverScript := by cases h <;> rfl
@[simp] theorem setReq_betweenMoves (s : State) (h : Handle) (f : Request → Request) : (s.setReq h f).betweenMoves = s.betweenMoves := by cases h <;> rfl
@[simp] theorem setReq_freeCount (s : State) (h : Handle) (f : Request → Request) : (s.setReq h f).freeCount = s.freeCount := by cases h <;> rfl
@[simp] theorem setReq_trace (s : State) (h : Handle) (f : Request → Request) : (s.setReq h f).trace = s.trace := by cases h <;> rfl

/-! ### A byte of system memory -/

@[simp] theorem setByte_cfg (s : State) (a : Nat) (b : Byte) : (s.setByte a b).cfg = s.cfg := rfl
@[simp] theorem setByte_dev (s : State) (a : Nat) (b : Byte) : (s.setByte a b).dev = s.dev := rfl
@[simp] theorem setByte_eps (s : State) (a : Nat) (b : Byte) : (s.setByte a b).eps = s.eps := rfl
@[simp] theorem setByte_reqs (s : State) (a : Nat) (b : Byte) : (s.setByte a b).reqs = s.reqs := rfl
@[simp] theorem setByte_statusReq (s : State) (a : Nat) (b : Byte) : (s.setByte a b).statusReq = s.statusReq := rfl
@[simp] theorem setByte_statusBytes (s : State) (a : Nat) (b : Byte) : (s.setByte a b).statusBytes = s.statusBytes := rfl
@[simp] theorem setByte_sie (s : State) (a : Nat) (b : Byte) : (s.setByte a b).sie = s.sie := rfl
@[simp] theorem setByte_result (s : State) (a : Nat) (b : Byte) : (s.setByte a b).result = s.result := rfl
@[simp] theorem setByte_inputs (s : State) (a : Nat) (b : Byte) : (s.setByte a b).inputs = s.inputs := rfl
@[simp] theorem setByte_driverScript (s : State) (a : Nat) (b : Byte) : (s.setByte a b).driverScript = s.driverScript := rfl
@[simp] theorem setByte_betweenMoves (s : State) (a : Nat) (b : Byte) : (s.setByte a b).betweenMoves = s.betweenMoves := rfl
@[simp] theorem setByte_freeCount (s : State) (a : Nat) (b : Byte) : (s.setByte a b).freeCount = s.freeCount := rfl
@[simp] theorem setByte_trace (s : State) (a : Nat) (b : Byte) : (s.setByte a b).trace = s.trace := rfl

/-! ### A byte of the core's reply buffer -/

@[simp] theorem setStatusByte_cfg (s : State) (k : Nat) (b : Byte) : (s.setStatusByte k b).cfg = s.cfg := rfl
@[simp] theorem setStatusByte_dev (s : State) (k : Nat) (b : Byte) : (s.setStatusByte k b).dev = s.dev := rfl
@[simp] theorem setStatusByte_eps (s : State) (k : Nat) (b : Byte) : (s.setStatusByte k b).eps = s.eps := rfl
@[simp] theorem setStatusByte_reqs (s : State) (k : Nat) (b : Byte) : (s.setStatusByte k b).reqs = s.reqs := rfl
@[simp] theorem setStatusByte_statusReq (s : State) (k : Nat) (b : Byte) : (s.setStatusByte k b).statusReq = s.statusReq := rfl
@[simp] theorem setStatusByte_sie (s : State) (k : Nat) (b : Byte) : (s.setStatusByte k b).sie = s.sie := rfl
@[simp] theorem setStatusByte_mem (s : State) (k : Nat) (b : Byte) : (s.setStatusByte k b).mem = s.mem := rfl
@[simp] theorem setStatusByte_result (s : State) (k : Nat) (b : Byte) : (s.setStatusByte k b).result = s.result := rfl
@[simp] theorem setStatusByte_inputs (s : State) (k : Nat) (b : Byte) : (s.setStatusByte k b).inputs = s.inputs := rfl
@[simp] theorem setStatusByte_driverScript (s : State) (k : Nat) (b : Byte) : (s.setStatusByte k b).driverScript = s.driverScript := rfl
@[simp] theorem setStatusByte_betweenMoves (s : State) (k : Nat) (b : Byte) : (s.setStatusByte k b).betweenMoves = s.betweenMoves := rfl
@[simp] theorem setStatusByte_freeCount (s : State) (k : Nat) (b : Byte) : (s.setStatusByte k b).freeCount = s.freeCount := rfl
@[simp] theorem setStatusByte_trace (s : State) (k : Nat) (b : Byte) : (s.setStatusByte k b).trace = s.trace := rfl

/-! ### A command's RESULT -/

@[simp] theorem returned_cfg (s : State) (r : Status) : (s.returned r).cfg = s.cfg := rfl
@[simp] theorem returned_dev (s : State) (r : Status) : (s.returned r).dev = s.dev := rfl
@[simp] theorem returned_eps (s : State) (r : Status) : (s.returned r).eps = s.eps := rfl
@[simp] theorem returned_reqs (s : State) (r : Status) : (s.returned r).reqs = s.reqs := rfl
@[simp] theorem returned_statusReq (s : State) (r : Status) : (s.returned r).statusReq = s.statusReq := rfl
@[simp] theorem returned_statusBytes (s : State) (r : Status) : (s.returned r).statusBytes = s.statusBytes := rfl
@[simp] theorem returned_sie (s : State) (r : Status) : (s.returned r).sie = s.sie := rfl
@[simp] theorem returned_mem (s : State) (r : Status) : (s.returned r).mem = s.mem := rfl
@[simp] theorem returned_inputs (s : State) (r : Status) : (s.returned r).inputs = s.inputs := rfl
@[simp] theorem returned_driverScript (s : State) (r : Status) : (s.returned r).driverScript = s.driverScript := rfl
@[simp] theorem returned_betweenMoves (s : State) (r : Status) : (s.returned r).betweenMoves = s.betweenMoves := rfl
@[simp] theorem returned_freeCount (s : State) (r : Status) : (s.returned r).freeCount = s.freeCount := rfl

/-! ### Upcall entry -/

@[simp] theorem enterUpcall_cfg (s : State) (u : Upcall) : (s.enterUpcall u).cfg = s.cfg := rfl
@[simp] theorem enterUpcall_eps (s : State) (u : Upcall) : (s.enterUpcall u).eps = s.eps := rfl
@[simp] theorem enterUpcall_reqs (s : State) (u : Upcall) : (s.enterUpcall u).reqs = s.reqs := rfl
@[simp] theorem enterUpcall_statusReq (s : State) (u : Upcall) : (s.enterUpcall u).statusReq = s.statusReq := rfl
@[simp] theorem enterUpcall_statusBytes (s : State) (u : Upcall) : (s.enterUpcall u).statusBytes = s.statusBytes := rfl
@[simp] theorem enterUpcall_sie (s : State) (u : Upcall) : (s.enterUpcall u).sie = s.sie := rfl
@[simp] theorem enterUpcall_mem (s : State) (u : Upcall) : (s.enterUpcall u).mem = s.mem := rfl
@[simp] theorem enterUpcall_result (s : State) (u : Upcall) : (s.enterUpcall u).result = s.result := rfl
@[simp] theorem enterUpcall_inputs (s : State) (u : Upcall) : (s.enterUpcall u).inputs = s.inputs := rfl
@[simp] theorem enterUpcall_driverScript (s : State) (u : Upcall) : (s.enterUpcall u).driverScript = s.driverScript := rfl
@[simp] theorem enterUpcall_betweenMoves (s : State) (u : Upcall) : (s.enterUpcall u).betweenMoves = s.betweenMoves := rfl
@[simp] theorem enterUpcall_freeCount (s : State) (u : Upcall) : (s.enterUpcall u).freeCount = s.freeCount := rfl

/-! ### Upcall return -/

@[simp] theorem leaveUpcall_cfg (s : State) (v : Option Word) : (s.leaveUpcall v).cfg = s.cfg := rfl
@[simp] theorem leaveUpcall_eps (s : State) (v : Option Word) : (s.leaveUpcall v).eps = s.eps := rfl
@[simp] theorem leaveUpcall_reqs (s : State) (v : Option Word) : (s.leaveUpcall v).reqs = s.reqs := rfl
@[simp] theorem leaveUpcall_statusReq (s : State) (v : Option Word) : (s.leaveUpcall v).statusReq = s.statusReq := rfl
@[simp] theorem leaveUpcall_statusBytes (s : State) (v : Option Word) : (s.leaveUpcall v).statusBytes = s.statusBytes := rfl
@[simp] theorem leaveUpcall_sie (s : State) (v : Option Word) : (s.leaveUpcall v).sie = s.sie := rfl
@[simp] theorem leaveUpcall_mem (s : State) (v : Option Word) : (s.leaveUpcall v).mem = s.mem := rfl
@[simp] theorem leaveUpcall_result (s : State) (v : Option Word) : (s.leaveUpcall v).result = s.result := rfl
@[simp] theorem leaveUpcall_inputs (s : State) (v : Option Word) : (s.leaveUpcall v).inputs = s.inputs := rfl
@[simp] theorem leaveUpcall_driverScript (s : State) (v : Option Word) : (s.leaveUpcall v).driverScript = s.driverScript := rfl
@[simp] theorem leaveUpcall_betweenMoves (s : State) (v : Option Word) : (s.leaveUpcall v).betweenMoves = s.betweenMoves := rfl
@[simp] theorem leaveUpcall_freeCount (s : State) (v : Option Word) : (s.leaveUpcall v).freeCount = s.freeCount := rfl

/-! ### Taking the class driver's answer -/

@[simp] theorem afterResponse_cfg (s : State)  : (s.afterResponse).cfg = s.cfg := by unfold State.afterResponse; split <;> rfl
@[simp] theorem afterResponse_dev (s : State)  : (s.afterResponse).dev = s.dev := by unfold State.afterResponse; split <;> rfl
@[simp] theorem afterResponse_eps (s : State)  : (s.afterResponse).eps = s.eps := by unfold State.afterResponse; split <;> rfl
@[simp] theorem afterResponse_reqs (s : State)  : (s.afterResponse).reqs = s.reqs := by unfold State.afterResponse; split <;> rfl
@[simp] theorem afterResponse_statusReq (s : State)  : (s.afterResponse).statusReq = s.statusReq := by unfold State.afterResponse; split <;> rfl
@[simp] theorem afterResponse_statusBytes (s : State)  : (s.afterResponse).statusBytes = s.statusBytes := by unfold State.afterResponse; split <;> rfl
@[simp] theorem afterResponse_sie (s : State)  : (s.afterResponse).sie = s.sie := by unfold State.afterResponse; split <;> rfl
@[simp] theorem afterResponse_mem (s : State)  : (s.afterResponse).mem = s.mem := by unfold State.afterResponse; split <;> rfl
@[simp] theorem afterResponse_result (s : State)  : (s.afterResponse).result = s.result := by unfold State.afterResponse; split <;> rfl
@[simp] theorem afterResponse_inputs (s : State)  : (s.afterResponse).inputs = s.inputs := by unfold State.afterResponse; split <;> rfl
@[simp] theorem afterResponse_betweenMoves (s : State)  : (s.afterResponse).betweenMoves = s.betweenMoves := by unfold State.afterResponse; split <;> rfl
@[simp] theorem afterResponse_trace (s : State)  : (s.afterResponse).trace = s.trace := by unfold State.afterResponse; split <;> rfl

/-! ### One move of the SIE or host -/

@[simp] theorem move_cfg (s : State) (m : Move) : (s.move m).cfg = s.cfg := by unfold State.move; split <;> rfl
@[simp] theorem move_dev (s : State) (m : Move) : (s.move m).dev = s.dev := by unfold State.move; split <;> rfl
@[simp] theorem move_eps (s : State) (m : Move) : (s.move m).eps = s.eps := by unfold State.move; split <;> rfl
@[simp] theorem move_reqs (s : State) (m : Move) : (s.move m).reqs = s.reqs := by unfold State.move; split <;> rfl
@[simp] theorem move_statusReq (s : State) (m : Move) : (s.move m).statusReq = s.statusReq := by unfold State.move; split <;> rfl
@[simp] theorem move_statusBytes (s : State) (m : Move) : (s.move m).statusBytes = s.statusBytes := by unfold State.move; split <;> rfl
@[simp] theorem move_mem (s : State) (m : Move) : (s.move m).mem = s.mem := by unfold State.move; split <;> rfl
@[simp] theorem move_result (s : State) (m : Move) : (s.move m).result = s.result := by unfold State.move; split <;> rfl
@[simp] theorem move_inputs (s : State) (m : Move) : (s.move m).inputs = s.inputs := by unfold State.move; split <;> rfl
@[simp] theorem move_driverScript (s : State) (m : Move) : (s.move m).driverScript = s.driverScript := by unfold State.move; split <;> rfl
@[simp] theorem move_betweenMoves (s : State) (m : Move) : (s.move m).betweenMoves = s.betweenMoves := by unfold State.move; split <;> rfl
@[simp] theorem move_freeCount (s : State) (m : Move) : (s.move m).freeCount = s.freeCount := by unfold State.move; split <;> rfl

/-! ### Several moves -/

@[simp] theorem moves_cfg (s : State) (ms : List Move) : (s.moves ms).cfg = s.cfg := by
  induction ms generalizing s with
  | nil => rfl
  | cons m ms ih => exact (ih _).trans (move_cfg s m)
@[simp] theorem moves_dev (s : State) (ms : List Move) : (s.moves ms).dev = s.dev := by
  induction ms generalizing s with
  | nil => rfl
  | cons m ms ih => exact (ih _).trans (move_dev s m)
@[simp] theorem moves_eps (s : State) (ms : List Move) : (s.moves ms).eps = s.eps := by
  induction ms generalizing s with
  | nil => rfl
  | cons m ms ih => exact (ih _).trans (move_eps s m)
@[simp] theorem moves_reqs (s : State) (ms : List Move) : (s.moves ms).reqs = s.reqs := by
  induction ms generalizing s with
  | nil => rfl
  | cons m ms ih => exact (ih _).trans (move_reqs s m)
@[simp] theorem moves_statusReq (s : State) (ms : List Move) : (s.moves ms).statusReq = s.statusReq := by
  induction ms generalizing s with
  | nil => rfl
  | cons m ms ih => exact (ih _).trans (move_statusReq s m)
@[simp] theorem moves_statusBytes (s : State) (ms : List Move) : (s.moves ms).statusBytes = s.statusBytes := by
  induction ms generalizing s with
  | nil => rfl
  | cons m ms ih => exact (ih _).trans (move_statusBytes s m)
@[simp] theorem moves_mem (s : State) (ms : List Move) : (s.moves ms).mem = s.mem := by
  induction ms generalizing s with
  | nil => rfl
  | cons m ms ih => exact (ih _).trans (move_mem s m)
@[simp] theorem moves_result (s : State) (ms : List Move) : (s.moves ms).result = s.result := by
  induction ms generalizing s with
  | nil => rfl
  | cons m ms ih => exact (ih _).trans (move_result s m)
@[simp] theorem moves_inputs (s : State) (ms : List Move) : (s.moves ms).inputs = s.inputs := by
  induction ms generalizing s with
  | nil => rfl
  | cons m ms ih => exact (ih _).trans (move_inputs s m)
@[simp] theorem moves_driverScript (s : State) (ms : List Move) : (s.moves ms).driverScript = s.driverScript := by
  induction ms generalizing s with
  | nil => rfl
  | cons m ms ih => exact (ih _).trans (move_driverScript s m)
@[simp] theorem moves_betweenMoves (s : State) (ms : List Move) : (s.moves ms).betweenMoves = s.betweenMoves := by
  induction ms generalizing s with
  | nil => rfl
  | cons m ms ih => exact (ih _).trans (move_betweenMoves s m)
@[simp] theorem moves_freeCount (s : State) (ms : List Move) : (s.moves ms).freeCount = s.freeCount := by
  induction ms generalizing s with
  | nil => rfl
  | cons m ms ih => exact (ih _).trans (move_freeCount s m)

/-! ### The moves before an access -/

@[simp] theorem busTick_cfg (s : State)  : (s.busTick).cfg = s.cfg := by unfold State.busTick; split <;> simp
@[simp] theorem busTick_dev (s : State)  : (s.busTick).dev = s.dev := by unfold State.busTick; split <;> simp
@[simp] theorem busTick_eps (s : State)  : (s.busTick).eps = s.eps := by unfold State.busTick; split <;> simp
@[simp] theorem busTick_reqs (s : State)  : (s.busTick).reqs = s.reqs := by unfold State.busTick; split <;> simp
@[simp] theorem busTick_statusReq (s : State)  : (s.busTick).statusReq = s.statusReq := by unfold State.busTick; split <;> simp
@[simp] theorem busTick_statusBytes (s : State)  : (s.busTick).statusBytes = s.statusBytes := by unfold State.busTick; split <;> simp
@[simp] theorem busTick_mem (s : State)  : (s.busTick).mem = s.mem := by unfold State.busTick; split <;> simp
@[simp] theorem busTick_result (s : State)  : (s.busTick).result = s.result := by unfold State.busTick; split <;> simp
@[simp] theorem busTick_inputs (s : State)  : (s.busTick).inputs = s.inputs := by unfold State.busTick; split <;> simp
@[simp] theorem busTick_driverScript (s : State)  : (s.busTick).driverScript = s.driverScript := by unfold State.busTick; split <;> simp
@[simp] theorem busTick_freeCount (s : State)  : (s.busTick).freeCount = s.freeCount := by unfold State.busTick; split <;> simp

/-! ### A read access -/

@[simp] theorem afterRead_cfg (s : State) (r : Reg) : (s.afterRead r).cfg = s.cfg := busTick_cfg s
@[simp] theorem afterRead_dev (s : State) (r : Reg) : (s.afterRead r).dev = s.dev := busTick_dev s
@[simp] theorem afterRead_eps (s : State) (r : Reg) : (s.afterRead r).eps = s.eps := busTick_eps s
@[simp] theorem afterRead_reqs (s : State) (r : Reg) : (s.afterRead r).reqs = s.reqs := busTick_reqs s
@[simp] theorem afterRead_statusReq (s : State) (r : Reg) : (s.afterRead r).statusReq = s.statusReq := busTick_statusReq s
@[simp] theorem afterRead_statusBytes (s : State) (r : Reg) : (s.afterRead r).statusBytes = s.statusBytes := busTick_statusBytes s
@[simp] theorem afterRead_mem (s : State) (r : Reg) : (s.afterRead r).mem = s.mem := busTick_mem s
@[simp] theorem afterRead_result (s : State) (r : Reg) : (s.afterRead r).result = s.result := busTick_result s
@[simp] theorem afterRead_inputs (s : State) (r : Reg) : (s.afterRead r).inputs = s.inputs := busTick_inputs s
@[simp] theorem afterRead_driverScript (s : State) (r : Reg) : (s.afterRead r).driverScript = s.driverScript := busTick_driverScript s
@[simp] theorem afterRead_freeCount (s : State) (r : Reg) : (s.afterRead r).freeCount = s.freeCount := busTick_freeCount s

/-! ### A write access -/

@[simp] theorem afterWrite_cfg (s : State) (r : Reg) (v : Word) : (s.afterWrite r v).cfg = s.cfg := busTick_cfg s
@[simp] theorem afterWrite_dev (s : State) (r : Reg) (v : Word) : (s.afterWrite r v).dev = s.dev := busTick_dev s
@[simp] theorem afterWrite_eps (s : State) (r : Reg) (v : Word) : (s.afterWrite r v).eps = s.eps := busTick_eps s
@[simp] theorem afterWrite_reqs (s : State) (r : Reg) (v : Word) : (s.afterWrite r v).reqs = s.reqs := busTick_reqs s
@[simp] theorem afterWrite_statusReq (s : State) (r : Reg) (v : Word) : (s.afterWrite r v).statusReq = s.statusReq := busTick_statusReq s
@[simp] theorem afterWrite_statusBytes (s : State) (r : Reg) (v : Word) : (s.afterWrite r v).statusBytes = s.statusBytes := busTick_statusBytes s
@[simp] theorem afterWrite_mem (s : State) (r : Reg) (v : Word) : (s.afterWrite r v).mem = s.mem := busTick_mem s
@[simp] theorem afterWrite_result (s : State) (r : Reg) (v : Word) : (s.afterWrite r v).result = s.result := busTick_result s
@[simp] theorem afterWrite_inputs (s : State) (r : Reg) (v : Word) : (s.afterWrite r v).inputs = s.inputs := busTick_inputs s
@[simp] theorem afterWrite_driverScript (s : State) (r : Reg) (v : Word) : (s.afterWrite r v).driverScript = s.driverScript := busTick_driverScript s
@[simp] theorem afterWrite_freeCount (s : State) (r : Reg) (v : Word) : (s.afterWrite r v).freeCount = s.freeCount := busTick_freeCount s

/-! ### The SIE's status stage -/

@[simp] theorem settle_cfg (s : State)  : (s.settleStatusStage).cfg = s.cfg := by unfold State.settleStatusStage; (repeat' split) <;> rfl
@[simp] theorem settle_dev (s : State)  : (s.settleStatusStage).dev = s.dev := by unfold State.settleStatusStage; (repeat' split) <;> rfl
@[simp] theorem settle_eps (s : State)  : (s.settleStatusStage).eps = s.eps := by unfold State.settleStatusStage; (repeat' split) <;> rfl
@[simp] theorem settle_reqs (s : State)  : (s.settleStatusStage).reqs = s.reqs := by unfold State.settleStatusStage; (repeat' split) <;> rfl
@[simp] theorem settle_statusReq (s : State)  : (s.settleStatusStage).statusReq = s.statusReq := by unfold State.settleStatusStage; (repeat' split) <;> rfl
@[simp] theorem settle_statusBytes (s : State)  : (s.settleStatusStage).statusBytes = s.statusBytes := by unfold State.settleStatusStage; (repeat' split) <;> rfl
@[simp] theorem settle_mem (s : State)  : (s.settleStatusStage).mem = s.mem := by unfold State.settleStatusStage; (repeat' split) <;> rfl
@[simp] theorem settle_result (s : State)  : (s.settleStatusStage).result = s.result := by unfold State.settleStatusStage; (repeat' split) <;> rfl
@[simp] theorem settle_inputs (s : State)  : (s.settleStatusStage).inputs = s.inputs := by unfold State.settleStatusStage; (repeat' split) <;> rfl
@[simp] theorem settle_driverScript (s : State)  : (s.settleStatusStage).driverScript = s.driverScript := by unfold State.settleStatusStage; (repeat' split) <;> rfl
@[simp] theorem settle_betweenMoves (s : State)  : (s.settleStatusStage).betweenMoves = s.betweenMoves := by unfold State.settleStatusStage; (repeat' split) <;> rfl
@[simp] theorem settle_freeCount (s : State)  : (s.settleStatusStage).freeCount = s.freeCount := by unfold State.settleStatusStage; (repeat' split) <;> rfl
@[simp] theorem settle_trace (s : State)  : (s.settleStatusStage).trace = s.trace := by unfold State.settleStatusStage; (repeat' split) <;> rfl

/-! ### Endpoint records -/

@[simp] theorem setEp_length (s : State) (i : Nat) (f : Endpoint → Endpoint) :
    (s.setEp i f).eps.length = s.eps.length := by simp [State.setEp]

theorem getD_modify_self {α : Type} (l : List α) (i : Nat) (f : α → α) (d : α) (h : i < l.length) :
    (l.modify i f).getD i d = f (l.getD i d) := by
  simp [List.getD_eq_getElem?_getD, h]

theorem getD_modify_ne {α : Type} (l : List α) (i j : Nat) (f : α → α) (d : α) (h : i ≠ j) :
    (l.modify i f).getD j d = l.getD j d := by
  simp [List.getD_eq_getElem?_getD, h]

theorem ep_setEp_self (s : State) (i : Nat) (f : Endpoint → Endpoint) (h : i < s.eps.length) :
    (s.setEp i f).ep i = f (s.ep i) := getD_modify_self _ _ _ _ h

theorem ep_setEp_ne (s : State) {i j : Nat} (f : Endpoint → Endpoint) (h : i ≠ j) :
    (s.setEp i f).ep j = s.ep j := getD_modify_ne _ _ _ _ _ h

/-- Either the record is the updated one, or it is the one of before. -/
theorem ep_setEp_cases (s : State) (i j : Nat) (f : Endpoint → Endpoint) :
    (s.setEp i f).ep j = s.ep j ∨ (i = j ∧ j < s.eps.length ∧ (s.setEp i f).ep j = f (s.ep j)) := by
  by_cases h : i = j
  · subst h
    by_cases hl : i < s.eps.length
    · exact .inr ⟨rfl, hl, ep_setEp_self s i f hl⟩
    · exact .inl (by simp [State.ep, State.setEp, List.getD_eq_getElem?_getD, hl])
  · exact .inl (ep_setEp_ne s f h)

/-- An update that keeps a field of the record keeps it at every index. -/
theorem ep_setEp_keeps {β : Type} (g : Endpoint → β) (s : State) (i j : Nat) (f : Endpoint → Endpoint)
    (h : ∀ e, g (f e) = g e) : g ((s.setEp i f).ep j) = g (s.ep j) := by
  rcases ep_setEp_cases s i j f with h1 | ⟨_, _, h1⟩
  · rw [h1]
  · rw [h1, h]

@[simp] theorem ep_setDev (s : State) (f : Device → Device) (i : Nat) : (s.setDev f).ep i = s.ep i := rfl
@[simp] theorem ep_setReq (s : State) (h : Handle) (f : Request → Request) (i : Nat) :
    (s.setReq h f).ep i = s.ep i := by cases h <;> rfl
@[simp] theorem ep_afterRead (s : State) (r : Reg) (i : Nat) : (s.afterRead r).ep i = s.ep i := by
  simp [State.ep]
@[simp] theorem ep_afterWrite (s : State) (r : Reg) (v : Word) (i : Nat) : (s.afterWrite r v).ep i = s.ep i := by
  simp [State.ep]
@[simp] theorem ep_returned (s : State) (r : Status) (i : Nat) : (s.returned r).ep i = s.ep i := rfl
@[simp] theorem ep_setByte (s : State) (a : Nat) (b : Byte) (i : Nat) : (s.setByte a b).ep i = s.ep i := rfl

/-! ### Device fields -/

@[simp] theorem setDev_dev (s : State) (f : Device → Device) : (s.setDev f).dev = f s.dev := rfl

/-! ### Request records -/

@[simp] theorem withLength_buf (n : Nat) (r : Request) : (r.withLength n).buf = r.buf := rfl
@[simp] theorem withLength_length (n : Nat) (r : Request) : (r.withLength n).length = n := rfl
@[simp] theorem withLength_actual (n : Nat) (r : Request) : (r.withLength n).actual = min r.actual n := rfl
@[simp] theorem withLength_zero (n : Nat) (r : Request) : (r.withLength n).zero = r.zero := rfl
@[simp] theorem withLength_callback (n : Nat) (r : Request) : (r.withLength n).callback = r.callback := rfl
@[simp] theorem withLength_status (n : Nat) (r : Request) : (r.withLength n).status = r.status := rfl
@[simp] theorem withLength_queuedOn (n : Nat) (r : Request) : (r.withLength n).queuedOn = r.queuedOn := rfl
@[simp] theorem withLength_queuings (n : Nat) (r : Request) : (r.withLength n).queuings = r.queuings := rfl

theorem findRequest_update_self (h : Word) (f : Request → Request) (l : List (Word × Request)) :
    findRequest h (updateRequest h f l) = (findRequest h l).map f := by
  induction l with
  | nil => rfl
  | cons p l ih =>
    obtain ⟨k, r⟩ := p
    by_cases hk : k = h <;> simp [updateRequest, findRequest, hk, ih]

theorem findRequest_update_ne {h k : Word} (hk : k ≠ h) (f : Request → Request) (l : List (Word × Request)) :
    findRequest k (updateRequest h f l) = findRequest k l := by
  induction l with
  | nil => rfl
  | cons p l ih =>
    obtain ⟨j, r⟩ := p
    by_cases hj : j = h
    · subst hj
      simp [updateRequest, findRequest, Ne.symm hk]
    · simp only [updateRequest, hj, if_false, findRequest, ih]

/-- An update never adds, drops or renames a handle. -/
@[simp] theorem updateRequest_handles (h : Word) (f : Request → Request) (l : List (Word × Request)) :
    (updateRequest h f l).map (·.1) = l.map (·.1) := by
  induction l with
  | nil => rfl
  | cons p l ih =>
    obtain ⟨k, r⟩ := p
    by_cases hk : k = h <;> simp [updateRequest, hk, ih]

/-- After an update each entry is one of before, or the updated form of the record found. -/
theorem mem_updateRequest {h : Word} {f : Request → Request} {l : List (Word × Request)} {p : Word × Request}
    (hp : p ∈ updateRequest h f l) : p ∈ l ∨ ∃ r, findRequest h l = some r ∧ (h, r) ∈ l ∧ p = (h, f r) := by
  induction l with
  | nil => exact absurd hp (by simp [updateRequest])
  | cons q l ih =>
    obtain ⟨k, r⟩ := q
    by_cases hk : k = h
    · subst hk
      simp only [updateRequest, if_true, List.mem_cons] at hp
      rcases hp with rfl | hp
      · exact .inr ⟨r, by simp [findRequest], by simp, rfl⟩
      · exact .inl (by simp [hp])
    · simp only [updateRequest, hk, if_false, List.mem_cons] at hp
      rcases hp with rfl | hp
      · exact .inl (by simp)
      · rcases ih hp with h1 | ⟨r', h1, h2, h3⟩
        · exact .inl (by simp [h1])
        · exact .inr ⟨r', by simp [findRequest, hk, h1], by simp [h2], h3⟩

theorem findRequest_mem {h : Word} {l : List (Word × Request)} {r : Request} (hf : findRequest h l = some r) :
    (h, r) ∈ l := by
  induction l with
  | nil => cases hf
  | cons q l ih =>
    obtain ⟨k, r'⟩ := q
    by_cases hk : k = h
    · subst hk
      simp only [findRequest, if_true, Option.some.injEq] at hf
      simp [hf]
    · simp only [findRequest, hk, if_false] at hf
      simp [ih hf]

/-- A request whose record differs from the inert one in a field has a record. -/
theorem known_of_ne {β : Type} (g : Request → β) {s : State} {h : Handle} (hg : g (s.req h) ≠ g Request.absent) :
    s.known h = true := by
  cases h with
  | statusReq => rfl
  | user k =>
    cases hf : findRequest k s.reqs with
    | none => exact absurd (by simp [State.req, hf]) hg
    | some r => simp [State.known, State.hasRequest, hf]

theorem req_setReq_self (s : State) (h : Handle) (f : Request → Request) (hk : s.known h = true) :
    (s.setReq h f).req h = f (s.req h) := by
  cases h with
  | statusReq => rfl
  | user k =>
    simp only [State.known, State.hasRequest, Option.isSome_iff_exists] at hk
    obtain ⟨r, hr⟩ := hk
    simp [State.req, State.setReq, findRequest_update_self, hr]

theorem req_setReq_ne (s : State) {h k : Handle} (f : Request → Request) (hk : k ≠ h) :
    (s.setReq h f).req k = s.req k := by
  cases h <;> cases k <;> first
    | rfl
    | exact absurd rfl hk
    | (simp only [State.req, State.setReq]
       rw [findRequest_update_ne (fun e => hk (by rw [e]))])

/-- Either the record is the updated one, or it is the one of before. -/
theorem req_setReq_cases (s : State) (h k : Handle) (f : Request → Request) :
    (s.setReq h f).req k = s.req k ∨ (k = h ∧ s.known h = true ∧ (s.setReq h f).req k = f (s.req k)) := by
  by_cases hk : k = h
  · subst hk
    cases k with
    | statusReq => exact .inr ⟨rfl, rfl, rfl⟩
    | user w =>
      cases hf : findRequest w s.reqs with
      | none => exact .inl (by simp [State.req, State.setReq, findRequest_update_self, hf])
      | some r =>
        have hw : s.known (.user w) = true := by simp [State.known, State.hasRequest, hf]
        exact .inr ⟨rfl, hw, req_setReq_self s _ f hw⟩
  · exact .inl (req_setReq_ne s f hk)

/-- An update that keeps a field of the record keeps it for every handle. -/
theorem req_setReq_keeps {β : Type} (g : Request → β) (s : State) (h k : Handle) (f : Request → Request)
    (hf : ∀ r, g (f r) = g r) : g ((s.setReq h f).req k) = g (s.req k) := by
  rcases req_setReq_cases s h k f with h1 | ⟨_, _, h1⟩
  · rw [h1]
  · rw [h1, hf]

@[simp] theorem known_setReq (s : State) (h k : Handle) (f : Request → Request) :
    (s.setReq h f).known k = s.known k := by
  cases h with
  | statusReq => cases k <;> rfl
  | user h =>
    cases k with
    | statusReq => rfl
    | user k =>
      simp only [State.known, State.hasRequest, State.setReq]
      by_cases hk : k = h
      · subst hk
        simp [findRequest_update_self]
      · rw [findRequest_update_ne hk]

@[simp] theorem known_setEp (s : State) (i : Nat) (f : Endpoint → Endpoint) (k : Handle) :
    (s.setEp i f).known k = s.known k := by cases k <;> rfl
@[simp] theorem known_afterRead (s : State) (r : Reg) (k : Handle) : (s.afterRead r).known k = s.known k := by
  cases k <;> simp [State.known, State.hasRequest]
@[simp] theorem known_afterWrite (s : State) (r : Reg) (v : Word) (k : Handle) :
    (s.afterWrite r v).known k = s.known k := by cases k <;> simp [State.known, State.hasRequest]

/-- The same table knows the same handles. -/
theorem known_eq_of_eq {s t : State} (h1 : t.reqs = s.reqs) (h : Handle) : t.known h = s.known h := by
  cases h <;> simp [State.known, State.hasRequest, h1]

@[simp] theorem known_setDev (s : State) (f : Device → Device) (k : Handle) : (s.setDev f).known k = s.known k := by
  cases k <;> rfl

/-- The same tables hold the same records. -/
theorem req_eq_of_eq {s t : State} (h1 : t.reqs = s.reqs) (h2 : t.statusReq = s.statusReq) (h : Handle) :
    t.req h = s.req h := by
  cases h
  · simp [State.req, h1]
  · simp [State.req, h2]

@[simp] theorem req_setEp (s : State) (i : Nat) (f : Endpoint → Endpoint) (h : Handle) :
    (s.setEp i f).req h = s.req h := by cases h <;> rfl
@[simp] theorem req_setDev (s : State) (f : Device → Device) (h : Handle) : (s.setDev f).req h = s.req h := by
  cases h <;> rfl
@[simp] theorem req_afterRead (s : State) (r : Reg) (h : Handle) : (s.afterRead r).req h = s.req h := by
  cases h <;> simp [State.req]
@[simp] theorem req_afterWrite (s : State) (r : Reg) (v : Word) (h : Handle) : (s.afterWrite r v).req h = s.req h := by
  cases h <;> simp [State.req]
@[simp] theorem req_returned (s : State) (r : Status) (h : Handle) : (s.returned r).req h = s.req h := by
  cases h <;> rfl
@[simp] theorem req_setByte (s : State) (a : Nat) (b : Byte) (h : Handle) : (s.setByte a b).req h = s.req h := by
  cases h <;> rfl

end Sys2Proof.Machine
end

