-- ==== Sys2Proof/Laws/Memory.lean ====
section
/-! SUPPORT. System memory: every operation keeps the canonical form, a read gives what was last written, and equal
reads make equal memories. -/

namespace Sys2Proof.Machine

theorem wf_nil : Memory.wf [] := by simp [Memory.wf]

theorem wf_cons {k : Nat} {b : Byte} {m : Memory} :
    Memory.wf ((k, b) :: m) ↔ (∀ c ∈ m, k < c.1) ∧ b ≠ Memory.unlisted ∧ Memory.wf m := by
  simp only [Memory.wf, List.pairwise_cons, List.mem_cons, forall_eq_or_imp]
  tauto

/-- An address below every listed one reads as unlisted. -/
theorem read_below {m : Memory} {a : Nat} (h : ∀ c ∈ m, a < c.1) : Memory.read m a = Memory.unlisted := by
  induction m with
  | nil => rfl
  | cons c m ih =>
    have h1 : a < c.1 := h c (by simp)
    simp only [Memory.read, Nat.ne_of_gt h1, if_false]
    exact ih fun d hd => h d (by simp [hd])

/-- What a write lists: the cells of before and the one written. -/
theorem mem_write {m : Memory} {a : Nat} {b : Byte} {c : Host.Cell} (h : c ∈ Memory.write m a b) :
    c ∈ m ∨ (c = (a, b) ∧ b ≠ Memory.unlisted) := by
  induction m with
  | nil =>
    simp only [Memory.write] at h
    split at h
    · simp at h
    · simp_all
  | cons d m ih =>
    simp only [Memory.write] at h
    split at h <;> (try split at h) <;> (try split at h) <;> simp_all <;> tauto

theorem write_wf {m : Memory} (h : Memory.wf m) (a : Nat) (b : Byte) : Memory.wf (Memory.write m a b) := by
  induction m with
  | nil =>
    simp only [Memory.write]
    split
    · exact wf_nil
    · exact wf_cons.mpr ⟨by simp, ‹_›, wf_nil⟩
  | cons d m ih =>
    obtain ⟨k, c⟩ := d
    obtain ⟨hlt, hc, hm⟩ := wf_cons.mp h
    simp only [Memory.write]
    split
    · split
      · exact h
      · rw [wf_cons]
        refine ⟨?_, ‹_›, h⟩
        intro x hx
        rcases List.mem_cons.mp hx with rfl | hx
        · assumption
        · exact Nat.lt_trans ‹_› (hlt x hx)
    · split
      · split
        · exact hm
        · rw [wf_cons]
          subst_vars
          exact ⟨hlt, ‹_›, hm⟩
      · rw [wf_cons]
        refine ⟨?_, hc, ih hm⟩
        intro x hx
        rcases mem_write hx with hx | ⟨rfl, _⟩
        · exact hlt x hx
        · show k < a
          omega

theorem read_write {m : Memory} (h : Memory.wf m) (a a' : Nat) (b : Byte) :
    Memory.read (Memory.write m a b) a' = if a' = a then b else Memory.read m a' := by
  induction m with
  | nil =>
    by_cases hb : b = Memory.unlisted
    · by_cases ha : a' = a <;> simp [Memory.write, Memory.read, hb, ha]
    · simp [Memory.write, Memory.read, hb, eq_comm]
  | cons d m ih =>
    obtain ⟨k, c⟩ := d
    obtain ⟨hlt, hc, hm⟩ := wf_cons.mp h
    have below : ∀ {x : Nat}, x ≤ k → Memory.read m x = Memory.unlisted := fun hx =>
      read_below fun d hd => Nat.lt_of_le_of_lt hx (hlt d hd)
    by_cases h1 : a < k
    · by_cases hb : b = Memory.unlisted
      · by_cases ha : a' = a
        · subst ha
          simp [Memory.write, h1, hb, Memory.read, Nat.ne_of_gt h1, below (Nat.le_of_lt h1)]
        · simp [Memory.write, h1, hb, ha]
      · by_cases ha : a' = a
        · simp [Memory.write, h1, hb, Memory.read, ha]
        · simp [Memory.write, h1, hb, Memory.read, ha, Ne.symm ha]
    · by_cases h2 : a = k
      · subst h2
        by_cases hb : b = Memory.unlisted
        · by_cases ha : a' = a
          · subst ha
            simp [Memory.write, hb, below (Nat.le_refl a')]
          · simp [Memory.write, hb, ha, Memory.read, Ne.symm ha]
        · by_cases ha : a' = a
          · simp [Memory.write, hb, Memory.read, ha]
          · simp [Memory.write, hb, Memory.read, ha, Ne.symm ha]
      · have step : Memory.write ((k, c) :: m) a b = (k, c) :: Memory.write m a b := by
          simp [Memory.write, h1, h2]
        rw [step]
        by_cases ha : a' = k
        · subst ha
          simp [Memory.read, Ne.symm h2]
        · simp only [Memory.read, Ne.symm ha, if_false]
          exact ih hm

theorem read_mem {m : Memory} (h : Memory.wf m) {k : Nat} {b : Byte} (hk : (k, b) ∈ m) : Memory.read m k = b := by
  induction m with
  | nil => simp at hk
  | cons d m ih =>
    obtain ⟨j, c⟩ := d
    obtain ⟨hlt, _, hm⟩ := wf_cons.mp h
    rcases List.mem_cons.mp hk with hk | hk
    · cases hk
      simp [Memory.read]
    · have : j ≠ k := Nat.ne_of_lt (hlt _ hk)
      simp [Memory.read, this, ih hm hk]

@[simp] theorem byte_setByte_mem (s : State) (a : Nat) (b : Byte) : (s.setByte a b).mem = Memory.write s.mem a b := rfl

theorem byte_setByte (s : State) (h : Memory.wf s.mem) (a a' : Nat) (b : Byte) :
    (s.setByte a b).byte a' = if a' = a then b else s.byte a' := read_write h a a' b

/-- `MemWrite` keeps the canonical form. -/
theorem memWriteByte_wf {s t : State} {u : Unit} {a : Nat} {b : Byte} (h : Memory.wf s.mem)
    (hr : memWriteByte a b s = .ok (u, t)) : Memory.wf t.mem := by
  unfold memWriteByte at hr
  split at hr
  · cases hr
    exact write_wf h a b
  · cases hr

/-- A completed `MemRead` changes nothing and gives the bytes from the address on. -/
theorem memRead_run {a n : Nat} {s : State} (h : a + n ≤ s.cfg.memSize) :
    memRead a n s = .ok ((List.range' a n).map s.byte, s) := by
  induction n generalizing a with
  | zero => rfl
  | succ n ih =>
    have h1 : memReadByte a s = .ok (s.byte a, s) := by
      unfold memReadByte
      rw [if_pos (by omega)]
    rw [memRead, bind_run_ok h1, bind_run_ok (ih (a := a + 1) (by omega))]
    simp [List.range'_succ]

/-- `MemRead` completes only inside memory. -/
theorem memRead_ok {a n : Nat} {s t : State} {l : List Byte} (h : memRead a n s = .ok (l, t)) :
    t = s ∧ l = (List.range' a n).map s.byte := by
  induction n generalizing a l t with
  | zero =>
    cases h
    exact ⟨rfl, rfl⟩
  | succ n ih =>
    rw [memRead] at h
    obtain ⟨b, u, h1, h2⟩ := bind_ok_iff.mp h
    have hb : b = s.byte a ∧ u = s := by
      unfold memReadByte at h1
      split at h1
      · cases h1
        exact ⟨rfl, rfl⟩
      · cases h1
    obtain ⟨rfl, rfl⟩ := hb
    obtain ⟨bs, v, h3, h4⟩ := bind_ok_iff.mp h2
    obtain ⟨rfl, rfl⟩ := ih h3
    cases h4
    exact ⟨rfl, by simp [List.range'_succ]⟩

end Sys2Proof.Machine
end

