-- ==== Sys2Proof/Laws/Closure.lean ====
section
/-! SUPPORT. Every command and event handler relates its start to its end by any relation that each of the core's single
effects respects.  `CommandKept R` lists the effects a command can have, nested ones included; `PumpKept R` adds those
of TASK.  Instantiating R gives the invariants and frames that hold whatever the class driver and the SIE do. -/

namespace Sys2Proof.Machine

/-- Request h stands in endpoint i's queue, or has just been taken off it, or stands in none: what holds of every
completion. -/
def State.mayComplete (s : State) (i : Nat) (h : Handle) : Prop :=
  h ∈ (s.ep i).queue ∨ (s.req h).queuedOn = some i ∨ (s.req h).queuedOn = none

/-- Request h has moved n more bytes (R98, R102). -/
def State.advanced (s : State) (h : Handle) (n : Nat) : State := s.setReq h fun r => { r with actual := r.actual + n }

/-- The relation R respects every single effect of a command (with what the rule has checked before it), and every
upcall whose class-driver actions respect it. -/
structure CommandKept (R : State → State → Prop) : Prop where
  refl : ∀ s, R s s
  trans : ∀ s t u, R s t → R t u → R s u
  read : ∀ s r, R s (s.afterRead r)
  writeCount : ∀ s i v, R s (s.afterWrite (.txBcnt i) v)
  writeFifo : ∀ s i v, R s (s.afterWrite (.fifo i) v)
  flush : ∀ i, Within R (flushIn i)
  halt : ∀ s i v t, i = 0 ∨ (i < s.numEps ∧ (s.ep i).enabled = true) → haltFields i v s = .ok ((), t) → R s t
  shut : ∀ s i t, 1 ≤ i → i < s.numEps → shutFields i s = .ok ((), t) → R s t
  enable : ∀ s (ep : BitVec 4) d t, 1 ≤ ep.toNat → ep.toNat < s.numEps → descriptorError s ep d = none →
    enableFields ep.toNat (descSize d) s = .ok ((), t) → R s t
  completed : ∀ s i h st, s.mayComplete i h → R s (s.completed i h st)
  clearQueue : ∀ s i, R s (s.setEp i fun e => { e with queue := [] })
  begin : ∀ s i h, queueError s i h = none → R s (s.setReq h Request.begun)
  append : ∀ s i h, i < s.numEps → s.known h = true → (s.req h).queuedOn = none →
    R s ((s.setEp i fun e => { e with queue := e.queue ++ [h] }).setReq h fun r => { r with queuedOn := some i })
  advance : ∀ s h n, n ≤ (s.req h).length - (s.req h).actual → R s (s.advanced h n)
  mark : ∀ s h (f : Request → Status), R s (s.setReq h fun r => { r with status := f r })
  byte : ∀ s a b, a < s.cfg.memSize → R s (s.setByte a b)
  statusByte : ∀ s k b, R s (s.setStatusByte k b)
  returned : ∀ s r, R s (s.returned r)
  record : ∀ s h f, (∃ r, findRequest h s.reqs = some r ∧ r.queuedOn = none) →
    (∀ r, (f r).queuedOn = r.queuedOn ∧ (r.CountsOk → (f r).CountsOk)) → R s (s.setReq (.user h) f)
  upcall : ∀ s u ret t, R (s.enterUpcall u).afterResponse t → R s (t.leaveUpcall ret)

/-- The relation R respects BIND's change of the driver, which no command nested in an upcall makes (R117, R197). -/
def BindKept (R : State → State → Prop) : Prop :=
  ∀ s d, s.dev.upcallDepth = 0 → s.dev.driver = none → R s (s.setDev fun v => { v with driver := some d })

section command
variable {R : State → State → Prop} (k : CommandKept R)
include k

theorem CommandKept.look {α : Type} (f : State → α) : Within R (look f) := Within.look k.refl f

theorem CommandKept.pure {α : Type} (a : α) : Within R (pure a : Proc α) := Within.pure k.refl a

theorem CommandKept.regRead (r : Reg) : Within R (regRead r) := fun s _ t h => by
  cases h
  exact k.read s r

theorem CommandKept.memRead (a n : Nat) : Within R (memRead a n) := fun s l t h => by
  rw [(memRead_ok h).1]
  exact k.refl s

theorem CommandKept.memWriteByte (a : Nat) (b : Byte) : Within R (memWriteByte a b) := fun s u t h => by
  unfold Machine.memWriteByte at h
  split at h
  · cases h
    exact k.byte s a b ‹_›
  · cases h

theorem CommandKept.bufRead (b : Buffer) (off n : Nat) : Within R (bufRead b off n) := by
  cases b
  · exact k.pure _
  · exact k.memRead _ _
  · exact k.look _

theorem CommandKept.bufWriteByte (b : Buffer) (off : Nat) (v : Byte) : Within R (bufWriteByte b off v) := by
  cases b
  · exact k.pure _
  · exact k.memWriteByte _ _
  · exact Within.change fun s => k.statusByte s off v

theorem CommandKept.regWriteFifo (i : Nat) (v : Word) : Within R (regWrite (.fifo i) v) := fun s _ t h => by
  cases h
  exact k.writeFifo s i v

theorem CommandKept.callback {up : Upcalls} (hu : ∀ u, Within R (up u)) (h : Handle) : Within R (callback up h) := by
  refine Within.bind k.trans (k.look _) fun cb => ?_
  cases cb
  · exact k.pure _
  · exact Within.bind k.trans (hu _) fun _ => k.pure _

theorem CommandKept.complete {up : Upcalls} (hu : ∀ u, Within R (up u)) {i : Nat} {h : Handle} {st : Status} {s t : State}
    {b : Unit} (hm : s.mayComplete i h) (hr : Machine.complete up i h st s = .ok (b, t)) : R s t := by
  unfold Machine.complete at hr
  rw [change_bind_run] at hr
  exact k.trans _ _ _ (k.completed s i h st hm) (k.callback hu h _ _ _ hr)

omit k in
theorem needRecord_ok {h : Handle} {s t : State} {b : Unit} (hr : needRecord h s = .ok (b, t)) :
    t = s ∧ s.known h = true := by
  unfold needRecord at hr
  split at hr
  · cases hr
    exact ⟨rfl, ‹_›⟩
  · cases hr

omit k in
theorem needCounts_ok {h : Handle} {s t : State} {b : Unit} (hr : needCounts h s = .ok (b, t)) :
    t = s ∧ (s.req h).inWidth = true := by
  unfold needCounts at hr
  split at hr
  · cases hr
    exact ⟨rfl, ‹_›⟩
  · cases hr

theorem CommandKept.cancel {up : Upcalls} (hu : ∀ u, Within R (up u)) (i : Nat) (st : Status) (x : Handle × Nat) :
    Within R (cancel up i st x) := fun s b t hr => by
  unfold Machine.cancel at hr
  obtain ⟨_, u, h1, h2⟩ := bind_ok_iff.mp hr
  obtain ⟨rfl, _⟩ := needRecord_ok h1
  rw [look_bind_run, onlyIf_run] at h2
  split at h2
  · rename_i hw
    refine k.complete hu (.inr ?_) h2
    simp only [State.awaitsNuke, Bool.and_eq_true, decide_eq_true_eq] at hw
    exact hw.2
  · cases h2
    exact k.refl _

theorem CommandKept.nuke {up : Upcalls} (hu : ∀ u, Within R (up u)) (i : Nat) (st : Status) : Within R (nuke up i st) := by
  refine Within.bind k.trans (k.look _) fun l => ?_
  refine Within.bind k.trans (Within.change fun s => k.clearQueue s i) fun _ => ?_
  exact Within.eachOf k.refl k.trans fun h _ => k.cancel hu i st h

theorem CommandKept.canStart (i : Nat) : Within R (canStart i) := by
  refine Within.bind k.trans (k.look _) fun a => ?_
  refine Within.ite (fun _ => ?_) fun _ => k.pure _
  refine Within.bind k.trans (k.look _) fun d => ?_
  refine Within.bind k.trans (k.regRead _) fun e => ?_
  exact k.pure _

omit k in
/-- No request and no endpoint record has changed. -/
def SameRequests (s t : State) : Prop := t.reqs = s.reqs ∧ t.statusReq = s.statusReq ∧ t.eps = s.eps

omit k in
theorem SameRequests.refl (s : State) : SameRequests s s := ⟨rfl, rfl, rfl⟩

omit k in
theorem SameRequests.trans (s t u : State) (h1 : SameRequests s t) (h2 : SameRequests t u) : SameRequests s u :=
  ⟨h2.1.trans h1.1, h2.2.1.trans h1.2.1, h2.2.2.trans h1.2.2⟩

omit k in
theorem SameRequests.req {s t : State} (h : SameRequests s t) (x : Handle) : t.req x = s.req x := req_eq_of_eq h.1 h.2.1 x

omit k in
theorem SameRequests.ep {s t : State} (h : SameRequests s t) (i : Nat) : t.ep i = s.ep i := by
  rw [State.ep, State.ep, h.2.2]

omit k in
theorem SameRequests.known {s t : State} (h : SameRequests s t) (x : Handle) : t.known x = s.known x := by
  cases x
  · simp only [State.known, State.hasRequest, h.1]
  · rfl

omit k in
theorem SameRequests.afterWrite (s : State) (r : Reg) (v : Word) : SameRequests s (s.afterWrite r v) := by
  refine ⟨?_, ?_, ?_⟩ <;> simp

omit k in
theorem SameRequests.afterRead (s : State) (r : Reg) : SameRequests s (s.afterRead r) := by
  refine ⟨?_, ?_, ?_⟩ <;> simp

omit k in
/-- The register accesses of a packet touch no request. -/
theorem writeWords_same (i : Nat) (l : List Byte) : Within SameRequests (writeWords i l) := by
  have w : ∀ v, Within SameRequests (regWrite (.fifo i) v) := fun v s _ t h => by
    cases h
    exact SameRequests.afterWrite s _ v
  induction l using writeWords.induct with
  | case1 => exact Within.pure SameRequests.refl ()
  | case2 lo => exact w _
  | case3 lo hi rest ih => exact Within.bind SameRequests.trans (w _) fun _ => ih

theorem CommandKept.writeWords (i : Nat) (l : List Byte) : Within R (writeWords i l) := by
  induction l using writeWords.induct with
  | case1 => exact k.pure ()
  | case2 lo => exact k.regWriteFifo i _
  | case3 lo hi rest ih => exact Within.bind k.trans (k.regWriteFifo i _) fun _ => ih

omit k in
theorem bufRead_ok {b : Buffer} {off n : Nat} {s t : State} {l : List Byte} (h : Machine.bufRead b off n s = .ok (l, t)) :
    t = s := by
  cases b
  · cases h
    rfl
  · exact (memRead_ok h).1
  · cases h
    rfl

omit k in
@[simp] theorem advanced_ep (s : State) (h : Handle) (n i : Nat) : (s.advanced h n).ep i = s.ep i := ep_setReq _ _ _ _

/-- The end of a packet: the bytes are counted, and the request completes when the packet was the last. -/
theorem CommandKept.advanceThen {up : Upcalls} (hu : ∀ u, Within R (up u)) (i : Nat) (h : Handle) (n : Nat)
    (last : State → Bool) {s t : State} {b : Bool} (hq : h ∈ (s.ep i).queue)
    (hn : n ≤ (s.req h).length - (s.req h).actual)
    (hr : (Machine.advance h n >>= fun _ => Machine.look last >>= fun l =>
      if l then (Machine.complete up i h .ok >>= fun _ => Pure.pure true) else Pure.pure false) s = .ok (b, t)) : R s t := by
  unfold Machine.advance at hr
  simp only [change_bind_run, look_bind_run] at hr
  change (if last (s.advanced h n) = true then _ else _ : Proc Bool) (s.advanced h n) = _ at hr
  refine k.trans _ _ _ (k.advance s h n hn) ?_
  split at hr
  · obtain ⟨_, u, h1, h2⟩ := bind_ok_iff.mp hr
    cases h2
    exact k.complete hu (.inl ((advanced_ep s h n i).symm ▸ hq)) h1
  · cases hr
    exact k.refl _

theorem CommandKept.writeFifoAlgorithm {up : Upcalls} (hu : ∀ u, Within R (up u)) {i : Nat} {h : Handle} {s t : State}
    {b : Bool} (hq : h ∈ (s.ep i).queue) (hr : Machine.writeFifo up i h s = .ok (b, t)) : R s t := by
  unfold Machine.writeFifo at hr
  simp only [look_bind_run, regWrite_bind_run] at hr
  obtain ⟨bytes, u, h1, hr⟩ := bind_ok_iff.mp hr
  obtain rfl := bufRead_ok h1
  obtain ⟨_, v, h2, hr⟩ := bind_ok_iff.mp hr
  have hw := SameRequests.trans _ _ _ (SameRequests.afterWrite s (.txBcnt i) _) (writeWords_same i bytes _ _ _ h2)
  refine k.trans _ _ _ (k.writeCount s i _) (k.trans _ _ _ (k.writeWords i bytes _ _ _ h2) ?_)
  refine k.advanceThen hu i h (s.nextPacket i h) _ (hw.ep i ▸ hq) ?_ hr
  rw [hw.req]
  exact Nat.min_le_left _ _

theorem CommandKept.onlyIfWrite (c : Bool) (b : Buffer) (off : Nat) (v : Byte) :
    Within R (onlyIf c (Machine.bufWriteByte b off v)) := Within.onlyIf k.refl fun _ => k.bufWriteByte b off v

theorem CommandKept.readWords (i : Nat) (b : Buffer) (off n m j : Nat) : Within R (Machine.readWords i b off n m j) := by
  induction m generalizing j with
  | zero => exact k.pure ()
  | succ m ih =>
    refine Within.bind k.trans (k.regRead _) fun w => ?_
    refine Within.bind k.trans (k.onlyIfWrite _ _ _ _) fun _ => ?_
    exact Within.bind k.trans (k.onlyIfWrite _ _ _ _) fun _ => ih (j + 1)

omit k in
/-- The reads and stores of a packet touch no request. -/
theorem readWords_same (i : Nat) (b : Buffer) (off n m j : Nat) : Within SameRequests (Machine.readWords i b off n m j) := by
  have w : ∀ c o v, Within SameRequests (onlyIf c (Machine.bufWriteByte b o v)) :=
    fun c o v => Within.onlyIf SameRequests.refl fun _ s _ t h => by
      cases b with
      | none => cases h; exact SameRequests.refl s
      | coreBytes => cases h; exact SameRequests.refl s
      | sysMem a =>
        simp only [Machine.bufWriteByte, Machine.memWriteByte] at h
        split at h
        · cases h; exact SameRequests.refl s
        · cases h
  induction m generalizing j with
  | zero => exact Within.pure SameRequests.refl ()
  | succ m ih =>
    refine Within.bind SameRequests.trans (fun s _ t h => by cases h; exact SameRequests.afterRead s _) fun _ => ?_
    exact Within.bind SameRequests.trans (w _ _ _) fun _ => Within.bind SameRequests.trans (w _ _ _) fun _ => ih (j + 1)

theorem CommandKept.readWordCount (i : Nat) : Within R (Machine.readWordCount i) :=
  Within.bind k.trans (k.regRead _) fun _ => k.pure _

theorem CommandKept.readFifoAlgorithm {up : Upcalls} (hu : ∀ u, Within R (up u)) {i : Nat} {h : Handle} {s t : State}
    {b : Bool} (hq : h ∈ (s.ep i).queue) (hr : Machine.readFifo up i h s = .ok (b, t)) : R s t := by
  unfold Machine.readFifo at hr
  obtain ⟨wcnt, u, h1, hr⟩ := bind_ok_iff.mp hr
  have hu1 : SameRequests s u := by
    unfold Machine.readWordCount at h1
    rw [regRead_bind_run] at h1
    cases h1
    exact SameRequests.afterRead s _
  refine k.trans _ _ _ (k.readWordCount i _ _ _ h1) ?_
  simp only [regRead_bind_run, look_bind_run] at hr
  refine k.trans _ _ _ (k.read u (.esr i)) ?_
  have hv := SameRequests.trans _ _ _ hu1 (SameRequests.afterRead u (.esr i))
  rw [← hv.ep i] at hq
  generalize u.afterRead (.esr i) = v at hr hq ⊢
  generalize u.readValue (.esr i) = esr at hr
  unfold Machine.recordOverflow at hr
  rw [change_bind_run] at hr
  refine k.trans _ _ _ (k.mark v h fun r =>
    if decide ((v.req h).length - (v.req h).actual < receivedBytes wcnt esr) then .overflowError else r.status) ?_
  obtain ⟨_, y, h2, hr⟩ := bind_ok_iff.mp hr
  have hw := readWords_same _ _ _ _ _ _ _ _ _ h2
  refine k.trans _ _ _ (k.readWords _ _ _ _ _ _ _ _ _ h2) ?_
  refine k.advanceThen hu i h (min (receivedBytes wcnt esr) ((v.req h).length - (v.req h).actual))
    (fun s => s.lastOut i h (receivedBytes wcnt esr) esr) ?_ ?_ hr
  · rw [hw.ep, ep_setReq]
    exact hq
  · rw [hw.req, req_setReq_keeps Request.length, req_setReq_keeps Request.actual]
    · exact Nat.min_le_right _ _
    all_goals exact fun _ => rfl

theorem CommandKept.start {up : Upcalls} (hu : ∀ u, Within R (up u)) (i : Nat) : Within R (Machine.start up i) :=
    fun s b t hr => by
  unfold Machine.start at hr
  rw [look_bind_run] at hr
  cases hq : (s.ep i).queue with
  | nil =>
    rw [hq] at hr
    cases hr
    exact k.refl _
  | cons h rest =>
    rw [hq] at hr
    obtain ⟨_, u, h1, hr2⟩ := bind_ok_iff.mp hr
    obtain ⟨rfl, _⟩ := needRecord_ok h1
    obtain ⟨_, v, h2, hr3⟩ := bind_ok_iff.mp hr2
    obtain ⟨rfl, _⟩ := needCounts_ok h2
    clear hr hr2 h1 h2
    have hm : h ∈ (v.ep i).queue := by rw [hq]; simp
    rw [look_bind_run] at hr3
    cases hd : v.epDir i with
    | IN =>
      rw [hd] at hr3
      exact k.writeFifoAlgorithm hu hm hr3
    | OUT =>
      rw [hd] at hr3
      exact k.readFifoAlgorithm hu hm hr3

theorem CommandKept.tryStart {up : Upcalls} (hu : ∀ u, Within R (up u)) (i : Nat) : Within R (Machine.tryStart up i) := by
  refine Within.bind k.trans (k.look _) fun p => ?_
  refine Within.ite (fun _ => ?_) fun _ => k.pure _
  refine Within.bind k.trans (k.canStart i) fun c => ?_
  refine Within.ite (fun _ => ?_) fun _ => k.pure _
  exact Within.bind k.trans (k.start hu i) fun _ => k.pure _

theorem CommandKept.twoPacket {up : Upcalls} (hu : ∀ u, Within R (up u)) (i : Nat) (p : Bool) :
    Within R (Machine.twoPacket up i p) :=
  Within.ite (fun _ => Within.bind k.trans (k.tryStart hu i) fun _ => k.pure _) fun _ => k.pure _

theorem CommandKept.discardWords (i n : Nat) : Within R (Machine.discardWords i n) := by
  induction n with
  | zero => exact k.pure _
  | succ n ih => exact Within.bind k.trans (k.regRead _) fun _ => ih

theorem CommandKept.drainPackets (i p : Nat) : Within R (Machine.drainPackets i p) := by
  induction p with
  | zero => exact k.pure _
  | succ p ih =>
    exact Within.bind k.trans (k.readWordCount i) fun w => Within.bind k.trans (k.discardWords i w) fun _ => ih

theorem CommandKept.flushOut (i : Nat) : Within R (Machine.flushOut i) :=
  Within.bind k.trans (k.regRead _) fun _ => k.drainPackets i _

theorem CommandKept.resumeIn {up : Upcalls} (hu : ∀ u, Within R (up u)) (i : Nat) : Within R (Machine.resumeIn up i) := by
  refine Within.bind k.trans (k.look _) fun d => Within.ite (fun _ => ?_) fun _ => k.pure _
  exact Within.bind k.trans (k.tryStart hu i) fun _ => k.pure _

theorem CommandKept.enableRule {up : Upcalls} (hu : ∀ u, Within R (up u)) (ep : BitVec 4) (addr : Word) :
    Within R (Machine.enableRule up ep addr) := fun s b t hr => by
  unfold Machine.enableRule at hr
  simp only [look_bind_run] at hr
  by_cases h1 : s.numEps ≤ ep.toNat
  · rw [if_pos h1] at hr
    cases hr
    exact k.refl _
  rw [if_neg h1] at hr
  by_cases h2 : ep.toNat = 0
  · rw [if_pos h2] at hr
    cases hr
    exact k.refl _
  rw [if_neg h2] at hr
  obtain ⟨d, u, hd, hr3⟩ := bind_ok_iff.mp hr
  clear hr
  obtain rfl := (memRead_ok hd).1
  have hr := hr3
  clear hr3
  rw [look_bind_run] at hr
  cases he : descriptorError u ep d with
  | some e =>
    rw [he] at hr
    cases hr
    exact k.refl _
  | none =>
    rw [he] at hr
    obtain ⟨_, v, h3, hr⟩ := bind_ok_iff.mp hr
    refine k.trans _ _ _ (k.enable u ep d v (by omega) (by omega) he h3) ?_
    exact Within.bind k.trans (k.resumeIn hu _) (fun _ => k.pure _) _ _ _ hr

theorem CommandKept.shutThenNuke {up : Upcalls} (hu : ∀ u, Within R (up u)) {s t : State} {i : Nat} {st : Status} {u : Unit}
    (h1 : 1 ≤ i) (h2 : i < s.numEps) (hr : (shutFields i >>= fun _ => Machine.nuke up i st) s = .ok (u, t)) : R s t := by
  obtain ⟨_, v, h3, hr⟩ := bind_ok_iff.mp hr
  exact k.trans _ _ _ (k.shut s i v h1 h2 h3) (k.nuke hu i st _ _ _ hr)

theorem CommandKept.disableRule {up : Upcalls} (hu : ∀ u, Within R (up u)) (ep : BitVec 4) :
    Within R (Machine.disableRule up ep) := fun s b t hr => by
  unfold Machine.disableRule at hr
  simp only [look_bind_run] at hr
  by_cases h1 : s.numEps ≤ ep.toNat
  · rw [if_pos h1] at hr
    cases hr
    exact k.refl _
  rw [if_neg h1] at hr
  by_cases h2 : ep.toNat = 0
  · rw [if_pos h2] at hr
    cases hr
    exact k.refl _
  rw [if_neg h2] at hr
  obtain ⟨_, v, h3, hr⟩ := bind_ok_iff.mp hr
  refine k.trans _ _ _ (k.shut s _ v (by omega) (by omega) h3) ?_
  exact Within.bind k.trans (k.nuke hu _ _) (fun _ => k.pure _) _ _ _ hr

theorem CommandKept.queueRule {up : Upcalls} (hu : ∀ u, Within R (up u)) (i : Nat) (h : Handle) :
    Within R (Machine.queueRule up i h) := fun s b t hr => by
  unfold Machine.queueRule at hr
  simp only [look_bind_run] at hr
  cases he : queueError s i h with
  | some e =>
    rw [he] at hr
    cases hr
    exact k.refl _
  | none =>
    rw [he] at hr
    unfold beginRequest appendRequest at hr
    simp only [change_bind_run, look_bind_run] at hr
    refine k.trans _ _ _ (k.begin s i h he) ?_
    have hi : i < s.numEps := by
      unfold queueError at he
      split at he
      · cases he
      · omega
    have hk : s.known h = true ∧ (s.req h).queuedOn = none := by
      unfold queueError at he
      split at he
      · cases he
      split at he
      · cases he
      rename_i hb
      rw [not_or, Decidable.not_not] at hb
      exact ⟨known_of_ne Request.buf hb.1, hb.2⟩
    have ha : ((s.setReq h Request.begun).req h).queuedOn = none ∧ (s.setReq h Request.begun).known h = true := by
      rw [req_setReq_self s h _ hk.1, known_setReq]
      exact ⟨hk.2, hk.1⟩
    have hiv : i < (s.setReq h Request.begun).numEps := by
      simpa [State.numEps] using hi
    generalize s.setReq h Request.begun = v at hr ha hiv ⊢
    split at hr
    · obtain ⟨_, w, h1, h2⟩ := bind_ok_iff.mp hr
      cases h2
      exact k.complete hu (.inr (.inr ha.1)) h1
    · simp only [change_bind_run, look_bind_run] at hr
      refine k.trans _ _ _ (k.append v i h hiv ha.2 ha.1) ?_
      split at hr
      · exact Within.bind k.trans (k.tryStart hu i) (fun _ => k.pure _) _ _ _ hr
      · cases hr
        exact k.refl _

theorem CommandKept.withRequest (h : Word) {p : Proc Status} (hp : Within R p) : Within R (Machine.withRequest h p) := by
  refine Within.bind k.trans (k.look _) fun b => ?_
  exact Within.ite (fun _ => hp) fun _ => Within.refuse _

theorem CommandKept.dequeueCommand {up : Upcalls} (hu : ∀ u, Within R (up u)) (ep : BitVec 4) (h : Word) :
    Within R (Machine.dequeueCommand up ep h) := by
  refine k.withRequest h ?_
  refine Within.bind k.trans (k.look _) fun n => Within.ite (fun _ => k.pure _) fun _ => fun s b t hr => ?_
  rw [look_bind_run] at hr
  split at hr
  · obtain ⟨_, w, h1, h2⟩ := bind_ok_iff.mp hr
    cases h2
    exact k.complete hu (.inr (.inl (of_decide_eq_true ‹_›))) h1
  · cases hr
    exact k.refl _

omit k in
theorem setHaltError_none {s : State} {i : Nat} {v : Bool} (h : setHaltError s i v = none) :
    i < s.numEps ∧ (i = 0 ∨ (i < s.numEps ∧ (s.ep i).enabled = true)) ∧ (v = true → s.epDir i = .IN → (s.ep i).queue = []) := by
  unfold setHaltError at h
  split at h
  · cases h
  split at h
  · cases h
  split at h
  · cases h
  rename_i h1 h2 h3
  refine ⟨by omega, ?_, fun hv hd => ?_⟩
  · by_cases h0 : i = 0
    · exact .inl h0
    · right
      simp only [not_and, Bool.not_eq_false] at h2
      exact ⟨by omega, h2 h0⟩
  · simp only [not_and, ne_eq, Decidable.not_not] at h3
    exact h3 hv hd

theorem CommandKept.setHaltRule {up : Upcalls} (hu : ∀ u, Within R (up u)) (i : Nat) (v : Bool) :
    Within R (Machine.setHaltRule up i v) := fun s b t hr => by
  unfold Machine.setHaltRule at hr
  simp only [look_bind_run] at hr
  cases he : setHaltError s i v with
  | some e =>
    rw [he] at hr
    cases hr
    exact k.refl _
  | none =>
    rw [he] at hr
    obtain ⟨_, h2, _⟩ := setHaltError_none he
    obtain ⟨_, u, h3, hr⟩ := bind_ok_iff.mp hr
    refine k.trans _ _ _ (k.halt s i v u h2 h3) ?_
    cases v
    · exact Within.bind k.trans (k.resumeIn hu i) (fun _ => k.pure _) _ _ _ hr
    · cases hr
      exact k.refl _

theorem CommandKept.fifoFlushRule (ep : BitVec 4) : Within R (Machine.fifoFlushRule ep) := by
  refine Within.bind k.trans (k.look _) fun n => Within.ite (fun _ => k.pure _) fun _ => ?_
  refine Within.bind k.trans (k.look _) fun d => ?_
  cases d
  · exact Within.bind k.trans (k.flush _) fun _ => k.pure _
  · exact Within.bind k.trans (k.flushOut _) fun _ => k.pure _

theorem CommandKept.bindRule (hb : BindKept R) {up : Upcalls} (hu : ∀ u, Within R (up u)) (d : Word) :
    Within R (Machine.bindRule up d) := fun s b t hr => by
  unfold Machine.bindRule topLevelOnly at hr
  split at hr
  · cases hr
  rw [bind_run] at hr
  simp only [look_bind_run] at hr
  split at hr
  · rename_i u hu1
    split at hu1
    · cases hu1
    rename_i h0
    cases hu1
    cases hd : s.dev.driver with
    | some x =>
      rw [hd] at hr
      cases hr
      exact k.refl _
    | none =>
      simp only [hd, change_bind_run] at hr
      refine k.trans _ _ _ (hb s d (Nat.eq_zero_of_not_pos h0) hd) ?_
      exact Within.bind k.trans (hu _) (fun _ => k.pure _) _ _ _ hr
  · cases hr

theorem CommandKept.command (i : Instr) {p : Proc Status} (hp : Within R p) : Within R (Machine.command i p) :=
  Within.bind k.trans (Within.inCommand hp) fun r => Within.change fun s => k.returned s r

theorem CommandKept.nestedCommand {up : Upcalls} (hu : ∀ u, Within R (up u)) (i : Instr) :
    Within R (Machine.nestedCommand up i) := by
  cases i with
  | bind d => exact Within.refuse _
  | enable ep a => exact k.command _ (k.enableRule hu ep a)
  | disable ep => exact k.command _ (k.disableRule hu ep)
  | queue ep h => exact k.command _ (k.withRequest h (k.queueRule hu _ _))
  | dequeue ep h => exact k.command _ (k.dequeueCommand hu ep h)
  | setHalt ep v => exact k.command _ (k.setHaltRule hu _ v)
  | fifoFlush ep => exact k.command _ (k.fifoFlushRule ep)
  | _ => exact Within.refuse _

theorem CommandKept.writeRecord (h : Word) (f : Request → Request)
    (hf : ∀ r, (f r).queuedOn = r.queuedOn ∧ (r.CountsOk → (f r).CountsOk)) : Within R (Machine.writeRecord h f) := fun s b t hr => by
  unfold Machine.writeRecord at hr
  simp only [look_bind_run] at hr
  cases hq : findRequest h s.reqs with
  | none =>
    rw [hq] at hr
    cases hr
  | some r =>
    rw [hq] at hr
    simp only [ite_run] at hr
    split at hr
    · cases hr
    · cases hr
      exact k.record s h f ⟨r, hq, Option.not_isSome_iff_eq_none.mp ‹_›⟩ hf

theorem CommandKept.driverWrite (w : DriverWrite) : Within R (Machine.driverWrite w) := by
  cases w with
  | memByte a b =>
    refine Within.bind k.trans (k.look _) fun o => Within.ite (fun _ => Within.refuse _) fun _ => ?_
    exact k.memWriteByte _ _
  | reqLength h l => exact k.writeRecord _ _ fun _ => ⟨rfl, fun _ => ⟨Nat.min_le_right _ _, l.isLt⟩⟩
  | _ => exact k.writeRecord _ _ fun _ => ⟨rfl, fun hc => ⟨hc.order, hc.length⟩⟩

theorem CommandKept.driverAction {up : Upcalls} (hu : ∀ u, Within R (up u)) (a : DriverAction) :
    Within R (Machine.driverAction up a) := by
  cases a with
  | write w => exact k.driverWrite w
  | command cmd arg =>
    simp only [Machine.driverAction]
    split
    · exact k.nestedCommand hu _
    · exact Within.refuse _

theorem CommandKept.upcallWith {act : DriverAction → Proc Unit} (ha : ∀ a, Within R (act a)) (u : Upcall) :
    Within R (Machine.upcallWith act u) := fun s b t hr => by
  unfold Machine.upcallWith at hr
  simp only [change_bind_run, look_bind_run] at hr
  obtain ⟨_, v, h1, hr⟩ := bind_ok_iff.mp hr
  simp only [change_bind_run] at hr
  cases hr
  exact k.upcall s u _ v (Within.eachOf k.refl k.trans (fun a _ => ha a) _ _ _ h1)

/-- Every upcall, with every command the class driver issues in it, at any depth. -/
theorem CommandKept.upcalls (n : Nat) (u : Upcall) : Within R (Machine.upcalls n u) := by
  induction n generalizing u with
  | zero => exact k.upcallWith (fun _ => k.pure _) u
  | succ n ih => exact k.upcallWith (k.driverAction ih) u

theorem withUpcalls_within {α : Type} {p : Upcalls → Proc α} (hp : ∀ up, (∀ u, Within R (up u)) → Within R (p up)) :
    Within R (withUpcalls p) := fun s a t hr => hp _ (k.upcalls _) s a t hr

end command

/-! ### TASK, its events and its setup requests -/

/-- The relation R respects, besides a command's effects, every single effect of TASK. -/
structure PumpKept (R : State → State → Prop) : Prop extends CommandKept R where
  cfg : ∀ s t, R s t → t.cfg = s.cfg
  ackSystem : ∀ s k, R s (s.afterWrite .ssr (bitAt k true))
  ackInterrupt : ∀ s i, R s (s.afterWrite .eir (bitAt i true))
  ackEndpoint : ∀ s i k, R s (s.afterWrite (.esr i) (bitAt k true))
  ctl : ∀ s c, R s (s.setDev fun d => { d with ctl := c })
  attach : ∀ s, s.dev.state = .notAttached → R s (s.setDev fun d => { d with state := .attached })
  detached : ∀ s, R s (s.setDev Device.detached)
  busReset : ∀ s, R s (s.setDev Device.busReset)
  speedDone : ∀ s hs, R s (s.setDev (Device.speedDone hs))
  reinit : ∀ s i t, i = 0 ∨ i < s.numEps → reinitFields i s = .ok ((), t) → R s t
  address : ∀ s a, R s (s.setDev (Device.withAddress a))
  configure : ∀ s (v : Byte), R s (s.setDev fun d => { d with config := v, state := if v = 0 then .address else .configured })
  reply : ∀ v l, Within R (prepareStatus v l)
  clearStall : Within R clearSetupStall

section pump
variable {R : State → State → Prop} (k : PumpKept R)
include k

/-- A loop over endpoints below N. -/
theorem PumpKept.eachEndpoint {f : Nat → Proc Unit} {l : List Nat}
    (hf : ∀ i ∈ l, ∀ s t, i < s.numEps → f i s = .ok ((), t) → R s t) {s t : State} {u : Unit}
    (hl : ∀ i ∈ l, i < s.numEps) (hr : eachOf f l s = .ok (u, t)) : R s t := by
  induction l generalizing s with
  | nil =>
    cases hr
    exact k.refl _
  | cons i l ih =>
    rw [eachOf_cons] at hr
    obtain ⟨_, v, h1, h2⟩ := bind_ok_iff.mp hr
    have hsv := hf i (by simp) s v (hl i (by simp)) h1
    refine k.trans _ _ _ hsv (ih (fun j hj => hf j (by simp [hj])) (fun j hj => ?_) h2)
    rw [State.numEps, k.cfg _ _ hsv]
    exact hl j (by simp [hj])

omit k in
theorem mem_dataEps {s : State} {i : Nat} (h : i ∈ s.dataEps) : 1 ≤ i ∧ i < s.numEps := by
  simp only [State.dataEps, List.mem_range'_1] at h
  omega

theorem PumpKept.setCtl (c : Ctl) : Within R (setCtl c) := Within.change fun s => k.ctl s c

theorem PumpKept.forwardRule {up : Upcalls} (hu : ∀ u, Within R (up u)) (S : BitVec 64) :
    Within R (Machine.forwardRule up S) := by
  refine Within.bind k.trans (k.look _) fun b => ?_
  cases b
  · exact k.pure _
  · exact hu _

theorem PumpKept.getStatusRule {up : Upcalls} (hu : ∀ u, Within R (up u)) (S : BitVec 64) :
    Within R (Machine.getStatusRule up S) := by
  refine Within.bind k.trans (k.look _) fun r => ?_
  cases r with
  | none => exact k.forwardRule hu S
  | some v =>
    exact Within.bind k.trans (k.reply v _) fun _ => Within.bind k.trans (k.queueRule hu 0 .statusReq) fun _ => k.pure _

theorem PumpKept.featureRule {up : Upcalls} (hu : ∀ u, Within R (up u)) (v : Bool) (S : BitVec 64) :
    Within R (Machine.featureRule up v S) := by
  refine Within.bind k.trans (k.look _) fun r => Within.ite (fun _ => ?_) fun _ => k.forwardRule hu S
  exact Within.bind k.trans (k.setHaltRule hu _ v) fun _ => k.pure _

theorem PumpKept.setAddressRule {up : Upcalls} (hu : ∀ u, Within R (up u)) (S : BitVec 64) :
    Within R (Machine.setAddressRule up S) := by
  refine Within.ite (fun _ => k.forwardRule hu S) fun _ => ?_
  exact Within.bind k.trans (Within.change fun s => k.address s _) fun _ => k.pure _

theorem PumpKept.configureRule {up : Upcalls} (hu : ∀ u, Within R (up u)) (v : Byte) :
    Within R (Machine.configure up v) := by
  refine Within.bind k.trans (k.nuke hu 0 _) fun _ => ?_
  refine Within.bind k.trans (Within.change fun s => k.configure s v) fun _ => Within.ite (fun _ => ?_) fun _ => k.pure _
  intro s b t hr
  rw [look_bind_run] at hr
  refine k.eachEndpoint (fun i hi _ w hlt h => ?_) (fun i hi => (mem_dataEps hi).2) hr
  exact k.shutThenNuke hu (mem_dataEps hi).1 hlt h

theorem PumpKept.setConfigurationRule {up : Upcalls} (hu : ∀ u, Within R (up u)) (S : BitVec 64) :
    Within R (Machine.setConfigurationRule up S) := by
  refine Within.bind k.trans (k.look _) fun b => Within.ite (fun _ => k.pure _) fun _ => ?_
  refine Within.bind k.trans (k.forwardRule hu S) fun r => Within.ite (fun _ => k.pure _) fun _ => ?_
  exact Within.bind k.trans (k.configureRule hu _) fun _ => k.pure _

theorem PumpKept.stallEp0 : Within R Machine.stallEp0 := fun s _ t hr => k.halt s 0 true t (.inl rfl) hr

theorem PumpKept.finishSetup (S : BitVec 64) (ret : Word) : Within R (Machine.finishSetup S ret) :=
  Within.ite (fun _ => Within.bind k.trans k.stallEp0 fun _ => k.setCtl _) fun _ =>
    Within.ite (fun _ => k.setCtl _) fun _ => k.pure _

theorem PumpKept.runSetup (S : BitVec 64) {p : Proc Word} (hp : Within R p) : Within R (Machine.runSetup S p) :=
  Within.bind k.trans (k.setCtl _) fun _ => Within.bind k.trans hp fun _ => k.finishSetup S _

theorem PumpKept.dispatchRule {up : Upcalls} (hu : ∀ u, Within R (up u)) (S : BitVec 64) (i : Instr) :
    Within R (Machine.dispatchRule up S i) := by
  cases i with
  | getStatus d r v x l => exact k.getStatusRule hu S
  | clearFeature d r v x l => exact k.featureRule hu false S
  | setFeature d r v x l => exact k.featureRule hu true S
  | setAddress d r v x l => exact k.setAddressRule hu S
  | setConfiguration v x l => exact k.setConfigurationRule hu S
  | _ => exact k.forwardRule hu S

theorem PumpKept.readSetupPacket : Within R Machine.readSetupPacket :=
  Within.bind k.trans (k.regRead _) fun _ => Within.bind k.trans (k.regRead _) fun _ =>
    Within.bind k.trans (k.regRead _) fun _ => Within.bind k.trans (k.regRead _) fun _ => k.pure _

theorem PumpKept.processSetup {up : Upcalls} (hu : ∀ u, Within R (up u)) : Within R (Machine.processSetup up) := by
  refine Within.bind k.trans (k.nuke hu 0 _) fun _ => Within.bind k.trans k.clearStall fun _ => ?_
  refine Within.bind k.trans (k.readWordCount 0) fun w => Within.bind k.trans (k.regRead _) fun e => ?_
  refine Within.ite (fun _ => ?_) fun _ => ?_
  · exact Within.bind k.trans (k.discardWords 0 w) fun _ => Within.bind k.trans k.stallEp0 fun _ => k.setCtl _
  · exact Within.bind k.trans k.readSetupPacket fun S => k.runSetup S (k.dispatchRule hu S _)

theorem PumpKept.ackSystemRule (n : Nat) : Within R (Machine.ackSystem n) := fun s _ t h => by
  cases h
  exact k.ackSystem s n

theorem PumpKept.ackEndpointRule (i n : Nat) : Within R (Machine.ackEndpoint i n) := fun s _ t h => by
  cases h
  exact k.ackEndpoint s i n

theorem PumpKept.notify {up : Upcalls} (hu : ∀ u, Within R (up u)) (u : Upcall) : Within R (Machine.notify up u) := by
  refine Within.bind k.trans (k.look _) fun b => ?_
  cases b
  · exact k.pure _
  · exact Within.bind k.trans (hu _) fun _ => k.pure _

theorem PumpKept.vbusOnRule {up : Upcalls} (hu : ∀ u, Within R (up u)) : Within R (Machine.vbusOnRule up) := by
  refine Within.bind k.trans (k.ackSystemRule 0) fun _ => fun s b t hr => ?_
  rw [look_bind_run] at hr
  split at hr
  · rename_i hst
    rw [change_bind_run] at hr
    exact k.trans _ _ _ (k.attach s (of_decide_eq_true hst)) (k.notify hu _ _ _ _ hr)
  · cases hr
    exact k.refl _

theorem PumpKept.vbusOffRule {up : Upcalls} (hu : ∀ u, Within R (up u)) : Within R (Machine.vbusOffRule up) := by
  refine Within.bind k.trans (k.ackSystemRule 1) fun _ => ?_
  refine Within.bind k.trans (Within.change k.detached) fun _ => fun s b t hr => ?_
  rw [look_bind_run] at hr
  obtain ⟨_, u, h1, hr⟩ := bind_ok_iff.mp hr
  refine k.trans _ _ _ (k.eachEndpoint (fun i hi v w hlt h => k.shut v i w (mem_dataEps hi).1 hlt h)
    (fun i hi => (mem_dataEps hi).2) h1) ?_
  obtain ⟨_, v, h2, hr⟩ := bind_ok_iff.mp hr
  exact k.trans _ _ _ (Within.eachOf k.refl k.trans (fun i _ => k.nuke hu i _) _ _ _ h2) (k.notify hu _ _ _ _ hr)

theorem PumpKept.reinitAll {up : Upcalls} (hu : ∀ u, Within R (up u)) (st : Status) :
    Within R (Machine.reinitAll up st) := fun s b t hr => by
  unfold Machine.reinitAll at hr
  rw [look_bind_run] at hr
  obtain ⟨_, u, h1, hr⟩ := bind_ok_iff.mp hr
  refine k.trans _ _ _ ?_ (Within.eachOf k.refl k.trans (fun i _ => k.nuke hu i st) _ _ _ hr)
  rw [eachOf_cons] at h1
  obtain ⟨_, v, h0, h1⟩ := bind_ok_iff.mp h1
  have h0 := k.reinit s 0 v (.inl rfl) h0
  refine k.trans _ _ _ h0 (k.eachEndpoint (fun i _ v w hlt h => k.reinit v i w (.inr hlt) h) (fun i hi => ?_) h1)
  rw [State.numEps, k.cfg _ _ h0]
  exact (mem_dataEps hi).2

theorem PumpKept.resetRule {up : Upcalls} (hu : ∀ u, Within R (up u)) : Within R (Machine.resetRule up) :=
  Within.bind k.trans (k.ackSystemRule 2) fun _ => Within.bind k.trans (Within.change k.busReset) fun _ => k.reinitAll hu _

theorem PumpKept.speedDoneRule {up : Upcalls} (hu : ∀ u, Within R (up u)) (hs : Bool) :
    Within R (Machine.speedDoneRule up hs) :=
  Within.bind k.trans (k.ackSystemRule 3) fun _ =>
    Within.bind k.trans (Within.change fun s => k.speedDone s hs) fun _ => k.reinitAll hu _

theorem PumpKept.ifServed (i : Nat) {p : Proc Unit} (hp : Within R p) : Within R (Machine.ifServed i p) :=
  Within.bind k.trans (k.look _) fun _ => Within.ite (fun _ => hp) fun _ => k.pure _

theorem PumpKept.stallSentRule {up : Upcalls} (hu : ∀ u, Within R (up u)) (i : Nat) :
    Within R (Machine.stallSentRule up i) := by
  refine Within.ite (fun _ => ?_) fun _ => k.ackEndpointRule i 4
  refine Within.bind k.trans (k.ackEndpointRule 0 4) fun _ => ?_
  refine Within.bind k.trans (fun s _ t hr => k.halt s 0 false t (.inl rfl) hr) fun _ => ?_
  exact Within.bind k.trans (k.nuke hu 0 _) fun _ => k.setCtl _

theorem PumpKept.flushReqRule (i : Nat) : Within R (Machine.flushReqRule i) := by
  refine Within.ite (fun _ => k.ackEndpointRule 0 5) fun _ => Within.bind k.trans (k.look _) fun d => ?_
  cases d
  · exact k.ackEndpointRule i 5
  · exact Within.bind k.trans (k.ackEndpointRule i 5) fun _ => k.flushOut i

theorem PumpKept.service {up : Upcalls} (hu : ∀ u, Within R (up u)) (i : Nat) (p : Bool) :
    Within R (Machine.service up i p) :=
  Within.bind k.trans (k.tryStart hu i) fun _ => Within.ite (fun _ => k.twoPacket hu i p) fun _ => k.pure _

theorem PumpKept.tryThen {up : Upcalls} (hu : ∀ u, Within R (up u)) (i : Nat) :
    Within R (Machine.tryStart up i >>= fun _ => (pure () : Proc Unit)) :=
  Within.bind k.trans (k.tryStart hu i) fun _ => k.pure _

theorem PumpKept.txDoneRule {up : Upcalls} (hu : ∀ u, Within R (up u)) (i : Nat) (p : Bool) :
    Within R (Machine.txDoneRule up i p) := by
  refine Within.ite (fun _ => ?_) fun _ => Within.bind k.trans (k.look _) fun d => ?_
  · refine Within.bind k.trans (k.ackEndpointRule 0 1) fun _ => Within.bind k.trans (k.look _) fun _ => ?_
    exact Within.ite (fun _ => k.tryThen hu 0) fun _ => k.pure _
  · cases d
    · exact Within.bind k.trans (k.ackEndpointRule i 1) fun _ => k.service hu i p
    · exact k.ackEndpointRule i 1

theorem PumpKept.rxReadyRule {up : Upcalls} (hu : ∀ u, Within R (up u)) (i : Nat) (p : Bool) :
    Within R (Machine.rxReadyRule up i p) := by
  refine Within.ite (fun _ => ?_) fun _ => Within.bind k.trans (k.look _) fun d => ?_
  · refine Within.bind k.trans (k.look _) fun _ => ?_
    exact Within.ite (fun _ => k.tryThen hu 0) fun _ => k.processSetup hu
  · cases d
    · exact k.pure _
    · exact k.service hu i p

theorem PumpKept.eventRule {up : Upcalls} (hu : ∀ u, Within R (up u)) (i : Instr) : Within R (Machine.eventRule up i) := by
  cases i with
  | vbusOn => exact k.vbusOnRule hu
  | reset => exact k.resetRule hu
  | speedDone hs => exact k.speedDoneRule hu hs
  | suspend => exact k.ackSystemRule 5
  | resume => exact k.ackSystemRule 6
  | error => exact k.ackSystemRule 7
  | vbusOff => exact k.vbusOffRule hu
  | stallSent ep => exact k.ifServed _ (k.stallSentRule hu _)
  | flushReq ep => exact k.ifServed _ (k.flushReqRule _)
  | txDone ep p => exact k.ifServed _ (k.txDoneRule hu _ p)
  | rxReady ep p => exact k.ifServed _ (k.rxReadyRule hu _ p)
  | _ => exact k.pure _

theorem PumpKept.endpointTurn {up : Upcalls} (hu : ∀ u, Within R (up u)) (i : Nat) :
    Within R (Machine.endpointTurn up i) := by
  refine Within.bind k.trans (fun s _ t hr => by cases hr; exact k.ackInterrupt s i) fun _ => k.ifServed i ?_
  refine Within.bind k.trans (k.regRead _) fun e => Within.bind k.trans (k.look _) fun d => ?_
  exact Within.eachOf k.refl k.trans fun j _ => k.eventRule hu j

theorem PumpKept.pump {up : Upcalls} (hu : ∀ u, Within R (up u)) (ssr eir : Word) : Within R (Machine.pump up ssr eir) := by
  refine Within.bind k.trans (Within.eachOf k.refl k.trans fun j _ => k.eventRule hu j) fun _ => ?_
  refine Within.bind k.trans (k.look _) fun n => Within.eachOf k.refl k.trans fun i _ => ?_
  exact Within.ite (fun _ => k.endpointTurn hu i) fun _ => k.pure _

theorem PumpKept.taskRule {up : Upcalls} (hu : ∀ u, Within R (up u)) : Within R (Machine.taskRule up) := by
  refine Within.bind k.trans ?_ fun _ => ?_
  · exact Within.bind k.trans (k.look _) fun _ => Within.ite (fun _ => Within.refuse _) fun _ => k.pure _
  refine Within.bind k.trans (k.regRead _) fun ssr => Within.bind k.trans (k.regRead _) fun eir => ?_
  refine Within.bind k.trans (k.regRead _) fun eier => Within.bind k.trans (k.look _) fun n => ?_
  exact Within.ite (fun _ => k.pure _) fun _ => Within.bind k.trans (k.pump hu ssr eir) fun _ => k.pure _

/-! ### Instructions -/

theorem PumpKept.ofCommand {p : Upcalls → Proc Status} (i : Instr)
    (hp : ∀ up, (∀ u, Within R (up u)) → Within R (p up)) {s t : State}
    (h : outcome (withUpcalls fun up => Machine.command i (p up)) s = .next t) : R s t := by
  obtain ⟨a, hr⟩ := outcome_next_iff.mp h
  exact withUpcalls_within k.toCommandKept (fun up hu => k.command i (hp up hu)) s a t hr

theorem PumpKept.ofHandler {α : Type} {p : Upcalls → Proc α} (i : Instr)
    (hp : ∀ up, (∀ u, Within R (up u)) → Within R (p up)) {s t : State}
    (h : outcome (withUpcalls fun up => Machine.inCommand i (p up)) s = .next t) : R s t := by
  obtain ⟨a, hr⟩ := outcome_next_iff.mp h
  exact withUpcalls_within k.toCommandKept (fun up hu => Within.inCommand (hp up hu)) s a t hr

omit k in
theorem ofPlain {α : Type} {p : Proc α} (hp : Within R p) {s t : State} (h : outcome p s = .next t) : R s t := by
  obtain ⟨a, hr⟩ := outcome_next_iff.mp h
  exact hp s a t hr

theorem PumpKept.ofSetup {b : Upcalls → BitVec 64 → Proc Word} (i : Instr)
    (hp : ∀ up, (∀ u, Within R (up u)) → ∀ S, Within R (b up S)) {s t : State}
    (h : execSetup i b s = .next t) : R s t :=
  k.ofHandler i (fun up hu => k.runSetup _ (hp up hu _)) h

/-- Every instruction that answers a next state relates the two by R. -/
theorem PumpKept.exec (i : Instr) (hb : (∃ d, i = .bind d) → BindKept R) {s t : State}
    (h : Machine.exec i s = .next t) : R s t := by
  cases i with
  | task => exact k.ofCommand _ (fun _ hu => k.taskRule hu) h
  | bind d => exact k.ofCommand _ (fun _ hu => k.bindRule (hb ⟨d, rfl⟩) hu d) h
  | enable ep a => exact k.ofCommand _ (fun _ hu => k.enableRule hu ep a) h
  | disable ep => exact k.ofCommand _ (fun _ hu => k.disableRule hu ep) h
  | queue ep w => exact k.ofCommand _ (fun _ hu => k.withRequest w (k.queueRule hu _ _)) h
  | dequeue ep w => exact k.ofCommand _ (fun _ hu => k.dequeueCommand hu ep w) h
  | setHalt ep v => exact k.ofCommand _ (fun _ hu => k.setHaltRule hu _ v) h
  | fifoFlush ep => exact ofPlain (k.command _ (k.fifoFlushRule ep)) h
  | reservedCmd c a => cases h
  | getStatus d r v x l => exact k.ofSetup _ (fun _ hu S => k.getStatusRule hu S) h
  | clearFeature d r v x l => exact k.ofSetup _ (fun _ hu S => k.featureRule hu false S) h
  | setFeature d r v x l => exact k.ofSetup _ (fun _ hu S => k.featureRule hu true S) h
  | setAddress d r v x l => exact k.ofSetup _ (fun _ hu S => k.setAddressRule hu S) h
  | setConfiguration v x l => exact k.ofSetup _ (fun _ hu S => k.setConfigurationRule hu S) h
  | getDescriptor d r v x l => exact k.ofSetup _ (fun _ hu S => k.forwardRule hu S) h
  | forward S => exact k.ofSetup _ (fun _ hu S => k.forwardRule hu S) h
  | vbusOn => exact k.ofHandler _ (fun _ hu => k.vbusOnRule hu) h
  | reset => exact k.ofHandler _ (fun _ hu => k.resetRule hu) h
  | speedDone hs => exact k.ofHandler _ (fun _ hu => k.speedDoneRule hu hs) h
  | suspend => exact ofPlain (k.ackSystemRule 5) h
  | resume => exact ofPlain (k.ackSystemRule 6) h
  | error => exact ofPlain (k.ackSystemRule 7) h
  | vbusOff => exact k.ofHandler _ (fun _ hu => k.vbusOffRule hu) h
  | stallSent ep => exact k.ofHandler _ (fun _ hu => k.ifServed _ (k.stallSentRule hu _)) h
  | flushReq ep => exact ofPlain (k.ifServed _ (k.flushReqRule _)) h
  | txDone ep p => exact k.ofHandler _ (fun _ hu => k.ifServed _ (k.txDoneRule hu _ p)) h
  | rxReady ep p => exact k.ofHandler _ (fun _ hu => k.ifServed _ (k.rxReadyRule hu _ p)) h

/-- Every step that answers a next state, when R also respects a move of the SIE or host, the status stage and the
taking of an input. -/
theorem PumpKept.step (hb : BindKept R) (hmove : ∀ s m, R s (s.move m)) (hsettle : ∀ s, R s s.settleStatusStage)
    (hinputs : ∀ s l, R s { s with inputs := l }) {s t : State} (h : Machine.step s = .next t) : R s t := by
  unfold Machine.step stepInputs at h
  split at h
  · cases h
    exact k.refl _
  · rename_i x rest _
    refine k.trans _ _ _ (hinputs s rest) ?_
    generalize ({ s with inputs := rest } : State) = u at h ⊢
    cases x with
    | move m =>
      cases h
      exact hmove u m
    | write w => exact ofPlain (k.driverWrite w) h
    | command cmd arg =>
      simp only [runInput, runCommand] at h
      split at h
      · rename_i i _
        cases he : Machine.exec i u with
        | next v =>
          rw [he] at h
          cases h
          exact k.trans _ _ _ (k.exec i (fun _ => hb) he) (hsettle v)
        | fault f =>
          rw [he] at h
          cases h
        | refused r =>
          rw [he] at h
          cases h
      · cases h

end pump

/-! ### Relations that respect every primitive effect -/

/-- The relation R respects each primitive effect of the core by itself, whatever was checked before it. -/
structure EffectKept (R : State → State → Prop) : Prop where
  refl : ∀ s, R s s
  trans : ∀ s t u, R s t → R t u → R s u
  read : ∀ s r, R s (s.afterRead r)
  write : ∀ s r v, R s (s.afterWrite r v)
  setEp : ∀ s i f, R s (s.setEp i f)
  setReq : ∀ s h f, R s (s.setReq h f)
  byte : ∀ s a b, R s (s.setByte a b)
  statusByte : ∀ s k b, R s (s.setStatusByte k b)
  returned : ∀ s r, R s (s.returned r)
  ctl : ∀ s c, R s (s.setDev fun d => { d with ctl := c })
  upcall : ∀ s u ret t, R (s.enterUpcall u).afterResponse t → R s (t.leaveUpcall ret)

section effect
variable {R : State → State → Prop} (k : EffectKept R)
include k

theorem EffectKept.regRead (r : Reg) : Within R (Machine.regRead r) := fun s _ t h => by
  cases h
  exact k.read s r

theorem EffectKept.regWrite (r : Reg) (v : Word) : Within R (Machine.regWrite r v) := fun s _ t h => by
  cases h
  exact k.write s r v

theorem EffectKept.mask (i : Nat) : Within R (maskInterrupt i) :=
  Within.bind k.trans (k.regRead _) fun _ => k.regWrite _ _

theorem EffectKept.halt (i : Nat) (v : Bool) : Within R (haltFields i v) := by
  refine Within.bind k.trans ?_ fun _ => Within.change fun s => k.setEp s i _
  exact Within.ite (fun _ => Within.bind k.trans (k.regRead _) fun _ => k.regWrite _ _)
    fun _ => Within.bind k.trans (k.regRead _) fun _ => k.regWrite _ _

theorem EffectKept.shut (i : Nat) : Within R (shutFields i) :=
  Within.bind k.trans (k.mask i) fun _ => Within.change fun s => k.setEp s i _

theorem EffectKept.enable (i : Nat) (size : BitVec 11) : Within R (enableFields i size) := by
  refine Within.bind k.trans (Within.look k.refl _) fun d => Within.bind k.trans (k.regWrite _ _) fun _ => ?_
  refine Within.bind k.trans (k.regWrite _ _) fun _ => Within.bind k.trans (Within.change fun s => k.setEp s i _) fun _ => ?_
  exact Within.bind k.trans (k.regRead _) fun _ => k.regWrite _ _

theorem EffectKept.reinit (i : Nat) : Within R (reinitFields i) := by
  refine Within.ite (fun _ => ?_) fun _ => ?_
  · refine Within.bind k.trans (Within.change fun s => k.setEp s 0 _) fun _ => Within.bind k.trans (k.regWrite _ _) fun _ => ?_
    exact Within.bind k.trans (Within.look k.refl _) fun _ => k.regWrite _ _
  · refine Within.bind k.trans (Within.change fun s => k.setEp s i _) fun _ => Within.bind k.trans (k.mask i) fun _ => ?_
    refine Within.bind k.trans (k.regWrite _ _) fun _ => ?_
    exact Within.bind k.trans (Within.look k.refl _) fun _ => k.regWrite _ _

theorem EffectKept.completed (s : State) (i : Nat) (h : Handle) (st : Status) : R s (s.completed i h st) := by
  unfold State.completed
  have h2 := k.trans _ _ _ (k.setEp s i fun e => { e with queue := e.queue.erase h }) (k.setReq _ h (Request.completed st))
  split
  · exact k.trans _ _ _ h2 (k.ctl _ _)
  · exact h2

/-- Such a relation is kept by every command, nested ones included. -/
theorem EffectKept.toCommandKept : CommandKept R where
  refl := k.refl
  trans := k.trans
  read := k.read
  writeCount := fun s _ v => k.write s _ v
  writeFifo := fun s _ v => k.write s _ v
  flush := fun _ => Within.bind k.trans (k.regRead _) fun _ => k.regWrite _ _
  halt := fun _ i v _ _ h => k.halt i v _ _ _ h
  shut := fun _ i _ _ _ h => k.shut i _ _ _ h
  enable := fun _ _ _ _ _ _ _ h => k.enable _ _ _ _ _ h
  completed := fun s i h st _ => k.completed s i h st
  clearQueue := fun s i => k.setEp s i _
  begin := fun s _ h _ => k.setReq s h _
  append := fun s i h _ _ _ => k.trans _ _ _ (k.setEp s i _) (k.setReq _ h _)
  advance := fun s h _ _ => k.setReq s h _
  mark := fun s h _ => k.setReq s h _
  byte := fun s a b _ => k.byte s a b
  statusByte := k.statusByte
  returned := k.returned
  record := fun s _ f _ _ => k.setReq s _ f
  upcall := k.upcall

/-- It is kept by every event too, when it respects any change of the device fields the events write. -/
theorem EffectKept.toPumpKept (cfg : ∀ s t, R s t → t.cfg = s.cfg) (dev : ∀ s f, (∀ d : Device, (f d).driver = d.driver ∧
    (f d).upcallDepth = d.upcallDepth) → R s (s.setDev f)) (reply : ∀ v l, Within R (prepareStatus v l)) : PumpKept R where
  toCommandKept := k.toCommandKept
  cfg := cfg
  ackSystem := fun s _ => k.write s _ _
  ackInterrupt := fun s _ => k.write s _ _
  ackEndpoint := fun s _ _ => k.write s _ _
  ctl := k.ctl
  attach := fun s _ => dev s _ fun _ => ⟨rfl, rfl⟩
  detached := fun s => dev s _ fun _ => ⟨rfl, rfl⟩
  busReset := fun s => dev s _ fun _ => ⟨rfl, rfl⟩
  speedDone := fun s _ => dev s _ fun _ => ⟨rfl, rfl⟩
  reinit := fun _ i _ _ h => k.reinit i _ _ _ h
  address := fun s _ => dev s _ fun _ => ⟨rfl, rfl⟩
  configure := fun s _ => dev s _ fun _ => ⟨rfl, rfl⟩
  reply := reply
  clearStall := by
    refine Within.bind k.trans (k.regRead _) fun e => ?_
    refine Within.bind k.trans (Within.onlyIf k.refl fun _ => k.regWrite _ _) fun _ => ?_
    exact Within.change fun s => k.setEp s 0 _

end effect

end Sys2Proof.Machine
end

