-- ==== Sys2Proof/Laws/Sie.lean ====
section
/-! SUPPORT. The SIE's registers bit by bit: what each named bit of `ESR`, `ECR`, `EIR`, `EIER` and `SSR` reads as and what a
write does to it. -/

namespace Sys2Proof.Machine

/-! ### Single bits -/

@[simp] theorem getLsbD_bitAt (k j : Nat) (b : Bool) :
    (bitAt k b).getLsbD j = (b && decide (j = k) && decide (k < 32)) := by
  unfold bitAt
  split
  · rw [BitVec.getLsbD_shiftLeft]
    by_cases h1 : j < 32 <;> by_cases h2 : j < k <;> by_cases h3 : j = k <;> (simp_all; try omega)
  · simp_all

@[simp] theorem getElem_bitAt (k j : Nat) (b : Bool) (h : j < 32) :
    (bitAt k b)[j] = (b && decide (j = k) && decide (k < 32)) := by
  rw [← BitVec.getLsbD_eq_getElem, getLsbD_bitAt]

theorem getLsbD_epMask (n j : Nat) (hn : n ≤ 32) : (epMask n).getLsbD j = decide (j < n) := by
  unfold epMask
  rw [BitVec.getLsbD_ofNat, Nat.testBit_two_pow_sub_one]
  by_cases h : j < n <;> simp [h]
  omega

/-! ### `ESR[i]` (R42, R165) -/

section esr
variable (f i : Nat) (e : SieEndpoint)

@[simp] theorem esrRxReady_esrWord : esrRxReady (e.esrWord f i) = e.rxReady := by
  simp [esrRxReady, SieEndpoint.esrWord]
@[simp] theorem esrTxDone_esrWord : esrTxDone (e.esrWord f i) = e.txDone := by
  simp [esrTxDone, SieEndpoint.esrWord]
@[simp] theorem esrLwo_esrWord : esrLwo (e.esrWord f i) = e.lwo := by
  simp [esrLwo, SieEndpoint.esrWord]
@[simp] theorem esrPsifTwo_esrWord : esrPsifTwo (e.esrWord f i) = e.psifTwo f := by
  simp [esrPsifTwo, SieEndpoint.esrWord]
@[simp] theorem esrStallSent_esrWord : esrStallSent (e.esrWord f i) = e.stallSent := by
  simp [esrStallSent, SieEndpoint.esrWord]
@[simp] theorem esrFlushReq_esrWord : esrFlushReq (e.esrWord f i) = e.flushReq := by
  simp [esrFlushReq, SieEndpoint.esrWord]
@[simp] theorem esrCtlEot_esrWord : esrCtlEot (e.esrWord f i) = (decide (i = 0) && e.headEot) := by
  simp [esrCtlEot, SieEndpoint.esrWord]
@[simp] theorem esrTxSpace_esrWord : esrTxSpace (e.esrWord f i) = e.txSpace f := by
  simp [esrTxSpace, SieEndpoint.esrWord]

end esr

/-! ### `ECR[i]` (R43) -/

@[simp] theorem ecrStall_ecrWord (e : SieEndpoint) : ecrStall e.ecrWord = e.stall := by
  simp [ecrStall, SieEndpoint.ecrWord]
@[simp] theorem ecrFlush_ecrWord (e : SieEndpoint) : ecrFlush e.ecrWord = false := by
  simp [ecrFlush, SieEndpoint.ecrWord]
@[simp] theorem ecrDirIn_ecrWord (e : SieEndpoint) : ecrDirIn e.ecrWord = e.dirIn := by
  simp [ecrDirIn, SieEndpoint.ecrWord]

/-- Writing back `ECR | STALL` sets STALL and nothing else. -/
theorem writeControl_setStall (e : SieEndpoint) :
    SieEndpoint.writeControl (e.ecrWord ||| 0x1) e = { e with stall := true } := by
  have h0 : ecrStall (e.ecrWord ||| 0x1) = true := by simp [ecrStall]
  have h1 : ecrFlush (e.ecrWord ||| 0x1) = false := by simp [ecrFlush, SieEndpoint.ecrWord]
  have h2 : ecrDirIn (e.ecrWord ||| 0x1) = e.dirIn := by simp [ecrDirIn, SieEndpoint.ecrWord]
  rw [SieEndpoint.writeControl, h0, h1, h2]
  rfl

/-- Writing back `ECR & ~STALL` clears STALL and nothing else. -/
theorem writeControl_clearStall (e : SieEndpoint) :
    SieEndpoint.writeControl (e.ecrWord &&& ~~~0x1) e = { e with stall := false } := by
  have h0 : ecrStall (e.ecrWord &&& ~~~0x1) = false := by simp [ecrStall]
  have h1 : ecrFlush (e.ecrWord &&& ~~~0x1) = false := by simp [ecrFlush, SieEndpoint.ecrWord]
  have h2 : ecrDirIn (e.ecrWord &&& ~~~0x1) = e.dirIn := by simp [ecrDirIn, SieEndpoint.ecrWord]
  rw [SieEndpoint.writeControl, h0, h1, h2]
  rfl

/-- Writing back `ECR | FLUSH` discards the IN packets and changes nothing else. -/
theorem writeControl_flush (e : SieEndpoint) :
    SieEndpoint.writeControl (e.ecrWord ||| 0x2) e = { e with txQueue := [], txCur := none } := by
  have h0 : ecrStall (e.ecrWord ||| 0x2) = e.stall := by simp [ecrStall, SieEndpoint.ecrWord]
  have h1 : ecrFlush (e.ecrWord ||| 0x2) = true := by simp [ecrFlush]
  have h2 : ecrDirIn (e.ecrWord ||| 0x2) = e.dirIn := by simp [ecrDirIn, SieEndpoint.ecrWord]
  rw [SieEndpoint.writeControl, h0, h1, h2]
  rfl

/-- A direction ENABLE binds, written to `ECR`, clears STALL. -/
theorem writeControl_bind (d : Dir) (e : SieEndpoint) :
    SieEndpoint.writeControl (match d with | .IN => 0x4 | .OUT => 0x0) e =
      { e with stall := false, dirIn := decide (d = .IN) } := by
  cases d <;> simp [SieEndpoint.writeControl, ecrStall, ecrFlush, ecrDirIn]

theorem writeControl_zero (e : SieEndpoint) :
    SieEndpoint.writeControl 0 e = { e with stall := false, dirIn := false } := by
  simp [SieEndpoint.writeControl, ecrStall, ecrFlush, ecrDirIn]

/-- A write of `ECR[i]` that does not begin a stall of endpoint 0 changes endpoint i only. -/
theorem write_ecr (cfg : Config) {x : Sie} {i : Nat} {v : Word} (h : i ≠ 0 ∨ ecrStall v = false ∨ (x.ep 0).stall = true) :
    Sie.write cfg x (.ecr i) v = x.setEp i (SieEndpoint.writeControl v) := by
  simp only [Sie.write]
  rw [if_neg (by rintro ⟨h0, h1, h2⟩; simp [h0, h1, h2] at h)]
  rfl

/-- What a write of any control register leaves in the endpoints. -/
@[simp] theorem write_ecr_eps (cfg : Config) (x : Sie) (i : Nat) (v : Word) :
    (Sie.write cfg x (.ecr i) v).eps = (x.setEp i (SieEndpoint.writeControl v)).eps := rfl

/-! ### `MPS`, `TX_BCNT`, `RX_WCNT` (R44 to R46) -/

@[simp] theorem low11_zeroExtend (m : BitVec 11) : low11 (m.zeroExtend 32) = m := by
  unfold low11
  ext j hj
  simp [hj]
  omega

theorem low11_ofNat_toNat {n : Nat} (h : n < 2 ^ 11) : (low11 (BitVec.ofNat 32 n)).toNat = n := by
  simp only [low11, BitVec.extractLsb'_toNat, BitVec.toNat_ofNat, Nat.shiftRight_zero]
  omega

theorem low11_ofNat_eq_zero {n : Nat} (h : n < 2 ^ 11) : low11 (BitVec.ofNat 32 n) = 0 ↔ n = 0 := by
  rw [← BitVec.toNat_inj, low11_ofNat_toNat h]
  simp

/-! ### Events cleared (R62) -/

theorem clearEvents_txDone (e : SieEndpoint) :
    SieEndpoint.clearEvents (bitAt 1 true) e = { e with txDone := false } := by
  simp [SieEndpoint.clearEvents, esrTxDone, esrStallSent, esrFlushReq]

theorem clearEvents_stallSent (e : SieEndpoint) :
    SieEndpoint.clearEvents (bitAt 4 true) e = { e with stallSent := false } := by
  simp [SieEndpoint.clearEvents, esrTxDone, esrStallSent, esrFlushReq]

theorem clearEvents_flushReq (e : SieEndpoint) :
    SieEndpoint.clearEvents (bitAt 5 true) e = { e with flushReq := false } := by
  simp [SieEndpoint.clearEvents, esrTxDone, esrStallSent, esrFlushReq]

/-- The W1C write of one latch clears that endpoint's latch (R166). -/
theorem clearLatches_eq (v : Word) (es : List SieEndpoint) (k : Nat) :
    clearLatches v k es =
      (es.zipIdx k).map fun p => { p.1 with eirLatch := p.1.eirLatch && !v.getLsbD p.2 } := by
  induction es generalizing k with
  | nil => rfl
  | cons e es ih => simp [clearLatches, ih]

theorem clearLatches_length (v : Word) (es : List SieEndpoint) (k : Nat) : (clearLatches v k es).length = es.length := by
  simp [clearLatches_eq]

theorem clearLatches_getElem? (v : Word) (es : List SieEndpoint) (k j : Nat) :
    (clearLatches v k es)[j]? = es[j]?.map fun e => { e with eirLatch := e.eirLatch && !v.getLsbD (k + j) } := by
  rw [clearLatches_eq, List.getElem?_map, List.getElem?_zipIdx]
  cases es[j]? <;> rfl

/-! ### The records of the SIE -/

theorem sieEp_setEp_self (x : Sie) (i : Nat) (f : SieEndpoint → SieEndpoint) (h : i < x.eps.length) :
    (x.setEp i f).ep i = f (x.ep i) := getD_modify_self _ _ _ _ h

theorem sieEp_setEp_ne (x : Sie) {i j : Nat} (f : SieEndpoint → SieEndpoint) (h : i ≠ j) :
    (x.setEp i f).ep j = x.ep j := getD_modify_ne _ _ _ _ _ h

@[simp] theorem sieSetEp_length (x : Sie) (i : Nat) (f : SieEndpoint → SieEndpoint) :
    (x.setEp i f).eps.length = x.eps.length := by simp [Sie.setEp]

theorem sieSetEp_setEp (x : Sie) (i : Nat) (f g : SieEndpoint → SieEndpoint) :
    (x.setEp i f).setEp i g = x.setEp i (g ∘ f) := by
  simp [Sie.setEp, List.modify_modify_eq]

/-- An update that the record itself shows to be none changes nothing. -/
theorem sieSetEp_eq_self {x : Sie} {i : Nat} {f : SieEndpoint → SieEndpoint} (h : f (x.ep i) = x.ep i) :
    x.setEp i f = x := by
  unfold Sie.setEp
  congr 1
  apply List.ext_getElem?
  intro j
  rw [List.getElem?_modify]
  by_cases hj : i = j
  · subst hj
    simp only [Sie.ep, List.getD_eq_getElem?_getD] at h
    cases hx : x.eps[i]? with
    | none => rfl
    | some e =>
      rw [hx] at h
      simpa using h
  · simp [hj]

/-- Two updates that agree on the record are one. -/
theorem sieSetEp_congr {x : Sie} {i : Nat} {f g : SieEndpoint → SieEndpoint} (h : f (x.ep i) = g (x.ep i)) :
    x.setEp i f = x.setEp i g := by
  unfold Sie.setEp
  congr 1
  apply List.ext_getElem?
  intro j
  rw [List.getElem?_modify, List.getElem?_modify]
  by_cases hj : i = j
  · subst hj
    simp only [Sie.ep, List.getD_eq_getElem?_getD] at h
    cases hx : x.eps[i]? with
    | none => rfl
    | some e =>
      rw [hx] at h
      simpa using h
  · simp [hj]

/-! ### `EIR` and `SSR` as words -/

theorem getLsbD_wordOfBits (bs : List Bool) (k j : Nat) (h : k + bs.length ≤ 32) :
    (wordOfBits k bs).getLsbD j = (decide (k ≤ j) && bs.getD (j - k) false) := by
  induction bs generalizing k with
  | nil => simp [wordOfBits]
  | cons b bs ih =>
    simp only [List.length_cons] at h
    rw [wordOfBits, BitVec.getLsbD_or, getLsbD_bitAt, ih (k + 1) (by omega)]
    rcases Nat.lt_trichotomy j k with h1 | h1 | h1
    · simp [show ¬j = k by omega, show ¬k + 1 ≤ j by omega, show ¬k ≤ j by omega]
    · subst h1
      simp [show ¬j + 1 ≤ j by omega, show j < 32 by omega]
    · obtain ⟨d, rfl⟩ : ∃ d, j = k + 1 + d := ⟨j - (k + 1), by omega⟩
      simp [show ¬k + 1 + d = k by omega, show k ≤ k + 1 + d by omega, show k + 1 + d - k = d + 1 by omega]

/-- Bit i of `EIR` (R166). -/
theorem getLsbD_eirWord (x : Sie) (i : Nat) (h : x.eps.length ≤ 32) :
    x.eirWord.getLsbD i = (decide (i < x.eps.length) && (x.ep i).eirBit) := by
  unfold Sie.eirWord
  rw [getLsbD_wordOfBits _ _ _ (by simpa using h)]
  by_cases hi : i < x.eps.length
  · simp [Sie.ep, List.getD_eq_getElem?_getD, hi]
  · simp [List.getD_eq_getElem?_getD, hi]

end Sys2Proof.Machine
end

