-- ==== Sys2Proof/Laws/Run.lean ====
section
/-! SUPPORT. What each shared operation does, in one equation, when the agents around the core do not interfere
(`State.Undisturbed`): its register accesses put together into the effect Safety.lean names. -/

namespace Sys2Proof.Machine

/-! ### The constraints of R8, as a proposition -/

theorem config_bounds {c : Config} (h : c.wf = true) :
    3 ≤ c.numEndpoints ∧ c.numEndpoints ≤ 16 ∧ c.epDir.length + 1 = c.numEndpoints ∧
    (c.fifoPkts = 1 ∨ c.fifoPkts = 2) ∧ c.ep0MpsFs ∈ [8#11, 16#11, 32#11, 64#11] ∧ c.ep0MpsHs = 64#11 ∧
    c.bulkMpsFs ∈ [8#11, 16#11, 32#11, 64#11] ∧ c.bulkMpsHs = 512#11 ∧ c.deviceStatus.toNat < 4 ∧
    c.memSize ≤ 2 ^ 32 ∧ (c.reqTable.map (·.1)).Nodup ∧ c.sieMapOk = true := by
  simp only [Config.wf, Bool.and_eq_true, decide_eq_true_eq] at h
  tauto

/-! ### Register accesses with no move between them -/

section quiet
variable {s : State}

theorem busTick_quiet (h : s.betweenMoves = []) : s.busTick = s := by
  unfold State.busTick
  rw [h]

theorem afterRead_quiet (h : s.betweenMoves = []) (r : Reg) :
    s.afterRead r = { s with sie := (Sie.read s.cfg s.sie r).2 } := by
  unfold State.afterRead
  rw [busTick_quiet h]

theorem readValue_quiet (h : s.betweenMoves = []) (r : Reg) : s.readValue r = (Sie.read s.cfg s.sie r).1 := by
  unfold State.readValue
  rw [busTick_quiet h]

theorem afterWrite_quiet (h : s.betweenMoves = []) (r : Reg) (v : Word) :
    s.afterWrite r v = { s with sie := Sie.write s.cfg s.sie r v } := by
  unfold State.afterWrite
  rw [busTick_quiet h]

/-- The registers whose reads have a side effect (R61). -/
def Reg.consumes : Reg → Bool
  | .fifo _ | .rxWcnt _ => true
  | .ssr | .eir | .eier | .esr _ | .ecr _ | .mps _ | .txBcnt _ => false

/-- A read of any other register changes nothing (R61). -/
theorem afterRead_pure (h : s.betweenMoves = []) {r : Reg} (hr : r.consumes = false) : s.afterRead r = s := by
  rw [afterRead_quiet h]
  cases r <;> first | rfl | cases hr

theorem regRead_quiet (h : s.betweenMoves = []) {r : Reg} (hr : r.consumes = false) :
    regRead r s = .ok ((Sie.read s.cfg s.sie r).1, s) := by
  rw [regRead_run, readValue_quiet h, afterRead_pure h hr]

theorem regWrite_quiet (h : s.betweenMoves = []) (r : Reg) (v : Word) :
    regWrite r v s = .ok ((), { s with sie := Sie.write s.cfg s.sie r v }) := by
  rw [regWrite_run, afterWrite_quiet h]

end quiet

@[simp] theorem setSieEp_cfg (s : State) (i : Nat) (f : SieEndpoint → SieEndpoint) : (s.setSieEp i f).cfg = s.cfg := rfl
@[simp] theorem setSieEp_dev (s : State) (i : Nat) (f : SieEndpoint → SieEndpoint) : (s.setSieEp i f).dev = s.dev := rfl
@[simp] theorem setSieEp_eps (s : State) (i : Nat) (f : SieEndpoint → SieEndpoint) : (s.setSieEp i f).eps = s.eps := rfl
@[simp] theorem setSieEp_reqs (s : State) (i : Nat) (f : SieEndpoint → SieEndpoint) : (s.setSieEp i f).reqs = s.reqs := rfl
@[simp] theorem setSieEp_sie (s : State) (i : Nat) (f : SieEndpoint → SieEndpoint) :
    (s.setSieEp i f).sie = s.sie.setEp i f := rfl
@[simp] theorem setSieEp_mem (s : State) (i : Nat) (f : SieEndpoint → SieEndpoint) : (s.setSieEp i f).mem = s.mem := rfl
@[simp] theorem setSieEp_betweenMoves (s : State) (i : Nat) (f : SieEndpoint → SieEndpoint) :
    (s.setSieEp i f).betweenMoves = s.betweenMoves := rfl
@[simp] theorem setSieEp_driverScript (s : State) (i : Nat) (f : SieEndpoint → SieEndpoint) :
    (s.setSieEp i f).driverScript = s.driverScript := rfl
@[simp] theorem setSieEp_ep (s : State) (i j : Nat) (f : SieEndpoint → SieEndpoint) : (s.setSieEp i f).ep j = s.ep j := rfl
@[simp] theorem setSieEp_req (s : State) (i : Nat) (f : SieEndpoint → SieEndpoint) (h : Handle) :
    (s.setSieEp i f).req h = s.req h := by cases h <;> rfl
@[simp] theorem setSieEp_epDir (s : State) (i j : Nat) (f : SieEndpoint → SieEndpoint) :
    (s.setSieEp i f).epDir j = s.epDir j := rfl

/-- An update of the SIE's record that its value shows to be another one. -/
theorem setSieEp_congr {s : State} {i : Nat} {f g : SieEndpoint → SieEndpoint} (h : f (s.sie.ep i) = g (s.sie.ep i)) :
    s.setSieEp i f = s.setSieEp i g := by
  unfold State.setSieEp
  rw [sieSetEp_congr h]

theorem setSieEp_setSieEp (s : State) (i : Nat) (f g : SieEndpoint → SieEndpoint) :
    (s.setSieEp i f).setSieEp i g = s.setSieEp i (g ∘ f) := by
  unfold State.setSieEp
  rw [← sieSetEp_setEp]

/-! ### `Undisturbed` is kept -/

theorem State.Undisturbed.of_eq {s t : State} (h : s.Undisturbed) (h1 : t.betweenMoves = s.betweenMoves)
    (h2 : t.driverScript = s.driverScript) (h3 : t.reqs = s.reqs) (h4 : t.statusReq = s.statusReq) (h5 : t.cfg = s.cfg) :
    t.Undisturbed :=
  ⟨h1 ▸ h.quiet, h2 ▸ h.idle, fun k a => by rw [req_eq_of_eq h3 h4, h5]; exact h.buffers k a⟩

theorem State.Undisturbed.setEp {s : State} (h : s.Undisturbed) (i : Nat) (f : Endpoint → Endpoint) :
    (s.setEp i f).Undisturbed := h.of_eq rfl rfl rfl rfl rfl

theorem State.Undisturbed.setDev {s : State} (h : s.Undisturbed) (f : Device → Device) :
    (s.setDev f).Undisturbed := h.of_eq rfl rfl rfl rfl rfl

theorem State.Undisturbed.setSieEp {s : State} (h : s.Undisturbed) (i : Nat) (f : SieEndpoint → SieEndpoint) :
    (s.setSieEp i f).Undisturbed := h.of_eq rfl rfl rfl rfl rfl

theorem State.Undisturbed.withSie {s : State} (h : s.Undisturbed) (x : Sie) :
    ({ s with sie := x } : State).Undisturbed := h.of_eq rfl rfl rfl rfl rfl

theorem State.Undisturbed.masked {s : State} (h : s.Undisturbed) (i : Nat) : (s.masked i).Undisturbed :=
  h.of_eq rfl rfl rfl rfl rfl

theorem State.Undisturbed.setReq {s : State} (hs : s.Undisturbed) (h : Handle) {f : Request → Request}
    (hb : ∀ r, (f r).buf = r.buf) (hl : ∀ r, (f r).length = r.length) : (s.setReq h f).Undisturbed := by
  refine ⟨by simpa using hs.quiet, by simpa using hs.idle, fun k a => ?_⟩
  rw [req_setReq_keeps Request.buf s h k f hb, req_setReq_keeps Request.length s h k f hl, setReq_cfg]
  exact hs.buffers k a

theorem req_afterUpcall (s : State) (u : Upcall) (h : Handle) : (s.afterUpcall u).req h = s.req h :=
  req_eq_of_eq (by simp [State.afterUpcall]) (by simp [State.afterUpcall]) h

theorem State.Undisturbed.afterUpcall {s : State} (hs : s.Undisturbed) (u : Upcall) : (s.afterUpcall u).Undisturbed := by
  refine ⟨by simpa [State.afterUpcall] using hs.quiet, ?_, fun k a => ?_⟩
  · simp only [State.afterUpcall, leaveUpcall_driverScript]
    unfold State.afterResponse
    rw [enterUpcall_driverScript]
    cases hd : s.driverScript with
    | nil => simp
    | cons r rest => exact fun q hq => hs.idle q (by simp [hd, hq])
  · rw [req_afterUpcall, show (s.afterUpcall u).cfg = s.cfg by simp [State.afterUpcall]]
    exact hs.buffers k a

theorem State.Undisturbed.completed {s : State} (hs : s.Undisturbed) (i : Nat) (h : Handle) (st : Status) :
    (s.completed i h st).Undisturbed := by
  have h1 := (hs.setEp i fun e => { e with queue := e.queue.erase h }).setReq h (f := Request.completed st)
    (fun _ => rfl) (fun _ => rfl)
  unfold State.completed
  split
  · exact h1.setDev _
  · exact h1

theorem State.Undisturbed.finished {s : State} (hs : s.Undisturbed) (i : Nat) (h : Handle) (st : Status) :
    (s.finished i h st).Undisturbed := by
  unfold State.finished
  split
  · exact hs.completed i h st
  · exact (hs.completed i h st).afterUpcall _

theorem State.Undisturbed.foldl_finished {s : State} (hs : s.Undisturbed) (i : Nat) (st : Status) (l : List Handle) :
    (l.foldl (fun t h => t.finished i h st) s).Undisturbed := by
  induction l generalizing s with
  | nil => exact hs
  | cons h l ih => exact ih (hs.finished i h st)

theorem State.Undisturbed.finishedAll {s : State} (hs : s.Undisturbed) (i : Nat) (st : Status) :
    (s.finishedAll i st).Undisturbed := (hs.setEp _ _).foldl_finished i st _

/-! ### Upcalls, completion, nuke -/

@[simp] theorem begun_buf (r : Request) : r.begun.buf = r.buf := rfl
@[simp] theorem begun_length (r : Request) : r.begun.length = r.length := rfl
@[simp] theorem begun_actual (r : Request) : r.begun.actual = 0 := rfl
@[simp] theorem begun_zero (r : Request) : r.begun.zero = r.zero := rfl
@[simp] theorem begun_callback (r : Request) : r.begun.callback = r.callback := rfl
@[simp] theorem begun_status (r : Request) : r.begun.status = .inProgress := rfl
@[simp] theorem begun_queuedOn (r : Request) : r.begun.queuedOn = r.queuedOn := rfl
@[simp] theorem begun_queuings (r : Request) : r.begun.queuings = r.queuings + 1 := rfl

@[simp] theorem completed_buf (st : Status) (r : Request) : (r.completed st).buf = r.buf := rfl
@[simp] theorem completed_length (st : Status) (r : Request) : (r.completed st).length = r.length := rfl
@[simp] theorem completed_actual (st : Status) (r : Request) : (r.completed st).actual = r.actual := rfl
@[simp] theorem completed_zero (st : Status) (r : Request) : (r.completed st).zero = r.zero := rfl
@[simp] theorem completed_callback (st : Status) (r : Request) : (r.completed st).callback = r.callback := rfl
@[simp] theorem completed_status (st : Status) (r : Request) : (r.completed st).status = if st = .ok ∧ r.status = .overflowError then r.status else st := rfl
@[simp] theorem completed_queuedOn (st : Status) (r : Request) : (r.completed st).queuedOn = none := rfl
@[simp] theorem completed_queuings (st : Status) (r : Request) : (r.completed st).queuings = r.queuings := rfl

/-- An upcall answered without an action. -/
theorem upcalls_idle {s : State} (hs : s.Undisturbed) (n : Nat) (u : Upcall) :
    upcalls n u s = .ok (s.nextResponse.ret, s.afterUpcall u) := by
  have hr : (s.enterUpcall u).nextResponse = s.nextResponse := rfl
  have ha : s.nextResponse.actions = [] := by
    unfold State.nextResponse
    cases hd : s.driverScript with
    | nil => rfl
    | cons r rest => exact hs.idle r (by simp [hd])
  cases n with
  | zero =>
    simp only [upcalls, upcallWith, change_bind_run, look_bind_run, hr, ha, eachOf_nil, pure_bind_run]
    rfl
  | succ n =>
    simp only [upcalls, upcallWith, change_bind_run, look_bind_run, hr, ha, eachOf_nil, pure_bind_run]
    rfl

theorem complete_idle {s : State} (hs : s.Undisturbed) (n i : Nat) (h : Handle) (st : Status) :
    complete (upcalls n) i h st s = .ok ((), s.finished i h st) := by
  unfold complete callback State.finished
  simp only [change_bind_run, look_bind_run]
  split <;> rename_i hc
  · simp [hc]
  · simp only [hc]
    rw [bind_run_ok (upcalls_idle (hs.completed i h st) n _)]
    rfl

/-- What COMPLETE and its callback leave of another request, and of the queues. -/
theorem req_completed_ne {s : State} {i : Nat} {h k : Handle} {st : Status} (hk : k ≠ h) :
    (s.completed i h st).req k = s.req k := by
  unfold State.completed
  split <;> simp [req_setReq_ne _ _ hk]

theorem req_finished_ne {s : State} {i : Nat} {h k : Handle} {st : Status} (hk : k ≠ h) :
    (s.finished i h st).req k = s.req k := by
  unfold State.finished
  split
  · exact req_completed_ne hk
  · rw [req_afterUpcall, req_completed_ne hk]

theorem known_finished (s : State) (i : Nat) (h k : Handle) (st : Status) : (s.finished i h st).known k = s.known k := by
  have h1 : (s.completed i h st).known k = s.known k := by
    unfold State.completed
    split <;> simp
  unfold State.finished
  split
  · exact h1
  · rw [known_eq_of_eq (s := s.completed i h st) (by simp [State.afterUpcall]), h1]

theorem completed_ep (s : State) (i j : Nat) (h : Handle) (st : Status) :
    (s.completed i h st).ep j = (s.setEp i fun e => { e with queue := e.queue.erase h }).ep j := by
  unfold State.completed
  split <;> simp

@[simp] theorem afterUpcall_eps (s : State) (u : Upcall) : (s.afterUpcall u).eps = s.eps := by simp [State.afterUpcall]

theorem finished_ep (s : State) (i j : Nat) (h : Handle) (st : Status) :
    (s.finished i h st).ep j = (s.setEp i fun e => { e with queue := e.queue.erase h }).ep j := by
  unfold State.finished
  split
  · exact completed_ep s i j h st
  · rw [← completed_ep s i j h st, State.ep, State.ep, afterUpcall_eps]

/-- What COMPLETE and its callback keep of a record, they keep of every request's. -/
theorem req_finished_keeps {β : Type} (g : Request → β) (hg : ∀ st r, g (Request.completed st r) = g r) (s : State)
    (i : Nat) (h k : Handle) (st : Status) : g ((s.finished i h st).req k) = g (s.req k) := by
  have h1 : g ((s.completed i h st).req k) = g (s.req k) := by
    unfold State.completed
    split <;> simp only [req_setDev] <;> rw [req_setReq_keeps g _ _ _ _ (hg st), req_setEp]
  unfold State.finished
  split
  · exact h1
  · rw [req_afterUpcall, h1]

/-- What COMPLETE leaves of another request, or of the same one, still to be cancelled. -/
theorem awaitsNuke_finished {s : State} {i : Nat} {y : Handle × Nat} (hy : s.awaitsNuke i y = true) (h : Handle)
    (st : Status) : (s.finished i h st).awaitsNuke i y = true := by
  simp only [State.awaitsNuke, Bool.and_eq_true, decide_eq_true_eq] at hy ⊢
  rw [req_finished_keeps Request.queuings fun _ _ => rfl]
  refine ⟨hy.1, ?_⟩
  by_cases he : y.1 = h
  · have h1 : (s.completed i h st).req h = ((s.setEp i fun e => { e with queue := e.queue.erase h }).setReq h
        (Request.completed st)).req h := by
      unfold State.completed
      split <;> simp
    have h2 : (s.finished i h st).req h = (s.completed i h st).req h := by
      unfold State.finished
      split
      · rfl
      · rw [req_afterUpcall]
    rw [he, h2, h1]
    rcases req_setReq_cases (s.setEp i fun e => { e with queue := e.queue.erase h }) h h (Request.completed st) with h3 | ⟨_, _, h3⟩
    · rw [h3, req_setEp, ← he]
      exact hy.2
    · rw [h3]
      exact .inr rfl
  · rw [req_finished_ne he]
    exact hy.2

/-- NUKE's loop over a snapshot, none of whose requests is queued again meanwhile: each of them completes. -/
theorem eachOf_cancel_idle {s : State} (hs : s.Undisturbed) (n i : Nat) (st : Status) {l : List (Handle × Nat)}
    (hk : ∀ x ∈ l, s.known x.1 = true) (hc : ∀ x ∈ l, s.awaitsNuke i x = true) :
    eachOf (cancel (upcalls n) i st) l s = .ok ((), l.foldl (fun t x => t.finished i x.1 st) s) := by
  induction l generalizing s with
  | nil => rfl
  | cons x l ih =>
    have h1 : cancel (upcalls n) i st x s = .ok ((), s.finished i x.1 st) := by
      unfold cancel needRecord
      rw [bind_run_ok (s := s) (t := s) (a := ()) (by rw [if_pos (hk x (by simp))]), look_bind_run, onlyIf_run,
        if_pos (hc x (by simp)), complete_idle hs]
    rw [eachOf_cons, bind_run_ok h1]
    refine ih (hs.finished i x.1 st) (fun y hy => ?_) fun y hy => ?_
    · rw [known_finished]
      exact hk y (by simp [hy])
    · exact awaitsNuke_finished (hc y (by simp [hy])) x.1 st

/-- NUKE ends every request of the queue, head first (R95). -/
theorem nuke_idle {s : State} (hi : s.Inv) (hs : s.Undisturbed) (n i : Nat) (st : Status) :
    nuke (upcalls n) i st s = .ok ((), s.finishedAll i st) := by
  unfold nuke State.finishedAll State.snapshot
  simp only [change_bind_run, look_bind_run]
  rw [eachOf_cancel_idle (hs.setEp _ _), List.foldl_map]
  · simp only [List.mem_map, forall_exists_index, and_imp]
    rintro _ h hh rfl
    rw [known_setEp]
    exact known_of_ne Request.queuedOn (by rw [hi.requests.owned i h hh]; exact Option.some_ne_none i)
  · simp only [List.mem_map, forall_exists_index, and_imp]
    rintro _ h hh rfl
    simp [State.awaitsNuke, hi.requests.owned i h hh]

/-! ### Control registers -/

/-- A stall that is cleared, or is not endpoint 0's, changes its endpoint only. -/
theorem stallWritten_eq {s : State} {i : Nat} {v : Bool} (h : i ≠ 0 ∨ v = false ∨ (s.sie.ep 0).stall = true) :
    s.stallWritten i v = s.setSieEp i fun e => { e with stall := v } := by
  unfold State.stallWritten
  rw [if_neg (by rintro ⟨h0, h1, h2⟩; simp [h0, h1, h2] at h)]
  rfl

theorem State.Undisturbed.stallWritten {s : State} (h : s.Undisturbed) (i : Nat) (v : Bool) :
    (s.stallWritten i v).Undisturbed := h.withSie _

theorem setStallBit_quiet {s : State} (h : s.betweenMoves = []) (i : Nat) :
    setStallBit i s = .ok ((), s.stallWritten i true) := by
  unfold setStallBit
  rw [bind_run_ok (regRead_quiet h (r := .ecr i) rfl), regWrite_quiet h]
  have hv : ecrStall ((s.sie.ep i).ecrWord ||| 0x1) = true := by simp [ecrStall]
  simp only [Sie.read, Sie.write, State.stallWritten, hv]
  rw [sieSetEp_congr (g := fun e => { e with stall := true }) (writeControl_setStall _)]

theorem clearStallBit_quiet {s : State} (h : s.betweenMoves = []) (i : Nat) :
    clearStallBit i s = .ok ((), s.stallWritten i false) := by
  unfold clearStallBit
  rw [bind_run_ok (regRead_quiet h (r := .ecr i) rfl), regWrite_quiet h, stallWritten_eq (.inr (.inl rfl))]
  have hv : ecrStall ((s.sie.ep i).ecrWord &&& ~~~0x1) = false := by simp [ecrStall]
  simp only [Sie.read]
  rw [write_ecr _ (.inr (.inl hv))]
  congr 2
  exact setSieEp_congr (writeControl_clearStall _)

/-- `EIER` holds bit 0 and no bit from N on, so writing back a value of it with data bits changed stores that value. -/
theorem eier_kept {s : State} (hs : s.Inv) : (s.sie.eier &&& epMask s.cfg.numEndpoints) ||| 1 = s.sie.eier := by
  obtain ⟨h3, h16, _⟩ := config_bounds hs.configuration
  apply BitVec.eq_of_getLsbD_eq
  intro j hj
  rw [BitVec.getLsbD_or, BitVec.getLsbD_and, getLsbD_epMask _ _ (by omega), hs.interrupts j]
  by_cases h0 : j = 0
  · subst h0
    simp [hs.control, State.numEps, show 0 < s.cfg.numEndpoints by omega]
  · by_cases h1 : j < s.cfg.numEndpoints <;> simp [h0, h1, State.numEps]

theorem maskInterrupt_quiet {s : State} (h : s.betweenMoves = [])
    (he : (s.sie.eier &&& epMask s.cfg.numEndpoints) ||| 1 = s.sie.eier) {i : Nat} (hi : 1 ≤ i) :
    maskInterrupt i s = .ok ((), s.masked i) := by
  unfold maskInterrupt
  rw [bind_run_ok (regRead_quiet h (r := .eier) rfl), regWrite_quiet h]
  have hv : ((s.sie.eier &&& ~~~(bitAt i true)) &&& epMask s.cfg.numEndpoints) ||| 1 =
      s.sie.eier &&& ~~~(bitAt i true) := by
    conv_rhs => rw [← he]
    apply BitVec.eq_of_getLsbD_eq
    intro j hj
    simp only [BitVec.getLsbD_or, BitVec.getLsbD_and, BitVec.getLsbD_not, getLsbD_bitAt]
    by_cases h0 : j = 0
    · subst h0
      simp [show ¬0 = i by omega]
    · simp [h0]
      grind
  simp only [Sie.read, Sie.write, hv, State.masked]

theorem unmaskInterrupt_quiet {s : State} (h : s.betweenMoves = [])
    (he : (s.sie.eier &&& epMask s.cfg.numEndpoints) ||| 1 = s.sie.eier) {i : Nat} (hi : i < s.cfg.numEndpoints)
    (hN : s.cfg.numEndpoints ≤ 16) : unmaskInterrupt i s = .ok ((), s.unmasked i) := by
  unfold unmaskInterrupt
  rw [bind_run_ok (regRead_quiet h (r := .eier) rfl), regWrite_quiet h]
  have hv : ((s.sie.eier ||| bitAt i true) &&& epMask s.cfg.numEndpoints) ||| 1 = s.sie.eier ||| bitAt i true := by
    conv_rhs => rw [← he]
    apply BitVec.eq_of_getLsbD_eq
    intro j hj
    simp only [BitVec.getLsbD_or, BitVec.getLsbD_and, getLsbD_bitAt, getLsbD_epMask _ _ (show s.cfg.numEndpoints ≤ 32 by omega)]
    by_cases h0 : j = i
    · subst h0
      simp [hi, hj]
    · simp [h0]
  simp only [Sie.read, Sie.write, hv, State.unmasked]

end Sys2Proof.Machine
end

