-- ==== Sys2Proof/Laws/Serve.lean ====
section
/-! SUPPORT. What the FIFO algorithms do, in one equation each, when the agents around the core do not interfere: the packet
framer stages one packet, the FIFO read takes one packet off, a drain empties the FIFO. -/

namespace Sys2Proof.Machine

/-! ### CAN_START -/

theorem canStart_quiet {s : State} (h : s.betweenMoves = []) (i : Nat) : canStart i s = .ok (s.canStart i, s) := by
  unfold canStart State.canStart
  simp only [look_bind_run]
  by_cases ha : (!(s.ep i).halted && !(decide (i = 0) && decide (s.dev.ctl = .waitForSetup))) = true
  · rw [if_pos ha, ha]
    simp only [look_bind_run]
    rw [bind_run_ok (regRead_quiet h (r := .esr i) rfl)]
    cases s.epDir i <;> simp [Sie.read]
  · rw [if_neg ha, Bool.eq_false_iff.mpr ha]
    rfl

/-! ### The framer -/

/-- Writing the words of the bytes that a begun packet still lacks commits the packet. -/
theorem writeWords_quiet {s : State} (hq : s.betweenMoves = []) {i : Nat} (hi : i < s.sie.eps.length) (bytes : List Byte)
    {c : BitVec 11} {b : List Byte} (hb : bytes ≠ []) (hc : (s.sie.ep i).txCur = some ⟨c, b⟩)
    (hn : c.toNat = b.length + bytes.length) :
    writeWords i bytes s = .ok ((), s.setSieEp i (SieEndpoint.commit s.cfg.fifoPkts (b ++ bytes))) := by
  have lo8 : ∀ lo hi : Byte, (BitVec.truncate 16 (fifoWord lo hi)).extractLsb' 0 8 = lo := by
    intro lo hi
    apply BitVec.eq_of_getLsbD_eq
    intro j hj
    simp only [fifoWord, BitVec.truncate_eq_setWidth, BitVec.getLsbD_extractLsb', BitVec.getLsbD_setWidth,
      BitVec.getLsbD_append]
    simp [hj, show j < 16 by omega, show j < 32 by omega]
  have hi8 : ∀ lo hi : Byte, (BitVec.truncate 16 (fifoWord lo hi)).extractLsb' 8 8 = hi := by
    intro lo hi
    apply BitVec.eq_of_getLsbD_eq
    intro j hj
    simp only [fifoWord, BitVec.truncate_eq_setWidth, BitVec.getLsbD_extractLsb', BitVec.getLsbD_setWidth,
      BitVec.getLsbD_append]
    simp [hj, show 8 + j < 16 by omega, show 8 + j < 32 by omega]
  induction bytes using writeWords.induct generalizing s b with
  | case1 => exact absurd rfl hb
  | case2 lo =>
    rw [writeWords, regWrite_quiet hq]
    congr 2
    refine setSieEp_congr ?_
    simp only [SieEndpoint.writeFifo, hc, lo8]
    simp at hn
    simp [hn]
  | case3 lo hi2 rest ih =>
    rw [writeWords, bind_run_ok (regWrite_quiet hq _ _)]
    have hlen : b.length + 1 < c.toNat := by simp at hn; omega
    cases rest with
    | nil =>
      simp only [writeWords, pure_run]
      congr 2
      refine setSieEp_congr ?_
      simp only [SieEndpoint.writeFifo, hc, lo8, hi8]
      simp at hn
      simp [hn]
    | cons x xs =>
      have hstep : Sie.write s.cfg s.sie (.fifo i) (fifoWord lo hi2) =
          s.sie.setEp i fun e => { e with txCur := some ⟨c, b ++ [lo] ++ [hi2]⟩ } := by
        refine sieSetEp_congr ?_
        simp only [SieEndpoint.writeFifo, hc, lo8, hi8]
        simp only [List.length_cons] at hn
        have e1 : (b ++ [lo]).length < c.toNat := by simp; omega
        have e2 : (b ++ [lo] ++ [hi2]).length ≠ c.toNat := by simp; omega
        rw [if_pos e1, if_neg e2]
      rw [hstep]
      have h1 := ih (s := s.setSieEp i fun e => { e with txCur := some ⟨c, b ++ [lo] ++ [hi2]⟩ })
        (b := b ++ [lo] ++ [hi2]) hq (by simpa using hi) (by simp)
        (by simp [sieEp_setEp_self _ _ _ hi]) (by simp at hn ⊢; omega)
      show writeWords i (x :: xs) (s.setSieEp i _) = _
      rw [h1]
      simp only [setSieEp_cfg, setSieEp_setSieEp]
      congr 2
      refine setSieEp_congr ?_
      simp [SieEndpoint.commit]

/-- `RegWrite(TX_BCNT[i], n)` and the words of n bytes stage those bytes as one packet. -/
theorem stagePacket_quiet {s : State} (hq : s.betweenMoves = []) {i : Nat} (hi : i < s.sie.eps.length) (bytes : List Byte)
    (hn : bytes.length < 2 ^ 11) :
    (regWrite (.txBcnt i) (BitVec.ofNat 32 bytes.length) >>= fun _ => writeWords i bytes) s =
      .ok ((), s.setSieEp i (SieEndpoint.commit s.cfg.fifoPkts bytes)) := by
  rw [bind_run_ok (regWrite_quiet hq _ _)]
  by_cases hb : bytes = []
  · subst hb
    rfl
  · have h0 : low11 (BitVec.ofNat 32 bytes.length) ≠ 0 := by
      rw [Ne, low11_ofNat_eq_zero hn]
      exact fun h => hb (List.length_eq_zero_iff.mp h)
    have hw : Sie.write s.cfg s.sie (.txBcnt i) (BitVec.ofNat 32 bytes.length) =
        s.sie.setEp i fun e => { e with txCur := some ⟨low11 (BitVec.ofNat 32 bytes.length), []⟩ } :=
      sieSetEp_congr (by rw [SieEndpoint.writeByteCount, if_neg h0])
    rw [hw]
    have h1 := writeWords_quiet
      (s := s.setSieEp i fun e => { e with txCur := some ⟨low11 (BitVec.ofNat 32 bytes.length), []⟩ })
      hq (i := i) (by simpa using hi) bytes hb (by simp [sieEp_setEp_self _ _ _ hi]; exact ⟨rfl, rfl⟩)
      (by simp [low11_ofNat_toNat hn])
    show writeWords i bytes (s.setSieEp i _) = _
    rw [h1]
    simp only [setSieEp_cfg, setSieEp_setSieEp]
    rfl

/-- A commit into a FIFO with space stages the packet. -/
theorem commit_space {f : Nat} {e : SieEndpoint} (h : e.txSpace f = true) (bytes : List Byte) :
    e.commit f bytes = { e with txQueue := e.txQueue ++ [bytes], txCur := none } := by
  simp only [SieEndpoint.txSpace, Bool.and_eq_true, decide_eq_true_eq] at h
  simp [SieEndpoint.commit, h.1]

/-! ### Buffers -/

theorem statusRead_eq (off n : Nat) (s : State) : statusRead off n s = (List.range n).map fun k => s.statusByte (off + k) := by
  induction n generalizing off with
  | zero => rfl
  | succ n ih =>
    rw [statusRead, ih, List.range_succ_eq_map]
    simp [Function.comp_def, Nat.add_assoc, Nat.add_comm 1]

theorem bufRead_run {s : State} {b : Buffer} {off n : Nat}
    (hm : ∀ a, b = .sysMem a → n = 0 ∨ a.toNat + off + n ≤ s.cfg.memSize) :
    bufRead b off n s = .ok (s.bufferBytes b off n, s) := by
  cases b with
  | none => rfl
  | coreBytes => simp [bufRead, State.bufferBytes, statusRead_eq]
  | sysMem a =>
    rcases hm a rfl with rfl | h
    · rfl
    · show memRead (a.toNat + off) n s = .ok ((List.range n).map fun k => s.byte (a.toNat + off + k), s)
      rw [memRead_run h, List.range'_eq_map_range]
      simp [Function.comp_def]

theorem bufferBytes_length (s : State) (b : Buffer) (off n : Nat) : (s.bufferBytes b off n).length = n := by
  cases b <;> simp [State.bufferBytes]

/-- The bytes still to be moved lie in memory. -/
theorem State.Undisturbed.inMemory {s : State} (hs : s.Undisturbed) (h : Handle) {n : Nat}
    (hn : n ≤ (s.req h).length - (s.req h).actual) :
    ∀ a, (s.req h).buf = .sysMem a → n = 0 ∨ a.toNat + (s.req h).actual + n ≤ s.cfg.memSize := by
  intro a ha
  have := hs.buffers h a ha
  omega

theorem nextPacket_le (s : State) (i : Nat) (h : Handle) :
    s.nextPacket i h ≤ (s.req h).length - (s.req h).actual := Nat.min_le_left _ _

theorem nextPacket_lt (s : State) (i : Nat) (h : Handle) : s.nextPacket i h < 2 ^ 11 :=
  Nat.lt_of_le_of_lt (Nat.min_le_right _ _) (s.ep i).mps.isLt

/-- WRITE_FIFO stages one packet (R98). -/
theorem writeFifo_idle {s : State} (hs : s.Undisturbed) (n : Nat) {i : Nat} (hi : i < s.sie.eps.length)
    (hsp : (s.sie.ep i).txSpace s.cfg.fifoPkts = true) (h : Handle) :
    ∃ last, writeFifo (upcalls n) i h s = .ok (last, s.sentPacket i h) := by
  unfold writeFifo State.sentPacket
  simp only [look_bind_run]
  have hlen := bufferBytes_length s (s.req h).buf (s.req h).actual (s.nextPacket i h)
  have hst := stagePacket_quiet hs.quiet hi (s.bufferBytes (s.req h).buf (s.req h).actual (s.nextPacket i h))
    (by rw [hlen]; exact nextPacket_lt s i h)
  rw [hlen] at hst
  obtain ⟨⟨⟩, u, h1, h2⟩ := bind_ok_iff.mp hst
  have hu : u = s.setSieEp i (SieEndpoint.writeByteCount s.cfg.fifoPkts (BitVec.ofNat 32 (s.nextPacket i h))) := by
    rw [regWrite_quiet hs.quiet] at h1
    cases h1
    rfl
  rw [bind_run_ok h1]
  simp only [look_bind_run]
  have hreq : u.req h = s.req h := by rw [hu, setSieEp_req]
  have hbytes : u.bufferBytes (s.req h).buf (s.req h).actual (s.nextPacket i h) =
      s.bufferBytes (s.req h).buf (s.req h).actual (s.nextPacket i h) := by
    rw [hu]; cases (s.req h).buf <;> rfl
  have hbr : bufRead (u.req h).buf (u.req h).actual (s.nextPacket i h) u =
      .ok (s.bufferBytes (s.req h).buf (s.req h).actual (s.nextPacket i h), u) := by
    rw [hreq, bufRead_run, hbytes]
    rw [hu]
    exact hs.inMemory h (nextPacket_le s i h)
  rw [bind_run_ok hbr, bind_run_ok h2]
  unfold advance
  simp only [change_bind_run, look_bind_run]
  rw [setSieEp_congr (f := SieEndpoint.commit _ _) (g := fun e => { e with
    txQueue := e.txQueue ++ [s.bufferBytes (s.req h).buf (s.req h).actual (s.nextPacket i h)], txCur := none })
    (commit_space hsp _)]
  split
  · rw [bind_run_ok (complete_idle ((hs.setSieEp _ _).setReq h
      (f := fun r => { r with actual := r.actual + s.nextPacket i h }) (fun _ => rfl) (fun _ => rfl)) n i h .ok)]
    exact ⟨true, rfl⟩
  · exact ⟨false, rfl⟩

/-! ### The FIFO read -/

theorem storeBytes_cons (b : Buffer) (off : Nat) (x : Byte) (xs : List Byte) (s : State) :
    State.storeBytes b off (x :: xs) s = State.storeBytes b (off + 1) xs (State.storeBytes b off [x] s) := rfl

theorem storeBytes_setSieEp (b : Buffer) (off : Nat) (l : List Byte) (s : State) (i : Nat)
    (f : SieEndpoint → SieEndpoint) :
    State.storeBytes b off l (s.setSieEp i f) = (State.storeBytes b off l s).setSieEp i f := by
  induction l generalizing off s with
  | nil => rfl
  | cons x xs ih =>
    cases b with
    | none => exact ih (off + 1) s
    | sysMem a => exact ih (off + 1) (s.setByte (a.toNat + off) x)
    | coreBytes => exact ih (off + 1) (s.setStatusByte off x)

section store
variable (b : Buffer) (off : Nat) (l : List Byte) (s : State)

/-- A field that no byte written to a buffer changes. -/
theorem storeBytes_keeps {α : Type} (g : State → α) (h1 : ∀ t a v, g (State.setByte t a v) = g t)
    (h2 : ∀ t k v, g (State.setStatusByte t k v) = g t) : g (State.storeBytes b off l s) = g s := by
  induction l generalizing off s with
  | nil => rfl
  | cons x xs ih =>
    simp only [State.storeBytes, ih]
    cases b <;> simp [h1, h2]

@[simp] theorem storeBytes_cfg : (State.storeBytes b off l s).cfg = s.cfg :=
  storeBytes_keeps b off l s State.cfg (fun _ _ _ => rfl) (fun _ _ _ => rfl)
@[simp] theorem storeBytes_dev : (State.storeBytes b off l s).dev = s.dev :=
  storeBytes_keeps b off l s State.dev (fun _ _ _ => rfl) (fun _ _ _ => rfl)
@[simp] theorem storeBytes_eps : (State.storeBytes b off l s).eps = s.eps :=
  storeBytes_keeps b off l s State.eps (fun _ _ _ => rfl) (fun _ _ _ => rfl)
@[simp] theorem storeBytes_reqs : (State.storeBytes b off l s).reqs = s.reqs :=
  storeBytes_keeps b off l s State.reqs (fun _ _ _ => rfl) (fun _ _ _ => rfl)
@[simp] theorem storeBytes_statusReq : (State.storeBytes b off l s).statusReq = s.statusReq :=
  storeBytes_keeps b off l s State.statusReq (fun _ _ _ => rfl) (fun _ _ _ => rfl)
@[simp] theorem storeBytes_sie : (State.storeBytes b off l s).sie = s.sie :=
  storeBytes_keeps b off l s State.sie (fun _ _ _ => rfl) (fun _ _ _ => rfl)
@[simp] theorem storeBytes_betweenMoves : (State.storeBytes b off l s).betweenMoves = s.betweenMoves :=
  storeBytes_keeps b off l s State.betweenMoves (fun _ _ _ => rfl) (fun _ _ _ => rfl)
@[simp] theorem storeBytes_driverScript : (State.storeBytes b off l s).driverScript = s.driverScript :=
  storeBytes_keeps b off l s State.driverScript (fun _ _ _ => rfl) (fun _ _ _ => rfl)

end store

theorem State.Undisturbed.storeBytes {s : State} (hs : s.Undisturbed) (b : Buffer) (off : Nat) (l : List Byte) :
    (State.storeBytes b off l s).Undisturbed :=
  hs.of_eq (by simp) (by simp) (by simp) (by simp) (by simp)

theorem bufWriteByte_run {s : State} {b : Buffer} {off : Nat} (v : Byte)
    (hm : ∀ a, b = .sysMem a → a.toNat + off < s.cfg.memSize) :
    bufWriteByte b off v s = .ok ((), State.storeBytes b off [v] s) := by
  cases b with
  | none => rfl
  | coreBytes => rfl
  | sysMem a =>
    show memWriteByte (a.toNat + off) v s = _
    unfold memWriteByte
    rw [if_pos (hm a rfl)]
    rfl

theorem packetWord_bytes (bytes : List Byte) (pos : Nat) :
    lowByte ((packetWord bytes pos).zeroExtend 32) = bytes.getD pos 0 ∧
    highByte ((packetWord bytes pos).zeroExtend 32) = bytes.getD (pos + 1) 0 := by
  constructor <;>
    (apply BitVec.eq_of_getLsbD_eq
     intro j hj
     simp only [packetWord, lowByte, highByte, BitVec.truncate_eq_setWidth,
       BitVec.getLsbD_extractLsb', BitVec.getLsbD_setWidth, BitVec.getLsbD_append]
     simp [hj]
     try omega)

/-- A word read from a FIFO that the SIE has emptied is 0x0000, and its bytes are stored as zeros (R169, R220). -/
theorem readWords_emptied {s : State} {i : Nat} (hx : (s.busTick.sie.ep i).rxQueue = []) {b : Buffer} {off n m k : Nat}
    (hmem : ∀ a, b = .sysMem a → n ≤ 2 * k ∨ a.toNat + off + n ≤ s.cfg.memSize) :
    readWords i b off n (m + 1) k s = readWords i b off n m (k + 1)
      (State.storeBytes b (off + 2 * k) (List.replicate (min 2 (n - 2 * k)) 0) s.busTick) := by
  have hread : regRead (.fifo i) s = .ok (0, s.busTick) := by
    rw [regRead_run]
    unfold State.readValue State.afterRead
    simp only [Sie.read, SieEndpoint.readFifo, hx]
    have : s.busTick.sie.setEp i (fun e => (match e.rxQueue with
      | [] => ((0 : Half), e)
      | p :: rest => (packetWord p.bytes e.rxPos,
        if p.bytes.length ≤ e.rxPos + 2 then { e with rxQueue := rest, rxPos := 0 } else { e with rxPos := e.rxPos + 2 })).2) = s.busTick.sie := by
      rw [sieSetEp_eq_self]; simp [hx]
    exact congrArg (fun x => Except.ok ((0 : Word), ({ s.busTick with sie := x } : State))) this
  rw [readWords, bind_run_ok hread]
  have hlo : lowByte (0 : Word) = 0 := by decide
  have hhi : highByte (0 : Word) = 0 := by decide
  rw [hlo, hhi]
  by_cases h0 : 2 * k < n
  · by_cases h1 : 2 * k + 1 < n
    · rw [bind_run_ok (a := ()) (by rw [onlyIf_run, if_pos (by simpa using h0), bufWriteByte_run 0 (by intro a ha; rw [busTick_cfg]; rcases hmem a ha with h | h <;> omega)])]
      rw [bind_run_ok (a := ()) (by rw [onlyIf_run, if_pos (by simpa using h1), bufWriteByte_run 0 (by intro a ha; rw [storeBytes_cfg, busTick_cfg]; rcases hmem a ha with h | h <;> omega)])]
      rw [show min 2 (n - 2 * k) = 2 by omega]
      rfl
    · rw [bind_run_ok (a := ()) (by rw [onlyIf_run, if_pos (by simpa using h0), bufWriteByte_run 0 (by intro a ha; rw [busTick_cfg]; rcases hmem a ha with h | h <;> omega)])]
      rw [bind_run_ok (a := ()) (by rw [onlyIf_run, if_neg (by simpa using h1)])]
      rw [show min 2 (n - 2 * k) = 1 by omega]
      rfl
  · rw [bind_run_ok (a := ()) (by rw [onlyIf_run, if_neg (by simpa using h0)])]
    rw [bind_run_ok (a := ()) (by rw [onlyIf_run, if_neg (by simp; omega)])]
    rw [show min 2 (n - 2 * k) = 0 by omega]
    rfl

/-- Reading the words of the packet that is left stores the bytes before offset n and takes the packet off. -/
theorem readWords_quiet (m : Nat) {s : State} (hq : s.betweenMoves = []) {i : Nat} (hi : i < s.sie.eps.length)
    {b : Buffer} {off n k pos : Nat} {p : RxPacket} {rest : List RxPacket}
    (hp : (s.sie.ep i).rxQueue = p :: rest) (hpos : (s.sie.ep i).rxPos = pos) (hin : pos < p.bytes.length)
    (hm : m = ceilHalf (p.bytes.length - pos)) (hn : n ≤ 2 * k + (p.bytes.length - pos))
    (hmem : ∀ a, b = .sysMem a → n ≤ 2 * k ∨ a.toNat + off + n ≤ s.cfg.memSize) :
    readWords i b off n m k s =
      .ok ((), (State.storeBytes b (off + 2 * k) ((p.bytes.drop pos).take (n - 2 * k)) s).setSieEp i
        (SieEndpoint.dropPackets 1)) := by
  induction m generalizing s k pos with
  | zero => simp only [ceilHalf] at hm; omega
  | succ m ih =>
    have hd0 : p.bytes.drop pos = p.bytes.getD pos 0 :: p.bytes.drop (pos + 1) := by
      rw [List.drop_eq_getElem_cons hin]
      simp [hin]
    have hd1 : pos + 1 < p.bytes.length →
        p.bytes.drop (pos + 1) = p.bytes.getD (pos + 1) 0 :: p.bytes.drop (pos + 2) := fun h => by
      rw [List.drop_eq_getElem_cons h]
      simp [h]
    rw [readWords]
    have hread : regRead (.fifo i) s = .ok ((packetWord p.bytes pos).zeroExtend 32,
        s.setSieEp i fun e => if p.bytes.length ≤ pos + 2 then { e with rxQueue := rest, rxPos := 0 }
          else { e with rxPos := pos + 2 }) := by
      rw [regRead_run, readValue_quiet hq, afterRead_quiet hq]
      simp only [Sie.read, SieEndpoint.readFifo, hp, hpos]
      congr 2
      refine setSieEp_congr ?_
      simp [hp, hpos]
    rw [bind_run_ok hread]
    obtain ⟨hlo, hhi⟩ := packetWord_bytes p.bytes pos
    rw [hlo, hhi]
    generalize hs1 : (s.setSieEp i fun e => if p.bytes.length ≤ pos + 2 then { e with rxQueue := rest, rxPos := 0 }
          else { e with rxPos := pos + 2 }) = s1
    have hc1 : s1.cfg = s.cfg := by rw [← hs1]; rfl
    have hw0 : onlyIf (2 * k < n) (bufWriteByte b (off + 2 * k) (p.bytes.getD pos 0)) s1 =
        .ok ((), if 2 * k < n then State.storeBytes b (off + 2 * k) [p.bytes.getD pos 0] s1 else s1) := by
      simp only [onlyIf_run, decide_eq_true_eq]
      split
      · rw [bufWriteByte_run]
        intro a ha
        rw [hc1]
        rcases hmem a ha with h | h <;> omega
      · rfl
    rw [bind_run_ok hw0]
    generalize hs2 : (if 2 * k < n then State.storeBytes b (off + 2 * k) [p.bytes.getD pos 0] s1 else s1) = s2
    have hc2 : s2.cfg = s.cfg := by rw [← hs2]; split <;> simp [hc1]
    have hw1 : onlyIf (2 * k + 1 < n) (bufWriteByte b (off + 2 * k + 1) (p.bytes.getD (pos + 1) 0)) s2 =
        .ok ((), if 2 * k + 1 < n then State.storeBytes b (off + 2 * k + 1) [p.bytes.getD (pos + 1) 0] s2 else s2) := by
      simp only [onlyIf_run, decide_eq_true_eq]
      split
      · rw [bufWriteByte_run]
        intro a ha
        rw [hc2]
        rcases hmem a ha with h | h <;> omega
      · rfl
    rw [bind_run_ok hw1]
    generalize hs3 : (if 2 * k + 1 < n then State.storeBytes b (off + 2 * k + 1) [p.bytes.getD (pos + 1) 0] s2 else s2) = s3
    have hstore : s3 = State.storeBytes b (off + 2 * k) ((p.bytes.drop pos).take (min 2 (n - 2 * k))) s1 := by
      rw [← hs3, ← hs2, hd0]
      by_cases h0 : 2 * k < n
      · by_cases h1 : 2 * k + 1 < n
        · rw [if_pos h1, if_pos h0, show min 2 (n - 2 * k) = 2 by omega, hd1 (by omega)]
          rfl
        · rw [if_neg h1, if_pos h0, show min 2 (n - 2 * k) = 1 by omega]
          rfl
      · rw [if_neg (by omega), if_neg h0, show min 2 (n - 2 * k) = 0 by omega]
        rfl
    have happ : ∀ (l1 l2 : List Byte) (o : Nat) (t : State),
        State.storeBytes b o (l1 ++ l2) t = State.storeBytes b (o + l1.length) l2 (State.storeBytes b o l1 t) := by
      intro l1
      induction l1 with
      | nil => intro l2 o t; rfl
      | cons x xs ihx =>
        intro l2 o t
        rw [List.cons_append, storeBytes_cons, ihx, storeBytes_cons (xs := xs)]
        simp [Nat.add_assoc, Nat.add_comm 1]
    by_cases hend : p.bytes.length ≤ pos + 2
    · have hm0 : m = 0 := by simp only [ceilHalf] at hm; omega
      subst hm0
      have htake : (p.bytes.drop pos).take (min 2 (n - 2 * k)) = (p.bytes.drop pos).take (n - 2 * k) := by
        congr 1
        omega
      simp only [readWords, pure_run]
      rw [hstore, htake, ← hs1, storeBytes_setSieEp]
      congr 2
      refine setSieEp_congr ?_
      simp only [hend, if_true, storeBytes_sie, SieEndpoint.dropPackets, hp]
      simp
    · have hq3 : s3.betweenMoves = [] := by rw [hstore, ← hs1]; simpa using hq
      have hsie3 : s3.sie = s.sie.setEp i fun e => { e with rxPos := pos + 2 } := by
        rw [hstore, ← hs1]
        simp [hend]
      have h3 := ih (s := s3) hq3 (k := k + 1) (pos := pos + 2) (by rw [hsie3]; simpa using hi)
        (by rw [hsie3, sieEp_setEp_self _ _ _ hi]; exact hp) (by rw [hsie3, sieEp_setEp_self _ _ _ hi]) (by omega)
        (by simp only [ceilHalf] at hm ⊢; omega) (by omega)
        (by
          intro a ha
          rw [hstore, storeBytes_cfg, hc1]
          rcases hmem a ha with h | h <;> omega)
      rw [h3, hstore, ← hs1]
      have hcat : (p.bytes.drop pos).take (n - 2 * k) =
          (p.bytes.drop pos).take (min 2 (n - 2 * k)) ++ (p.bytes.drop (pos + 2)).take (n - 2 * (k + 1)) := by
        rw [hd0, hd1 (by omega)]
        rcases Nat.lt_trichotomy (n - 2 * k) 1 with h | h | h
        · rw [show n - 2 * k = 0 by omega, show n - 2 * (k + 1) = 0 by omega]; rfl
        · rw [h, show n - 2 * (k + 1) = 0 by omega]; rfl
        · obtain ⟨d, hd⟩ : ∃ d, n - 2 * k = d + 2 := ⟨n - 2 * k - 2, by omega⟩
          rw [hd, show min 2 (d + 2) = 2 by omega, show n - 2 * (k + 1) = d by omega]; rfl
      rw [hcat, happ]
      by_cases hnk : n ≤ 2 * k + 2
      · rw [show n - 2 * (k + 1) = 0 by omega]
        simp only [List.take_zero, State.storeBytes, storeBytes_setSieEp, setSieEp_setSieEp]
        congr 2
        refine setSieEp_congr ?_
        simp only [Function.comp, hend, if_false, storeBytes_sie, SieEndpoint.dropPackets, hp]
        simp
      · have hl : ((p.bytes.drop pos).take (min 2 (n - 2 * k))).length = 2 := by
          simp
          omega
        rw [hl, show off + 2 * k + 2 = off + 2 * (k + 1) by omega]
        simp only [storeBytes_setSieEp, setSieEp_setSieEp]
        congr 2
        refine setSieEp_congr ?_
        simp only [Function.comp, hend, if_false, storeBytes_sie, SieEndpoint.dropPackets, hp]
        simp

/-- What the SIE keeps of the FIFOs, at one endpoint. -/
theorem State.Inv.fifo {s : State} (hs : s.Inv) (i : Nat) : (s.sie.ep i).FifoOk s.cfg.fifoPkts := by
  by_cases hi : i < s.sie.eps.length
  · have : s.sie.ep i ∈ s.sie.eps := by simp [Sie.ep, List.getD_eq_getElem?_getD, hi]
    exact hs.fifos _ this
  · have : s.sie.ep i = SieEndpoint.absent := by simp [Sie.ep, List.getD_eq_getElem?_getD, hi]
    rw [this]
    constructor <;> simp [SieEndpoint.absent, SieEndpoint.launch]

/-- The word count and the byte count the core takes from it, of the head staged packet (R102, R103). -/
theorem receivedBytes_eq {f : Nat} {e : SieEndpoint} (he : e.FifoOk f) (fp i : Nat) :
    e.readWordCount.1 < 2 ^ 11 ∧
    receivedBytes e.readWordCount.1 (e.readWordCount.2.esrWord fp i) = e.pendingBytes.length := by
  unfold SieEndpoint.readWordCount SieEndpoint.pendingBytes
  cases hq : e.rxQueue with
  | nil => simp [receivedBytes]
  | cons p rest =>
    have hsz := he.rxSizes p (by simp [hq])
    have hin := he.rxInside
    have hev := he.rxEven
    simp only [SieEndpoint.headLength, hq] at hin
    by_cases hl : p.bytes.length = 0
    · simp [hl, receivedBytes]
    · simp only [hl, if_false]
      have hr : e.rxReady = true := by simp [SieEndpoint.rxReady, hq]
      simp only [SieEndpoint.rxWordCount, hr, if_true, SieEndpoint.headLength, hq, ceilHalf]
      refine ⟨by omega, ?_⟩
      simp only [receivedBytes, esrLwo_esrWord, SieEndpoint.lwo, hr, SieEndpoint.headLength, hq, Bool.true_and, beq_iff_eq,
        List.length_drop]
      split
      · omega
      · split <;> omega

theorem readWordCount_quiet {s : State} (hq : s.betweenMoves = []) (i : Nat)
    (hw : (s.sie.ep i).readWordCount.1 < 2 ^ 11) :
    readWordCount i s = .ok ((s.sie.ep i).readWordCount.1, s.setSieEp i fun e => e.readWordCount.2) := by
  unfold readWordCount
  rw [bind_run_ok (regRead_run _ _), readValue_quiet hq, afterRead_quiet hq]
  simp only [pure_run, Sie.read]
  rw [low11_ofNat_toNat (Nat.mod_lt _ (by decide)), Nat.mod_eq_of_lt hw]
  rfl

/-- READ_FIFO's reads of the packet: what fits is stored, and the packet leaves the FIFO. -/
theorem readWords_packet {s : State} {i : Nat} (hi : i < s.sie.eps.length) {f : Nat}
    (he : (s.sie.ep i).FifoOk f) {b : Buffer} {off n : Nat} (hn : n ≤ (s.sie.ep i).pendingBytes.length)
    (hmem : ∀ a, b = .sysMem a → n = 0 ∨ a.toNat + off + n ≤ s.cfg.memSize) {t : State}
    (hsie : t.sie = s.sie.setEp i fun e => e.readWordCount.2) (hb : t.betweenMoves = []) (hc : t.cfg = s.cfg) :
    readWords i b off n (s.sie.ep i).readWordCount.1 0 t =
      .ok ((), (State.storeBytes b off ((s.sie.ep i).pendingBytes.take n) { t with sie := s.sie }).setSieEp i
        (SieEndpoint.dropPackets 1)) := by
  have hback : ∀ x : Sie, t.sie = x → { t with sie := x } = t := by
    intro x hx
    rw [← hx]
  cases hrx : (s.sie.ep i).rxQueue with
  | nil =>
    have hw : (s.sie.ep i).readWordCount = (0, s.sie.ep i) := by simp [SieEndpoint.readWordCount, hrx]
    have hpb : (s.sie.ep i).pendingBytes = [] := by simp [SieEndpoint.pendingBytes, hrx]
    have hpos : (s.sie.ep i).rxPos = 0 := by
      have := he.rxInside
      simp [SieEndpoint.headLength, hrx] at this
      omega
    rw [hw, hpb]
    have hsame : s.sie.setEp i (fun e => e.readWordCount.2) = s.sie := sieSetEp_eq_self (by rw [hw])
    have hdrop : s.sie.setEp i (SieEndpoint.dropPackets 1) = s.sie := sieSetEp_eq_self (by
      simp only [SieEndpoint.dropPackets, hrx]
      cases hse : s.sie.ep i
      simp_all)
    simp only [readWords, pure_run, List.take_nil, State.storeBytes, State.setSieEp]
    rw [hdrop, hback _ (hsie.trans hsame)]
  | cons p rest =>
    by_cases hl : p.bytes.length = 0
    · have hw : (s.sie.ep i).readWordCount = (0, { s.sie.ep i with rxQueue := rest, rxPos := 0 }) := by
        simp [SieEndpoint.readWordCount, hrx, hl]
      have hpb : (s.sie.ep i).pendingBytes = [] := by simp [SieEndpoint.pendingBytes, hrx, List.length_eq_zero_iff.mp hl]
      rw [hpb, hw]
      have hdrop : s.sie.setEp i (fun e => e.readWordCount.2) = s.sie.setEp i (SieEndpoint.dropPackets 1) :=
        sieSetEp_congr (by rw [hw]; simp [SieEndpoint.dropPackets, hrx])
      simp only [readWords, pure_run, List.take_nil, State.storeBytes, State.setSieEp]
      rw [hback _ (hsie.trans hdrop)]
    · have hr : (s.sie.ep i).rxReady = true := by simp [SieEndpoint.rxReady, hrx]
      have hin := he.rxInside
      have hev := he.rxEven
      simp only [SieEndpoint.headLength, hrx] at hin
      have hw : (s.sie.ep i).readWordCount = (ceilHalf (p.bytes.length - (s.sie.ep i).rxPos), s.sie.ep i) := by
        simp only [SieEndpoint.readWordCount, hrx, hl, if_false, SieEndpoint.rxWordCount, hr, if_true,
          SieEndpoint.headLength, ceilHalf]
        congr 1
        omega
      have hsame : s.sie.setEp i (fun e => e.readWordCount.2) = s.sie := sieSetEp_eq_self (by rw [hw])
      have hpb : (s.sie.ep i).pendingBytes = p.bytes.drop (s.sie.ep i).rxPos := by simp [SieEndpoint.pendingBytes, hrx]
      rw [hsame] at hsie
      rw [hpb] at hn
      rw [hw, hpb, hback _ hsie]
      have h := readWords_quiet (ceilHalf (p.bytes.length - (s.sie.ep i).rxPos)) (s := t) hb (i := i)
        (by rw [hsie]; exact hi) (b := b) (off := off) (n := n) (k := 0) (pos := (s.sie.ep i).rxPos) (p := p) (rest := rest)
        (by rw [hsie]; exact hrx) (by rw [hsie]) (by omega) rfl (by simpa using hn)
        (by
          intro a ha
          rw [hc]
          rcases hmem a ha with h | h
          · exact .inl (by omega)
          · exact .inr h)
      simpa using h

theorem storeBytes_setReq (l : List Byte) (b : Buffer) (off : Nat) (h : Handle) (w : State) (g : Request → Request) :
    State.storeBytes b off l (w.setReq h g) = (State.storeBytes b off l w).setReq h g := by
  induction l generalizing off w with
  | nil => rfl
  | cons x xs ih =>
    cases b with
    | none => exact ih (off + 1) w
    | sysMem a =>
      have : (w.setReq h g).setByte (a.toNat + off) x = (w.setByte (a.toNat + off) x).setReq h g := by cases h <;> rfl
      show State.storeBytes _ (off + 1) xs ((w.setReq h g).setByte (a.toNat + off) x) = _
      rw [this, ih]
      rfl
    | coreBytes =>
      have : (w.setReq h g).setStatusByte off x = (w.setStatusByte off x).setReq h g := by cases h <;> rfl
      show State.storeBytes _ (off + 1) xs ((w.setReq h g).setStatusByte off x) = _
      rw [this, ih]
      rfl

theorem setReq_setReq (w : State) (h : Handle) (g1 g2 : Request → Request) :
    (w.setReq h g1).setReq h g2 = w.setReq h (g2 ∘ g1) := by
  cases h with
  | statusReq => rfl
  | user a =>
    have : ∀ l : List (Word × Request), updateRequest a g2 (updateRequest a g1 l) = updateRequest a (g2 ∘ g1) l := by
      intro l
      induction l with
      | nil => rfl
      | cons q l ih =>
        obtain ⟨b, r⟩ := q
        by_cases hb : b = a <;> simp [updateRequest, hb, ih]
    simp only [State.setReq, this]

theorem setSieEp_setReq (w : State) (h : Handle) (g : Request → Request) (i : Nat) (k : SieEndpoint → SieEndpoint) :
    (w.setReq h g).setSieEp i k = (w.setSieEp i k).setReq h g := by cases h <;> rfl

theorem withSie_setReq (w : State) (h : Handle) (g : Request → Request) (x : Sie) :
    { w.setReq h g with sie := x } = ({ w with sie := x } : State).setReq h g := by cases h <;> rfl

theorem setReq_id (w : State) (h : Handle) {g : Request → Request} (hg : ∀ r, g r = r) : w.setReq h g = w := by
  cases h with
  | statusReq => simp [State.setReq, hg]
  | user a =>
    have : ∀ l : List (Word × Request), updateRequest a g l = l := by
      intro l
      induction l with
      | nil => rfl
      | cons q l ih => simp [updateRequest, hg, ih]
    simp [State.setReq, this]

/-- READ_FIFO receives one packet (R102). -/
theorem readFifo_idle {s : State} (hs : s.Undisturbed) (n : Nat) {i : Nat} (hi : i < s.sie.eps.length) {f : Nat}
    (he : (s.sie.ep i).FifoOk f) (h : Handle) :
    ∃ last, readFifo (upcalls n) i h s = .ok (last, s.receivedPacket i h) := by
  obtain ⟨hlt, hrb⟩ := receivedBytes_eq he s.cfg.fifoPkts i
  unfold readFifo
  rw [bind_run_ok (readWordCount_quiet hs.quiet i hlt)]
  generalize hu : (s.setSieEp i fun e => e.readWordCount.2) = u
  have hub : u.betweenMoves = [] := by rw [← hu]; exact hs.quiet
  have huc : u.cfg = s.cfg := by rw [← hu]; rfl
  have hus : u.sie = s.sie.setEp i fun e => e.readWordCount.2 := by rw [← hu]; rfl
  have hur : u.req h = s.req h := by rw [← hu, setSieEp_req]
  have hback : { u with sie := s.sie } = s := by rw [← hu]; rfl
  have hesr : regRead (.esr i) u = .ok ((s.sie.ep i).readWordCount.2.esrWord s.cfg.fifoPkts i, u) := by
    rw [regRead_quiet hub (r := .esr i) rfl]
    simp [Sie.read, hus, sieEp_setEp_self _ _ _ hi, huc]
  rw [bind_run_ok hesr]
  simp only [look_bind_run, hur]
  rw [hrb]
  generalize hm : min (s.sie.ep i).pendingBytes.length ((s.req h).length - (s.req h).actual) = m
  unfold recordOverflow advance
  simp only [change_bind_run, decide_eq_true_eq]
  have hrw := readWords_packet hi he (b := (s.req h).buf) (off := (s.req h).actual) (n := m)
    (by omega) (hs.inMemory h (by omega)) (t := u.setReq h fun r =>
      { r with status := if (s.req h).length - (s.req h).actual < (s.sie.ep i).pendingBytes.length
          then .overflowError else r.status })
    (by rw [setReq_sie, hus]) (by rw [setReq_betweenMoves, hub]) (by rw [setReq_cfg, huc])
  rw [withSie_setReq, hback, storeBytes_setReq, setSieEp_setReq] at hrw
  rw [bind_run_ok hrw]
  generalize hv : (State.setReq (State.setSieEp (State.storeBytes (s.req h).buf (s.req h).actual
    ((s.sie.ep i).pendingBytes.take m) s) i (SieEndpoint.dropPackets 1)) h fun r : Request =>
      { r with status := if (s.req h).length - (s.req h).actual < (s.sie.ep i).pendingBytes.length
          then .overflowError else r.status }) = v
  simp only [change_bind_run, look_bind_run]
  rw [← hv, setReq_setReq]
  unfold State.receivedPacket
  simp only [hm]
  generalize ht : ((State.storeBytes (s.req h).buf (s.req h).actual
    ((s.sie.ep i).pendingBytes.take m) s).setSieEp i (SieEndpoint.dropPackets 1)).setReq h (fun q =>
      { q with status := if (s.req h).length - (s.req h).actual < (s.sie.ep i).pendingBytes.length
          then .overflowError else q.status, actual := q.actual + m }) = t
  have ht' : ((State.storeBytes (s.req h).buf (s.req h).actual
    ((s.sie.ep i).pendingBytes.take m) s).setSieEp i (SieEndpoint.dropPackets 1)).setReq h
      ((fun r : Request => { r with actual := r.actual + m }) ∘ fun r : Request =>
        { r with status := if (s.req h).length - (s.req h).actual < (s.sie.ep i).pendingBytes.length
            then .overflowError else r.status }) = t := ht
  rw [ht']
  have htU : t.Undisturbed := by
    rw [← ht]
    exact ((hs.storeBytes _ _ _).setSieEp _ _).setReq h (fun _ => rfl) (fun _ => rfl)
  have hte : t.ep i = s.ep i := by
    rw [← ht, ep_setReq, setSieEp_ep]
    simp [State.ep]
  have hlast : t.lastOut i h (s.sie.ep i).pendingBytes.length ((s.sie.ep i).readWordCount.2.esrWord s.cfg.fifoPkts i) =
      decide ((s.sie.ep i).pendingBytes.length < (s.ep i).mps.toNat ∨ (t.req h).actual = (t.req h).length ∨
        (i = 0 ∧ (s.sie.ep i).eotSeen = true)) := by
    simp only [State.lastOut, hte, esrCtlEot_esrWord, SieEndpoint.eotSeen]
    by_cases h0 : i = 0 <;> simp [h0, Bool.or_assoc]
  rw [hlast]
  simp only [decide_eq_true_eq]
  split
  · rw [bind_run_ok (complete_idle htU n i h .ok)]
    exact ⟨true, rfl⟩
  · exact ⟨false, rfl⟩

end Sys2Proof.Machine
end

