-- ==== Sys2Proof/Laws/Invariant.lean ====
section
/-! SUPPORT. Every single effect of the core, and every move of the SIE and host, keeps `State.Inv`. -/

namespace Sys2Proof.Machine

/-! ### Requests and queues -/

/-- `State.RequestsOk` reads only the records and the queues. -/
theorem State.RequestsOk.same {s t : State} (h : s.RequestsOk) (reqs : t.reqs = s.reqs)
    (statusReq : t.statusReq = s.statusReq) (queue : ∀ i, (t.ep i).queue = (s.ep i).queue) : t.RequestsOk := by
  refine ⟨reqs ▸ h.counts, statusReq ▸ h.reply, fun i x hx => ?_, fun i => ?_⟩
  · rw [req_eq_of_eq reqs statusReq]
    exact h.owned i x (queue i ▸ hx)
  · rw [queue i]
    exact h.distinct i

/-- A request that is in no queue stands in none. -/
theorem State.RequestsOk.notQueued {s : State} (h : s.RequestsOk) {x : Handle} (hx : (s.req x).queuedOn = none) (i : Nat) :
    x ∉ (s.ep i).queue := fun hm => by
  have := h.owned i x hm
  rw [hx] at this
  cases this

/-- A queued request has a record, and its counts are in their widths. -/
theorem State.RequestsOk.known {s : State} (h : s.RequestsOk) {i : Nat} {x : Handle} (hx : x ∈ (s.ep i).queue) :
    s.known x = true := known_of_ne Request.queuedOn (by rw [h.owned i x hx]; exact Option.some_ne_none i)

theorem State.RequestsOk.inWidth {s : State} (h : s.RequestsOk) {i : Nat} {x : Handle} (hx : x ∈ (s.ep i).queue) :
    (s.req x).inWidth = true := by
  have hq := h.owned i x hx
  unfold Request.inWidth
  rw [decide_eq_true_eq]
  cases x with
  | statusReq =>
    have h1 := h.reply.order
    have h2 := h.reply.length
    show s.statusReq.actual ≤ s.statusReq.length ∧ s.statusReq.length < 2 ^ 32
    omega
  | user k =>
    cases hf : findRequest k s.reqs with
    | none => simp [State.req, hf, Request.absent] at hq
    | some r =>
      have hc := h.counts _ (findRequest_mem hf)
      simp only [State.req, hf, Option.getD_some] at hq ⊢
      exact ⟨hc.order, hc.length⟩

/-- A change of one request record that leaves a queued one where it is. -/
theorem State.RequestsOk.setReq {s : State} (h : s.RequestsOk) (x : Handle) (f : Request → Request)
    (hu : ∀ k, x = .user k → ∀ r, findRequest k s.reqs = some r → r.CountsOk → (f r).CountsOk)
    (hr : x = .statusReq → (f s.statusReq).ReplyOk)
    (ho : ∀ i, x ∈ (s.ep i).queue → (f (s.req x)).queuedOn = (s.req x).queuedOn) : (s.setReq x f).RequestsOk := by
  constructor
  · cases x with
    | statusReq => exact h.counts
    | user k =>
      intro p hp
      rcases mem_updateRequest hp with hm | ⟨r, hf, hm, rfl⟩
      · exact h.counts p hm
      · exact hu k rfl r hf (h.counts _ hm)
  · cases x with
    | user k => exact h.reply
    | statusReq => exact hr rfl
  · intro i y hy
    rw [ep_setReq] at hy
    have hq := h.owned i y hy
    rcases req_setReq_cases s x y f with h1 | ⟨rfl, _, h1⟩
    · rw [h1, hq]
    · rw [h1, ho i hy, hq]
  · intro i
    rw [ep_setReq]
    exact h.distinct i

/-- A change of one endpoint's queue to a part of it. -/
theorem State.RequestsOk.setQueue {s : State} (h : s.RequestsOk) (i : Nat) (f : Endpoint → Endpoint)
    (hf : ∀ e, (f e).queue.Sublist e.queue) : (s.setEp i f).RequestsOk := by
  have hs : ∀ j, ((s.setEp i f).ep j).queue.Sublist (s.ep j).queue := fun j => by
    rcases ep_setEp_cases s i j f with h1 | ⟨_, _, h1⟩
    · rw [h1]
    · rw [h1]
      exact hf _
  refine ⟨h.counts, h.reply, fun j x hx => ?_, fun j => (h.distinct j).sublist (hs j)⟩
  rw [req_setEp]
  exact h.owned j x ((hs j).subset hx)

/-- Request x is taken off endpoint i's queue and its record changed to one that is in no queue. -/
theorem State.RequestsOk.ended {s : State} (h : s.RequestsOk) {i : Nat} {x : Handle} (hm : s.mayComplete i x)
    (g : Request → Request) (hu : ∀ k, x = .user k → ∀ r, findRequest k s.reqs = some r → r.CountsOk → (g r).CountsOk)
    (hr : x = .statusReq → (g s.statusReq).ReplyOk) :
    ((s.setEp i fun e => { e with queue := e.queue.erase x }).setReq x g).RequestsOk := by
  refine (h.setQueue i (fun e => { e with queue := e.queue.erase x }) fun _ => List.erase_sublist).setReq x g hu hr
    fun j hj => ?_
  exfalso
  rcases ep_setEp_cases s i j fun e => { e with queue := e.queue.erase x } with h1 | ⟨rfl, _, h1⟩
  · rw [h1] at hj
    have hq := h.owned j x hj
    by_cases hij : i = j
    · subst hij
      by_cases hl : i < s.eps.length
      · rw [ep_setEp_self s i _ hl] at h1
        have h2 : (s.ep i).queue.erase x = (s.ep i).queue := congrArg Endpoint.queue h1
        rw [← h2] at hj
        exact (h.distinct i).not_mem_erase hj
      · simp [State.ep, Nat.le_of_not_lt hl, Endpoint.absent] at hj
    · rcases hm with hm | hm | hm
      · have := h.owned i x hm
        rw [hq] at this
        exact hij (Option.some.inj this).symm
      · rw [hq] at hm
        exact hij (Option.some.inj hm).symm
      · rw [hq] at hm
        cases hm
  · rw [h1] at hj
    exact (h.distinct i).not_mem_erase hj

/-- A request that is in no queue is appended to one. -/
theorem State.RequestsOk.append {s : State} (h : s.RequestsOk) (i : Nat) {x : Handle} (hk : s.known x = true)
    (hq : (s.req x).queuedOn = none) :
    ((s.setEp i fun e => { e with queue := e.queue ++ [x] }).setReq x fun r => { r with queuedOn := some i }).RequestsOk := by
  have hep : ∀ j y, y ∈ ((s.setEp i fun e => { e with queue := e.queue ++ [x] }).ep j).queue →
      y ∈ (s.ep j).queue ∨ (y = x ∧ j = i) := by
    intro j y hy
    rcases ep_setEp_cases s i j fun e => { e with queue := e.queue ++ [x] } with h1 | ⟨rfl, _, h1⟩
    · rw [h1] at hy
      exact .inl hy
    · rw [h1] at hy
      rcases List.mem_append.mp hy with hy | hy
      · exact .inl hy
      · exact .inr ⟨List.mem_singleton.mp hy, rfl⟩
  constructor
  · cases x with
    | statusReq => exact h.counts
    | user k =>
      intro p hp
      rcases mem_updateRequest hp with hm | ⟨r, hf, hm, rfl⟩
      · exact h.counts p hm
      · have hc := h.counts _ hm
        exact ⟨hc.order, hc.length⟩
  · cases x with
    | user k => exact h.reply
    | statusReq => exact ⟨h.reply.buf, h.reply.callback, h.reply.zero, h.reply.length, h.reply.order⟩
  · intro j y hy
    rw [ep_setReq] at hy
    by_cases hyx : y = x
    · subst hyx
      rcases hep j y hy with hy | ⟨_, rfl⟩
      · exact absurd hy (h.notQueued hq j)
      · rw [req_setReq_self _ _ _ (by rw [known_setEp]; exact hk)]
    · rcases hep j y hy with hy | ⟨hy, _⟩
      · rw [req_setReq_ne _ _ hyx, req_setEp]
        exact h.owned j y hy
      · exact absurd hy hyx
  · intro j
    rw [ep_setReq]
    rcases ep_setEp_cases s i j fun e => { e with queue := e.queue ++ [x] } with h1 | ⟨rfl, _, h1⟩
    · rw [h1]
      exact h.distinct j
    · rw [h1]
      refine List.Nodup.append (h.distinct i) (List.nodup_singleton x) ?_
      intro y hy hyx
      rw [List.mem_singleton.mp hyx] at hy
      exact h.notQueued hq i hy

/-! ### Which fields the invariant reads -/

/-- `State.Inv` reads only these fields. -/
theorem State.Inv.same {s t : State} (h : s.Inv) (cfg : t.cfg = s.cfg) (eps : t.eps = s.eps)
    (sieEps : t.sie.eps = s.sie.eps) (eier : t.sie.eier = s.sie.eier) (mem : t.mem = s.mem)
    (state : t.dev.state = s.dev.state) (config : t.dev.config = s.dev.config) (reqs : t.reqs = s.reqs)
    (statusReq : t.statusReq = s.statusReq) : t.Inv := by
  have hep : ∀ i, t.ep i = s.ep i := fun i => by rw [State.ep, State.ep, eps]
  have hsie : ∀ i, t.sie.ep i = s.sie.ep i := fun i => by rw [Sie.ep, Sie.ep, sieEps]
  have hn : t.numEps = s.numEps := by rw [State.numEps, State.numEps, cfg]
  constructor
  · rw [cfg]
    exact h.configuration
  · rw [eps, hn]
    exact h.endpoints
  · rw [sieEps, hn]
    exact h.sieEndpoints
  · rw [mem]
    exact h.memory
  · rw [hep]
    exact h.control
  · simpa only [hep, hn] using h.disabledHalted
  · simpa only [hep, hn, eier] using h.interrupts
  · simpa only [hep, hn, hsie] using h.stalled
  · simpa only [hep, hn, hsie] using h.sizes
  · simpa only [hep, cfg] using h.controlSize
  · simpa only [hep, hn, cfg] using h.dataSizes
  · simpa only [hep, hn, hsie, cfg] using h.directions
  · simpa only [state, config] using h.configured
  · exact h.requests.same reqs statusReq fun i => by rw [hep]
  · simpa only [sieEps, cfg] using h.fifos

/-- What a register access or a move keeps of the SIE's record of an endpoint. -/
structure SieEndpoint.Kept (f : Nat) (e e' : SieEndpoint) : Prop where
  stall : e'.stall = e.stall
  dirIn : e'.dirIn = e.dirIn
  mps : e'.mps = e.mps
  fifo : e.FifoOk f → e'.FifoOk f

theorem SieEndpoint.Kept.refl (f : Nat) (e : SieEndpoint) : e.Kept f e := ⟨rfl, rfl, rfl, id⟩

theorem SieEndpoint.Kept.trans {f : Nat} {e1 e2 e3 : SieEndpoint} (h1 : e1.Kept f e2) (h2 : e2.Kept f e3) : e1.Kept f e3 :=
  ⟨h2.stall.trans h1.stall, h2.dirIn.trans h1.dirIn, h2.mps.trans h1.mps, fun h => h2.fifo (h1.fifo h)⟩

/-- The SIE's records are kept, one by one, and so is `EIER`. -/
structure Sie.Kept (f : Nat) (x y : Sie) : Prop where
  length : y.eps.length = x.eps.length
  eier : y.eier = x.eier
  eps : ∀ i, (x.ep i).Kept f (y.ep i)

theorem Sie.Kept.refl (f : Nat) (x : Sie) : x.Kept f x := ⟨rfl, rfl, fun _ => .refl f _⟩

theorem Sie.Kept.trans {f : Nat} {x y z : Sie} (h1 : x.Kept f y) (h2 : y.Kept f z) : x.Kept f z :=
  ⟨h2.length.trans h1.length, h2.eier.trans h1.eier, fun i => (h1.eps i).trans (h2.eps i)⟩

theorem Sie.Kept.setEp {f : Nat} (x : Sie) (i : Nat) (g : SieEndpoint → SieEndpoint)
    (h : i < x.eps.length → (x.ep i).Kept f (g (x.ep i))) : x.Kept f (x.setEp i g) := by
  refine ⟨by simp, rfl, fun j => ?_⟩
  by_cases hj : i = j
  · subst hj
    by_cases hl : i < x.eps.length
    · rw [sieEp_setEp_self _ _ _ hl]
      exact h hl
    · have : x.setEp i g = x := by
        unfold Sie.setEp
        rw [List.modify_eq_self (by omega)]
      rw [this]
      exact .refl f _
  · rw [sieEp_setEp_ne _ _ hj]
    exact .refl f _

theorem Sie.Kept.of_eps {f : Nat} {x y : Sie} (h : y.eps = x.eps) (he : y.eier = x.eier) : x.Kept f y :=
  ⟨by rw [h], he, fun i => by
    rw [Sie.ep, Sie.ep, h]
    exact .refl f _⟩

/-- A change of the SIE that keeps its records keeps the invariant. -/
theorem State.Inv.sie {s t : State} (h : s.Inv) (k : s.sie.Kept s.cfg.fifoPkts t.sie) (cfg : t.cfg = s.cfg)
    (eps : t.eps = s.eps) (mem : t.mem = s.mem) (dev : t.dev = s.dev) (reqs : t.reqs = s.reqs)
    (statusReq : t.statusReq = s.statusReq) : t.Inv := by
  have hep : ∀ i, t.ep i = s.ep i := fun i => by rw [State.ep, State.ep, eps]
  have hn : t.numEps = s.numEps := by rw [State.numEps, State.numEps, cfg]
  constructor
  · rw [cfg]
    exact h.configuration
  · rw [eps, hn]
    exact h.endpoints
  · rw [k.length, hn]
    exact h.sieEndpoints
  · rw [mem]
    exact h.memory
  · rw [hep]
    exact h.control
  · simpa only [hep, hn] using h.disabledHalted
  · simpa only [hep, hn, k.eier] using h.interrupts
  · simpa only [hep, hn, (k.eps _).stall] using h.stalled
  · simpa only [hep, hn, (k.eps _).mps] using h.sizes
  · simpa only [hep, cfg] using h.controlSize
  · simpa only [hep, hn, cfg] using h.dataSizes
  · simpa only [hep, hn, (k.eps _).dirIn, cfg] using h.directions
  · simpa only [dev] using h.configured
  · exact h.requests.same reqs statusReq fun i => by rw [hep]
  · intro e he
    obtain ⟨i, hi, rfl⟩ := List.getElem_of_mem he
    have h2 := (k.eps i).fifo (h.fifo i)
    rw [cfg]
    simpa [Sie.ep, hi] using h2

/-- A change of a request record keeps the rest of the invariant. -/
theorem State.Inv.setReq {s : State} (h : s.Inv) (x : Handle) (f : Request → Request) (hr : (s.setReq x f).RequestsOk) :
    (s.setReq x f).Inv := by
  cases x <;> exact ⟨h.configuration, h.endpoints, h.sieEndpoints, h.memory, h.control, h.disabledHalted, h.interrupts,
    h.stalled, h.sizes, h.controlSize, h.dataSizes, h.directions, h.configured, hr, h.fifos⟩

/-! ### Register accesses and moves -/

theorem FifoOk.of_same {f : Nat} {e e' : SieEndpoint} (h : e.FifoOk f) (h1 : e'.rxQueue = e.rxQueue) (h2 : e'.rxPos = e.rxPos)
    (h3 : e'.txQueue = e.txQueue) (h4 : e'.txCur = e.txCur) : e'.FifoOk f := by
  refine ⟨h1 ▸ h.rxSizes, h1 ▸ h.rxCount, h2 ▸ h.rxEven, ?_, h3 ▸ h.txSizes, h3 ▸ h.txCount, h4 ▸ h.txLacks⟩
  rw [h2, SieEndpoint.headLength, h1]
  exact h.rxInside

theorem FifoOk.emptyTx {f : Nat} {e : SieEndpoint} (h : e.FifoOk f) :
    ({ e with txQueue := [], txCur := none } : SieEndpoint).FifoOk f :=
  ⟨h.rxSizes, h.rxCount, h.rxEven, h.rxInside, (fun _ h => by cases h), Nat.zero_le _, (fun _ h => by cases h)⟩

theorem FifoOk.commit {f : Nat} {e : SieEndpoint} (h : e.FifoOk f) {b : List Byte} (hb : b.length ≤ 2047) :
    (e.commit f b).FifoOk f := by
  refine ⟨h.rxSizes, h.rxCount, h.rxEven, h.rxInside, ?_, ?_, (fun _ h => by cases h)⟩
  · intro p hp
    simp only [SieEndpoint.commit] at hp
    split at hp
    · rcases List.mem_append.mp hp with hp | hp
      · exact h.txSizes p hp
      · rw [List.mem_singleton.mp hp]
        exact hb
    · exact h.txSizes p hp
  · simp only [SieEndpoint.commit]
    split
    · rw [List.length_append]
      exact ‹_›
    · exact h.txCount

theorem Kept.commit (f : Nat) (e : SieEndpoint) {b : List Byte} (hb : b.length ≤ 2047) : e.Kept f (e.commit f b) :=
  ⟨rfl, rfl, rfl, fun h => FifoOk.commit h hb⟩

theorem FifoOk.popped {f : Nat} {e : SieEndpoint} (h : e.FifoOk f) {p : RxPacket} {rest : List RxPacket}
    (hq : e.rxQueue = p :: rest) : ({ e with rxQueue := rest, rxPos := 0 } : SieEndpoint).FifoOk f := by
  refine ⟨fun q hm => h.rxSizes q (by rw [hq]; simp [hm]), ?_, rfl, .inl rfl, h.txSizes, h.txCount, h.txLacks⟩
  have := h.rxCount
  rw [hq] at this
  simp at this ⊢
  omega

theorem Kept.readFifo (f : Nat) (e : SieEndpoint) : e.Kept f e.readFifo.2 := by
  unfold SieEndpoint.readFifo
  cases hq : e.rxQueue with
  | nil => exact .refl f e
  | cons p rest =>
    dsimp only
    split
    · exact ⟨rfl, rfl, rfl, fun h => FifoOk.popped h hq⟩
    · refine ⟨rfl, rfl, rfl, fun h => ?_⟩
      have hs := h.rxSizes
      have hc := h.rxCount
      have he := h.rxEven
      rw [hq] at hs hc
      refine ⟨hs, hc, ?_, .inr ?_, h.txSizes, h.txCount, h.txLacks⟩
      · show (e.rxPos + 2) % 2 = 0
        omega
      · show e.rxPos + 2 < p.bytes.length
        omega

theorem Kept.readWordCount (f : Nat) (e : SieEndpoint) : e.Kept f e.readWordCount.2 := by
  unfold SieEndpoint.readWordCount
  cases hq : e.rxQueue with
  | nil => exact .refl f e
  | cons p rest =>
    dsimp only
    split
    · exact ⟨rfl, rfl, rfl, fun h => FifoOk.popped h hq⟩
    · exact .refl f e

/-- A read of any register. -/
theorem Sie.Kept.read {f : Nat} (c : Config) (x : Sie) (r : Reg) : x.Kept f (Sie.read c x r).2 := by
  cases r with
  | rxWcnt i => exact Sie.Kept.setEp x i _ fun _ => Machine.Kept.readWordCount f _
  | fifo i => exact Sie.Kept.setEp x i _ fun _ => Machine.Kept.readFifo f _
  | _ => exact Sie.Kept.refl f x

theorem Kept.writeByteCount (f : Nat) (v : Word) (e : SieEndpoint) : e.Kept f (e.writeByteCount f v) := by
  unfold SieEndpoint.writeByteCount
  split
  · exact Kept.commit f e (Nat.zero_le _)
  · rename_i hv
    refine ⟨rfl, rfl, rfl, fun h => ⟨h.rxSizes, h.rxCount, h.rxEven, h.rxInside, h.txSizes, h.txCount, fun p hp => ?_⟩⟩
    cases hp
    have : (low11 v).toNat ≠ 0 := fun h0 => hv (BitVec.eq_of_toNat_eq (by simpa using h0))
    exact Nat.pos_of_ne_zero this

theorem Kept.writeFifo (f : Nat) (w : Half) (e : SieEndpoint) : e.Kept f (e.writeFifo f w) := by
  unfold SieEndpoint.writeFifo
  cases hc : e.txCur with
  | none => exact .refl f e
  | some p =>
    have hlt := p.count.isLt
    dsimp only
    generalize hb : (if (p.bytes ++ [w.extractLsb' 0 8]).length < p.count.toNat then
      p.bytes ++ [w.extractLsb' 0 8] ++ [w.extractLsb' 8 8] else p.bytes ++ [w.extractLsb' 0 8]) = b
    split
    · rename_i hl
      exact Kept.commit f e (by omega)
    · rename_i hl
      refine ⟨rfl, rfl, rfl, fun h => ⟨h.rxSizes, h.rxCount, h.rxEven, h.rxInside, h.txSizes, h.txCount, fun q hq => ?_⟩⟩
      cases hq
      have := h.txLacks p hc
      show b.length < p.count.toNat
      split at hb
      · subst hb
        simp at *
        omega
      · subst hb
        simp at *
        omega

/-- The registers whose write touches no direction, stall, size or mask. -/
def Reg.harmless : Reg → Bool
  | .ssr | .eir | .esr _ | .txBcnt _ | .rxWcnt _ | .fifo _ => true
  | .eier | .ecr _ | .mps _ => false

/-- A write of such a register. -/
theorem Sie.Kept.write (c : Config) (x : Sie) {r : Reg} (hr : r.harmless = true) (v : Word) :
    x.Kept c.fifoPkts (Sie.write c x r v) := by
  cases r with
  | ssr => exact Sie.Kept.of_eps rfl rfl
  | eir =>
    refine ⟨clearLatches_length _ _ _, rfl, fun i => ?_⟩
    have h : (Sie.write c x .eir v).ep i =
        if i < x.eps.length then { x.ep i with eirLatch := (x.ep i).eirLatch && !v.getLsbD i } else SieEndpoint.absent := by
      simp only [Sie.write, Sie.ep, List.getD_eq_getElem?_getD, clearLatches_getElem?, Nat.zero_add]
      split
      · rename_i hi
        simp [hi]
      · rename_i hi
        simp [Nat.le_of_not_lt hi]
    rw [h]
    split
    · exact ⟨rfl, rfl, rfl, fun h => FifoOk.of_same h rfl rfl rfl rfl⟩
    · rename_i hi
      have : x.ep i = SieEndpoint.absent := by simp [Sie.ep, Nat.le_of_not_lt hi]
      rw [this]
      exact .refl _ _
  | esr i => exact Sie.Kept.setEp x i _ fun _ => ⟨rfl, rfl, rfl, fun h => FifoOk.of_same h rfl rfl rfl rfl⟩
  | txBcnt i => exact Sie.Kept.setEp x i _ fun _ => Machine.Kept.writeByteCount _ v _
  | rxWcnt i => exact Sie.Kept.refl _ x
  | fifo i => exact Sie.Kept.setEp x i _ fun _ => Machine.Kept.writeFifo _ _ _
  | _ => cases hr

theorem Kept.emptied (f : Nat) (e : SieEndpoint) : e.Kept f e.emptied :=
  ⟨rfl, rfl, rfl, fun _ => ⟨(fun _ h => by cases h), Nat.zero_le _, rfl, .inl rfl, (fun _ h => by cases h), Nat.zero_le _,
    (fun _ h => by cases h)⟩⟩

theorem FifoOk.stage {f : Nat} {e : SieEndpoint} (h : e.FifoOk f) {p : RxPacket} (hp : p.bytes.length ≤ 2047)
    (hl : e.rxQueue.length < f) : (e.stage p).FifoOk f := by
  refine ⟨fun q hq => ?_, ?_, h.rxEven, ?_, h.txSizes, h.txCount, h.txLacks⟩
  · rcases List.mem_append.mp hq with hq | hq
    · exact h.rxSizes q hq
    · rw [List.mem_singleton.mp hq]
      exact hp
  · show (e.rxQueue ++ [p]).length ≤ f
    rw [List.length_append]
    exact hl
  · have := h.rxInside
    show e.rxPos = 0 ∨ e.rxPos < _
    simp only [SieEndpoint.headLength, SieEndpoint.stage] at this ⊢
    cases hq : e.rxQueue with
    | nil =>
      rw [hq] at this
      simp at this
      exact .inl this
    | cons q rest =>
      rw [hq] at this
      simpa using this

theorem Sie.Kept.emptyFifos (f : Nat) (x : Sie) : x.Kept f x.emptyFifos := by
  refine ⟨by simp [Sie.emptyFifos], rfl, fun i => ?_⟩
  have h : x.emptyFifos.ep i = if i < x.eps.length then (x.ep i).emptied else SieEndpoint.absent := by
    simp only [Sie.emptyFifos, Sie.ep, List.getD_eq_getElem?_getD, List.getElem?_map]
    split
    · rename_i hi
      simp [hi]
    · rename_i hi
      simp [Nat.le_of_not_lt hi]
  rw [h]
  split
  · exact Machine.Kept.emptied f _
  · rename_i hi
    have : x.ep i = SieEndpoint.absent := by simp [Sie.ep, Nat.le_of_not_lt hi]
    rw [this]
    exact .refl _ _

/-- A move that can happen (R170). -/
theorem Sie.Kept.move (c : Config) (x : Sie) (m : Move) (h : x.moveEnabled c m = true) :
    x.Kept c.fifoPkts (x.moveEffect m) := by
  have raised : ∀ (y : Sie) (k : Nat), x.Kept c.fifoPkts y → x.Kept c.fifoPkts (y.raise k) :=
    fun y k hy => hy.trans (Sie.Kept.of_eps rfl rfl)
  cases m with
  | vbusOn => exact raised _ _ (Sie.Kept.of_eps rfl rfl)
  | vbusOff => exact raised _ _ ((Sie.Kept.of_eps rfl rfl : x.Kept _ { x with vbus := false, connected := false }).trans (Sie.Kept.emptyFifos _ _))
  | reset => exact raised _ _ ((Sie.Kept.of_eps rfl rfl : x.Kept _ { x with connected := false, sieAddress := 0 }).trans (Sie.Kept.emptyFifos _ _))
  | speedDone hs => exact raised _ _ (Sie.Kept.of_eps rfl rfl)
  | suspend => exact raised _ _ (.refl _ _)
  | resume => exact raised _ _ (.refl _ _)
  | error => exact raised _ _ (.refl _ _)
  | flushReq i => exact Sie.Kept.setEp x _ _ fun _ => ⟨rfl, rfl, rfl, fun h => FifoOk.of_same h rfl rfl rfl rfl⟩
  | setup packet =>
    refine Sie.Kept.trans (y := x.setEp 0 fun e => { e with txQueue := [], txCur := none }.stage ⟨setupBytes packet, false⟩) ?_
      (Sie.Kept.of_eps rfl rfl)
    refine Sie.Kept.setEp x _ _ fun _ => ⟨rfl, rfl, rfl, fun hf => FifoOk.stage (FifoOk.emptyTx hf) ?_ ?_⟩
    · show (setupBytes packet).length ≤ 2047
      simp [setupBytes]
    · simp only [Sie.moveEnabled, Bool.and_eq_true, decide_eq_true_eq] at h
      exact h.2
  | out i bytes eot =>
    simp only [Sie.moveEnabled, Bool.and_eq_true, decide_eq_true_eq, Bool.or_eq_true] at h
    refine Sie.Kept.trans (y := x.setEp i.toNat fun e => if e.stall then { e with stallSent := true, eirLatch := true }
      else e.stage ⟨bytes, eot && decide (i = 0)⟩) ?_ (Sie.Kept.of_eps rfl rfl)
    refine Sie.Kept.setEp x _ _ fun _ => ?_
    split
    · exact ⟨rfl, rfl, rfl, fun h => FifoOk.of_same h rfl rfl rfl rfl⟩
    · rename_i hst
      refine ⟨rfl, rfl, rfl, fun hf => FifoOk.stage hf ?_ ?_⟩
      · have h1 := h.1.2
        have h2 := (x.ep i.toNat).mps.isLt
        show bytes.length ≤ 2047
        omega
      · exact h.2.resolve_left hst
  | inToken i =>
    refine Sie.Kept.setEp x _ _ fun _ => ?_
    split
    · exact ⟨rfl, rfl, rfl, fun h => FifoOk.of_same h rfl rfl rfl rfl⟩
    · refine ⟨rfl, rfl, rfl, fun hf => ⟨hf.rxSizes, hf.rxCount, hf.rxEven, hf.rxInside, fun p hp => ?_, ?_, hf.txLacks⟩⟩
      · exact hf.txSizes p (List.mem_of_mem_tail hp)
      · have := hf.txCount
        show ((x.ep i.toNat).txQueue.tail).length ≤ _
        rw [List.length_tail]
        omega

theorem Sie.Kept.moves (s : State) (l : List Move) : s.sie.Kept s.cfg.fifoPkts (s.moves l).sie := by
  induction l generalizing s with
  | nil => exact .refl _ _
  | cons m l ih =>
    have h1 : s.sie.Kept s.cfg.fifoPkts (s.move m).sie := by
      unfold State.move
      split
      · exact Sie.Kept.move s.cfg s.sie m ‹_›
      · exact .refl _ _
    have h2 := ih (s.move m)
    rw [move_cfg] at h2
    exact h1.trans h2

theorem Sie.Kept.busTick (s : State) : s.sie.Kept s.cfg.fifoPkts s.busTick.sie := by
  unfold State.busTick
  split
  · exact .refl _ _
  · rename_i ms rest _
    exact Sie.Kept.moves { s with betweenMoves := rest } ms

theorem Sie.Kept.afterRead (s : State) (r : Reg) : s.sie.Kept s.cfg.fifoPkts (s.afterRead r).sie :=
  (Sie.Kept.busTick s).trans (Sie.Kept.read _ _ r)

theorem Sie.Kept.afterWrite (s : State) {r : Reg} (hr : r.harmless = true) (v : Word) :
    s.sie.Kept s.cfg.fifoPkts (s.afterWrite r v).sie := by
  have h := Sie.Kept.write s.busTick.cfg s.busTick.sie hr v
  rw [busTick_cfg] at h
  exact (Sie.Kept.busTick s).trans (by simpa [State.afterWrite] using h)

theorem State.Inv.afterRead {s : State} (h : s.Inv) (r : Reg) : (s.afterRead r).Inv :=
  h.sie (Sie.Kept.afterRead s r) (by simp) (by simp) (by simp) (by simp) (by simp) (by simp)

theorem State.Inv.afterWrite {s : State} (h : s.Inv) {r : Reg} (hr : r.harmless = true) (v : Word) :
    (s.afterWrite r v).Inv :=
  h.sie (Sie.Kept.afterWrite s hr v) (by simp) (by simp) (by simp) (by simp) (by simp) (by simp)

theorem State.Inv.move {s : State} (h : s.Inv) (m : Move) : (s.move m).Inv :=
  h.sie (Sie.Kept.moves s [m]) (by simp) (by simp) (by simp) (by simp) (by simp) (by simp)

/-! ### Effects on one endpoint -/

/-- A change of endpoint i's record, of its SIE record and of its `EIER` bit keeps the invariant when the new records are
in order; every other endpoint's SIE record may take moves. -/
theorem State.Inv.endpoint {s t : State} (h : s.Inv) {i : Nat} (hi : i < s.numEps) (cfg : t.cfg = s.cfg)
    (mem : t.mem = s.mem) (dev : t.dev = s.dev) (reqs : t.reqs = s.reqs) (statusReq : t.statusReq = s.statusReq)
    (length : t.eps.length = s.eps.length) (others : ∀ j, j ≠ i → t.ep j = s.ep j)
    (sieLength : t.sie.eps.length = s.sie.eps.length)
    (sieOthers : ∀ j, j ≠ i → (s.sie.ep j).Kept s.cfg.fifoPkts (t.sie.ep j))
    (eier : ∀ k, k ≠ i → t.sie.eier.getLsbD k = s.sie.eier.getLsbD k)
    (eierSelf : t.sie.eier.getLsbD i = (t.ep i).enabled)
    (zero : i = 0 → (t.ep 0).enabled = true ∧ ((t.ep 0).mps = s.cfg.ep0MpsFs ∨ (t.ep 0).mps = s.cfg.ep0MpsHs))
    (data : 1 ≤ i → ((t.ep i).enabled = false → (t.ep i).halted = true) ∧
      ((t.ep i).mps = s.cfg.bulkMpsFs ∨ (t.ep i).mps = s.cfg.bulkMpsHs) ∧
      ((t.ep i).enabled = true → (t.sie.ep i).dirIn = decide (Config.dirOf s.cfg i = .IN)))
    (stall : (t.sie.ep i).stall = true → (t.ep i).halted = true) (mps : (t.sie.ep i).mps = (t.ep i).mps)
    (fifo : (t.sie.ep i).FifoOk s.cfg.fifoPkts) (queue : (t.ep i).queue = (s.ep i).queue) : t.Inv := by
  have hn : t.numEps = s.numEps := by rw [State.numEps, State.numEps, cfg]
  constructor
  · rw [cfg]
    exact h.configuration
  · rw [length, hn]
    exact h.endpoints
  · rw [sieLength, hn]
    exact h.sieEndpoints
  · rw [mem]
    exact h.memory
  · by_cases h0 : 0 = i
    · exact (zero h0.symm).1
    · rw [others 0 h0]
      exact h.control
  · intro j h1 hj he
    by_cases hji : j = i
    · subst hji
      exact (data h1).1 he
    · rw [others j hji] at he ⊢
      exact h.disabledHalted j h1 (hn ▸ hj) he
  · intro k
    by_cases hk : k = i
    · subst hk
      rw [eierSelf, hn, decide_eq_true hi, Bool.true_and]
    · rw [eier k hk, others k hk, hn]
      exact h.interrupts k
  · intro j hj hs
    by_cases hji : j = i
    · subst hji
      exact stall hs
    · rw [(sieOthers j hji).stall] at hs
      rw [others j hji]
      exact h.stalled j (hn ▸ hj) hs
  · intro j hj
    by_cases hji : j = i
    · subst hji
      exact mps
    · rw [(sieOthers j hji).mps, others j hji]
      exact h.sizes j (hn ▸ hj)
  · rw [cfg]
    by_cases h0 : 0 = i
    · exact (zero h0.symm).2
    · rw [others 0 h0]
      exact h.controlSize
  · intro j h1 hj
    rw [cfg]
    by_cases hji : j = i
    · subst hji
      exact (data h1).2.1
    · rw [others j hji]
      exact h.dataSizes j h1 (hn ▸ hj)
  · intro j h1 hj he
    rw [cfg]
    by_cases hji : j = i
    · subst hji
      exact (data h1).2.2 he
    · rw [others j hji] at he
      rw [(sieOthers j hji).dirIn]
      exact h.directions j h1 (hn ▸ hj) he
  · rw [dev]
    exact h.configured
  · refine h.requests.same reqs statusReq fun j => ?_
    by_cases hji : j = i
    · rw [hji, queue]
    · rw [others j hji]
  · intro e he
    rw [cfg]
    obtain ⟨j, hj, rfl⟩ := List.getElem_of_mem he
    have hej : t.sie.eps[j] = t.sie.ep j := by simp [Sie.ep, hj]
    rw [hej]
    by_cases hji : j = i
    · subst hji
      exact fifo
    · exact (sieOthers j hji).fifo (h.fifo j)

/-- An access pair on `ECR[i]`: what was read may be a few moves old, and moves touch neither STALL nor DIR_IN. -/
structure State.ControlWritten (s : State) (i : Nat) (g : SieEndpoint → SieEndpoint) (t : State) : Prop where
  cfg : t.cfg = s.cfg
  eps : t.eps = s.eps
  mem : t.mem = s.mem
  dev : t.dev = s.dev
  reqs : t.reqs = s.reqs
  statusReq : t.statusReq = s.statusReq
  length : t.sie.eps.length = s.sie.eps.length
  eier : t.sie.eier = s.sie.eier
  others : ∀ j, j ≠ i → (s.sie.ep j).Kept s.cfg.fifoPkts (t.sie.ep j)
  self : i < s.sie.eps.length → ∃ e, (s.sie.ep i).Kept s.cfg.fifoPkts e ∧ t.sie.ep i = g e

theorem controlWritten (s : State) (i : Nat) (w : Word → Word) {g : SieEndpoint → SieEndpoint}
    (hg : ∀ e e' : SieEndpoint, e'.stall = e.stall → e'.dirIn = e.dirIn → e'.writeControl (w e.ecrWord) = g e') {t : State}
    (h : (regRead (.ecr i) >>= fun e => regWrite (.ecr i) (w e)) s = .ok ((), t)) : s.ControlWritten i g t := by
  rw [regRead_bind_run] at h
  cases h
  have k1 := Sie.Kept.afterRead s (.ecr i)
  have k2 := Sie.Kept.busTick (s.afterRead (.ecr i))
  rw [afterRead_cfg] at k2
  have hv : s.readValue (.ecr i) = (s.busTick.sie.ep i).ecrWord := rfl
  refine ⟨by simp, by simp, by simp, by simp, by simp, by simp, ?_, ?_, fun j hj => ?_, fun hi => ?_⟩
  · show ((s.afterRead (.ecr i)).busTick.sie.setEp i _).eps.length = _
    rw [sieSetEp_length, k2.length, k1.length]
  · show (s.afterRead (.ecr i)).busTick.sie.eier = _
    rw [k2.eier, k1.eier]
  · show (s.sie.ep j).Kept _ (((s.afterRead (.ecr i)).busTick.sie.setEp i _).ep j)
    rw [sieEp_setEp_ne _ _ (Ne.symm hj)]
    exact (k1.eps j).trans (k2.eps j)
  · refine ⟨(s.afterRead (.ecr i)).busTick.sie.ep i, (k1.eps i).trans (k2.eps i), ?_⟩
    show ((s.afterRead (.ecr i)).busTick.sie.setEp i _).ep i = _
    rw [sieEp_setEp_self _ _ _ (by rw [k2.length, k1.length]; exact hi), hv]
    have ke : (s.busTick.sie.ep i).Kept s.cfg.fifoPkts ((s.afterRead (.ecr i)).busTick.sie.ep i) := k2.eps i
    exact hg _ _ ke.stall ke.dirIn

theorem writeControl_setStall_of {e e' : SieEndpoint} (h1 : e'.stall = e.stall) (h2 : e'.dirIn = e.dirIn) :
    e'.writeControl (e.ecrWord ||| 0x1) = { e' with stall := true } := by
  have : e'.ecrWord ||| 0x1 = e.ecrWord ||| 0x1 := by
    rw [SieEndpoint.ecrWord, SieEndpoint.ecrWord, h2, h1]
  rw [← this]
  exact writeControl_setStall e'

theorem writeControl_clearStall_of {e e' : SieEndpoint} (h1 : e'.stall = e.stall) (h2 : e'.dirIn = e.dirIn) :
    e'.writeControl (e.ecrWord &&& ~~~0x1) = { e' with stall := false } := by
  have : e'.ecrWord = e.ecrWord := by rw [SieEndpoint.ecrWord, SieEndpoint.ecrWord, h2, h1]
  rw [← this]
  exact writeControl_clearStall e'

theorem writeControl_flush_of {e e' : SieEndpoint} (h1 : e'.stall = e.stall) (h2 : e'.dirIn = e.dirIn) :
    e'.writeControl (e.ecrWord ||| 0x2) = { e' with txQueue := [], txCur := none } := by
  have : e'.ecrWord = e.ecrWord := by rw [SieEndpoint.ecrWord, SieEndpoint.ecrWord, h2, h1]
  rw [← this]
  exact writeControl_flush e'

theorem haltFields_controlWritten {s t : State} {i : Nat} {v : Bool} (h : haltFields i v s = .ok ((), t)) :
    ∃ u, s.ControlWritten i (fun e => { e with stall := v }) u ∧ t = u.setEp i fun e => { e with halted := v } := by
  obtain ⟨_, u, h1, h2⟩ := bind_ok_iff.mp h
  cases h2
  refine ⟨u, ?_, rfl⟩
  cases v
  · exact controlWritten s i (fun e => e &&& ~~~0x1) (fun _ _ => writeControl_clearStall_of) h1
  · exact controlWritten s i (fun e => e ||| 0x1) (fun _ _ => writeControl_setStall_of) h1

theorem State.Inv.numEps_le {s : State} (h : s.Inv) : 3 ≤ s.numEps ∧ s.numEps ≤ 16 := by
  have := config_bounds h.configuration
  exact ⟨this.1, this.2.1⟩

theorem State.Inv.eierSelf {s : State} (h : s.Inv) {i : Nat} (hi : i < s.numEps) :
    s.sie.eier.getLsbD i = (s.ep i).enabled := by
  rw [h.interrupts i, decide_eq_true hi, Bool.true_and]

/-- Halting or un-halting endpoint 0 or an enabled data endpoint (R109, R115, R132). -/
theorem State.Inv.halt {s t : State} (h : s.Inv) {i : Nat} {v : Bool}
    (hi : i = 0 ∨ (i < s.numEps ∧ (s.ep i).enabled = true)) (hr : haltFields i v s = .ok ((), t)) : t.Inv := by
  have hlt : i < s.numEps := by
    have := h.numEps_le
    rcases hi with rfl | hi
    · omega
    · exact hi.1
  have hen : (s.ep i).enabled = true := by
    rcases hi with rfl | hi
    · exact h.control
    · exact hi.2
  have hl : i < s.eps.length := h.endpoints ▸ hlt
  obtain ⟨u, hu, rfl⟩ := haltFields_controlWritten hr
  obtain ⟨e, he, hue⟩ := hu.self (h.sieEndpoints ▸ hlt)
  have hep : ∀ j, u.ep j = s.ep j := fun j => by rw [State.ep, State.ep, hu.eps]
  have hself : (u.setEp i fun e => { e with halted := v }).ep i = { s.ep i with halted := v } := by
    rw [ep_setEp_self _ _ _ (by rw [hu.eps]; exact hl), hep]
  refine h.endpoint hlt (queue := by rw [hself]) hu.cfg hu.mem hu.dev hu.reqs hu.statusReq (by rw [setEp_length, hu.eps])
    (fun j hj => by rw [ep_setEp_ne _ _ (Ne.symm hj), hep]) hu.length hu.others (fun _ _ => by rw [setEp_sie, hu.eier])
    ?_ ?_ ?_ ?_ ?_ ?_
  · rw [hself, setEp_sie, hu.eier]
    exact h.eierSelf hlt
  · rintro rfl
    rw [hself]
    exact ⟨h.control, h.controlSize⟩
  · intro h1
    rw [hself, setEp_sie, hue]
    refine ⟨fun hf => by simp [hen] at hf, h.dataSizes i h1 hlt, fun _ => ?_⟩
    show e.dirIn = _
    rw [he.dirIn]
    exact h.directions i h1 hlt hen
  · rw [hself, setEp_sie, hue]
    exact fun hv => hv
  · rw [hself, setEp_sie, hue]
    show e.mps = _
    rw [he.mps]
    exact h.sizes i hlt
  · rw [setEp_sie, hue]
    exact FifoOk.of_same (he.fifo (h.fifo i)) rfl rfl rfl rfl

theorem State.Inv.flushIn {s t : State} (h : s.Inv) {i : Nat} (hr : Machine.flushIn i s = .ok ((), t)) : t.Inv := by
  have hu := controlWritten s i (fun e => e ||| 0x2) (fun _ _ => writeControl_flush_of) hr
  refine h.sie ⟨hu.length, hu.eier, fun j => ?_⟩ hu.cfg hu.eps hu.mem hu.dev hu.reqs hu.statusReq
  by_cases hj : j = i
  · subst hj
    by_cases hl : j < s.sie.eps.length
    · obtain ⟨e, he, hue⟩ := hu.self hl
      rw [hue]
      exact he.trans ⟨rfl, rfl, rfl, fun hf => FifoOk.emptyTx hf⟩
    · have h1 : s.sie.ep j = SieEndpoint.absent := by simp [Sie.ep, Nat.le_of_not_lt hl]
      have h2 : t.sie.ep j = SieEndpoint.absent := by
        have := hu.length
        simp [Sie.ep, show t.sie.eps.length ≤ j by omega]
      rw [h1, h2]
      exact .refl _ _
  · exact hu.others j hj

/-- An `EIER` read-modify-write that sets or clears bit i. -/
theorem eierWritten {s t : State} {i : Nat} (hN : s.numEps ≤ 16) {v : Bool}
    (hr : (if v then unmaskInterrupt i else maskInterrupt i) s = .ok ((), t)) :
    t.cfg = s.cfg ∧ t.eps = s.eps ∧ t.mem = s.mem ∧ t.dev = s.dev ∧ t.reqs = s.reqs ∧ t.statusReq = s.statusReq ∧
    t.sie.eps.length = s.sie.eps.length ∧ (∀ j, (s.sie.ep j).Kept s.cfg.fifoPkts (t.sie.ep j)) ∧
    ∀ k, t.sie.eier.getLsbD k =
      (decide (k = 0) || (decide (k < s.numEps) && (if k = i then v else s.sie.eier.getLsbD k))) := by
  have k1 := Sie.Kept.afterRead s .eier
  have k2 := Sie.Kept.busTick (s.afterRead .eier)
  rw [afterRead_cfg] at k2
  have hv : s.readValue .eier = s.sie.eier := (Sie.Kept.busTick s).eier
  have key : ∀ w : Word, t = (s.afterRead .eier).afterWrite .eier w →
      t.cfg = s.cfg ∧ t.eps = s.eps ∧ t.mem = s.mem ∧ t.dev = s.dev ∧ t.reqs = s.reqs ∧ t.statusReq = s.statusReq ∧
      t.sie.eps.length = s.sie.eps.length ∧ (∀ j, (s.sie.ep j).Kept s.cfg.fifoPkts (t.sie.ep j)) ∧
      t.sie.eier = (w &&& epMask s.numEps) ||| 1 := by
    rintro w rfl
    refine ⟨by simp, by simp, by simp, by simp, by simp, by simp, ?_, fun j => ?_, ?_⟩
    · show (s.afterRead .eier).busTick.sie.eps.length = _
      rw [k2.length, k1.length]
    · exact (k1.eps j).trans (k2.eps j)
    · show (w &&& epMask (s.afterRead .eier).busTick.cfg.numEndpoints) ||| 1 = _
      simp [State.numEps]
  have one : ∀ k, BitVec.getLsbD (1 : Word) k = decide (k = 0) := by
    intro k
    show BitVec.getLsbD (1#32) k = _
    rw [BitVec.getLsbD_one]
    simp
  cases v
  · obtain ⟨h1, h2, h3, h4, h5, h6, h7, h8, h9⟩ := key (s.sie.eier &&& ~~~(bitAt i true)) (by
      unfold maskInterrupt at hr
      simp only [Bool.false_eq_true, if_false, regRead_bind_run, hv] at hr
      cases hr
      rfl)
    refine ⟨h1, h2, h3, h4, h5, h6, h7, h8, fun k => ?_⟩
    rw [h9]
    simp only [BitVec.getLsbD_or, BitVec.getLsbD_and, BitVec.getLsbD_not, getLsbD_bitAt, one, getLsbD_epMask _ _ (show s.numEps ≤ 32 by omega)]
    by_cases hk : k < s.numEps
    · have : k < 32 := by omega
      by_cases hki : k = i
      · subst hki
        simp [this]
      · simp [this, hki, hk, Bool.or_comm]
    · simp [hk]
  · obtain ⟨h1, h2, h3, h4, h5, h6, h7, h8, h9⟩ := key (s.sie.eier ||| bitAt i true) (by
      unfold unmaskInterrupt at hr
      simp only [if_true, regRead_bind_run, hv] at hr
      cases hr
      rfl)
    refine ⟨h1, h2, h3, h4, h5, h6, h7, h8, fun k => ?_⟩
    rw [h9]
    simp only [BitVec.getLsbD_or, BitVec.getLsbD_and, getLsbD_bitAt, one, getLsbD_epMask _ _ (show s.numEps ≤ 32 by omega)]
    by_cases hk : k < s.numEps
    · have : k < 32 := by omega
      by_cases hki : k = i
      · subst hki
        simp [this, hk]
      · simp [hki, hk, Bool.or_comm]
    · simp [hk]

/-- Shutting a data endpoint down (R113, R121, R146). -/
theorem State.Inv.shut {s t : State} (h : s.Inv) {i : Nat} (h1 : 1 ≤ i) (hi : i < s.numEps)
    (hr : shutFields i s = .ok ((), t)) : t.Inv := by
  obtain ⟨_, u, hm, h2⟩ := bind_ok_iff.mp hr
  cases h2
  obtain ⟨c1, c2, c3, c4, c5, c6, c7, c8, c9⟩ := eierWritten (v := false) h.numEps_le.2 hm
  have hl : i < s.eps.length := h.endpoints ▸ hi
  have hep : ∀ j, u.ep j = s.ep j := fun j => by rw [State.ep, State.ep, c2]
  have hself : (u.setEp i fun e => { e with enabled := false, halted := true }).ep i =
      { s.ep i with enabled := false, halted := true } := by
    rw [ep_setEp_self _ _ _ (by rw [c2]; exact hl), hep]
  refine h.endpoint hi (queue := by rw [hself]) c1 c3 c4 c5 c6 (by rw [setEp_length, c2]) (fun j hj => by rw [ep_setEp_ne _ _ (Ne.symm hj), hep]) c7
    (fun j _ => c8 j) (fun k hk => ?_) ?_ (fun h0 => by omega) (fun _ => ?_) ?_ ?_ ?_
  · rw [setEp_sie, c9, if_neg hk]
    have := h.interrupts k
    by_cases hk0 : k = 0
    · subst hk0
      rw [this, h.control]
      have := h.numEps_le
      simp
      omega
    · rw [this]
      by_cases hkn : k < s.numEps <;> simp [hk0, hkn]
  · rw [hself, setEp_sie, c9]
    simp
    omega
  · rw [hself]
    exact ⟨fun _ => rfl, h.dataSizes i h1 hi, fun hf => by cases hf⟩
  · rw [hself]
    exact fun _ => rfl
  · rw [hself, setEp_sie, (c8 i).mps]
    exact h.sizes i hi
  · exact (c8 i).fifo (h.fifo i)

/-- After a write of `ECR[i]` and then of `MPS[i]`. -/
theorem bindRegistersWritten (s : State) (i : Nat) (v : Word) (hv : ecrFlush v = false) (m : BitVec 11) :
    ∃ t, t = (s.afterWrite (.ecr i) v).afterWrite (.mps i) (m.zeroExtend 32) ∧ t.cfg = s.cfg ∧ t.eps = s.eps ∧
    t.mem = s.mem ∧ t.dev = s.dev ∧ t.reqs = s.reqs ∧ t.statusReq = s.statusReq ∧ t.sie.eps.length = s.sie.eps.length ∧
    t.sie.eier = s.sie.eier ∧ (∀ j, j ≠ i → (s.sie.ep j).Kept s.cfg.fifoPkts (t.sie.ep j)) ∧
    (i < s.sie.eps.length → (t.sie.ep i).stall = ecrStall v ∧ (t.sie.ep i).dirIn = ecrDirIn v ∧ (t.sie.ep i).mps = m ∧
      ((s.sie.ep i).FifoOk s.cfg.fifoPkts → (t.sie.ep i).FifoOk s.cfg.fifoPkts)) := by
  have k1 := Sie.Kept.busTick s
  have k2 := Sie.Kept.busTick (s.afterWrite (.ecr i) v)
  rw [afterWrite_cfg] at k2
  have k2 : (s.busTick.sie.setEp i (SieEndpoint.writeControl v)).Kept s.cfg.fifoPkts (s.afterWrite (.ecr i) v).busTick.sie :=
    Sie.Kept.trans (y := (s.afterWrite (.ecr i) v).sie) (Sie.Kept.of_eps rfl rfl) k2
  have hs2 : ((s.afterWrite (.ecr i) v).afterWrite (.mps i) (m.zeroExtend 32)).sie =
      (s.afterWrite (.ecr i) v).busTick.sie.setEp i fun e => { e with mps := m } := by
    show (s.afterWrite (.ecr i) v).busTick.sie.setEp i _ = _
    simp only [low11_zeroExtend]
  refine ⟨_, rfl, by simp, by simp, by simp, by simp, by simp, by simp, ?_, ?_, fun j hj => ?_, fun hi => ?_⟩
  · rw [hs2, sieSetEp_length, k2.length, sieSetEp_length, k1.length]
  · rw [hs2]
    exact k2.eier.trans k1.eier
  · rw [hs2, sieEp_setEp_ne _ _ (Ne.symm hj)]
    have := k2.eps j
    rw [sieEp_setEp_ne _ _ (Ne.symm hj)] at this
    exact (k1.eps j).trans this
  · have hl1 : i < s.busTick.sie.eps.length := by
      rw [k1.length]
      exact hi
    have hl2 : i < (s.afterWrite (.ecr i) v).busTick.sie.eps.length := by
      rw [k2.length, sieSetEp_length]
      exact hl1
    have k3 := k2.eps i
    rw [sieEp_setEp_self _ _ _ hl1] at k3
    rw [hs2, sieEp_setEp_self _ _ _ hl2]
    refine ⟨k3.stall, k3.dirIn, rfl, fun hf => FifoOk.of_same (k3.fifo ?_) rfl rfl rfl rfl⟩
    refine FifoOk.of_same ((k1.eps i).fifo hf) rfl rfl ?_ ?_ <;> simp [SieEndpoint.writeControl, hv]

theorem descriptorError_none {s : State} {ep : BitVec 4} {d : List Byte} (h : descriptorError s ep d = none) :
    descSize d = (s.ep ep.toNat).mps := by
  unfold descriptorError at h
  by_contra hc
  split at h <;> try cases h
  split at h <;> try cases h
  split at h <;> try cases h
  split at h <;> try cases h
  rw [if_pos (.inr (.inr hc))] at h
  cases h

/-- Binding a descriptor to a data endpoint (R110). -/
theorem State.Inv.enable {s t : State} (h : s.Inv) {i : Nat} (h1 : 1 ≤ i) (hi : i < s.numEps) {size : BitVec 11}
    (hs : size = (s.ep i).mps) (hr : enableFields i size s = .ok ((), t)) : t.Inv := by
  unfold enableFields at hr
  rw [look_bind_run, regWrite_bind_run, regWrite_bind_run, change_bind_run] at hr
  have hfl : ∀ d, ecrFlush (bindDirection d) = false ∧ ecrStall (bindDirection d) = false ∧
      ecrDirIn (bindDirection d) = decide (d = .IN) := by
    intro d
    cases d <;> decide
  obtain ⟨u, hu, b1, b2, b3, b4, b5, b6, b7, b8, b9, b10⟩ :=
    bindRegistersWritten s i (bindDirection (Config.dirOf s.cfg i)) (hfl _).1 size
  rw [← hu] at hr
  obtain ⟨c1, c2, c3, c4, c5, c6, c7, c8, c9⟩ := eierWritten (v := true)
    (s := u.setEp i fun e => { e with mps := size, enabled := true, halted := false })
    (by
      show u.cfg.numEndpoints ≤ 16
      rw [b1]
      exact h.numEps_le.2) hr
  have hl : i < s.eps.length := h.endpoints ▸ hi
  obtain ⟨d1, d2, d3, d4⟩ := b10 (h.sieEndpoints ▸ hi)
  have hep : ∀ j, u.ep j = s.ep j := fun j => by rw [State.ep, State.ep, b2]
  have het : ∀ j, t.ep j = (u.setEp i fun e => { e with mps := size, enabled := true, halted := false }).ep j :=
    fun j => by rw [State.ep, State.ep, c2]
  have hself : t.ep i = { s.ep i with mps := size, enabled := true, halted := false } := by
    rw [het, ep_setEp_self _ _ _ (by rw [b2]; exact hl), hep]
  rw [setEp_cfg, b1] at c8
  have hn : (u.setEp i fun e => { e with mps := size, enabled := true, halted := false }).numEps = s.numEps := by
    show u.cfg.numEndpoints = _
    rw [b1]
    rfl
  rw [hn] at c9
  refine h.endpoint hi (queue := by rw [hself]) (c1.trans b1) (c3.trans b3) (c4.trans b4) (c5.trans b5) (c6.trans b6)
    (by rw [c2, setEp_length, b2]) (fun j hj => by rw [het, ep_setEp_ne _ _ (Ne.symm hj), hep]) (c7.trans b7)
    (fun j hj => (b9 j hj).trans (c8 j)) (fun k hk => ?_) ?_ (fun h0 => by omega) (fun _ => ?_) ?_ ?_ ?_
  · rw [c9, if_neg hk, setEp_sie, b8]
    have := h.interrupts k
    by_cases hk0 : k = 0
    · subst hk0
      rw [this, h.control]
      have := h.numEps_le
      simp
      omega
    · rw [this]
      by_cases hkn : k < s.numEps <;> simp [hk0, hkn]
  · rw [hself, c9]
    simp [hi]
  · rw [hself]
    refine ⟨(fun hf => by cases hf), ?_, fun _ => ?_⟩
    · rw [hs]
      exact h.dataSizes i h1 hi
    · rw [(c8 i).dirIn]
      exact d2.trans (hfl _).2.2
  · rw [(c8 i).stall]
    intro hst
    have := d1.trans (hfl (Config.dirOf s.cfg i)).2.1
    rw [setEp_sie] at hst
    rw [this] at hst
    cases hst
  · rw [hself, (c8 i).mps]
    exact d3
  · exact (c8 i).fifo (d4 (h.fifo i))

/-- What EP_REINIT writes (R108). -/
theorem State.Inv.reinit {s t : State} (h : s.Inv) {i : Nat} (hi : i = 0 ∨ i < s.numEps)
    (hr : reinitFields i s = .ok ((), t)) : t.Inv := by
  have hlt : i < s.numEps := by
    have := h.numEps_le
    omega
  have hl : i < s.eps.length := h.endpoints ▸ hlt
  unfold reinitFields at hr
  by_cases h0 : i = 0
  · subst h0
    rw [if_pos rfl, change_bind_run, regWrite_bind_run, look_bind_run] at hr
    cases hr
    obtain ⟨u, hu, b1, b2, b3, b4, b5, b6, b7, b8, b9, b10⟩ := bindRegistersWritten
      (s.setEp 0 fun e => { e with halted := false, mps := Config.ep0Mps s.cfg s.dev.speed }) 0 0 (by decide)
      (Config.ep0Mps s.cfg s.dev.speed)
    have hm : (((s.setEp 0 fun e => { e with halted := false, mps := Config.ep0Mps s.cfg s.dev.speed }).afterWrite (.ecr 0) 0).ep 0).mps =
        Config.ep0Mps s.cfg s.dev.speed := by
      rw [State.ep, afterWrite_eps]
      show ((s.setEp 0 _).ep 0).mps = _
      rw [ep_setEp_self _ _ _ hl]
    rw [hm, ← hu]
    obtain ⟨d1, d2, d3, d4⟩ := b10 (h.sieEndpoints ▸ hlt)
    have hep : ∀ j, u.ep j = (s.setEp 0 fun e => { e with halted := false, mps := Config.ep0Mps s.cfg s.dev.speed }).ep j :=
      fun j => by rw [State.ep, State.ep, b2]
    have hself : u.ep 0 = { s.ep 0 with halted := false, mps := Config.ep0Mps s.cfg s.dev.speed } := by
      rw [hep, ep_setEp_self _ _ _ hl]
    refine h.endpoint hlt (queue := by rw [hself]) b1 b3 b4 b5 b6 (by rw [b2, setEp_length]) (fun j hj => by rw [hep, ep_setEp_ne _ _ (Ne.symm hj)]) b7
      (fun j hj => b9 j hj) (fun _ _ => by rw [b8]; rfl) ?_ (fun _ => ?_) (fun h1 => by omega) ?_ ?_ (d4 (h.fifo 0))
    · rw [hself, b8]
      exact h.eierSelf hlt
    · rw [hself]
      refine ⟨h.control, ?_⟩
      show Config.ep0Mps s.cfg s.dev.speed = _ ∨ _
      unfold Config.ep0Mps
      split
      · exact .inr rfl
      · exact .inl rfl
    · rw [d1]
      intro hf
      exact absurd hf (by decide)
    · rw [d3, hself]
  · rw [if_neg h0, change_bind_run] at hr
    obtain ⟨_, w, hm, hr⟩ := bind_ok_iff.mp hr
    rw [regWrite_bind_run, look_bind_run] at hr
    cases hr
    obtain ⟨c1, c2, c3, c4, c5, c6, c7, c8, c9⟩ := eierWritten (v := false)
      (s := s.setEp i fun e => { e with enabled := false, halted := true, mps := Config.bulkMps s.cfg s.dev.speed })
      h.numEps_le.2 hm
    obtain ⟨u, hu, b1, b2, b3, b4, b5, b6, b7, b8, b9, b10⟩ := bindRegistersWritten w i 0 (by decide)
      (Config.bulkMps s.cfg s.dev.speed)
    have hmp : ((w.afterWrite (.ecr i) 0).ep i).mps = Config.bulkMps s.cfg s.dev.speed := by
      rw [State.ep, afterWrite_eps, c2]
      show ((s.setEp i _).ep i).mps = _
      rw [ep_setEp_self _ _ _ hl]
    rw [hmp, ← hu]
    obtain ⟨d1, d2, d3, d4⟩ := b10 (by rw [c7]; exact h.sieEndpoints ▸ hlt)
    have hep : ∀ j, u.ep j = (s.setEp i fun e =>
        { e with enabled := false, halted := true, mps := Config.bulkMps s.cfg s.dev.speed }).ep j :=
      fun j => by rw [State.ep, State.ep, b2, c2]
    have hself : u.ep i = { s.ep i with enabled := false, halted := true, mps := Config.bulkMps s.cfg s.dev.speed } := by
      rw [hep, ep_setEp_self _ _ _ hl]
    rw [c1] at b9 d4
    refine h.endpoint hlt (queue := by rw [hself]) (b1.trans c1) (b3.trans c3) (b4.trans c4) (b5.trans c5) (b6.trans c6)
      (by rw [b2, c2, setEp_length]) (fun j hj => by rw [hep, ep_setEp_ne _ _ (Ne.symm hj)]) (b7.trans c7)
      (fun j hj => (c8 j).trans (b9 j hj)) (fun k hk => ?_) ?_ (fun h => absurd h h0) (fun h1 => ?_) ?_ ?_
      (d4 ((c8 i).fifo (h.fifo i)))
    · rw [b8, c9, if_neg hk]
      have := h.interrupts k
      have hn : (s.setEp i fun e => { e with enabled := false, halted := true, mps := Config.bulkMps s.cfg s.dev.speed }).numEps =
        s.numEps := rfl
      rw [hn]
      show (_ || (_ && s.sie.eier.getLsbD k)) = s.sie.eier.getLsbD k
      by_cases hk0 : k = 0
      · subst hk0
        rw [this, h.control]
        have := h.numEps_le
        simp
        omega
      · rw [this]
        by_cases hkn : k < s.numEps <;> simp [hk0, hkn]
    · rw [hself, b8, c9]
      simp [h0]
    · rw [hself]
      refine ⟨fun _ => rfl, ?_, fun hf => by cases hf⟩
      show Config.bulkMps s.cfg s.dev.speed = _ ∨ _
      unfold Config.bulkMps
      split
      · exact .inr rfl
      · exact .inl rfl
    · rw [hself]
      exact fun _ => rfl
    · rw [d3, hself]

/-- The end of a stall by a new setup packet (R138). -/
theorem State.Inv.clearStall {s t : State} (h : s.Inv) (hr : clearSetupStall s = .ok ((), t)) : t.Inv := by
  have h0 : 0 < s.numEps := by
    have := h.numEps_le
    omega
  have hl : 0 < s.eps.length := h.endpoints ▸ h0
  unfold clearSetupStall at hr
  rw [regRead_bind_run] at hr
  have k1 := Sie.Kept.afterRead s (.ecr 0)
  have hval : s.readValue (.ecr 0) = (s.busTick.sie.ep 0).ecrWord := rfl
  rw [hval, ecrStall_ecrWord] at hr
  obtain ⟨_, u, h1, h2⟩ := bind_ok_iff.mp hr
  cases h2
  have hs : ∃ e, (s.sie.ep 0).Kept s.cfg.fifoPkts e ∧ u.sie.ep 0 = { e with stall := false } ∧
      u.cfg = s.cfg ∧ u.eps = s.eps ∧ u.mem = s.mem ∧ u.dev = s.dev ∧ u.reqs = s.reqs ∧ u.statusReq = s.statusReq ∧
      u.sie.eps.length = s.sie.eps.length ∧ u.sie.eier = s.sie.eier ∧
      ∀ j, j ≠ 0 → (s.sie.ep j).Kept s.cfg.fifoPkts (u.sie.ep j) := by
    by_cases hst : (s.busTick.sie.ep 0).stall = true
    · rw [hst] at h1
      have h1' : (regRead (.ecr 0) >>= fun e => regWrite (.ecr 0) (e &&& ~~~0x1)) s = .ok ((), u) := h1
      have hu := controlWritten s 0 (fun e => e &&& ~~~0x1) (fun _ _ => writeControl_clearStall_of) h1'
      obtain ⟨e, he, hue⟩ := hu.self (h.sieEndpoints ▸ h0)
      exact ⟨e, he, hue, hu.cfg, hu.eps, hu.mem, hu.dev, hu.reqs, hu.statusReq, hu.length, hu.eier, hu.others⟩
    · rw [Bool.not_eq_true] at hst
      rw [hst] at h1
      cases h1
      refine ⟨(s.afterRead (.ecr 0)).sie.ep 0, k1.eps 0, ?_, by simp, by simp, by simp, by simp, by simp, by simp,
        k1.length, k1.eier, fun j _ => k1.eps j⟩
      have : ((s.afterRead (.ecr 0)).sie.ep 0).stall = false := hst
      rw [← this]
  obtain ⟨e, he, hue, c1, c2, c3, c4, c5, c6, c7, c8, c9⟩ := hs
  have hep : ∀ j, u.ep j = s.ep j := fun j => by rw [State.ep, State.ep, c2]
  have hself : (u.setEp 0 fun ep => { ep with halted := false }).ep 0 = { s.ep 0 with halted := false } := by
    rw [ep_setEp_self _ _ _ (by rw [c2]; exact hl), hep]
  refine h.endpoint h0 (queue := by rw [hself]) c1 c3 c4 c5 c6 (by rw [setEp_length, c2]) (fun j hj => by rw [ep_setEp_ne _ _ (Ne.symm hj), hep]) c7 c9
    (fun _ _ => by rw [setEp_sie, c8]) ?_ (fun _ => ?_) (fun h1 => by omega) ?_ ?_ ?_
  · rw [hself, setEp_sie, c8]
    exact h.eierSelf h0
  · rw [hself]
    exact ⟨h.control, h.controlSize⟩
  · rw [setEp_sie, hue]
    intro hf
    cases hf
  · rw [hself, setEp_sie, hue]
    show e.mps = _
    rw [he.mps]
    exact h.sizes 0 h0
  · rw [setEp_sie, hue]
    exact FifoOk.of_same (he.fifo (h.fifo 0)) rfl rfl rfl rfl

/-! ### Every effect keeps the invariant -/

/-- The configuration does not change, and the invariant is kept. -/
def InvKept (s t : State) : Prop := t.cfg = s.cfg ∧ (s.Inv → t.Inv)

theorem InvKept.same {s t : State} (cfg : t.cfg = s.cfg) (eps : t.eps = s.eps) (sieEps : t.sie.eps = s.sie.eps)
    (eier : t.sie.eier = s.sie.eier) (mem : t.mem = s.mem) (state : t.dev.state = s.dev.state)
    (config : t.dev.config = s.dev.config) (reqs : t.reqs = s.reqs) (statusReq : t.statusReq = s.statusReq) : InvKept s t :=
  ⟨cfg, fun h => h.same cfg eps sieEps eier mem state config reqs statusReq⟩

/-- A change of the device's state and configuration that keeps R25 (a). -/
theorem InvKept.device {s : State} {f : Device → Device}
    (hf : (s.dev.config ≠ 0 → s.dev.state = .configured) → (f s.dev).config ≠ 0 → (f s.dev).state = .configured) :
    InvKept s (s.setDev f) :=
  ⟨rfl, fun h => ⟨h.configuration, h.endpoints, h.sieEndpoints, h.memory, h.control, h.disabledHalted, h.interrupts, h.stalled,
    h.sizes, h.controlSize, h.dataSizes, h.directions, hf h.configured, h.requests.same rfl rfl fun _ => rfl, h.fifos⟩⟩

/-- A change of an endpoint's queue keeps the rest of the invariant. -/
theorem State.Inv.setQueue {s : State} (h : s.Inv) (i : Nat) (f : Endpoint → Endpoint)
    (hf : ∀ e, (f e).mps = e.mps ∧ (f e).enabled = e.enabled ∧ (f e).halted = e.halted) {t : State}
    (ht : t = s.setEp i f ∨ ∃ x g, t = (s.setEp i f).setReq x g) (hr : t.RequestsOk) : t.Inv := by
  have hk : ∀ j, (t.ep j).mps = (s.ep j).mps ∧ (t.ep j).enabled = (s.ep j).enabled ∧ (t.ep j).halted = (s.ep j).halted := by
    have key : ∀ j, ((s.setEp i f).ep j).mps = (s.ep j).mps ∧ ((s.setEp i f).ep j).enabled = (s.ep j).enabled ∧
        ((s.setEp i f).ep j).halted = (s.ep j).halted := fun j =>
      ⟨ep_setEp_keeps (fun e => e.mps) s i j f fun e => (hf e).1,
        ep_setEp_keeps (fun e => e.enabled) s i j f fun e => (hf e).2.1,
        ep_setEp_keeps (fun e => e.halted) s i j f fun e => (hf e).2.2⟩
    rcases ht with rfl | ⟨x, g, rfl⟩
    · exact key
    · exact fun j => by
        rw [ep_setReq]
        exact key j
  have hs : t.cfg = s.cfg ∧ t.eps.length = s.eps.length ∧ t.sie = s.sie ∧ t.mem = s.mem ∧ t.dev = s.dev := by
    rcases ht with rfl | ⟨x, g, rfl⟩ <;> simp
  obtain ⟨h1, h2, h3, h4, h5⟩ := hs
  have hn : t.numEps = s.numEps := by rw [State.numEps, State.numEps, h1]
  constructor
  · rw [h1]
    exact h.configuration
  · rw [h2, hn]
    exact h.endpoints
  · rw [h3, hn]
    exact h.sieEndpoints
  · rw [h4]
    exact h.memory
  · rw [(hk 0).2.1]
    exact h.control
  · simpa only [(hk _).2.1, (hk _).2.2, hn] using h.disabledHalted
  · simpa only [(hk _).2.1, hn, h3] using h.interrupts
  · simpa only [(hk _).2.2, hn, h3] using h.stalled
  · simpa only [(hk _).1, hn, h3] using h.sizes
  · rw [(hk 0).1, h1]
    exact h.controlSize
  · simpa only [(hk _).1, hn, h1] using h.dataSizes
  · simpa only [(hk _).2.1, hn, h3, h1] using h.directions
  · rw [h5]
    exact h.configured
  · exact hr
  · rw [h3, h1]
    exact h.fifos

theorem State.Inv.setCtl {s : State} (h : s.Inv) (c : Ctl) : (s.setDev fun d => { d with ctl := c }).Inv :=
  (InvKept.device (f := fun d => { d with ctl := c }) fun hc => hc).2 h

/-- A request is taken off its queue with its record changed to one that is in no queue. -/
theorem State.Inv.ended {s : State} (h : s.Inv) {i : Nat} {x : Handle} (hm : s.mayComplete i x) (g : Request → Request)
    (hu : ∀ k, x = .user k → ∀ r, findRequest k s.reqs = some r → r.CountsOk → (g r).CountsOk)
    (hr : x = .statusReq → (g s.statusReq).ReplyOk) :
    ((s.setEp i fun e => { e with queue := e.queue.erase x }).setReq x g).Inv :=
  h.setQueue i (fun e => { e with queue := e.queue.erase x }) (fun _ => ⟨rfl, rfl, rfl⟩) (.inr ⟨x, g, rfl⟩)
    (h.requests.ended hm g hu hr)

theorem ite_setCtl_inv {s : State} (h : s.Inv) (c : Prop) [Decidable c] (v : Ctl) :
    (if c then s.setDev fun d => { d with ctl := v } else s).Inv := by
  split
  · exact h.setCtl v
  · exact h

theorem Request.ReplyOk.completed {r : Request} (h : r.ReplyOk) (st : Status) : (Request.completed st r).ReplyOk :=
  ⟨h.buf, h.callback, h.zero, h.length, h.order⟩

theorem Request.CountsOk.advanced {r : Request} (h : r.CountsOk) {n : Nat} (hn : n ≤ r.length - r.actual) :
    ({ r with actual := r.actual + n } : Request).CountsOk := by
  have := h.order
  refine ⟨?_, h.length⟩
  show r.actual + n ≤ r.length
  omega

theorem Request.CountsOk.completed {r : Request} (h : r.CountsOk) (st : Status) : (Request.completed st r).CountsOk :=
  ⟨h.order, h.length⟩

theorem State.Inv.completed {s : State} (h : s.Inv) {i : Nat} {x : Handle} (hm : s.mayComplete i x) (st : Status) :
    (s.completed i x st).Inv :=
  ite_setCtl_inv (h.ended hm (Request.completed st) (fun _ _ _ _ hc => hc.completed st) fun _ =>
    h.requests.reply.completed st) _ _

/-- A packet of a request has moved. -/
theorem State.Inv.advanced {s : State} (h : s.Inv) {x : Handle} {n : Nat} (hn : n ≤ (s.req x).length - (s.req x).actual) :
    (s.advanced x n).Inv := by
  refine h.setReq x _ (h.requests.setReq x _ (fun k hk r hr hc => hc.advanced ?_) (fun hk => ?_) fun _ _ => rfl)
  · subst hk
    simpa [State.req, show findRequest k s.reqs = some r from hr] using hn
  · subst hk
    have hr := h.requests.reply
    refine ⟨hr.buf, hr.callback, hr.zero, hr.length, ?_⟩
    have := hr.order
    have : n ≤ s.statusReq.length - s.statusReq.actual := hn
    show s.statusReq.actual + n ≤ s.statusReq.length
    omega

theorem InvKept.commands : CommandKept InvKept where
  refl := fun _ => ⟨rfl, id⟩
  trans := fun _ _ _ h1 h2 => ⟨h2.1.trans h1.1, fun h => h2.2 (h1.2 h)⟩
  read := fun s r => ⟨by simp, fun h => h.afterRead r⟩
  writeCount := fun s i v => ⟨by simp, fun h => h.afterWrite rfl v⟩
  writeFifo := fun s i v => ⟨by simp, fun h => h.afterWrite rfl v⟩
  flush := fun i s _ t hr => ⟨(controlWritten s i (fun e => e ||| 0x2) (fun _ _ => writeControl_flush_of) hr).cfg,
    fun h => h.flushIn hr⟩
  halt := fun s i v t hi hr => ⟨by
    obtain ⟨u, hu, rfl⟩ := haltFields_controlWritten hr
    exact hu.cfg, fun h => h.halt hi hr⟩
  shut := fun s i t h1 hi hr => ⟨by
    unfold shutFields maskInterrupt disableFields at hr
    cases hr
    simp, fun h => h.shut h1 hi hr⟩
  enable := fun s ep d t h1 hi hd hr => ⟨by
    unfold enableFields unmaskInterrupt at hr
    cases hr
    simp, fun h => h.enable h1 hi (descriptorError_none hd) hr⟩
  completed := fun s i x st hm => ⟨by unfold State.completed; split <;> simp, fun h => h.completed hm st⟩
  clearQueue := fun s i => ⟨rfl, fun h => h.setQueue i (fun e => { e with queue := [] }) (fun _ => ⟨rfl, rfl, rfl⟩) (.inl rfl)
    (h.requests.setQueue i (fun e => { e with queue := [] }) fun _ => List.nil_sublist _)⟩
  begin := fun s i x _ => ⟨by simp, fun h => h.setReq x _ (h.requests.setReq x _
    (fun _ _ _ _ hc => ⟨Nat.zero_le _, hc.length⟩)
    (fun _ => ⟨h.requests.reply.buf, h.requests.reply.callback, h.requests.reply.zero, h.requests.reply.length,
      Nat.zero_le _⟩) fun _ _ => rfl)⟩
  append := fun s i x _ hk hq => ⟨by simp, fun h =>
    h.setQueue i (fun e => { e with queue := e.queue ++ [x] }) (fun _ => ⟨rfl, rfl, rfl⟩) (.inr ⟨x, _, rfl⟩)
      (h.requests.append i hk hq)⟩
  advance := fun s x n hn => ⟨by simp [State.advanced], fun h => h.advanced hn⟩
  mark := fun s x f => ⟨by simp, fun h => h.setReq x _ (h.requests.setReq x _
    (fun _ _ _ _ hc => ⟨hc.order, hc.length⟩)
    (fun _ => ⟨h.requests.reply.buf, h.requests.reply.callback, h.requests.reply.zero, h.requests.reply.length,
      h.requests.reply.order⟩) fun _ _ => rfl)⟩
  byte := fun s a b _ => ⟨rfl, fun h => ⟨h.configuration, h.endpoints, h.sieEndpoints, write_wf h.memory a b, h.control,
    h.disabledHalted, h.interrupts, h.stalled, h.sizes, h.controlSize, h.dataSizes, h.directions, h.configured,
    h.requests.same rfl rfl fun _ => rfl, h.fifos⟩⟩
  statusByte := fun s k b => InvKept.same rfl rfl rfl rfl rfl rfl rfl rfl rfl
  returned := fun s r => InvKept.same rfl rfl rfl rfl rfl rfl rfl rfl rfl
  record := fun s x f _ hf => ⟨rfl, fun h => h.setReq _ f (h.requests.setReq _ f
    (fun _ _ r' _ hc => (hf r').2 hc) (fun hk => by cases hk) fun i hi => (hf _).1)⟩
  upcall := fun s u ret t ht => ⟨by
    rw [leaveUpcall_cfg, ht.1]
    simp, fun h => (ht.2 (h.same (by simp) (by simp) (by simp) (by simp) (by simp) (by
      rw [afterResponse_dev]
      rfl) (by
      rw [afterResponse_dev]
      rfl) (by simp) (by simp))).same rfl rfl rfl rfl rfl rfl rfl rfl rfl⟩

theorem InvKept.bind : BindKept InvKept := fun _ _ _ _ => InvKept.same rfl rfl rfl rfl rfl rfl rfl rfl rfl

theorem InvKept.pump : PumpKept InvKept where
  toCommandKept := InvKept.commands
  cfg := fun _ _ h => h.1
  ackSystem := fun s k => ⟨by simp, fun h => h.afterWrite rfl _⟩
  ackInterrupt := fun s i => ⟨by simp, fun h => h.afterWrite rfl _⟩
  ackEndpoint := fun s i k => ⟨by simp, fun h => h.afterWrite rfl _⟩
  ctl := fun s c => InvKept.same rfl rfl rfl rfl rfl rfl rfl rfl rfl
  attach := fun s hs => InvKept.device fun hc h0 => by
    have := hc h0
    rw [hs] at this
    cases this
  detached := fun s => InvKept.device fun _ h0 => absurd rfl h0
  busReset := fun s => InvKept.device fun _ h0 => absurd rfl h0
  speedDone := fun s hs => InvKept.device fun _ h0 => absurd rfl h0
  reinit := fun s i t hi hr => ⟨by
    unfold reinitFields at hr
    split at hr
    · cases hr
      simp
    · unfold maskInterrupt at hr
      cases hr
      simp, fun h => h.reinit hi hr⟩
  address := fun s a => InvKept.device fun hc h0 => by
    have := hc h0
    show s.dev.state.afterSetAddress = _
    rw [this]
    rfl
  configure := fun s v => InvKept.device fun _ h0 => by
    show (if v = 0 then DevState.address else .configured) = _
    exact if_neg h0
  reply := fun v l s _ t hr => by
    cases hr
    refine ⟨rfl, fun h => ?_⟩
    have h1 := h.requests.setReq .statusReq (fun r => { r.withLength (min 2 l.toNat) with zero := false })
      (fun _ hk => by cases hk) (fun _ => ⟨h.requests.reply.buf, h.requests.reply.callback, rfl, Nat.min_le_left _ _,
        Nat.min_le_right _ _⟩) fun _ _ => rfl
    exact (h.setReq .statusReq _ h1).same rfl rfl rfl rfl rfl rfl rfl rfl rfl
  clearStall := fun s _ t hr => ⟨by
    unfold clearSetupStall at hr
    rw [regRead_bind_run] at hr
    obtain ⟨_, u, h1, h2⟩ := bind_ok_iff.mp hr
    cases h2
    rw [onlyIf_run] at h1
    split at h1 <;> cases h1 <;> simp, fun h => h.clearStall hr⟩

end Sys2Proof.Machine
end

