-- ==== Sys2Proof/Laws/Idle.lean ====
section
/-! SUPPORT. The shared operations, each in one piece, when the SIE makes no move between the register accesses and the
class driver answers without an action: serving an endpoint, its interrupt, halting, shutting down, re-initializing,
enabling and flushing. -/

namespace Sys2Proof.Machine

/-! ### What serving an endpoint keeps -/

theorem finished_keeps {α : Type} (g : State → α) (h1 : ∀ t i h st, g (State.completed t i h st) = g t)
    (h2 : ∀ t u, g (State.afterUpcall t u) = g t) (s : State) (i : Nat) (h : Handle) (st : Status) :
    g (s.finished i h st) = g s := by
  unfold State.finished
  split
  · exact h1 s i h st
  · exact (h2 _ _).trans (h1 s i h st)

theorem completed_keeps {α : Type} (g : State → α) (h1 : ∀ t i f, g (State.setEp t i f) = g t)
    (h2 : ∀ t h f, g (State.setReq t h f) = g t) (h3 : ∀ t f, g (State.setDev t f) = g t) (s : State) (i : Nat) (h : Handle)
    (st : Status) : g (s.completed i h st) = g s := by
  unfold State.completed
  split
  · rw [h3, h2, h1]
  · rw [h2, h1]

@[simp] theorem finished_sie (s : State) (i : Nat) (h : Handle) (st : Status) : (s.finished i h st).sie = s.sie :=
  finished_keeps (fun t => t.sie)
    (fun t i h st => completed_keeps (fun t => t.sie) (fun _ _ _ => rfl) (fun _ h _ => by cases h <;> rfl) (fun _ _ => rfl)
      t i h st)
    (fun t u => by cases hd : t.driverScript <;> simp [State.afterUpcall, State.afterResponse, State.enterUpcall,
      State.leaveUpcall, hd]) s i h st

@[simp] theorem finished_cfg (s : State) (i : Nat) (h : Handle) (st : Status) : (s.finished i h st).cfg = s.cfg :=
  finished_keeps (fun t => t.cfg)
    (fun t i h st => completed_keeps (fun t => t.cfg) (fun _ _ _ => rfl) (fun _ h _ => by cases h <;> rfl) (fun _ _ => rfl)
      t i h st)
    (fun t u => by cases hd : t.driverScript <;> simp [State.afterUpcall, State.afterResponse, State.enterUpcall,
      State.leaveUpcall, hd]) s i h st

@[simp] theorem finished_mem (s : State) (i : Nat) (h : Handle) (st : Status) : (s.finished i h st).mem = s.mem :=
  finished_keeps (fun t => t.mem)
    (fun t i h st => completed_keeps (fun t => t.mem) (fun _ _ _ => rfl) (fun _ h _ => by cases h <;> rfl) (fun _ _ => rfl)
      t i h st)
    (fun t u => by cases hd : t.driverScript <;> simp [State.afterUpcall, State.afterResponse, State.enterUpcall,
      State.leaveUpcall, hd]) s i h st

theorem foldl_finished_keeps {α : Type} (g : State → α) (hg : ∀ t i h st, g (State.finished t i h st) = g t) (i : Nat)
    (st : Status) (l : List Handle) (s : State) : g (l.foldl (fun t h => t.finished i h st) s) = g s := by
  induction l generalizing s with
  | nil => rfl
  | cons h l ih => exact (ih _).trans (hg s i h st)

@[simp] theorem finishedAll_sie (s : State) (i : Nat) (st : Status) : (s.finishedAll i st).sie = s.sie :=
  foldl_finished_keeps (fun t => t.sie) finished_sie i st _ _

@[simp] theorem finishedAll_cfg (s : State) (i : Nat) (st : Status) : (s.finishedAll i st).cfg = s.cfg :=
  foldl_finished_keeps (fun t => t.cfg) finished_cfg i st _ _

@[simp] theorem finishedAll_mem (s : State) (i : Nat) (st : Status) : (s.finishedAll i st).mem = s.mem :=
  foldl_finished_keeps (fun t => t.mem) finished_mem i st _ _

@[simp] theorem setReq_sie' (s : State) (h : Handle) (f : Request → Request) : (s.setReq h f).sie = s.sie := by
  cases h <;> rfl

@[simp] theorem setReq_cfg' (s : State) (h : Handle) (f : Request → Request) : (s.setReq h f).cfg = s.cfg := by
  cases h <;> rfl

theorem ite_finished_sie (c : Prop) [Decidable c] (t : State) (i : Nat) (h : Handle) (st : Status) :
    (if c then t.finished i h st else t).sie = t.sie := by split <;> simp

theorem ite_finished_cfg (c : Prop) [Decidable c] (t : State) (i : Nat) (h : Handle) (st : Status) :
    (if c then t.finished i h st else t).cfg = t.cfg := by split <;> simp

/-- The SIE after one IN packet has been staged. -/
theorem sentPacket_sie (s : State) (i : Nat) (h : Handle) :
    (s.sentPacket i h).sie = s.sie.setEp i fun e =>
      { e with txQueue := e.txQueue ++ [s.bufferBytes (s.req h).buf (s.req h).actual (s.nextPacket i h)], txCur := none } := by
  unfold State.sentPacket
  rw [ite_finished_sie, setReq_sie', setSieEp_sie]

@[simp] theorem sentPacket_cfg (s : State) (i : Nat) (h : Handle) : (s.sentPacket i h).cfg = s.cfg := by
  unfold State.sentPacket
  rw [ite_finished_cfg, setReq_cfg', setSieEp_cfg]

/-- The SIE after the head staged packet has been received. -/
theorem receivedPacket_sie (s : State) (i : Nat) (h : Handle) :
    (s.receivedPacket i h).sie = s.sie.setEp i (SieEndpoint.dropPackets 1) := by
  unfold State.receivedPacket
  rw [ite_finished_sie, setReq_sie', setSieEp_sie, storeBytes_sie]

@[simp] theorem receivedPacket_cfg (s : State) (i : Nat) (h : Handle) : (s.receivedPacket i h).cfg = s.cfg := by
  unfold State.receivedPacket
  rw [ite_finished_cfg, setReq_cfg', setSieEp_cfg, storeBytes_cfg]

theorem State.Undisturbed.ite_finished {t : State} (ht : t.Undisturbed) (c : Prop) [Decidable c] (i : Nat) (h : Handle)
    (st : Status) : (if c then t.finished i h st else t).Undisturbed := by
  split
  · exact ht.finished i h st
  · exact ht

theorem State.Undisturbed.sentPacket {s : State} (hs : s.Undisturbed) (i : Nat) (h : Handle) :
    (s.sentPacket i h).Undisturbed := by
  refine State.Undisturbed.ite_finished ?_ _ i h .ok
  exact (hs.setSieEp i _).setReq h (fun _ => rfl) fun _ => rfl

theorem State.Undisturbed.receivedPacket {s : State} (hs : s.Undisturbed) (i : Nat) (h : Handle) :
    (s.receivedPacket i h).Undisturbed := by
  refine State.Undisturbed.ite_finished ?_ _ i h .ok
  exact ((hs.storeBytes _ _ _).setSieEp i _).setReq h (fun _ => rfl) fun _ => rfl

theorem State.Undisturbed.served {s : State} (hs : s.Undisturbed) (i : Nat) : (s.served i).Undisturbed := by
  unfold State.served
  split
  · exact hs
  · split
    · exact hs.sentPacket i _
    · exact hs.receivedPacket i _

theorem State.Undisturbed.tried {s : State} (hs : s.Undisturbed) (i : Nat) : (s.tried i).Undisturbed := by
  unfold State.tried
  split
  · exact hs.served i
  · exact hs

@[simp] theorem served_cfg (s : State) (i : Nat) : (s.served i).cfg = s.cfg := by
  unfold State.served
  split
  · rfl
  · split <;> simp

@[simp] theorem tried_cfg (s : State) (i : Nat) : (s.tried i).cfg = s.cfg := by
  unfold State.tried
  split <;> simp

theorem FifoOk.dropPackets {f n : Nat} {e : SieEndpoint} (he : e.FifoOk f) : (e.dropPackets n).FifoOk f := by
  unfold SieEndpoint.dropPackets
  split
  · rename_i hn
    subst hn
    exact he
  · exact ⟨fun p hp => he.rxSizes p (List.mem_of_mem_drop hp), by simp; have := he.rxCount; omega, rfl, .inl rfl, he.txSizes,
      he.txCount, he.txLacks⟩

theorem FifoOk.stagePacket {f : Nat} {e : SieEndpoint} (he : e.FifoOk f) (hsp : e.txSpace f = true) {b : List Byte}
    (hb : b.length ≤ 2047) : ({ e with txQueue := e.txQueue ++ [b], txCur := none } : SieEndpoint).FifoOk f := by
  have hl : e.txQueue.length < f := by
    unfold SieEndpoint.txSpace at hsp
    simp at hsp
    exact hsp.1
  refine ⟨he.rxSizes, he.rxCount, he.rxEven, he.rxInside, fun p hp => ?_, by simp; omega, fun _ h => by cases h⟩
  simp only [List.mem_append, List.mem_singleton] at hp
  rcases hp with hp | rfl
  · exact he.txSizes p hp
  · exact hb

/-! ### Serving an endpoint -/

/-- An endpoint the SIE has, with its FIFO in order: what an idle packet service needs. -/
structure State.Servable (s : State) (i : Nat) : Prop where
  exists_ : i < s.sie.eps.length
  fifo : (s.sie.ep i).FifoOk s.cfg.fifoPkts

theorem State.Inv.servable {s : State} (hs : s.Inv) {i : Nat} (hi : i < s.numEps) : s.Servable i :=
  ⟨hs.sieEndpoints ▸ hi, hs.fifo i⟩

/-- A request in an endpoint's queue passes the checks before its packet. -/
theorem needHead_run {β : Type} {s : State} (hs : s.Inv) {i : Nat} {h : Handle} (hq : h ∈ (s.ep i).queue)
    (f : Unit → Unit → Proc β) :
    (needRecord h >>= fun a => needCounts h >>= fun b => f a b) s = f () () s := by
  rw [bind_run_ok (a := ()) (t := s) (by unfold needRecord; rw [if_pos (hs.requests.known hq)]),
    bind_run_ok (a := ()) (t := s) (by unfold needCounts; rw [if_pos (hs.requests.inWidth hq)])]

theorem start_idle {s : State} (hs : s.Inv) (hu : s.Undisturbed) (n : Nat) {i : Nat} (hi : i < s.numEps)
    (hr : s.ready i = true) : ∃ last, start (upcalls n) i s = .ok (last, s.served i) := by
  have hv := hs.servable hi
  unfold start State.served
  simp only [look_bind_run]
  cases hq : (s.ep i).queue with
  | nil => exact ⟨false, rfl⟩
  | cons h rest =>
    dsimp only
    rw [needHead_run hs (i := i) (by simp [hq]) fun _ _ => _]
    simp only [look_bind_run]
    cases hd : s.epDir i with
    | IN =>
      refine writeFifo_idle hu n hv.exists_ ?_ h
      simp only [State.ready, State.canStart, hd, Bool.and_eq_true] at hr
      exact hr.2.2
    | OUT => exact readFifo_idle hu n hv.exists_ hv.fifo h

theorem State.Inv.served {s : State} (hs : s.Inv) (hu : s.Undisturbed) {i : Nat} (hi : i < s.numEps)
    (hr : s.ready i = true) : (s.served i).Inv := by
  obtain ⟨_, h⟩ := start_idle hs hu 0 hi hr
  exact (InvKept.commands.start (InvKept.commands.upcalls 0) i _ _ _ h).2 hs

theorem State.Inv.tried {s : State} (hs : s.Inv) (hu : s.Undisturbed) {i : Nat} (hi : i < s.numEps) : (s.tried i).Inv := by
  unfold State.tried
  split
  · exact hs.served hu hi ‹_›
  · exact hs

theorem tryStart_idle {s : State} (hs : s.Inv) (hu : s.Undisturbed) (n : Nat) {i : Nat} (hi : i < s.numEps) :
    tryStart (upcalls n) i s = .ok (s.ready i, s.tried i) := by
  unfold tryStart
  rw [look_bind_run, ite_run]
  by_cases hq : (s.ep i).queue.isEmpty = true
  · have hr : s.ready i = false := by simp [State.ready, hq]
    simp [hq, State.tried, hr]
  · rw [if_pos (by simpa using hq), bind_run_ok (canStart_quiet hu.quiet i), ite_run]
    have hr : s.ready i = s.canStart i := by simp [State.ready, hq]
    by_cases hc : s.canStart i = true
    · obtain ⟨last, hl⟩ := start_idle hs hu n hi (hr.trans hc)
      rw [if_pos hc, bind_run_ok hl]
      simp [State.tried, hr, hc]
    · simp only [Bool.not_eq_true] at hc
      simp [State.tried, hr, hc]

theorem service_idle {s : State} (hs : s.Inv) (hu : s.Undisturbed) (n : Nat) {i : Nat} (hi : i < s.numEps) (p : Bool) :
    service (upcalls n) i p s = .ok ((), s.serviced i p) := by
  unfold service State.serviced
  rw [bind_run_ok (tryStart_idle hs hu n hi), ite_run]
  by_cases hr : s.ready i = true
  · rw [if_pos hr, if_pos hr]
    have ht : s.tried i = s.served i := by simp [State.tried, hr]
    rw [ht]
    unfold twoPacket
    cases p
    · rfl
    · rw [if_pos rfl, if_pos rfl, bind_run_ok (tryStart_idle (hs.served hu hi hr) (hu.served i) n
        (by rwa [State.numEps, served_cfg]))]
      rfl
  · simp only [Bool.not_eq_true] at hr
    simp [hr, State.tried]

/-! ### Halting, shutting down, re-initializing, enabling, flushing -/

theorem haltFields_quiet {s : State} (h : s.betweenMoves = []) (i : Nat) (v : Bool) :
    haltFields i v s =
      .ok ((), (s.stallWritten i v).setEp i fun e => { e with halted := v }) := by
  unfold haltFields writeStallBit
  cases v
  · rw [if_neg (by simp), bind_run_ok (clearStallBit_quiet h i)]
    rfl
  · rw [if_pos rfl, bind_run_ok (setStallBit_quiet h i)]
    rfl

theorem shutFields_quiet {s : State} (hs : s.Inv) (h : s.betweenMoves = []) {i : Nat} (hi : 1 ≤ i) :
    shutFields i s = .ok ((), s.shutDown i) := by
  unfold shutFields
  rw [bind_run_ok (maskInterrupt_quiet h (eier_kept hs) hi)]
  rfl

theorem State.Inv.shutDown {s : State} (hs : s.Inv) (hu : s.Undisturbed) {i : Nat} (h1 : 1 ≤ i) (hi : i < s.numEps) :
    (s.shutDown i).Inv := (InvKept.commands.shut s i _ h1 hi (shutFields_quiet hs hu.quiet h1)).2 hs

theorem State.Undisturbed.shutDown {s : State} (hu : s.Undisturbed) (i : Nat) : (s.shutDown i).Undisturbed :=
  (hu.masked i).setEp i _

theorem State.Inv.finishedAll {s : State} (hs : s.Inv) (hu : s.Undisturbed) (i : Nat) (st : Status) :
    (s.finishedAll i st).Inv :=
  (InvKept.commands.nuke (InvKept.commands.upcalls 0) i st _ _ _ (nuke_idle hs hu 0 i st)).2 hs

theorem shutThenNuke_idle {s : State} (hs : s.Inv) (hu : s.Undisturbed) (n : Nat) {i : Nat} (h1 : 1 ≤ i)
    (hi : i < s.numEps) (st : Status) :
    (shutFields i >>= fun _ => nuke (upcalls n) i st) s = .ok ((), (s.shutDown i).finishedAll i st) := by
  rw [bind_run_ok (shutFields_quiet hs hu.quiet h1)]
  exact nuke_idle (hs.shutDown hu h1 hi) (hu.shutDown i) n i st

/-- A loop whose body, in every state with P, answers next by `g` and keeps P. -/
theorem eachOf_foldl {α : Type} {P : State → Prop} {f : α → Proc Unit} {g : State → α → State} (l : List α)
    (h : ∀ x ∈ l, ∀ t, P t → f x t = .ok ((), g t x) ∧ P (g t x)) {s : State} (hs : P s) :
    eachOf f l s = .ok ((), l.foldl g s) ∧ P (l.foldl g s) := by
  induction l generalizing s with
  | nil => exact ⟨rfl, hs⟩
  | cons x l ih =>
    obtain ⟨h1, h2⟩ := h x (by simp) s hs
    rw [eachOf_cons, bind_run_ok h1]
    exact ih (fun y hy => h y (by simp [hy])) h2

/-- What the loops over the endpoints need of each state they pass through. -/
structure State.Sweepable (s : State) (c : Config) : Prop where
  inv : s.Inv
  undisturbed : s.Undisturbed
  cfg : s.cfg = c

theorem State.Sweepable.below {s : State} {c : Config} (hs : s.Sweepable c) {i : Nat} (hi : i < c.numEndpoints) :
    i < s.numEps := by rwa [State.numEps, hs.cfg]

theorem State.Inv.sweepable {s : State} (hs : s.Inv) (hu : s.Undisturbed) : s.Sweepable s.cfg := ⟨hs, hu, rfl⟩

theorem State.Sweepable.finishedAll {s : State} {c : Config} (hs : s.Sweepable c) (i : Nat) (st : Status) :
    (s.finishedAll i st).Sweepable c :=
  ⟨hs.inv.finishedAll hs.undisturbed i st, hs.undisturbed.finishedAll i st, by simpa using hs.cfg⟩

theorem State.Sweepable.shutDown {s : State} {c : Config} (hs : s.Sweepable c) {i : Nat} (h1 : 1 ≤ i)
    (hi : i < c.numEndpoints) : (s.shutDown i).Sweepable c :=
  ⟨hs.inv.shutDown hs.undisturbed h1 (hs.below hi), hs.undisturbed.shutDown i, hs.cfg⟩

/-- A control write that clears STALL, then a size write. -/
theorem bindRegisters {t : State} (ht : t.betweenMoves = []) (i : Nat) {v : Word} (hv : ecrStall v = false) (m : BitVec 11) :
    (t.afterWrite (.ecr i) v).afterWrite (.mps i) (m.zeroExtend 32) =
      t.setSieEp i fun e => { e.writeControl v with mps := m } := by
  rw [afterWrite_quiet ht, afterWrite_quiet (by exact ht), write_ecr _ (.inr (.inl hv))]
  simp only [Sie.write, sieSetEp_setEp, State.setSieEp]
  congr 1
  refine sieSetEp_congr ?_
  simp only [Function.comp_apply, low11_zeroExtend]

/-- What EP_REINIT does before its NUKE, in one piece (R108). -/
theorem reinitFields_quiet {s : State} (hs : s.Inv) (hb : s.betweenMoves = []) {i : Nat} (hi : i < s.numEps) :
    reinitFields i s = .ok ((), s.reinitialized i) := by
  have hi' : i < s.eps.length := hs.endpoints ▸ hi
  have hz : ∀ m : BitVec 11, (fun e : SieEndpoint => ({ SieEndpoint.writeControl 0 e with mps := m } : SieEndpoint)) =
      fun e : SieEndpoint => { e with stall := false, dirIn := false, mps := m } := by
    intro m
    funext e
    rw [writeControl_zero]
  unfold reinitFields State.reinitialized
  dsimp only
  have he := eier_kept hs
  by_cases h0 : i = 0
  · subst h0
    simp only [if_true]
    simp only [change_bind_run, regWrite_bind_run, look_bind_run]
    rw [regWrite_run, bindRegisters (by exact hb) _ (by decide), hz]
    congr 3
    funext e
    congr 1
    rw [afterWrite_quiet (by exact hb)]
    show ((s.setEp 0 _).ep 0).mps = _
    rw [ep_setEp_self _ _ _ hi']
  · simp only [if_neg h0]
    have hm : maskInterrupt i (s.setEp i fun e =>
        { e with enabled := false, halted := true, mps := Config.bulkMps s.cfg s.dev.speed }) =
        .ok ((), (s.setEp i fun e =>
          { e with enabled := false, halted := true, mps := Config.bulkMps s.cfg s.dev.speed }).masked i) :=
      maskInterrupt_quiet (by exact hb) (by exact he) (Nat.one_le_iff_ne_zero.mpr h0)
    have hq : (((s.setEp i fun e =>
        { e with enabled := false, halted := true, mps := Config.bulkMps s.cfg s.dev.speed }).masked i)).betweenMoves = [] :=
      hb
    rw [change_bind_run, bind_run_ok hm]
    simp only [regWrite_bind_run, look_bind_run]
    rw [regWrite_run, bindRegisters hq _ (by decide), hz]
    congr 3
    funext e
    congr 1
    rw [afterWrite_quiet hq]
    show ((s.setEp i _).ep i).mps = _
    rw [ep_setEp_self _ _ _ hi']

theorem State.Undisturbed.reinitialized {s : State} (hu : s.Undisturbed) (i : Nat) : (s.reinitialized i).Undisturbed := by
  unfold State.reinitialized
  dsimp only
  refine State.Undisturbed.setSieEp ?_ i _
  split
  · exact hu.setEp 0 _
  · exact (hu.masked i).setEp i _

@[simp] theorem reinitialized_cfg (s : State) (i : Nat) : (s.reinitialized i).cfg = s.cfg := by
  unfold State.reinitialized
  dsimp only
  split <;> rfl

@[simp] theorem reinitialized_betweenMoves (s : State) (i : Nat) : (s.reinitialized i).betweenMoves = s.betweenMoves := by
  unfold State.reinitialized
  dsimp only
  split <;> rfl

theorem State.Inv.reinitialized {s : State} (hs : s.Inv) (hb : s.betweenMoves = []) {i : Nat} (hi : i < s.numEps) :
    (s.reinitialized i).Inv := (InvKept.pump.reinit s i _ (.inr hi) (reinitFields_quiet hs hb hi)).2 hs

theorem State.Undisturbed.foldl_reinitialized {s : State} (hu : s.Undisturbed) (l : List Nat) :
    (l.foldl State.reinitialized s).Undisturbed := by
  induction l generalizing s with
  | nil => exact hu
  | cons i l ih => exact ih (hu.reinitialized i)

/-- The re-initialization of a list of endpoints, whatever the class driver is. -/
theorem eachOf_reinitFields_quiet {s : State} (hs : s.Inv) (hb : s.betweenMoves = []) {l : List Nat}
    (hl : ∀ i ∈ l, i < s.numEps) :
    eachOf reinitFields l s = .ok ((), l.foldl State.reinitialized s) ∧ (l.foldl State.reinitialized s).Inv ∧
    (l.foldl State.reinitialized s).betweenMoves = [] ∧ (l.foldl State.reinitialized s).cfg = s.cfg :=
  eachOf_foldl (P := fun t => State.Inv t ∧ t.betweenMoves = [] ∧ t.cfg = s.cfg) l (fun i hi t ⟨h1, h2, h3⟩ => by
    have h4 : i < t.numEps := by
      rw [State.numEps, h3]
      exact hl i hi
    exact ⟨reinitFields_quiet h1 h2 h4, h1.reinitialized h2 h4, by rwa [reinitialized_betweenMoves],
      by rwa [reinitialized_cfg]⟩) ⟨hs, hb, rfl⟩

theorem eachOf_shutFields_idle {s : State} {c : Config} (hs : s.Sweepable c) {l : List Nat}
    (hl : ∀ i ∈ l, 1 ≤ i ∧ i < c.numEndpoints) :
    eachOf shutFields l s = .ok ((), l.foldl State.shutDown s) ∧ (l.foldl State.shutDown s).Sweepable c :=
  eachOf_foldl (P := fun t => State.Sweepable t c) l (fun _ hi _ ht =>
    ⟨shutFields_quiet ht.inv ht.undisturbed.quiet (hl _ hi).1, ht.shutDown (hl _ hi).1 (hl _ hi).2⟩) hs

theorem eachOf_nuke_idle {s : State} {c : Config} (hs : s.Sweepable c) (n : Nat) (st : Status) (l : List Nat) :
    eachOf (fun i => nuke (upcalls n) i st) l s = .ok ((), l.foldl (fun t i => t.finishedAll i st) s) ∧
    (l.foldl (fun t i => t.finishedAll i st) s).Sweepable c :=
  eachOf_foldl (P := fun t => State.Sweepable t c) l (fun i _ _ ht =>
    ⟨nuke_idle ht.inv ht.undisturbed n i st, ht.finishedAll i st⟩) hs

theorem eachOf_shutDownEndpoint_idle {s : State} {c : Config} (hs : s.Sweepable c) (n : Nat) {l : List Nat}
    (hl : ∀ i ∈ l, 1 ≤ i ∧ i < c.numEndpoints) :
    eachOf (shutDownEndpoint (upcalls n)) l s =
      .ok ((), l.foldl (fun t i => (t.shutDown i).finishedAll i .shutdownError) s) ∧
    (l.foldl (fun t i => (t.shutDown i).finishedAll i .shutdownError) s).Sweepable c :=
  eachOf_foldl (P := fun t => State.Sweepable t c) l
    (fun _ hi _ ht => ⟨shutThenNuke_idle ht.inv ht.undisturbed n (hl _ hi).1 (ht.below (hl _ hi).2) .shutdownError,
      (ht.shutDown (hl _ hi).1 (hl _ hi).2).finishedAll _ _⟩) hs

theorem dataEps_below {s : State} (hs : s.Inv) {i : Nat} (hi : i ∈ (0 :: s.dataEps)) : i < s.numEps := by
  rcases List.mem_cons.mp hi with rfl | hi
  · have := (config_bounds hs.configuration).1
    show 0 < s.cfg.numEndpoints
    omega
  · exact (mem_dataEps hi).2

/-- Whatever the class driver is, every endpoint is re-initialized before the first nuke (R108, R122, R123, R128,
assumption 19). -/
theorem reinitAll_quiet {s : State} (hs : s.Inv) (hb : s.betweenMoves = []) (up : Upcalls) (st : Status) :
    reinitAll up st s = eachOf (fun i => nuke up i st) (0 :: s.dataEps) s.allReinitialized := by
  unfold reinitAll State.allReinitialized
  rw [look_bind_run, bind_run_ok (eachOf_reinitFields_quiet hs hb fun i hi => dataEps_below hs hi).1]

/-- Every endpoint is re-initialized, then every request ends. -/
theorem reinitAll_idle {s : State} (hs : s.Inv) (hu : s.Undisturbed) (n : Nat) (st : Status) :
    reinitAll (upcalls n) st s =
      .ok ((), (0 :: s.dataEps).foldl (fun t i => t.finishedAll i st) s.allReinitialized) := by
  obtain ⟨_, h1, _, h2⟩ := eachOf_reinitFields_quiet hs hu.quiet fun i hi => dataEps_below hs hi
  rw [reinitAll_quiet hs hu.quiet]
  exact (eachOf_nuke_idle ⟨h1, hu.foldl_reinitialized _, h2⟩ n st _).1

/-- What ENABLE writes (R110). -/
theorem enableFields_quiet {s : State} (hs : s.Inv) (hu : s.Undisturbed) {i : Nat} (hi : i < s.numEps) (size : BitVec 11) :
    enableFields i size s =
      .ok ((), ((s.setSieEp i fun e =>
        { e with stall := false, dirIn := decide (Config.dirOf s.cfg i = .IN), mps := size }).setEp i
          fun e => { e with mps := size, enabled := true, halted := false }).unmasked i) := by
  unfold enableFields
  rw [look_bind_run, regWrite_bind_run, regWrite_bind_run,
    bindRegisters hu.quiet _ (by unfold bindDirection; split <;> rfl), change_bind_run]
  have hw : ∀ (d : Dir) (e : SieEndpoint), SieEndpoint.writeControl (bindDirection d) e =
      { e with stall := false, dirIn := decide (d = .IN) } := by
    intro d e
    cases d <;> simp [SieEndpoint.writeControl, bindDirection, ecrStall, ecrFlush, ecrDirIn]
  simp only [hw]
  have he := eier_kept hs
  exact unmaskInterrupt_quiet (by exact hu.quiet) (by exact he) (by exact hi) (config_bounds hs.configuration).2.1

theorem flushIn_quiet {s : State} (h : s.betweenMoves = []) (i : Nat) :
    flushIn i s = .ok ((), s.setSieEp i fun e => { e with txQueue := [], txCur := none }) := by
  unfold flushIn
  rw [bind_run_ok (regRead_quiet h rfl), regWrite_quiet h]
  have hv : ecrStall ((s.sie.ep i).ecrWord ||| 0x2) = (s.sie.ep i).stall := by simp [ecrStall, SieEndpoint.ecrWord]
  simp only [Sie.read]
  rw [write_ecr]
  · congr 2
    exact setSieEp_congr (writeControl_flush _)
  · by_cases h0 : i = 0
    · subst h0
      rw [hv]
      cases (s.sie.ep 0).stall <;> simp
    · exact .inl h0

theorem readWords_nothing (i : Nat) (b : Buffer) (off m k : Nat) : readWords i b off 0 m k = discardWords i m := by
  induction m generalizing k with
  | zero => rfl
  | succ m ih =>
    unfold readWords discardWords
    funext s
    simp only [Nat.not_lt_zero, decide_false, ih]
    rfl

theorem setSieEp_dropPackets_zero (s : State) (i : Nat) : s.setSieEp i (SieEndpoint.dropPackets 0) = s := by
  unfold State.setSieEp
  rw [sieSetEp_eq_self]
  simp [SieEndpoint.dropPackets]

theorem dropPackets_dropPackets (p : Nat) :
    SieEndpoint.dropPackets p ∘ SieEndpoint.dropPackets 1 = SieEndpoint.dropPackets (p + 1) := by
  funext e
  simp only [Function.comp_apply, SieEndpoint.dropPackets, List.drop_drop]
  simp
  omega

/-- The word-count read and the word reads of one drain (R116). -/
theorem drainOne_quiet {s : State} (hq : s.betweenMoves = []) {i : Nat} (hv : s.Servable i) {β : Type}
    (g : Unit → Proc β) :
    (readWordCount i >>= fun w => discardWords i w >>= g) s = g () (s.setSieEp i (SieEndpoint.dropPackets 1)) := by
  rw [bind_run_ok (readWordCount_quiet hq i (receivedBytes_eq hv.fifo 0 0).1)]
  have h := readWords_packet (s := s) hv.exists_ hv.fifo (b := .none) (off := 0) (n := 0) (by omega) (by simp)
    (t := s.setSieEp i fun e => e.readWordCount.2) rfl hq rfl
  rw [readWords_nothing] at h
  rw [bind_run_ok h]
  rfl

theorem drainPackets_quiet {s : State} (hq : s.betweenMoves = []) {i : Nat} (hv : s.Servable i) (p : Nat) :
    drainPackets i p s = .ok ((), s.setSieEp i (SieEndpoint.dropPackets p)) := by
  induction p generalizing s with
  | zero =>
    rw [setSieEp_dropPackets_zero]
    rfl
  | succ p ih =>
    unfold drainPackets
    rw [drainOne_quiet hq hv, ih (s := s.setSieEp i (SieEndpoint.dropPackets 1)) (by exact hq), setSieEp_setSieEp, dropPackets_dropPackets]
    exact ⟨by simpa using hv.exists_, by
      rw [setSieEp_sie, sieEp_setEp_self _ _ _ hv.exists_]
      exact FifoOk.dropPackets hv.fifo⟩

theorem flushOut_quiet {s : State} (hq : s.betweenMoves = []) {i : Nat} (hv : s.Servable i) :
    flushOut i s = .ok ((), s.setSieEp i (SieEndpoint.dropPackets (s.stagedPackets i))) := by
  have hp : (if (s.sie.ep i).rxReady then (if (s.sie.ep i).psifTwo s.cfg.fifoPkts then 2 else 1) else 0) =
      s.stagedPackets i := by
    unfold State.stagedPackets SieEndpoint.rxReady
    cases (s.sie.ep i).rxQueue <;> rfl
  unfold flushOut
  rw [bind_run_ok (regRead_quiet hq rfl)]
  simp only [Sie.read, esrRxReady_esrWord, esrPsifTwo_esrWord]
  rw [hp]
  exact drainPackets_quiet hq hv _

theorem resumeIn_idle {s : State} (hs : s.Inv) (hu : s.Undisturbed) (n : Nat) {i : Nat} (hi : i < s.numEps) :
    resumeIn (upcalls n) i s = .ok ((), if s.epDir i = .IN then s.tried i else s) := by
  unfold resumeIn
  rw [look_bind_run, ite_run]
  by_cases hd : s.epDir i = .IN
  · rw [if_pos (by simpa using hd), if_pos hd, bind_run_ok (tryStart_idle hs hu n hi)]
    rfl
  · rw [if_neg (by simpa using hd), if_neg hd]
    rfl

theorem ackSystem_quiet {s : State} (h : s.betweenMoves = []) {k : Nat} (hk : k < 8) :
    ackSystem k s = .ok ((), s.systemAcked k) := by
  unfold ackSystem
  rw [regWrite_quiet h]
  simp only [Sie.write, State.systemAcked]
  congr 5
  unfold bitAt
  have : ∀ k : Fin 8, (1#32 <<< (k : Nat)).truncate 8 = 1#8 <<< (k : Nat) := by decide
  exact congrArg _ (this ⟨k, hk⟩)

theorem ackEndpoint_quiet {s : State} (h : s.betweenMoves = []) (i k : Nat) :
    ackEndpoint i k s = .ok ((), s.setSieEp i (SieEndpoint.clearEvents (bitAt k true))) := by
  unfold ackEndpoint
  rw [regWrite_quiet h]
  rfl

end Sys2Proof.Machine
end

