-- ==== Sys2Proof/Laws/Check.lean ====
section
/-! SUPPORT. The invariants of a state, and that the agents around the core do not interfere with it, as checks that can be
evaluated on a state written out. -/

namespace Sys2Proof.Machine

/-- `SieEndpoint.FifoOk` as a check. -/
def SieEndpoint.fifoOk (fifoPkts : Nat) (e : SieEndpoint) : Bool :=
  (e.rxQueue.all fun p => decide (p.bytes.length ≤ 2047)) && decide (e.rxQueue.length ≤ fifoPkts) &&
  decide (e.rxPos % 2 = 0) && decide (e.rxPos = 0 ∨ e.rxPos < e.headLength) &&
  (e.txQueue.all fun p => decide (p.length ≤ 2047)) && decide (e.txQueue.length ≤ fifoPkts) &&
  (match e.txCur with
    | none => true
    | some p => decide (p.bytes.length < p.count.toNat))

theorem fifoOk_sound {f : Nat} {e : SieEndpoint} (h : e.fifoOk f = true) : e.FifoOk f := by
  simp only [SieEndpoint.fifoOk, Bool.and_eq_true, List.all_eq_true, decide_eq_true_eq] at h
  obtain ⟨⟨⟨⟨⟨⟨h1, h2⟩, h3⟩, h4⟩, h5⟩, h6⟩, h7⟩ := h
  refine ⟨h1, h2, h3, h4, h5, h6, fun p hp => ?_⟩
  simpa [hp] using h7

/-- What the invariants say of data endpoint i. -/
def State.dataEpOk (s : State) (i : Nat) : Bool :=
  (s.ep i).enabled || (s.ep i).halted

/-- What the invariants say of endpoint i's registers. -/
def State.registersOk (s : State) (i : Nat) : Bool :=
  (!(s.sie.ep i).stall || (s.ep i).halted) && decide ((s.sie.ep i).mps = (s.ep i).mps)

/-- What the invariants say of data endpoint i's size and direction. -/
def State.bindingOk (s : State) (i : Nat) : Bool :=
  decide ((s.ep i).mps = s.cfg.bulkMpsFs ∨ (s.ep i).mps = s.cfg.bulkMpsHs) &&
  (!(s.ep i).enabled || decide ((s.sie.ep i).dirIn = decide (Config.dirOf s.cfg i = .IN)))

/-- `Request.CountsOk` as a check. -/
def Request.countsOk (r : Request) : Bool :=
  decide (r.actual ≤ r.length) && decide (r.length < 2 ^ 32)

/-- `Request.ReplyOk` as a check. -/
def Request.replyOk (r : Request) : Bool :=
  decide (r.buf = .coreBytes ∧ r.callback = none ∧ r.zero = false ∧ r.length ≤ 2 ∧ r.actual ≤ r.length)

/-- What the invariants say of endpoint i's queue. -/
def State.queueOk (s : State) (i : Nat) : Bool :=
  ((s.ep i).queue.all fun h => decide ((s.req h).queuedOn = some i)) && decide (s.ep i).queue.Nodup

/-- `State.RequestsOk` as a check. -/
def State.requestsOk (s : State) : Bool :=
  (s.reqs.all fun p => p.2.countsOk) && s.statusReq.replyOk && ((List.range s.eps.length).all fun i => s.queueOk i)

theorem requestsOk_sound {s : State} (h : s.requestsOk = true) : s.RequestsOk := by
  simp only [State.requestsOk, Request.countsOk, Request.replyOk, State.queueOk, Bool.and_eq_true, List.all_eq_true,
    decide_eq_true_eq, List.mem_range] at h
  obtain ⟨⟨h1, h2, h3, h4, h5, h6⟩, h8⟩ := h
  have hq : ∀ i, i < s.eps.length ∨ (s.ep i).queue = [] := by
    intro i
    by_cases hi : i < s.eps.length
    · exact .inl hi
    · exact .inr (by simp [State.ep, Nat.le_of_not_lt hi, Endpoint.absent])
  refine ⟨fun p hp => ⟨(h1 p hp).1, (h1 p hp).2⟩, ⟨h2, h3, h4, h5, h6⟩, fun i h hh => ?_, fun i => ?_⟩
  · rcases hq i with hi | hi
    · exact (h8 i hi).1 h hh
    · simp [hi] at hh
  · rcases hq i with hi | hi
    · exact (h8 i hi).2
    · simp [hi]

/-- `State.Inv` as a check. -/
def State.invOk (s : State) : Bool :=
  s.cfg.wf && decide (s.eps.length = s.numEps) && decide (s.sie.eps.length = s.numEps) && decide (Memory.wf s.mem) &&
  (s.ep 0).enabled && (s.dataEps.all fun i => s.dataEpOk i) &&
  decide (s.sie.eier = wordOfBits 0 ((List.range s.numEps).map fun k => (s.ep k).enabled)) &&
  ((List.range s.numEps).all fun i => s.registersOk i) &&
  decide ((s.ep 0).mps = s.cfg.ep0MpsFs ∨ (s.ep 0).mps = s.cfg.ep0MpsHs) && (s.dataEps.all fun i => s.bindingOk i) &&
  decide (s.dev.config ≠ 0 → s.dev.state = .configured) &&
  s.requestsOk &&
  (s.sie.eps.all fun e => e.fifoOk s.cfg.fifoPkts)

theorem mem_dataEps_iff {s : State} {i : Nat} : i ∈ s.dataEps ↔ 1 ≤ i ∧ i < s.numEps := by
  simp only [State.dataEps, List.mem_range'_1]
  omega

theorem invOk_sound {s : State} (h : s.invOk = true) : s.Inv := by
  simp only [State.invOk, Bool.and_eq_true, List.all_eq_true, decide_eq_true_eq, State.dataEpOk, State.registersOk,
    State.bindingOk, Bool.or_eq_true, Bool.not_eq_true', List.mem_range] at h
  obtain ⟨⟨⟨⟨⟨⟨⟨⟨⟨⟨⟨⟨h1, h2⟩, h3⟩, h4⟩, h5⟩, h6⟩, h7⟩, h8⟩, h9⟩, h10⟩, h11⟩, h12⟩, h13⟩ := h
  have hb := config_bounds h1
  refine ⟨h1, h2, h3, h4, h5, ?_, ?_, ?_, ?_, h9, ?_, ?_, h11, requestsOk_sound h12,
    fun e he => fifoOk_sound (h13 e he)⟩
  · intro i h1 h2 he
    rcases h6 i (mem_dataEps_iff.mpr ⟨h1, h2⟩) with h | h
    · simp [h] at he
    · exact h
  · intro k
    have hN : s.numEps ≤ 16 := hb.2.1
    rw [h7, getLsbD_wordOfBits _ _ _ (by simp; omega)]
    by_cases hk : k < s.numEps
    · simp [hk, List.getD_eq_getElem?_getD]
    · simp [hk, List.getD_eq_getElem?_getD]
  · intro i hi hst
    rcases (h8 i hi).1 with h | h
    · simp [h] at hst
    · exact h
  · exact fun i hi => (h8 i hi).2
  · exact fun i h1 h2 => (h10 i (mem_dataEps_iff.mpr ⟨h1, h2⟩)).1
  · intro i h1 h2 he
    rcases (h10 i (mem_dataEps_iff.mpr ⟨h1, h2⟩)).2 with h | h
    · simp [h] at he
    · exact h

/-- A request's buffer lies in memory. -/
def Request.fits (memSize : Nat) (r : Request) : Bool :=
  match r.buf with
  | .sysMem a => decide (a.toNat + r.length ≤ memSize)
  | .none | .coreBytes => true

/-- `State.Undisturbed` as a check. -/
def State.undisturbedOk (s : State) : Bool :=
  s.betweenMoves.isEmpty && (s.driverScript.all fun r => r.actions.isEmpty) &&
  (s.reqs.all fun p => p.2.fits s.cfg.memSize) && s.statusReq.fits s.cfg.memSize

theorem undisturbedOk_sound {s : State} (h : s.undisturbedOk = true) : s.Undisturbed := by
  simp only [State.undisturbedOk, Bool.and_eq_true, List.all_eq_true, List.isEmpty_iff] at h
  obtain ⟨⟨⟨h1, h2⟩, h3⟩, h4⟩ := h
  have key : ∀ r : Request, r.fits s.cfg.memSize = true → ∀ a, r.buf = .sysMem a → a.toNat + r.length ≤ s.cfg.memSize := by
    intro r hr a ha
    simpa [Request.fits, ha] using hr
  refine ⟨h1, h2, fun h a ha => ?_⟩
  cases h with
  | statusReq => exact key _ h4 a ha
  | user k =>
    simp only [State.req] at ha ⊢
    cases hf : findRequest k s.reqs with
    | none => simp [hf, Request.absent] at ha
    | some r =>
      simp only [hf, Option.getD_some] at ha ⊢
      exact key r (h3 _ (findRequest_mem hf)) a ha

end Sys2Proof.Machine
end

