-- ==== Sys2Proof/Laws/Upcall.lean ====
section
/-! SUPPORT. The nesting bound of `upcalls` cuts nothing off (R200): the class driver's script never grows, each answer
that holds an action is taken off it, so more levels than the script has entries change nothing. -/

namespace Sys2Proof.Machine

/-- The class driver's script is not longer than it was. -/
def ScriptShrinks (s t : State) : Prop := t.driverScript.length ≤ s.driverScript.length

theorem scriptShrinks_of_eq {s t : State} (h : t.driverScript = s.driverScript) : ScriptShrinks s t := by
  unfold ScriptShrinks
  rw [h]

theorem afterResponse_driverScript (s : State) : s.afterResponse.driverScript = s.driverScript.tail := by
  unfold State.afterResponse
  split <;> simp_all

theorem ScriptShrinks.effect : EffectKept ScriptShrinks where
  refl := fun _ => Nat.le_refl _
  trans := fun _ _ _ h1 h2 => Nat.le_trans h2 h1
  read := fun s _ => scriptShrinks_of_eq (busTick_driverScript s)
  write := fun s _ _ => scriptShrinks_of_eq (busTick_driverScript s)
  setEp := fun _ _ _ => scriptShrinks_of_eq rfl
  setReq := fun _ h _ => scriptShrinks_of_eq (by cases h <;> rfl)
  byte := fun _ _ _ => scriptShrinks_of_eq rfl
  statusByte := fun _ _ _ => scriptShrinks_of_eq rfl
  returned := fun _ _ => scriptShrinks_of_eq rfl
  ctl := fun _ _ => scriptShrinks_of_eq rfl
  upcall := fun s u ret t h => by
    refine Nat.le_trans (m := t.driverScript.length) (Nat.le_refl _) (Nat.le_trans h ?_)
    rw [afterResponse_driverScript, List.length_tail]
    exact Nat.sub_le _ _

/-- Two procedures that are the same from every state whose script has at most n entries, and that never lengthen it. -/
structure Alike {α : Type} (n : Nat) (p q : Proc α) : Prop where
  same : ∀ s, s.driverScript.length ≤ n → p s = q s
  shrinks : Within ScriptShrinks p

theorem Alike.rfl {α : Type} {n : Nat} {p : Proc α} (h : Within ScriptShrinks p) : Alike n p p := ⟨fun _ _ => Eq.refl _, h⟩

theorem Alike.bind {α β : Type} {n : Nat} {p q : Proc α} {f g : α → Proc β} (h1 : Alike n p q)
    (h2 : ∀ a, Alike n (f a) (g a)) : Alike n (p >>= f) (q >>= g) where
  same := fun s hs => by
    rw [bind_run, bind_run, ← h1.same s hs]
    cases hp : p s with
    | error e => rfl
    | ok r => exact (h2 r.1).same r.2 (Nat.le_trans (h1.shrinks s r.1 r.2 hp) hs)
  shrinks := Within.bind ScriptShrinks.effect.trans h1.shrinks fun a => (h2 a).shrinks

theorem Alike.look {α β : Type} {n : Nat} {f : State → α} {g h : α → Proc β} (h2 : ∀ a, Alike n (g a) (h a)) :
    Alike n (Machine.look f >>= g) (Machine.look f >>= h) :=
  Alike.bind (Alike.rfl (Within.look ScriptShrinks.effect.refl f)) h2

theorem Alike.read {β : Type} {n : Nat} {r : Reg} {g h : Word → Proc β} (h2 : ∀ a, Alike n (g a) (h a)) :
    Alike n (Machine.regRead r >>= g) (Machine.regRead r >>= h) :=
  Alike.bind (Alike.rfl (ScriptShrinks.effect.regRead r)) h2

theorem Alike.change {n : Nat} {f : State → State} (hf : ∀ s, (f s).driverScript = s.driverScript) :
    Alike n (Machine.change f) (Machine.change f) :=
  Alike.rfl (Within.change fun s => scriptShrinks_of_eq (hf s))

theorem Alike.pure {α : Type} {n : Nat} (a : α) : Alike n (pure a : Proc α) (Pure.pure a) :=
  Alike.rfl (Within.pure ScriptShrinks.effect.refl a)

theorem Alike.ite {α : Type} {n : Nat} {c : Prop} [Decidable c] {p q p' q' : Proc α} (h1 : Alike n p p')
    (h2 : Alike n q q') : Alike n (if c then p else q) (if c then p' else q') := by
  split
  · exact h1
  · exact h2

theorem Alike.eachOf {α : Type} {n : Nat} {f g : α → Proc Unit} {l : List α} (h : ∀ x, Alike n (f x) (g x)) :
    Alike n (Machine.eachOf f l) (Machine.eachOf g l) := by
  induction l with
  | nil => exact Alike.pure ()
  | cons x l ih => exact Alike.bind (h x) fun _ => ih

theorem Alike.inCommand {α : Type} {n : Nat} {p q : Proc α} (i : Instr) (h : Alike n p q) :
    Alike n (Machine.inCommand i p) (Machine.inCommand i q) where
  same := fun s hs => by
    unfold Machine.inCommand
    rw [h.same s hs]
  shrinks := Within.inCommand h.shrinks

theorem Alike.unit {α : Type} {n : Nat} {p q : Proc α} (h : Alike n p q) :
    Alike n (p >>= fun _ => (Pure.pure () : Proc Unit)) (q >>= fun _ => Pure.pure ()) :=
  Alike.bind h fun _ => Alike.pure ()

section rules
variable {n : Nat} {up up' : Upcalls} (hu : ∀ u, Alike n (up u) (up' u))
include hu

theorem Alike.complete (i : Nat) (h : Handle) (st : Status) :
    Alike n (Machine.complete up i h st) (Machine.complete up' i h st) := by
  refine Alike.bind (Alike.rfl (Within.change fun s => ScriptShrinks.effect.completed s i h st)) fun _ => Alike.look fun c => ?_
  cases c
  · exact Alike.pure ()
  · exact Alike.unit (hu _)

omit hu in
theorem Alike.needRecord (h : Handle) : Alike n (Machine.needRecord h) (Machine.needRecord h) :=
  Alike.rfl fun _ _ _ hr => scriptShrinks_of_eq (by rw [(needRecord_ok hr).1])

omit hu in
theorem Alike.needCounts (h : Handle) : Alike n (Machine.needCounts h) (Machine.needCounts h) :=
  Alike.rfl fun _ _ _ hr => scriptShrinks_of_eq (by rw [(needCounts_ok hr).1])

theorem Alike.cancel (i : Nat) (st : Status) (x : Handle × Nat) :
    Alike n (Machine.cancel up i st x) (Machine.cancel up' i st x) :=
  Alike.bind (Alike.needRecord x.1) fun _ => Alike.look fun _ => Alike.ite (Alike.complete hu i x.1 st) (Alike.pure ())

theorem Alike.nuke (i : Nat) (st : Status) : Alike n (Machine.nuke up i st) (Machine.nuke up' i st) :=
  Alike.look fun _ => Alike.bind (Alike.change fun _ => Eq.refl _) fun _ => Alike.eachOf fun x => Alike.cancel hu i st x

theorem Alike.finish (i : Nat) (h : Handle) (last : Bool) :
    Alike n (if last = true then (Machine.complete up i h .ok >>= fun _ => (Pure.pure true : Proc Bool)) else Pure.pure false)
      (if last = true then (Machine.complete up' i h .ok >>= fun _ => Pure.pure true) else Pure.pure false) :=
  Alike.ite (Alike.bind (Alike.complete hu i h .ok) fun _ => Alike.pure true) (Alike.pure false)

theorem Alike.start (i : Nat) : Alike n (Machine.start up i) (Machine.start up' i) := by
  have k := ScriptShrinks.effect.toCommandKept
  refine Alike.look fun q => ?_
  cases q with
  | nil => exact Alike.pure false
  | cons h rest =>
    refine Alike.bind (Alike.needRecord h) fun _ => Alike.bind (Alike.needCounts h) fun _ => Alike.look fun d => ?_
    cases d
    · refine Alike.look fun m => Alike.bind (Alike.rfl (ScriptShrinks.effect.regWrite _ _)) fun _ => Alike.look fun r => ?_
      refine Alike.bind (Alike.rfl (k.bufRead _ _ _)) fun b => Alike.bind (Alike.rfl (k.writeWords i b)) fun _ => ?_
      refine Alike.bind (Alike.rfl (Within.change fun s => ScriptShrinks.effect.setReq s h _)) fun _ => ?_
      exact Alike.look fun last => Alike.finish hu i h last
    · refine Alike.bind (Alike.rfl (k.readWordCount i)) fun w => Alike.read fun e => Alike.look fun r => ?_
      refine Alike.bind (Alike.rfl (Within.change fun s => ScriptShrinks.effect.setReq s h _)) fun _ => ?_
      refine Alike.bind (Alike.rfl (k.readWords i _ _ _ _ _)) fun _ => ?_
      refine Alike.bind (Alike.rfl (Within.change fun s => ScriptShrinks.effect.setReq s h _)) fun _ => ?_
      exact Alike.look fun last => Alike.finish hu i h last

theorem Alike.tryStart (i : Nat) : Alike n (Machine.tryStart up i) (Machine.tryStart up' i) := by
  refine Alike.look fun p => Alike.ite ?_ (Alike.pure false)
  refine Alike.bind (Alike.rfl (ScriptShrinks.effect.toCommandKept.canStart i)) fun c => Alike.ite ?_ (Alike.pure false)
  exact Alike.bind (Alike.start hu i) fun _ => Alike.pure true

theorem Alike.resumeIn (i : Nat) : Alike n (Machine.resumeIn up i) (Machine.resumeIn up' i) :=
  Alike.look fun _ => Alike.ite (Alike.unit (Alike.tryStart hu i)) (Alike.pure ())

theorem Alike.enableRule (ep : BitVec 4) (addr : Word) :
    Alike n (Machine.enableRule up ep addr) (Machine.enableRule up' ep addr) := by
  refine Alike.look fun m => Alike.ite (Alike.pure _) (Alike.ite (Alike.pure _) ?_)
  refine Alike.bind (Alike.rfl (ScriptShrinks.effect.toCommandKept.memRead _ _)) fun d => Alike.look fun e => ?_
  cases e
  · refine Alike.bind (Alike.rfl (ScriptShrinks.effect.enable _ _)) fun _ => ?_
    exact Alike.bind (Alike.resumeIn hu _) fun _ => Alike.pure _
  · exact Alike.pure _

theorem Alike.disableRule (ep : BitVec 4) : Alike n (Machine.disableRule up ep) (Machine.disableRule up' ep) := by
  refine Alike.look fun m => Alike.ite (Alike.pure _) (Alike.ite (Alike.pure _) ?_)
  refine Alike.bind (Alike.rfl (ScriptShrinks.effect.shut _)) fun _ => ?_
  exact Alike.bind (Alike.nuke hu _ _) fun _ => Alike.pure _

theorem Alike.queueRule (i : Nat) (h : Handle) : Alike n (Machine.queueRule up i h) (Machine.queueRule up' i h) := by
  refine Alike.look fun e => ?_
  cases e
  · refine Alike.bind (Alike.rfl (Within.change fun s => ScriptShrinks.effect.setReq s h _)) fun _ => ?_
    refine Alike.look fun z => Alike.ite (Alike.bind (Alike.complete hu 0 h .ok) fun _ => Alike.pure _) ?_
    refine Alike.bind (Alike.rfl (Within.change fun s => ?_)) fun _ => ?_
    · exact ScriptShrinks.effect.trans _ _ _ (ScriptShrinks.effect.setEp s i _) (ScriptShrinks.effect.setReq _ h _)
    · exact Alike.look fun z => Alike.ite (Alike.bind (Alike.tryStart hu i) fun _ => Alike.pure _) (Alike.pure _)
  · exact Alike.pure _

theorem Alike.setHaltRule (i : Nat) (v : Bool) : Alike n (Machine.setHaltRule up i v) (Machine.setHaltRule up' i v) := by
  refine Alike.look fun e => ?_
  cases e
  · refine Alike.bind (Alike.rfl (ScriptShrinks.effect.halt i v)) fun _ => Alike.ite (Alike.pure _) ?_
    exact Alike.bind (Alike.resumeIn hu i) fun _ => Alike.pure _
  · exact Alike.pure _

omit hu in
theorem Alike.withRequest (h : Word) {p q : Proc Status} (hp : Alike n p q) :
    Alike n (Machine.withRequest h p) (Machine.withRequest h q) :=
  Alike.look fun _ => Alike.ite hp (Alike.rfl (Within.refuse _))

theorem Alike.dequeueCommand (ep : BitVec 4) (h : Word) :
    Alike n (Machine.dequeueCommand up ep h) (Machine.dequeueCommand up' ep h) := by
  refine Alike.withRequest h (Alike.look fun m => Alike.ite (Alike.pure _) (Alike.look fun x => Alike.ite ?_ (Alike.pure _)))
  exact Alike.bind (Alike.complete hu _ _ _) fun _ => Alike.pure _

omit hu in
theorem Alike.command (i : Instr) {p q : Proc Status} (hp : Alike n p q) :
    Alike n (Machine.command i p) (Machine.command i q) :=
  Alike.bind (Alike.inCommand i hp) fun _ => Alike.change fun _ => Eq.refl _

theorem Alike.nestedCommand (i : Instr) : Alike n (Machine.nestedCommand up i) (Machine.nestedCommand up' i) := by
  cases i with
  | bind d => exact Alike.rfl (Within.refuse _)
  | enable ep a => exact Alike.command _ (Alike.enableRule hu ep a)
  | disable ep => exact Alike.command _ (Alike.disableRule hu ep)
  | queue ep h => exact Alike.command _ (Alike.withRequest h (Alike.queueRule hu _ _))
  | dequeue ep h => exact Alike.command _ (Alike.dequeueCommand hu ep h)
  | setHalt ep v => exact Alike.command _ (Alike.setHaltRule hu _ v)
  | fifoFlush ep =>
    exact Alike.command _ (Alike.rfl (ScriptShrinks.effect.toCommandKept.fifoFlushRule ep))
  | _ => exact Alike.rfl (Within.refuse _)

theorem Alike.driverAction (a : DriverAction) : Alike n (Machine.driverAction up a) (Machine.driverAction up' a) := by
  cases a with
  | write w => exact Alike.rfl (ScriptShrinks.effect.toCommandKept.driverWrite w)
  | command cmd arg =>
    simp only [Machine.driverAction]
    cases decodeCmd cmd arg with
    | ok i => exact Alike.nestedCommand hu i
    | error e => exact Alike.rfl (Within.refuse _)

end rules

/-- One more level changes nothing once the levels are as many as the script's entries. -/
theorem upcalls_alike (n : Nat) (u : Upcall) : Alike n (upcalls n u) (upcalls (n + 1) u) := by
  have k := ScriptShrinks.effect.toCommandKept
  induction n generalizing u with
  | zero =>
    refine ⟨fun s hs => ?_, k.upcalls 0 u⟩
    have h : s.driverScript = [] := List.length_eq_zero_iff.mp (Nat.le_zero.mp hs)
    simp [upcalls, upcallWith, State.nextResponse, State.enterUpcall, h]
  | succ n ih =>
    refine ⟨fun s hs => ?_, k.upcalls _ u⟩
    show upcallWith (driverAction (upcalls n)) u s = upcallWith (driverAction (upcalls (n + 1))) u s
    unfold upcallWith
    simp only [change_bind_run, look_bind_run]
    have h : (s.enterUpcall u).nextResponse.actions = [] ∨ (s.enterUpcall u).afterResponse.driverScript.length ≤ n := by
      rw [afterResponse_driverScript, List.length_tail]
      exact .inr (by
        show s.driverScript.length - 1 ≤ n
        omega)
    rcases h with h | h
    · rw [h, eachOf_nil, eachOf_nil]
    · rw [bind_run, bind_run, (Alike.eachOf (Alike.driverAction ih)).same _ h]

/-- Every number of levels from the script's length on makes the same upcall. -/
theorem upcalls_fuel {n m : Nat} (h : n ≤ m) (u : Upcall) : Alike n (upcalls n u) (upcalls m u) := by
  induction m with
  | zero =>
    obtain rfl : n = 0 := Nat.le_zero.mp h
    exact upcalls_alike 0 u |>.shrinks |> Alike.rfl
  | succ m ih =>
    rcases Nat.lt_or_eq_of_le h with h | rfl
    · have h1 := ih (Nat.le_of_lt_succ h)
      exact ⟨fun s hs => (h1.same s hs).trans ((upcalls_alike m u).same s (by omega)), h1.shrinks⟩
    · exact Alike.rfl ((upcalls_alike (m + 1) u).shrinks)

/-! ### The events -/

section events
variable {n : Nat} {up up' : Upcalls} (hu : ∀ u, Alike n (up u) (up' u))

theorem Alike.setCtl (c : Ctl) : Alike n (Machine.setCtl c) (Machine.setCtl c) := Alike.change fun _ => Eq.refl _

theorem Alike.setDev (f : Device → Device) : Alike n (Machine.change fun s => s.setDev f) (Machine.change fun s => s.setDev f) :=
  Alike.change fun _ => Eq.refl _

theorem Alike.write (r : Reg) (v : Word) : Alike n (Machine.regWrite r v) (Machine.regWrite r v) :=
  Alike.rfl (ScriptShrinks.effect.regWrite r v)

theorem Alike.halt (i : Nat) (v : Bool) : Alike n (haltFields i v) (haltFields i v) :=
  Alike.rfl (ScriptShrinks.effect.halt i v)

theorem Alike.finishSetup (S : BitVec 64) (ret : Word) : Alike n (Machine.finishSetup S ret) (Machine.finishSetup S ret) :=
  Alike.ite (Alike.bind (Alike.halt 0 true) fun _ => Alike.setCtl _) (Alike.ite (Alike.setCtl _) (Alike.pure ()))

theorem Alike.runSetup (S : BitVec 64) {p q : Proc Word} (hp : Alike n p q) :
    Alike n (Machine.runSetup S p) (Machine.runSetup S q) :=
  Alike.bind (Alike.setCtl _) fun _ => Alike.bind hp fun r => Alike.finishSetup S r

theorem Alike.ifServed (i : Nat) {p q : Proc Unit} (hp : Alike n p q) :
    Alike n (Machine.ifServed i p) (Machine.ifServed i q) :=
  Alike.look fun _ => Alike.ite hp (Alike.pure ())

include hu

theorem Alike.forwardRule (S : BitVec 64) : Alike n (Machine.forwardRule up S) (Machine.forwardRule up' S) := by
  refine Alike.look fun b => ?_
  cases b
  · exact Alike.pure _
  · exact hu _

theorem Alike.getStatusRule (S : BitVec 64) : Alike n (Machine.getStatusRule up S) (Machine.getStatusRule up' S) := by
  refine Alike.look fun b => ?_
  cases b
  · exact Alike.forwardRule hu S
  · refine Alike.bind (Alike.change fun _ => Eq.refl _) fun _ => ?_
    exact Alike.bind (Alike.queueRule hu 0 .statusReq) fun r => Alike.pure _

theorem Alike.featureRule (v : Bool) (S : BitVec 64) :
    Alike n (Machine.featureRule up v S) (Machine.featureRule up' v S) :=
  Alike.look fun _ => Alike.ite (Alike.bind (Alike.setHaltRule hu _ v) fun _ => Alike.pure 0) (Alike.forwardRule hu S)

theorem Alike.setAddressRule (S : BitVec 64) : Alike n (Machine.setAddressRule up S) (Machine.setAddressRule up' S) :=
  Alike.ite (Alike.forwardRule hu S) (Alike.bind (Alike.setDev _) fun _ => Alike.pure 0)

theorem Alike.configure (v : Byte) : Alike n (Machine.configure up v) (Machine.configure up' v) := by
  refine Alike.bind (Alike.nuke hu 0 _) fun _ => Alike.bind (Alike.setDev _) fun _ => Alike.ite ?_ (Alike.pure ())
  refine Alike.look fun l => Alike.eachOf fun i => ?_
  exact Alike.bind (Alike.rfl (ScriptShrinks.effect.shut i)) fun _ => Alike.nuke hu i _

theorem Alike.setConfigurationRule (S : BitVec 64) :
    Alike n (Machine.setConfigurationRule up S) (Machine.setConfigurationRule up' S) := by
  refine Alike.look fun b => Alike.ite (Alike.pure _) (Alike.bind (Alike.forwardRule hu S) fun r => Alike.ite (Alike.pure _) ?_)
  exact Alike.bind (Alike.configure hu _) fun _ => Alike.pure _

theorem Alike.dispatchRule (S : BitVec 64) (i : Instr) :
    Alike n (Machine.dispatchRule up S i) (Machine.dispatchRule up' S i) := by
  cases i with
  | getStatus d r v x l => exact Alike.getStatusRule hu S
  | clearFeature d r v x l => exact Alike.featureRule hu false S
  | setFeature d r v x l => exact Alike.featureRule hu true S
  | setAddress d r v x l => exact Alike.setAddressRule hu S
  | setConfiguration v x l => exact Alike.setConfigurationRule hu S
  | _ => exact Alike.forwardRule hu S

theorem Alike.processSetup : Alike n (Machine.processSetup up) (Machine.processSetup up') := by
  have k := ScriptShrinks.effect
  refine Alike.bind (Alike.nuke hu 0 _) fun _ => Alike.bind (Alike.rfl ?_) fun _ => ?_
  · refine Within.bind k.trans (k.regRead _) fun e => ?_
    refine Within.bind k.trans (Within.onlyIf k.refl fun _ => k.regWrite _ _) fun _ => ?_
    exact Within.change fun s => k.setEp s 0 _
  refine Alike.bind (Alike.rfl (k.toCommandKept.readWordCount 0)) fun w => Alike.read fun e => Alike.ite ?_ ?_
  · refine Alike.bind (Alike.rfl (k.toCommandKept.discardWords 0 w)) fun _ => ?_
    exact Alike.bind (Alike.halt 0 true) fun _ => Alike.setCtl _
  · refine Alike.bind (Alike.read fun _ => Alike.read fun _ => Alike.read fun _ => Alike.read fun _ => Alike.pure _) fun S => ?_
    exact Alike.runSetup S (Alike.dispatchRule hu S _)

theorem Alike.notify (u : Upcall) : Alike n (Machine.notify up u) (Machine.notify up' u) := by
  refine Alike.look fun b => ?_
  cases b
  · exact Alike.pure ()
  · exact Alike.unit (hu _)

theorem Alike.reinitAll (st : Status) : Alike n (Machine.reinitAll up st) (Machine.reinitAll up' st) :=
  Alike.look fun _ => Alike.bind (Alike.eachOf fun i => Alike.rfl (ScriptShrinks.effect.reinit i)) fun _ =>
    Alike.eachOf fun i => Alike.nuke hu i st

/-- The rule of every event. -/
theorem Alike.eventRule (i : Instr) : Alike n (Machine.eventRule up i) (Machine.eventRule up' i) := by
  cases i with
  | vbusOn =>
    refine Alike.bind (Alike.write _ _) fun _ => Alike.look fun _ => Alike.ite ?_ (Alike.pure ())
    exact Alike.bind (Alike.setDev _) fun _ => Alike.notify hu _
  | reset => exact Alike.bind (Alike.write _ _) fun _ => Alike.bind (Alike.setDev _) fun _ => Alike.reinitAll hu _
  | speedDone hs => exact Alike.bind (Alike.write _ _) fun _ => Alike.bind (Alike.setDev _) fun _ => Alike.reinitAll hu _
  | vbusOff =>
    refine Alike.bind (Alike.write _ _) fun _ => Alike.bind (Alike.setDev _) fun _ => Alike.look fun l => ?_
    refine Alike.bind (Alike.eachOf fun i => Alike.rfl (ScriptShrinks.effect.shut i)) fun _ => ?_
    exact Alike.bind (Alike.eachOf fun i => Alike.nuke hu i _) fun _ => Alike.notify hu _
  | suspend => exact Alike.write _ _
  | resume => exact Alike.write _ _
  | error => exact Alike.write _ _
  | stallSent ep =>
    refine Alike.ifServed _ (Alike.ite ?_ (Alike.write _ _))
    refine Alike.bind (Alike.write _ _) fun _ => Alike.bind (Alike.halt 0 false) fun _ => ?_
    exact Alike.bind (Alike.nuke hu 0 _) fun _ => Alike.setCtl _
  | flushReq ep =>
    refine Alike.ifServed _ (Alike.ite (Alike.write _ _) (Alike.look fun d => ?_))
    cases d
    · exact Alike.write _ _
    · exact Alike.bind (Alike.write _ _) fun _ => Alike.rfl (ScriptShrinks.effect.toCommandKept.flushOut _)
  | txDone ep p =>
    refine Alike.ifServed _ (Alike.ite ?_ (Alike.look fun d => ?_))
    · refine Alike.bind (Alike.write _ _) fun _ => Alike.look fun _ => Alike.ite ?_ (Alike.pure ())
      exact Alike.unit (Alike.tryStart hu 0)
    · cases d
      · refine Alike.bind (Alike.write _ _) fun _ => ?_
        refine Alike.bind (Alike.tryStart hu _) fun _ => Alike.ite ?_ (Alike.pure ())
        exact Alike.ite (Alike.unit (Alike.tryStart hu _)) (Alike.pure ())
      · exact Alike.write _ _
  | rxReady ep p =>
    refine Alike.ifServed _ (Alike.ite ?_ (Alike.look fun d => ?_))
    · refine Alike.look fun _ => Alike.ite (Alike.unit (Alike.tryStart hu 0)) (Alike.processSetup hu)
    · cases d
      · exact Alike.pure ()
      · refine Alike.bind (Alike.tryStart hu _) fun _ => Alike.ite ?_ (Alike.pure ())
        exact Alike.ite (Alike.unit (Alike.tryStart hu _)) (Alike.pure ())
  | _ => exact Alike.pure ()

end events

/-- The instructions that stand for events (R82). -/
def isEvent : Instr → Bool
  | .vbusOn | .reset | .speedDone _ | .suspend | .resume | .error | .vbusOff => true
  | .stallSent _ | .flushReq _ | .txDone _ _ | .rxReady _ _ => true
  | .task | .bind _ | .enable _ _ | .disable _ | .queue _ _ | .dequeue _ _ | .setHalt _ _ | .fifoFlush _
  | .reservedCmd _ _ => false
  | .getStatus .. | .clearFeature .. | .setFeature .. | .setAddress .. | .setConfiguration .. | .getDescriptor ..
  | .forward _ => false

/-- An event that answers a next state as an instruction answers the same inside the pump. -/
theorem eventRule_of_exec {i : Instr} (hi : isEvent i = true) {s t : State} (h : exec i s = .next t) {m : Nat}
    (hm : s.driverScript.length ≤ m) : eventRule (upcalls m) i s = .ok ((), t) := by
  have hs : eventRule (upcalls m) i s = eventRule (upcalls s.driverScript.length) i s :=
    ((Alike.eventRule (fun u => upcalls_fuel hm u) i).same s (Nat.le_refl _)).symm
  rw [hs]
  cases i with
  | suspend => exact ((outcome_next_iff (p := ackSystem 5)).mp h).choose_spec
  | resume => exact ((outcome_next_iff (p := ackSystem 6)).mp h).choose_spec
  | error => exact ((outcome_next_iff (p := ackSystem 7)).mp h).choose_spec
  | flushReq ep => exact (outcome_next_iff.mp h).choose_spec
  | vbusOn => exact inCommand_ok_iff.mp (outcome_next_iff.mp h).choose_spec
  | reset => exact inCommand_ok_iff.mp (outcome_next_iff.mp h).choose_spec
  | speedDone hs => exact inCommand_ok_iff.mp (outcome_next_iff.mp h).choose_spec
  | vbusOff => exact inCommand_ok_iff.mp (outcome_next_iff.mp h).choose_spec
  | stallSent ep => exact inCommand_ok_iff.mp (outcome_next_iff.mp h).choose_spec
  | txDone ep p => exact inCommand_ok_iff.mp (outcome_next_iff.mp h).choose_spec
  | rxReady ep p => exact inCommand_ok_iff.mp (outcome_next_iff.mp h).choose_spec
  | _ => cases hi

end Sys2Proof.Machine
end

