-- ==== Sys2Proof/Laws/Rules.lean ====
section
/-! SUPPORT. The rules of commands, setup requests and events, each in one piece, when the SIE makes no move between the
register accesses and the class driver answers without an action; and how a rule's completion becomes an
instruction's. -/

namespace Sys2Proof.Machine

/-! ### From a rule to its instruction -/

/-- A command whose rule completes answers a next state with its RESULT. -/
theorem command_next {p : Upcalls → Proc Status} {i : Instr} {s t : State} {r : Status}
    (h : p (upcalls s.driverScript.length) s = .ok (r, t)) :
    outcome (withUpcalls fun up => command i (p up)) s = .next (t.returned r) := by
  apply outcome_of_ok (a := ())
  show (inCommand i (p _) >>= _) s = _
  rw [bind_run_ok (inCommand_ok_iff.mpr h)]
  rfl

/-- A handler that completes answers a next state. -/
theorem handler_next {p : Upcalls → Proc Unit} {i : Instr} {s t : State}
    (h : p (upcalls s.driverScript.length) s = .ok ((), t)) :
    outcome (withUpcalls fun up => inCommand i (p up)) s = .next t :=
  outcome_of_ok (a := ()) (inCommand_ok_iff.mpr h)

/-! ### Queueing and halting -/

theorem queueError_none {s : State} {i : Nat} (hi : i < s.numEps) {h : Handle} (hm : s.mayQueue i h) :
    queueError s i h = none := by
  obtain ⟨h1, h2, h3, h4, h5⟩ := hm
  unfold queueError
  rw [if_neg (by omega), if_neg (by simp [h1, h2]), if_neg (by simp [h3, h4]), if_neg]
  intro hc
  have := h5 hc.1
  simp [hc.2] at this

/-- QUEUE of a request it accepts (R111). -/
theorem queueRule_idle {s : State} (hs : s.Inv) (hu : s.Undisturbed) (n : Nat) {i : Nat} (hi : i < s.numEps)
    {h : Handle} (hm : s.mayQueue i h) : queueRule (upcalls n) i h s = .ok (.ok, s.queued i h) := by
  have he := queueError_none hi hm
  have hk : s.known h = true := known_of_ne Request.buf hm.1
  have hs1 := (InvKept.commands.begin s i h he).2 hs
  have hu1 := hu.setReq h (f := Request.begun) (fun _ => rfl) fun _ => rfl
  have hr := req_setReq_self s h Request.begun hk
  have hq : ((s.setReq h Request.begun).req h).queuedOn = none := by
    rw [hr]
    exact hm.2.1
  have hk1 : (s.setReq h Request.begun).known h = true := by
    rw [known_setReq]
    exact hk
  have hi1 : i < (s.setReq h Request.begun).numEps := by
    rw [State.numEps, setReq_cfg]
    exact hi
  unfold queueRule State.queued
  rw [look_bind_run, he]
  simp only [beginRequest, change_bind_run, look_bind_run, ite_run]
  generalize s.setReq h Request.begun = t at *
  split
  · rename_i hc
    rw [if_pos (by simpa using hc), bind_run_ok (complete_idle hu1 n 0 h .ok)]
    rfl
  · rename_i hc
    rw [if_neg (by simpa using hc)]
    have hs2 := (InvKept.commands.append t i h hi1 hk1 hq).2 hs1
    have hu2 := (hu1.setEp i fun e => { e with queue := e.queue ++ [h] }).setReq h
      (f := fun r => { r with queuedOn := some i }) (fun _ => rfl) fun _ => rfl
    have hi2 : i < ((t.setEp i fun e => { e with queue := e.queue ++ [h] }).setReq h
        fun r => { r with queuedOn := some i }).numEps := by
      rw [State.numEps, setReq_cfg]
      exact hi1
    simp only [appendRequest, change_bind_run, look_bind_run, ite_run, decide_eq_true_eq]
    split
    · rw [bind_run_ok (tryStart_idle hs2 hu2 n hi2)]
      rfl
    · rfl

theorem setHaltError_isNone {s : State} {i : Nat} {v : Bool} (hi : i < s.numEps)
    (he : i = 0 ∨ (s.ep i).enabled = true) (hq : ¬(v = true ∧ s.epDir i = .IN ∧ (s.ep i).queue ≠ [])) :
    setHaltError s i v = none := by
  unfold setHaltError
  rw [if_neg (by omega), if_neg (by rcases he with h | h <;> simp [h]), if_neg hq]

/-- SET_HALT where it succeeds (R115). -/
theorem setHaltRule_idle {s : State} (hs : s.Inv) (hu : s.Undisturbed) (n : Nat) {i : Nat} {v : Bool}
    (hi : i < s.numEps) (hen : i = 0 ∨ (s.ep i).enabled = true) (he : setHaltError s i v = none) :
    setHaltRule (upcalls n) i v s = .ok (.ok, s.haltSet i v) := by
  have hh := haltFields_quiet hu.quiet i v
  unfold setHaltRule State.haltSet
  rw [look_bind_run, he]
  dsimp only
  rw [bind_run_ok hh, ite_run]
  cases v
  · have hs1 := hs.halt (hen.imp id fun h => ⟨hi, h⟩) hh
    rw [if_neg (by simp), bind_run_ok (resumeIn_idle hs1 ((hu.stallWritten i _).setEp i _) n hi)]
    simp
  · simp

theorem State.Undisturbed.queued {s : State} (hs : s.Undisturbed) (i : Nat) (h : Handle) : (s.queued i h).Undisturbed := by
  unfold State.queued
  have hu := hs.setReq h (f := Request.begun) (fun _ => rfl) fun _ => rfl
  generalize s.setReq h Request.begun = t at *
  dsimp only
  have ha := (hu.setEp i fun e => { e with queue := e.queue ++ [h] }).setReq h
    (f := fun r => { r with queuedOn := some i }) (fun _ => rfl) fun _ => rfl
  split
  · exact hu.finished 0 h .ok
  · split
    · exact ha.tried i
    · exact ha

theorem State.Undisturbed.haltSet {s : State} (hs : s.Undisturbed) (i : Nat) (v : Bool) : (s.haltSet i v).Undisturbed := by
  unfold State.haltSet
  dsimp only
  have ha := (hs.stallWritten i v).setEp i fun e => { e with halted := v }
  split
  · exact ha.tried i
  · exact ha

/-! ### Setup packets -/

/-- The result of a setup request acted on (R136). -/
theorem finishSetup_quiet {s : State} (h : s.betweenMoves = []) (S : BitVec 64) (ret : Word) :
    finishSetup S ret s = .ok ((), s.setupEnded S ret) := by
  unfold finishSetup State.setupEnded
  rw [ite_run]
  split
  · rw [stallEp0, bind_run_ok (haltFields_quiet h 0 true)]
    rfl
  · rw [ite_run]
    split <;> rfl

/-- FORWARD with a class driver that takes no action (R142). -/
theorem forwardRule_idle {s : State} (hs : s.Undisturbed) (n : Nat) (S : BitVec 64) :
    forwardRule (upcalls n) S s =
      if s.dev.driver = none then .ok (minusOne, s) else .ok (s.nextResponse.ret, s.afterUpcall (.setup S)) := by
  unfold forwardRule
  rw [look_bind_run]
  cases hd : s.dev.driver with
  | none => rfl
  | some d =>
    rw [if_neg (by simp)]
    exact upcalls_idle hs n (.setup S)

/-- Four reads of `FIFO[0]` take an 8-byte packet at the head off the FIFO and give its 64 bits (R136). -/
theorem readSetupPacket_quiet {s : State} (h : s.betweenMoves = []) (h0 : 0 < s.sie.eps.length) {S : BitVec 64} {eot : Bool}
    {rest : List RxPacket} (hq : (s.sie.ep 0).rxQueue = ⟨setupBytes S, eot⟩ :: rest) (hp : (s.sie.ep 0).rxPos = 0) :
    readSetupPacket s = .ok (S, s.setSieEp 0 fun e => { e with rxQueue := rest, rxPos := 0 }) := by
  have word : ∀ (t : State) (x : Nat), t.betweenMoves = [] → (t.sie.ep 0).rxQueue = ⟨setupBytes S, eot⟩ :: rest →
      (t.sie.ep 0).rxPos = x → regRead (.fifo 0) t = .ok ((packetWord (setupBytes S) x).zeroExtend 32,
        t.setSieEp 0 fun e => if 8 ≤ x + 2 then { e with rxQueue := rest, rxPos := 0 } else { e with rxPos := x + 2 }) := by
    intro t x ht hq hx
    rw [regRead_run, readValue_quiet ht, afterRead_quiet ht]
    simp only [Sie.read, SieEndpoint.readFifo, hq, hx]
    congr 2
    refine setSieEp_congr ?_
    simp [hq, hx, setupBytes]
  have at_ : ∀ k : Nat, (s.setSieEp 0 fun e => { e with rxPos := k }).betweenMoves = [] ∧
      ((s.setSieEp 0 fun e => { e with rxPos := k }).sie.ep 0).rxQueue = ⟨setupBytes S, eot⟩ :: rest ∧
      ((s.setSieEp 0 fun e => { e with rxPos := k }).sie.ep 0).rxPos = k := by
    intro k
    rw [setSieEp_sie, sieEp_setEp_self _ _ _ h0]
    exact ⟨h, hq, rfl⟩
  have e1 : regRead (.fifo 0) s = .ok ((packetWord (setupBytes S) 0).zeroExtend 32,
      s.setSieEp 0 fun e => { e with rxPos := 2 }) := word s 0 h hq hp
  have e2 : regRead (.fifo 0) (s.setSieEp 0 fun e => { e with rxPos := 2 }) =
      .ok ((packetWord (setupBytes S) 2).zeroExtend 32, s.setSieEp 0 fun e => { e with rxPos := 4 }) := by
    rw [word _ 2 (at_ 2).1 (at_ 2).2.1 (at_ 2).2.2, setSieEp_setSieEp]
    rfl
  have e3 : regRead (.fifo 0) (s.setSieEp 0 fun e => { e with rxPos := 4 }) =
      .ok ((packetWord (setupBytes S) 4).zeroExtend 32, s.setSieEp 0 fun e => { e with rxPos := 6 }) := by
    rw [word _ 4 (at_ 4).1 (at_ 4).2.1 (at_ 4).2.2, setSieEp_setSieEp]
    rfl
  have e4 : regRead (.fifo 0) (s.setSieEp 0 fun e => { e with rxPos := 6 }) =
      .ok ((packetWord (setupBytes S) 6).zeroExtend 32, s.setSieEp 0 fun e => { e with rxQueue := rest, rxPos := 0 }) := by
    rw [word _ 6 (at_ 6).1 (at_ 6).2.1 (at_ 6).2.2, setSieEp_setSieEp]
    rfl
  unfold readSetupPacket
  rw [bind_run_ok e1, bind_run_ok e2, bind_run_ok e3, bind_run_ok e4, pure_run]
  congr 2
  refine BitVec.eq_of_getLsbD_eq fun j hj => ?_
  simp only [packetWord, setupBytes, BitVec.truncate_eq_setWidth, BitVec.getLsbD_append, BitVec.getLsbD_setWidth,
    BitVec.getLsbD_extractLsb', List.getD_cons_succ, List.getD_cons_zero]
  grind

/-- R138: the stall and the halt of endpoint 0 end. -/
theorem clearSetupStall_quiet {s : State} (h : s.betweenMoves = []) :
    clearSetupStall s =
      .ok ((), (s.setSieEp 0 fun e => { e with stall := false }).setEp 0 fun e => { e with halted := false }) := by
  unfold clearSetupStall
  rw [bind_run_ok (regRead_quiet h rfl)]
  by_cases hs : (s.sie.ep 0).stall = true
  · have hc : ecrStall (Sie.read s.cfg s.sie (.ecr 0)).1 = true := by simp [Sie.read, hs]
    have hw : regWrite (.ecr 0) ((Sie.read s.cfg s.sie (.ecr 0)).1 &&& ~~~0x1) s =
        .ok ((), s.setSieEp 0 fun e => { e with stall := false }) := by
      have := clearStallBit_quiet h 0
      unfold clearStallBit at this
      rw [stallWritten_eq (.inr (.inl rfl))] at this
      rwa [bind_run_ok (regRead_quiet h rfl)] at this
    rw [hc, bind_run, onlyIf_run, if_pos rfl, hw]
    rfl
  · have hc : ecrStall (Sie.read s.cfg s.sie (.ecr 0)).1 = false := by simp [Sie.read, hs]
    have : (s.setSieEp 0 fun e => { e with stall := false }) = s := by
      unfold State.setSieEp
      rw [sieSetEp_eq_self]
      cases he : s.sie.ep 0
      simp_all
    rw [hc, bind_run, onlyIf_run, this]
    rfl

/-- A system event's upcall, when a driver is bound. -/
theorem notify_idle {s : State} (hs : s.Undisturbed) (n : Nat) (u : Upcall) :
    notify (upcalls n) u s = .ok ((), if s.dev.driver = none then s else s.afterUpcall u) := by
  unfold notify
  rw [look_bind_run]
  cases hd : s.dev.driver with
  | none => rfl
  | some d =>
    rw [if_neg (by simp)]
    dsimp only
    rw [bind_run_ok (upcalls_idle hs n u)]
    rfl

/-! ### The setup rows -/

/-- The fields of a packet put together from its fields (R75, R76). -/
theorem setupWord_fields (t q : Byte) (v x l : Half) :
    setupRequestType (setupWord t q v x l) = t ∧ setupRequest (setupWord t q v x l) = q ∧
    setupValue (setupWord t q v x l) = v ∧ setupIndex (setupWord t q v x l) = x ∧ setupLength (setupWord t q v x l) = l := by
  refine ⟨?_, ?_, ?_, ?_, ?_⟩ <;>
    (refine BitVec.eq_of_getLsbD_eq fun j hj => ?_
     simp only [setupWord, setupRequestType, setupRequest, setupValue, setupIndex, setupLength, BitVec.getLsbD_append,
       BitVec.getLsbD_extractLsb']
     grind)

/-- The fields of the request type of a standard request (R76). -/
theorem standardType_fields (d : Bool) (r : BitVec 5) (q : Byte) (v x l : Half) :
    setupDirIn (setupWord (standardType d r) q v x l) = d ∧
    setupRecipient (setupWord (standardType d r) q v x l) = r ∧ setupType (setupWord (standardType d r) q v x l) = 0#2 := by
  refine ⟨?_, ?_, ?_⟩
  · simp only [setupWord, setupDirIn, standardType, BitVec.getLsbD_append]
    simp
  · refine BitVec.eq_of_getLsbD_eq fun j hj => ?_
    simp only [setupWord, setupRecipient, standardType, BitVec.getLsbD_append, BitVec.getLsbD_extractLsb']
    grind
  · refine BitVec.eq_of_getLsbD_eq fun j hj => ?_
    simp only [setupWord, setupType, standardType, BitVec.getLsbD_append, BitVec.getLsbD_extractLsb']
    rcases (show j = 0 ∨ j = 1 by omega) with rfl | rfl <;> simp

/-- A SETUP row whose branch and whose end complete answers a next state (R136, R140, R141). -/
theorem setup_next {b : Upcalls → BitVec 64 → Proc Word} {i : Instr} {s t u : State} {r : Word} {S : BitVec 64}
    (hS : setupPacketOf i = S)
    (h : b (upcalls s.driverScript.length) S (s.withCtl (if setupDirIn S then .xmit else .recv)) = .ok (r, t))
    (h2 : finishSetup S r t = .ok ((), u)) : execSetup i b s = .next u := by
  subst hS
  apply handler_next (p := fun up => runSetup (setupPacketOf i) (b up (setupPacketOf i)))
  unfold runSetup setCtl
  rw [change_bind_run]
  unfold State.withCtl at h
  rw [bind_run_ok h, h2]

/-- What an upcall gives back is the class driver's answer (R178, R180). -/
theorem upcalls_returns {n : Nat} {u : Upcall} {s t : State} {w : Word} (h : upcalls n u s = .ok (w, t)) :
    w = s.nextResponse.ret := by
  have key : ∀ act, upcallWith act u s = .ok (w, t) → w = s.nextResponse.ret := by
    intro act h
    unfold upcallWith at h
    simp only [change_bind_run, look_bind_run] at h
    obtain ⟨_, _, _, h2⟩ := bind_ok_iff.mp h
    simp only [change_bind_run] at h2
    cases h2
    rfl
  cases n <;> exact key _ h

end Sys2Proof.Machine
end

