-- ==== Sys2Proof/Tests/Slice0.lean ====
section
/-! SUPPORT. Tests: the smoke test of the well-formedness check, one word written out from the spec's encodings for every
constructor, one step of every instruction on the spec's start states (spec/95_test_vectors.md section 0, expected
results from its vectors), and for every statement with hypotheses a state and operands that meet them. -/

namespace Sys2Proof.Tests

open Sys2Proof.Machine

-- one theorem after the other: a kernel evaluation waits for the theorems before it, each waiting one holding a thread
set_option Elab.async false

/-! ### The well-formedness check refuses what no encoding spells -/

theorem test_wf_refuses_bind_of_no_driver : Instr.wf (.bind 0) = false := by decide

theorem test_wf_refuses_reserved_with_a_used_code : Instr.wf (.reservedCmd 0x00000207 0) = false := by decide

theorem test_wf_refuses_forward_of_an_inline_request :
    Instr.wf (.forward 0x0002000000000080) = false ∧ Instr.wf (.forward 0x0000000000010900) = false := by decide

/-! ### Decoding: words written out from spec/30_encoding.md R71, R72, R75, R78, R83, R84 -/

theorem test_decode_task : decodeCmd 0b00000000000000000000000_0_0000_0000 0 = .ok .task := by decide
theorem test_decode_bind : decodeCmd 0b00000000000000000000000_0_0000_0001 1 = .ok (.bind 1) := by decide
theorem test_decode_enable :
    decodeCmd 0b00000000000000000000000_0_0001_0010 0x1000 = .ok (.enable 1 0x1000) := by decide
theorem test_decode_disable : decodeCmd 0b00000000000000000000000_0_0010_0011 0 = .ok (.disable 2) := by decide
theorem test_decode_queue : decodeCmd 0b00000000000000000000000_0_0001_0100 2 = .ok (.queue 1 2) := by decide
theorem test_decode_dequeue : decodeCmd 0b00000000000000000000000_0_0001_0101 2 = .ok (.dequeue 1 2) := by decide
theorem test_decode_set_halt :
    decodeCmd 0b00000000000000000000000_1_0001_0110 0 = .ok (.setHalt 1 true) ∧
    decodeCmd 0b00000000000000000000000_0_0001_0110 0 = .ok (.setHalt 1 false) := by decide
theorem test_decode_fifo_flush : decodeCmd 0b00000000000000000000000_0_0010_0111 0 = .ok (.fifoFlush 2) := by decide
theorem test_decode_reserved : decodeCmd 0b00000000000000000000000_0_0000_1111 7 = .ok (.reservedCmd 0xF 7) := by decide

/-- V2.1.4 to V2.1.9 of spec/95_test_vectors.md. -/
theorem test_decode_rejects :
    decodeCmd 0x00000200 0 = .error .reservedCommand ∧ decodeCmd 0x80000014 2 = .error .reservedCommand ∧
    decodeCmd 0x00000112 0x1000 = .error .reservedCommand ∧ decodeCmd 0x00000010 0 = .error .reservedCommand ∧
    decodeCmd 0x00000000 5 = .error .reservedCommand ∧ decodeCmd 0x00000023 1 = .error .reservedCommand := by decide

theorem test_decode_get_status :
    decodeSetup (setupOfBytes [0x82, 0x00, 0x00, 0x00, 0x81, 0x00, 0x02, 0x00]) = .getStatus true 2 0 0x0081 2 := by decide
theorem test_decode_clear_feature :
    decodeSetup (setupOfBytes [0x02, 0x01, 0x00, 0x00, 0x81, 0x00, 0x00, 0x00]) = .clearFeature false 2 0 0x0081 0 := by
  decide
theorem test_decode_set_feature :
    decodeSetup (setupOfBytes [0x02, 0x03, 0x00, 0x00, 0x85, 0x00, 0x00, 0x00]) = .setFeature false 2 0 0x0085 0 := by
  decide
theorem test_decode_set_address :
    decodeSetup (setupOfBytes [0x00, 0x05, 0x05, 0x00, 0x00, 0x00, 0x00, 0x00]) = .setAddress false 0 5 0 0 := by decide
theorem test_decode_set_configuration :
    decodeSetup (setupOfBytes [0x00, 0x09, 0x01, 0x00, 0x00, 0x00, 0x00, 0x00]) = .setConfiguration 1 0 0 := by decide
theorem test_decode_get_descriptor :
    decodeSetup (setupOfBytes [0x80, 0x06, 0x00, 0x01, 0x00, 0x00, 0x40, 0x00]) = .getDescriptor true 0 0x0100 0 0x40 := by
  decide
theorem test_decode_forward :
    decodeSetup (setupOfBytes [0x21, 0x09, 0x00, 0x02, 0x00, 0x00, 0x00, 0x00]) = .forward 0x0000000002000921 := by decide

/-- `SSR` = 0x0F of V2.6.7: the order of R153. -/
theorem test_decode_vbus_on_reset_speed_done_vbus_off :
    decodeSsr 0b00001111 = [.vbusOn, .reset, .speedDone false, .vbusOff] := by decide
theorem test_decode_suspend_resume_error : decodeSsr 0b11100000 = [.suspend, .resume, .error] := by decide
theorem test_decode_hs_level : decodeSsr 0b00011000 = [.speedDone true] ∧ decodeSsr 0b00010000 = [] := by decide

theorem test_decode_stall_sent : decodeEsr 2 .OUT 0b10010001 = [.stallSent 2] := by decide
theorem test_decode_flush_req : decodeEsr 2 .OUT 0b10100001 = [.flushReq 2] := by decide
/-- `ESR[1]` = 0x8A of program P2. -/
theorem test_decode_tx_done : decodeEsr 1 .IN 0b10001010 = [.txDone 1 true] := by decide
/-- `ESR[2]` = 0x85 of program P3 and 0x89 of program P7. -/
theorem test_decode_rx_ready :
    decodeEsr 2 .OUT 0b10000101 = [.rxReady 2 false] ∧ decodeEsr 2 .OUT 0b10001001 = [.rxReady 2 true] := by decide
/-- D65: events of the wrong direction are there to be acknowledged. -/
theorem test_decode_wrong_direction :
    decodeEsr 1 .IN 0b10100011 = [.flushReq 1, .txDone 1 false] ∧
    decodeEsr 2 .OUT 0b10000011 = [.txDone 2 false, .rxReady 2 false] := by decide
theorem test_decode_control_events :
    decodeEsr 0 .OUT 0b10100011 = [.flushReq 0, .txDone 0 false, .rxReady 0 false] := by decide

/-! ### Start states and helpers -/

/-- S_CFG of spec/95_test_vectors.md: the two descriptors in memory, a few bytes of the bulk IN data. -/
def cfgd : State :=
  { State.reset with
    dev := { state := .configured, speed := .full, config := 1, address := 5, ctl := .waitForSetup, driver := some 1,
             upcallDepth := 0 }
    eps := [⟨64, true, false, []⟩, ⟨64, true, false, []⟩, ⟨64, true, false, []⟩]
    sie := { vbus := true, connected := true, hs := false, sieAddress := 5, pendingAddress := none, ssr := 0, eier := 7,
             eps := [SieEndpoint.launch 64, { SieEndpoint.launch 64 with dirIn := true }, SieEndpoint.launch 64] }
    mem := [(0x1000, 0x07), (0x1001, 0x05), (0x1002, 0x81), (0x1003, 0x02), (0x1004, 0x40), (0x1010, 0x07),
      (0x1011, 0x05), (0x1012, 0x02), (0x1013, 0x02), (0x1014, 0x40), (0x4001, 0x01), (0x4002, 0x02)]
    driverScript := [⟨[], 0⟩] }

/-- S_CFG with the record of a handle changed. -/
def withRecord (h : Word) (f : Request → Request) (s : State) : State := s.setReq (.user h) f

/-- The state with a handle queued on an endpoint and its record in progress with some bytes moved. -/
def withQueued (i : Nat) (h : Word) (moved : Nat) (s : State) : State :=
  (s.setEp i fun e => { e with queue := e.queue ++ [.user h] }).setReq (.user h)
    fun r => { r with queuedOn := some i, status := .inProgress, actual := moved }

/-- The state with a packet staged on an endpoint. -/
def withPacket (i : Nat) (bytes : List Byte) (s : State) : State := s.setSieEp i (SieEndpoint.stage ⟨bytes, false⟩)

/-- The state with the class driver's answers to come. -/
def withScript (l : List DriverResponse) (s : State) : State := { s with driverScript := l }

/-- The state with another sub-state of endpoint 0. -/
def withSub (c : Ctl) (s : State) : State := s.withCtl c

/-- The state with both data endpoints as DISABLE leaves them. -/
def dataShut (s : State) : State := (s.shutDown 1).shutDown 2

/-- The state at another device state, unconfigured. -/
def atState (d : DevState) (s : State) : State := s.setDev fun q => { q with state := d, config := 0 }

/-- The next state of an outcome. -/
def nextOf : Host.Outcome State Fault Refusal → Option State
  | .next t => some t
  | .fault _ => none
  | .refused _ => none

/-- The next state of an outcome that has one. -/
def got (o : Host.Outcome State Fault Refusal) : State := (nextOf o).getD State.reset

/-- What an instruction leaves, seen through `f`. -/
def after {α : Type} (i : Instr) (s : State) (f : State → α) : Option α := (nextOf (exec i s)).map f

theorem next_of_nextOf {o : Host.Outcome State Fault Refusal} (h : (nextOf o).isSome = true) : ∃ t, o = .next t := by
  cases o with
  | next t => exact ⟨t, rfl⟩
  | fault f => cases h
  | refused r => cases h

/-- `ECR[i]` as the core reads it. -/
def ecr (i : Nat) (s : State) : Word := (s.sie.ep i).ecrWord

/-- The bytes at an address. -/
def bytesAt (a n : Nat) (s : State) : List Byte := (List.range n).map fun k => s.byte (a + k)

/-! ### Commands -/

/-- V2.8.1. -/
theorem test_task_poll : after .task cfgd id = some (cfgd.returned .ok) := by decide +kernel
/-- V2.6.7: one TASK handles four system events in the order of R153. -/
theorem test_task_order : after .task { (State.reset.setDev fun d => { d with driver := some 1 }) with
      sie := { State.reset.sie with ssr := 0x0F }, driverScript := [⟨[], 0⟩, ⟨[], 0⟩] }
    (fun t => (t.trace, t.dev.state, t.sie.ssr)) =
    some ([.upcall .vbusOn, .upcallReturn none, .upcall .vbusOff, .upcallReturn none, .result .ok], .notAttached, 0) := by
  decide +kernel

/-- V2.2.17. -/
theorem test_bind : after (.bind 1) (withScript [⟨[], 0⟩] State.reset) (fun t => (t.result, t.dev.driver, t.trace)) =
    some (.ok, some 1, [.upcall .init, .upcallReturn none, .result .ok]) := by decide +kernel
/-- V2.2.18. -/
theorem test_bind_twice : after (.bind 2) cfgd id = some (cfgd.returned .invalidArgument) := by decide +kernel

/-- Program P1's ENABLE of the IN endpoint. -/
theorem test_enable : after (.enable 1 0x1000) (dataShut cfgd) (fun t => (t.result, ecr 1 t, t.sie.eier, t.ep 1)) =
    some (.ok, 0x4, 0x3, ⟨64, true, false, []⟩) := by decide +kernel
/-- V2.2.5 (direction) at the OUT descriptor. -/
theorem test_enable_other_direction : after (.enable 2 0x1000) cfgd (fun t => t.result) = some .invalidArgument := by
  decide +kernel

/-- V2.2.16. -/
theorem test_disable : after (.disable 2) (withQueued 2 3 0 cfgd)
    (fun t => (t.result, t.sie.eier, t.ep 2, (t.req (.user 3)).status)) =
    some (.ok, 0x3, ⟨64, false, true, []⟩, .shutdownError) := by decide +kernel
/-- R95: a request of the snapshot that a completion callback dequeues is completed by its own turn too. -/
theorem test_disable_dequeued_meanwhile : after (.disable 1)
    (withScript [⟨[.command 0x15 7], 0⟩] (withQueued 1 7 0 (withQueued 1 2 64 cfgd)))
    (fun t => ((t.req (.user 2)).status, (t.req (.user 7)).status, t.trace.count (.upcall (.complete 7 (.user 7))))) =
    some (.shutdownError, .shutdownError, 2) := by decide +kernel

/-- V2.3.7: an odd packet, its last word padded, is on the wire without the pad. -/
theorem test_queue_in : after (.queue 1 2) (withRecord 2 (fun r => { r with length := 3, zero := false }) cfgd)
    (fun t => (t.result, (t.sie.ep 1).txQueue, (t.req (.user 2)).status, (t.req (.user 2)).actual)) =
    some (.ok, [[0x00, 0x01, 0x02]], .ok, 3) := by decide +kernel
/-- V2.3.10. -/
theorem test_queue_waits : after (.queue 0 1) cfgd (fun t => (t.result, (t.ep 0).queue, t.sie)) =
    some (.ok, [.user 1], cfgd.sie) := by decide +kernel

/-- V2.5.2. -/
theorem test_dequeue_second : after (.dequeue 1 7) (withQueued 1 7 0 (withQueued 1 2 64 cfgd))
    (fun t => (t.result, (t.ep 1).queue, (t.req (.user 7)).status)) =
    some (.ok, [.user 2], .connectionReset) := by decide +kernel
/-- V2.5.3. -/
theorem test_dequeue_elsewhere : after (.dequeue 2 2) (withQueued 1 2 64 cfgd) (fun t => t.result) =
    some .invalidArgument := by decide +kernel

/-- V2.1.14. -/
theorem test_set_halt : after (.setHalt 1 true) cfgd (fun t => (t.result, ecr 1 t, (t.ep 1).halted)) =
    some (.ok, 0x5, true) := by decide +kernel
/-- V2.5.8. -/
theorem test_set_halt_busy : after (.setHalt 0 true) (withSub .xmit (withQueued 0 4 64 cfgd)) (fun t => t.result) =
    some .tryAgainError := by decide +kernel

/-- V2.5.10. -/
theorem test_fifo_flush_out : after (.fifoFlush 2) (withPacket 2 [4, 5, 6, 7] (withPacket 2 [1, 2, 3] cfgd))
    (fun t => (t.result, (t.sie.ep 2).rxQueue)) = some (.ok, []) := by decide +kernel
/-- V2.5.9. -/
theorem test_fifo_flush_in : after (.fifoFlush 1) (cfgd.setSieEp 1 fun e => { e with txQueue := [[1]] })
    (fun t => (t.result, ecr 1 t, (t.sie.ep 1).txQueue)) = some (.ok, 0x4, []) := by decide +kernel

/-- V2.1.2. -/
theorem test_reserved_refused : exec (.reservedCmd 8 0) cfgd = .refused .reservedCommand := by rfl

/-! ### Setup requests -/

/-- V2.7.3. -/
theorem test_get_status_halted : after (.getStatus true 2 0 0x0081 2) (cfgd.setEp 1 fun e => { e with halted := true })
    (fun t => ((t.sie.ep 0).txQueue, t.dev.ctl)) = some ([[0x01, 0x00]], .waitForSetup) := by decide +kernel
/-- V2.7.7. -/
theorem test_get_status_no_data : after (.getStatus true 0 0 0 0) cfgd (fun t => (t.sie, t.dev.ctl)) =
    some (cfgd.sie, .waitForSetup) := by decide +kernel

/-- V2.7.10. -/
theorem test_clear_feature : after (.clearFeature false 2 0 0x0081 0)
    ((cfgd.setEp 1 fun e => { e with halted := true }).setSieEp 1 fun e => { e with stall := true })
    (fun t => (ecr 1 t, (t.ep 1).halted, t.trace)) = some (0x4, false, []) := by decide +kernel
/-- V2.7.8. -/
theorem test_set_feature : after (.setFeature false 2 0 0x0081 0) cfgd (fun t => (ecr 1 t, (t.ep 1).halted, t.trace)) =
    some (0x5, true, []) := by decide +kernel
/-- V2.7.12. -/
theorem test_set_feature_forwarded : after (.setFeature false 2 0 0x0085 0) cfgd (fun t => t.trace) =
    some [.upcall (.setup 0x0000008500000302), .upcallReturn (some 0)] := by decide +kernel

/-- V2.6.4. -/
theorem test_set_address : after (.setAddress false 0 7 0 0) cfgd (fun t => (t.dev.address, t.dev.state, t.dev.config)) =
    some (7, .configured, 1) := by decide +kernel
/-- V2.7.13. -/
theorem test_set_address_forwarded : after (.setAddress true 0 5 0 0) cfgd (fun t => (t.dev.address, t.trace.length)) =
    some (5, 2) := by decide +kernel

/-- V1.5. -/
theorem test_set_configuration_zero : after (.setConfiguration 0 0 0)
    (withScript [⟨[], 0⟩, ⟨[], 0⟩] (withQueued 2 3 0 cfgd))
    (fun t => (t.dev.state, t.dev.config, t.sie.eier, t.ep 1, t.ep 2, (t.req (.user 3)).status)) =
    some (.address, 0, 0x1, ⟨64, false, true, []⟩, ⟨64, false, true, []⟩, .shutdownError) := by decide +kernel
/-- V2.6.9: the class driver answers -1. -/
theorem test_set_configuration_refused : after (.setConfiguration 2 0 0) (withScript [⟨[], 0xFFFFFFFF⟩] cfgd)
    (fun t => (t.dev.config, ecr 0 t, (t.ep 0).halted)) = some (1, 0x1, true) := by decide +kernel

/-- The GET_DESCRIPTOR exchange of V1.1: the class driver queues h1 inside its upcall; with a cleared record 18 bytes of
0 are staged, and h1 completes before `setup` returns. -/
theorem test_get_descriptor : after (.getDescriptor true 0 0x0100 0 0x40)
    (withScript [⟨[.command 0x00000004 1], 0⟩, ⟨[], 0⟩] cfgd)
    (fun t => ((t.sie.ep 0).txQueue.map List.length, (t.req (.user 1)).actual, t.dev.ctl, t.trace)) =
    some ([18], 18, .waitForSetup, [.upcall (.setup 0x0040000001000680), .upcall (.complete 1 (.user 1)),
      .upcallReturn none, .result .ok, .upcallReturn (some 0)]) := by decide +kernel
/-- V2.8.8: TASK inside an upcall. -/
theorem test_task_inside_upcall :
    nextOf (exec (.getDescriptor true 0 0x0100 0 0x40) (withScript [⟨[.command 0 0], 0⟩] cfgd)) = none := by decide +kernel

/-- V2.7.14. -/
theorem test_forward : after (.forward 0x0000000002000921) cfgd (fun t => (t.dev.ctl, t.trace)) =
    some (.waitForSetup, [.upcall (.setup 0x0000000002000921), .upcallReturn (some 0)]) := by decide +kernel
/-- V2.7.15: no driver bound. -/
theorem test_forward_no_driver : after (.forward 0x00640000000001c1) (cfgd.setDev fun d => { d with driver := none })
    (fun t => (ecr 0 t, (t.ep 0).halted, t.trace)) = some (0x1, true, []) := by decide +kernel

/-! ### System events -/

/-- R120, program P1. -/
theorem test_vbus_on : after .vbusOn { State.reset with sie := { State.reset.sie with ssr := 0x21 } }
    (fun t => (t.dev.state, t.sie.ssr)) = some (.attached, 0x20) := by decide +kernel
/-- V2.6.1. -/
theorem test_vbus_on_attached : after .vbusOn (atState .attached cfgd) (fun t => (t.dev.state, t.trace)) =
    some (.attached, []) := by decide +kernel

/-- Program P5: the order of the completions. -/
theorem test_reset : after .reset (withScript [⟨[], 0⟩, ⟨[], 0⟩] (withQueued 2 3 0 (withQueued 1 2 64 cfgd)))
    (fun t => (t.dev.state, t.dev.speed, t.sie.eier, t.trace.length, t.trace.head?)) =
    some (.attached, .full, 0x1, 4, some (.upcall (.complete 2 (.user 2)))) := by decide +kernel

/-- R129: a completion callback of endpoint 0's nuke queues on a data endpoint, which is disabled by then. -/
theorem test_reset_requeue : after .reset (withScript [⟨[.command 0x14 2], 0⟩] (withQueued 0 4 64 cfgd))
    (fun t => (t.trace, (t.req (.user 2)).queuedOn)) =
    some ([.upcall (.complete 4 (.user 4)), .result .shutdownError, .upcallReturn none], none) := by decide +kernel

/-- V2.6.3. -/
theorem test_speed_done : after (.speedDone true) cfgd
    (fun t => (t.dev.state, t.dev.speed, (t.ep 0).mps, (t.ep 1).mps, (t.sie.ep 2).mps, (t.ep 2).enabled)) =
    some (.default, .high, 64, 512, 512, false) := by decide +kernel

/-- V2.6.6. -/
theorem test_suspend_resume_error :
    after .suspend { cfgd with sie := { cfgd.sie with ssr := 0xE0 } } (fun t => t.sie.ssr) = some 0xC0 ∧
    after .resume { cfgd with sie := { cfgd.sie with ssr := 0xE0 } } (fun t => t.sie.ssr) = some 0xA0 ∧
    after .error { cfgd with sie := { cfgd.sie with ssr := 0xE0 } } (fun t => t.sie.ssr) = some 0x60 := by decide +kernel

/-- V2.6.2. -/
theorem test_vbus_off : after .vbusOff (withScript [⟨[], 0⟩, ⟨[], 0⟩] (withQueued 2 3 0 cfgd))
    (fun t => (t.dev.state, t.dev.speed, t.sie.eier, (t.req (.user 3)).status, t.trace.drop 2)) =
    some (.notAttached, .unknown, 0x1, .shutdownError, [.upcall .vbusOff, .upcallReturn none]) := by decide +kernel

/-! ### Endpoint events -/

/-- Program P6. -/
theorem test_stall_sent : after (.stallSent 0)
    ((withQueued 0 4 64 (cfgd.setEp 0 fun e => { e with halted := true })).setSieEp 0
      fun e => { e with stall := true, stallSent := true })
    (fun t => (ecr 0 t, (t.sie.ep 0).stallSent, t.ep 0, (t.req (.user 4)).status)) =
    some (0, false, ⟨64, true, false, []⟩, .connectionAborted) := by decide +kernel

/-- V2.8.7. -/
theorem test_flush_req : after (.flushReq 2) ((withPacket 2 [1, 2, 3] cfgd).setSieEp 2 fun e => { e with flushReq := true })
    (fun t => ((t.sie.ep 2).flushReq, (t.sie.ep 2).rxQueue)) = some (false, []) := by decide +kernel
/-- D65. -/
theorem test_flush_req_in : after (.flushReq 1) (cfgd.setSieEp 1 fun e => { e with flushReq := true, txQueue := [[1]] })
    (fun t => ((t.sie.ep 1).flushReq, (t.sie.ep 1).txQueue)) = some (false, [[1]]) := by decide +kernel

/-- Program P2's first TASK on a short record: a full packet and the padding packet in one interrupt. -/
theorem test_tx_done_two : after (.txDone 1 true)
    ((withQueued 1 2 0 (withRecord 2 (fun r => { r with length := 64 }) cfgd)).setSieEp 1
      fun e => { e with txDone := true })
    (fun t => ((t.sie.ep 1).txDone, (t.sie.ep 1).txQueue.map List.length, (t.req (.user 2)).status, (t.ep 1).queue)) =
    some (false, [64, 0], .ok, []) := by decide +kernel
/-- D65. -/
theorem test_tx_done_out : after (.txDone 2 true)
    ((withPacket 2 [1, 2, 3] (withQueued 2 3 0 cfgd)).setSieEp 2 fun e => { e with txDone := true })
    (fun t => ((t.sie.ep 2).txDone, (t.sie.ep 2).rxQueue.length, (t.ep 2).queue)) =
    some (false, 1, [.user 3]) := by decide +kernel

/-- Program P3. -/
theorem test_rx_ready_overflow : after (.rxReady 2 false) (withPacket 2 [1, 2, 3, 4, 5] (withQueued 2 3 0 cfgd))
    (fun t => (bytesAt 0x5000 5 t, (t.req (.user 3)).actual, (t.req (.user 3)).status, (t.sie.ep 2).rxQueue)) =
    some ([1, 2, 3, 4, 0], 4, .overflowError, []) := by decide +kernel
/-- V2.7.16. -/
theorem test_rx_ready_not_a_setup : after (.rxReady 0 false) (withPacket 0 [1, 2, 3] cfgd)
    (fun t => (ecr 0 t, (t.sie.ep 0).rxQueue, t.dev.ctl, t.trace)) = some (0x1, [], .waitForSetup, []) := by decide +kernel

/-- A full packet that does not end its request, with a bus reset and a resume between its first two words. -/
def interrupted : State :=
  { withPacket 2 (List.replicate 64 7) (withQueued 2 3 0 (withRecord 3 (fun r => { r with length := 128, callback := none })
    cfgd)) with betweenMoves := [[], [], [], [], [.reset, .resume]] }

/-- R220: the rest reads as zeros, and the request waits for the reset's event. -/
theorem test_reset_in_packet : after (.rxReady 2 false) interrupted
    (fun t => (bytesAt 0x5000 3 t, (t.req (.user 3)).actual, (t.ep 2).queue, t.sie.ssr)) =
    some ([7, 7, 0], 64, [.user 3], 0x44) := by decide +kernel
/-- R220: the reset's event cancels it at the next TASK. -/
theorem test_cut_off_is_cancelled : after .task (got (exec (.rxReady 2 false) interrupted))
    (fun t => ((t.req (.user 3)).status, (t.ep 2).queue, t.sie.ssr)) = some (.connectionReset, [], 0) := by decide +kernel
/-- R60, R102, R106: the last packet of a request ends it, whatever the SIE does in the middle. -/
theorem test_reset_in_last_packet : after (.rxReady 2 false)
    (withRecord 3 (fun r => { r with length := 64 }) interrupted)
    (fun t => (bytesAt 0x5000 3 t, (t.req (.user 3)).status, (t.ep 2).queue, t.sie.ssr)) =
    some ([7, 7, 0], .ok, [], 0x44) := by decide +kernel

/-- A device without an address, connected, with the moves of the host before the step. -/
def enumerated (ms : List Move) : State :=
  ({ atState .default cfgd with inputs := [.command 0 0, .command 0 0] } : State).moves ms

/-- What two TASKs leave of a state. -/
def twoTasks {α : Type} (s : State) (f : State → α) : Option α :=
  match step s with
  | .next t => match step t with
    | .next u => some (f u)
    | .fault _ => none
    | .refused _ => none
  | .fault _ => none
  | .refused _ => none

/-- R176: SET_ADDRESS with a stray packet behind it, which the core stalls (R139): the address is the SIE's. -/
theorem test_set_address_then_stall : twoTasks (enumerated [.setup 0x0000000000090500, .out 0 [1] false])
    (fun t => (t.sie.sieAddress, t.sie.pendingAddress, (t.sie.ep 0).stall)) = some (9, none, true) := by decide +kernel
/-- R176: a SET_ADDRESS with a data stage, which the class driver refuses, so that the core stalls it: the address is not
the SIE's, also when the next packet has ended that stall (R138). -/
theorem test_set_address_stalled : twoTasks
    (withScript [⟨[], 0xFFFFFFFF⟩] (enumerated [.setup 0x0001000000090500, .out 0 [1] false]))
    (fun t => (t.sie.sieAddress, t.sie.pendingAddress)) = some (5, none) := by decide +kernel

/-! ### Witnesses: for every statement with hypotheses, a state and operands that meet them

One theorem per statement, named after it; a conjunct per clause, at the boundary values of its range. -/

theorem next_got {o : Host.Outcome State Fault Refusal} (h : (nextOf o).isSome = true) : o = .next (got o) := by
  obtain ⟨t, rfl⟩ := next_of_nextOf h
  rfl

/-- Whether an outcome is a fault. -/
def isFault : Host.Outcome State Fault Refusal → Bool
  | .next _ => false
  | .fault _ => true
  | .refused _ => false

/-- The fault of an outcome. -/
def faultOf : Host.Outcome State Fault Refusal → Option Fault
  | .next _ => none
  | .fault f => some f
  | .refused _ => none

theorem fault_of_faultOf {o : Host.Outcome State Fault Refusal} {f : Fault} (h : faultOf o = some f) : o = .fault f := by
  cases o with
  | next t => cases h
  | fault g => exact congrArg _ (Option.some.inj h)
  | refused r => cases h

/-- Whether an outcome is a refusal. -/
def isRefused : Host.Outcome State Fault Refusal → Bool
  | .next _ => false
  | .fault _ => false
  | .refused _ => true

theorem fault_of_isFault {o : Host.Outcome State Fault Refusal} (h : isFault o = true) : ∃ f, o = .fault f := by
  cases o with
  | next t => cases h
  | fault f => exact ⟨f, rfl⟩
  | refused r => cases h

theorem refused_of_isRefused {o : Host.Outcome State Fault Refusal} (h : isRefused o = true) : ∃ r, o = .refused r := by
  cases o with
  | next t => cases h
  | fault f => cases h
  | refused r => exact ⟨r, rfl⟩

/-- A bulk IN request in flight and one waiting. -/
def sending : State := withQueued 1 7 0 (withQueued 1 2 64 cfgd)

/-- A bulk OUT request waiting. -/
def receiving : State := withQueued 2 3 0 cfgd

/-- A bulk OUT request with a packet longer than its buffer staged. -/
def received : State := withPacket 2 [1, 2, 3, 4, 5] receiving

/-- A device below ADDRESS with its data endpoints shut. -/
def unconfigured : State := dataShut (atState .default cfgd)

theorem agents_cfgd : cfgd.Inv ∧ cfgd.Undisturbed :=
  ⟨invOk_sound (by decide +kernel), undisturbedOk_sound (by decide +kernel)⟩

theorem agents_sending : sending.Inv ∧ sending.Undisturbed :=
  ⟨invOk_sound (by decide +kernel), undisturbedOk_sound (by decide +kernel)⟩

theorem agents_receiving : receiving.Inv ∧ receiving.Undisturbed :=
  ⟨invOk_sound (by decide +kernel), undisturbedOk_sound (by decide +kernel)⟩

theorem agents_received : received.Inv ∧ received.Undisturbed :=
  ⟨invOk_sound (by decide +kernel), undisturbedOk_sound (by decide +kernel)⟩

theorem agents_unconfigured : unconfigured.Inv ∧ unconfigured.Undisturbed :=
  ⟨invOk_sound (by decide +kernel), undisturbedOk_sound (by decide +kernel)⟩

theorem witness_DecodeAfterEncode :
    Instr.wf (.bind 1) = true ∧ Instr.wf (.reservedCmd 0xFFFFFFFF 0xFFFFFFFF) = true ∧
    Instr.wf (.enable 15 0xFFFFFFFF) = true ∧ Instr.wf (.forward 0xFFFFFFFFFFFFFFFF) = true := by decide

theorem witness_EncodeAfterDecode :
    decodeCmd 0x00000116 0 = .ok (.setHalt 1 true) ∧ decodeCmd 0x00000001 0 = .ok (.bind 0) := by decide

theorem witness_SetupRowsByFields :
    (setupType 0x009F = 0#2 ∧ setupRequest 0x009F = 0x00) ∧
    (setupType 0x0102 = 0#2 ∧ setupRequest 0x0102 = 0x01) ∧ (setupType 0x0300 = 0#2 ∧ setupRequest 0x0300 = 0x03) ∧
    (setupType 0x0500 = 0#2 ∧ setupRequest 0x0500 = 0x05) ∧ (setupType 0x0680 = 0#2 ∧ setupRequest 0x0680 = 0x06) ∧
    (setupRequestType 0x0900 = 0x00 ∧ setupRequest 0x0900 = 0x09) ∧
    (setupType 0x0921 ≠ 0#2 ∧ setupRequestType 0x0921 ≠ 0x00) ∧
    (setupType 0x0980 = 0#2 ∧ setupRequest 0x0980 = 0x09 ∧ setupRequestType 0x0980 ≠ 0x00) ∧
    (setupType 0x0700 = 0#2 ∧ setupRequest 0x0700 = 0x07) := by decide

theorem witness_RefusedCommandsAndActions :
    8 ≤ (cmdOpc 0x8).toNat ∧ cmdRsv 0x200 ≠ 0 ∧ (cmdV 0x112 = true ∧ cmdOpc 0x112 ≠ 6#4) ∧
    (cmdEp 0x10 ≠ 0 ∧ cmdOpc 0x10 = 0#4) ∧ (cmdEp 0xF1 ≠ 0 ∧ cmdOpc 0xF1 = 1#4) ∧
    (cmdOpc 0x0 = 0#4 ∧ cmdOpc 0x23 = 3#4 ∧ cmdOpc 0x16 = 6#4 ∧ cmdOpc 0x27 = 7#4 ∧ cmdOpc 0x1 = 1#4) ∧
    findRequest 99 cfgd.reqs = none ∧ 0 < (cfgd.enterUpcall .init).dev.upcallDepth ∧
    (∃ r, findRequest 3 receiving.reqs = some r ∧ r.queuedOn ≠ none) ∧
    (3, receiving.req (.user 3)) ∈ receiving.reqs ∧ (receiving.req (.user 3)).buf = .sysMem 0x5000 ∧
    (0x5000 : Word).toNat ≤ (0x5003 : Word).toNat ∧
    (0x5003 : Word).toNat < (0x5000 : Word).toNat + (receiving.req (.user 3)).length := by
  refine ⟨by decide, by decide, by decide, by decide, by decide, by decide, by decide +kernel, by decide +kernel,
    ⟨receiving.req (.user 3), by decide +kernel, by decide +kernel⟩, ?_⟩
  decide +kernel

/-- A SET_ADDRESS transfer the SIE has not finished. -/
def addressed : State := { cfgd with sie := { cfgd.sie with pendingAddress := some ⟨9, 0⟩ } }

theorem witness_StepRunsTheInput :
    decodeCmd 0 0 = .ok .task ∧ (∃ t, exec .task { cfgd with inputs := [] } = .next t) ∧
    decodeCmd 0x12 0xFFFFFFFA = .ok (.enable 1 0xFFFFFFFA) ∧ (∃ f, exec (.enable 1 0xFFFFFFFA) cfgd = .fault f) ∧
    decodeCmd 0x14 99 = .ok (.queue 1 99) ∧ (∃ r, exec (.queue 1 99) cfgd = .refused r) ∧
    decodeCmd 0x200 0 = .error .reservedCommand ∧
    ({ cfgd with inputs := [.move .suspend, .write (.memByte 0 1)] } : State).inputs = [.move .suspend, .write (.memByte 0 1)] ∧
    cfgd.inputs = [] ∧ cfgd.sie.pendingAddress = none ∧
    (addressed.sie.pendingAddress = some ⟨9, 0⟩ ∧ addressed.dev.ctl = .waitForSetup ∧ (addressed.sie.ep 0).stall = false ∧
      (addressed.sie.ep 0).rxQueue.length ≤ 0 ∧ (1 : Word).getLsbD 0 = true) ∧
    ((addressed.setSieEp 0 fun e => { e with stall := true }).sie.pendingAddress = some ⟨9, 0⟩ ∧
      ((addressed.setSieEp 0 fun e => { e with stall := true }).sie.ep 0).stall = true) ∧
    ((withPacket 0 [1] addressed).sie.pendingAddress = some ⟨9, 0⟩ ∧
      ¬((withPacket 0 [1] addressed).sie.ep 0).rxQueue.length ≤ 0) ∧
    ((addressed.withCtl .recv).dev.ctl ≠ .waitForSetup ∧ (addressed.sie.ep 0).stall = false) :=
  ⟨by decide, next_of_nextOf (by decide +kernel), by decide, fault_of_isFault (by decide +kernel), by decide,
    refused_of_isRefused (by decide +kernel), by decide, rfl, rfl, by decide +kernel⟩

/-- The sample of TASK shows nothing. -/
def Quiet (s : State) : Prop := s.sampledSsr &&& 0xEF = 0 ∧ s.sampledEir &&& s.sampledEier &&& epMask s.numEps = 0

theorem witness_TaskRunsItsEvents :
    (cfgd.dev.upcallDepth = 0 ∧ Quiet cfgd) ∧
    ∃ s t u : State, s.Inv ∧ s.Undisturbed ∧ s.dev.upcallDepth = 0 ∧ ¬Quiet s ∧
      execAll (decodeSsr s.sampledSsr) s.sampled = .next t ∧
      endpointPasses s.sampledEir (List.range s.numEps) t = .next u := by
  refine ⟨⟨rfl, by unfold Quiet; decide +kernel⟩, { received with sie := { received.sie with ssr := 0x20 } },
    got (execAll [.suspend] (({ received with sie := { received.sie with ssr := 0x20 } } : State).sampled)), _,
    invOk_sound (by decide +kernel), undisturbedOk_sound (by decide +kernel), rfl, by unfold Quiet; decide +kernel, ?_,
    next_got (by decide +kernel)⟩
  have h : decodeSsr ({ received with sie := { received.sie with ssr := 0x20 } } : State).sampledSsr = [.suspend] := by
    decide +kernel
  rw [h]
  exact next_got (by decide +kernel)

/-- A cheap poll with nothing staged, and one with a packet on an endpoint that is not enabled. -/
theorem witness_TaskIsACheapPoll :
    (cfgd.Inv ∧ cfgd.betweenMoves = [] ∧ cfgd.dev.upcallDepth = 0 ∧ cfgd.sie.ssr &&& 0xEF = 0 ∧
      ∀ i, i < cfgd.numEps → (cfgd.ep i).enabled = true →
        (cfgd.sie.ep i).eirLatch = false ∧ (cfgd.sie.ep i).rxQueue = []) ∧
    ((withPacket 2 [1] (cfgd.shutDown 2)).Inv ∧ (withPacket 2 [1] (cfgd.shutDown 2)).betweenMoves = [] ∧
      (withPacket 2 [1] (cfgd.shutDown 2)).sie.ssr &&& 0xEF = 0 ∧
      ∀ i, i < 3 → ((withPacket 2 [1] (cfgd.shutDown 2)).ep i).enabled = true →
        ((withPacket 2 [1] (cfgd.shutDown 2)).sie.ep i).eirLatch = false ∧
        ((withPacket 2 [1] (cfgd.shutDown 2)).sie.ep i).rxQueue = []) :=
  ⟨⟨agents_cfgd.1, rfl, rfl, by decide +kernel, by decide +kernel⟩,
    ⟨invOk_sound (by decide +kernel), rfl, by decide +kernel, by decide +kernel⟩⟩

/-- The class driver answers `init` with SET_HALT, and with TASK. -/
theorem witness_UpcallRunsItsActions :
    (∃ t, runActions [.command 0x116 0, .write (.memByte 0x9000 1)] (cfgd.enterUpcall .init).afterResponse = .next t) ∧
    (∃ r, runActions [.command 0 0] (cfgd.enterUpcall .init).afterResponse = .refused r) :=
  ⟨next_of_nextOf (by decide +kernel), refused_of_isRefused (by decide +kernel)⟩

theorem witness_UpcallDepthBalanced : ∃ t, exec (.dequeue 1 2) sending = .next t := next_of_nextOf (by decide +kernel)

theorem witness_RegisterReads :
    2 < received.sie.eps.length ∧ (received.sie.ep 2).rxQueue = ⟨[1, 2, 3, 4, 5], false⟩ :: [] ∧
    ([1, 2, 3, 4, 5] : List Byte) ≠ [] ∧ (cfgd.sie.ep 2).rxQueue = [] ∧
    ((withPacket 2 [] cfgd).sie.ep 2).rxQueue = ⟨[], false⟩ :: [] := by decide +kernel

theorem witness_StatusLevels :
    0 < received.sie.eps.length ∧ (received.sie.ep 0).FifoOk 2 ∧ 2 < received.sie.eps.length ∧ (received.sie.ep 2).FifoOk 2 :=
  ⟨by decide +kernel, fifoOk_sound (by decide +kernel), by decide +kernel, fifoOk_sound (by decide +kernel)⟩

theorem witness_WriteOneToClear :
    received.sie.eps.length ≤ 16 ∧ 2 < received.sie.eps.length ∧ received.sie.eps.length ≤ 31 := by decide +kernel

theorem witness_WrittenRegistersReadBack : cfgd.cfg.numEndpoints ≤ 16 ∧ 2 < cfgd.sie.eps.length := by decide +kernel

theorem witness_EndpointIndexOutOfRange :
    cfgd.numEps ≤ (3 : BitVec 4).toNat ∧ cfgd.numEps ≤ (15 : BitVec 4).toNat ∧ cfgd.hasRequest 8 = true := by decide +kernel

theorem witness_ErrorsChangeNothing :
    decodeCmd 0x03 0 = .ok (.disable 0) ∧ ∃ t, exec (.disable 0) cfgd = .next t ∧ t.result ≠ .ok :=
  ⟨by decide, got (exec (.disable 0) cfgd), next_got (by decide +kernel), by decide +kernel⟩

theorem witness_BindRegistersTheDriver :
    0 < (cfgd.enterUpcall .init).dev.upcallDepth ∧ (cfgd.dev.upcallDepth = 0 ∧ cfgd.dev.driver ≠ none) ∧
    (State.reset.dev.upcallDepth = 0 ∧ State.reset.dev.driver = none ∧ State.reset.nextResponse.actions = []) ∧
    ∃ t, upcalled .init (State.reset.setDev fun v => { v with driver := some 1 }) = .next t :=
  ⟨by decide +kernel, by decide +kernel, by decide +kernel, next_of_nextOf (by decide +kernel)⟩

/-- S_CFG with the IN descriptor's size at 512. -/
def bigDescriptor : State := (cfgd.setByte 0x1004 0).setByte 0x1005 2

theorem witness_EnableChecksInOrder :
    ((0 : BitVec 4).toNat < cfgd.numEps) ∧
    ((1 : BitVec 4) ≠ 0 ∧ (1 : BitVec 4).toNat < cfgd.numEps ∧ (0xFFFFFFF9 : Word).toNat + 7 ≤ cfgd.cfg.memSize ∧
      ¬cfgd.descriptorMatches 1 0xFFFFFFF9) ∧
    (bigDescriptor.descriptorMatches 1 0x1000 ∧ ¬bigDescriptor.descriptorFits 1 0x1000) ∧
    (unconfigured.descriptorMatches 1 0x1000 ∧ unconfigured.descriptorFits 1 0x1000 ∧ ¬unconfigured.mayEnable) := by
  unfold State.descriptorMatches State.descriptorFits State.mayEnable
  decide +kernel

/-- The IN endpoint and the OUT endpoint. -/
theorem witness_EnableBindsTheEndpoint :
    (dataShut cfgd).Inv ∧ (dataShut cfgd).Undisturbed ∧ (2 : BitVec 4).toNat < (dataShut cfgd).numEps ∧
    (0x1010 : Word).toNat + 7 ≤ (dataShut cfgd).cfg.memSize ∧ (dataShut cfgd).mayEnable ∧
    (dataShut cfgd).descriptorMatches 1 0x1000 ∧ (dataShut cfgd).descriptorFits 1 0x1000 ∧
    (dataShut cfgd).descriptorMatches 2 0x1010 ∧ (dataShut cfgd).descriptorFits 2 0x1010 := by
  refine ⟨invOk_sound (by decide +kernel), undisturbedOk_sound (by decide +kernel), by decide +kernel, by decide +kernel, ?_⟩
  unfold State.descriptorMatches State.descriptorFits State.mayEnable
  decide +kernel

theorem witness_EnablePastMemoryFaults :
    (1 : BitVec 4) ≠ 0 ∧ (1 : BitVec 4).toNat < cfgd.numEps ∧ cfgd.cfg.memSize < (0xFFFFFFFA : Word).toNat + 7 := by
  decide +kernel

theorem witness_DisableShutsTheEndpoint :
    receiving.Inv ∧ receiving.Undisturbed ∧ (2 : BitVec 4).toNat < receiving.numEps ∧ (2 : BitVec 4) ≠ 0 ∧
    (0 : BitVec 4).toNat < receiving.numEps := ⟨agents_receiving.1, agents_receiving.2, by decide +kernel⟩

theorem witness_QueueChecksInOrder :
    (cfgd.hasRequest 8 = true ∧ (cfgd.req (.user 8)).buf = .none) ∧
    (receiving.hasRequest 3 = true ∧ (receiving.req (.user 3)).queuedOn ≠ none) ∧
    ((cfgd.req (.user 1)).buf ≠ .none ∧ (cfgd.req (.user 1)).queuedOn = none) ∧
    ((State.reset.req (.user 1)).buf ≠ .none ∧ State.reset.dev.driver = none ∧ State.reset.dev.speed = .unknown) ∧
    ((1 : BitVec 4) ≠ 0 ∧ ((dataShut cfgd).ep 1).enabled = false ∧ (1 : BitVec 4).toNat < (dataShut cfgd).numEps) := by
  decide +kernel

/-- A data endpoint, and a zero-length request on endpoint 0. -/
theorem witness_QueueAcceptsTheRequest :
    cfgd.Inv ∧ cfgd.Undisturbed ∧ cfgd.hasRequest 2 = true ∧ cfgd.mayQueue 1 (.user 2) ∧
    (withRecord 2 (fun r => { r with length := 0 }) cfgd).Inv ∧
    (withRecord 2 (fun r => { r with length := 0 }) cfgd).Undisturbed ∧
    (withRecord 2 (fun r => { r with length := 0 }) cfgd).mayQueue 0 (.user 2) := by
  refine ⟨agents_cfgd.1, agents_cfgd.2, by decide +kernel, ?_, invOk_sound (by decide +kernel),
    undisturbedOk_sound (by decide +kernel), ?_⟩ <;>
  (unfold State.mayQueue; decide +kernel)

theorem witness_QueueSendsTheFirstPacket :
    cfgd.Inv ∧ cfgd.Undisturbed ∧ cfgd.mayQueue 1 (.user 2) ∧ (1 : BitVec 4) ≠ 0 ∧ (1 : BitVec 4).toNat < cfgd.numEps ∧
    cfgd.hasRequest 2 = true ∧ (cfgd.req (.user 2)).buf = .sysMem 0x4000 ∧ Config.dirOf cfgd.cfg 1 = .IN ∧
    (cfgd.ep 1).halted = false ∧ (cfgd.ep 1).queue = [] ∧ (cfgd.sie.ep 1).txCur = none ∧
    (cfgd.sie.ep 1).txQueue.length < cfgd.cfg.fifoPkts := by
  refine ⟨agents_cfgd.1, agents_cfgd.2, ?_⟩
  unfold State.mayQueue
  decide +kernel

theorem witness_DequeueEndsTheRequest :
    sending.Inv ∧ sending.Undisturbed ∧ (1 : BitVec 4).toNat < sending.numEps ∧ sending.hasRequest 7 = true ∧
    (sending.req (.user 7)).queuedOn = some (1 : BitVec 4).toNat ∧
    (sending.req (.user 7)).queuedOn ≠ some (2 : BitVec 4).toNat := ⟨agents_sending.1, agents_sending.2, by decide +kernel⟩

theorem witness_SetHaltStallsTheEndpoint :
    ((1 : BitVec 4) ≠ 0 ∧ ((dataShut cfgd).ep 1).enabled = false) ∧
    ((sending.ep 1).enabled = true ∧ sending.epDir 1 = .IN ∧ (sending.ep 1).queue ≠ []) ∧
    (cfgd.Inv ∧ cfgd.Undisturbed ∧ (cfgd.ep 1).enabled = true ∧ (cfgd.ep 1).queue = []) :=
  ⟨by decide +kernel, by decide +kernel, agents_cfgd.1, agents_cfgd.2, by decide +kernel⟩

theorem witness_FifoFlushDiscards :
    received.Inv ∧ received.betweenMoves = [] ∧ (2 : BitVec 4).toNat < received.numEps ∧ received.epDir 1 = .IN ∧
    received.epDir 2 = .OUT := ⟨agents_received.1, by decide +kernel⟩

theorem witness_GetStatusReplies : cfgd.Inv ∧ cfgd.Undisturbed := agents_cfgd

theorem witness_FeatureSetsTheHalt :
    sending.Inv ∧ sending.Undisturbed ∧ ((0x0082 : Half).extractLsb' 0 4).toNat < sending.numEps ∧
    ¬((0x0083 : Half).extractLsb' 0 4).toNat < sending.numEps := ⟨agents_sending.1, agents_sending.2, by decide +kernel⟩

theorem witness_SetAddressRecordsTheAddress : cfgd.Undisturbed ∧ (1 : Half) ≠ 0 := ⟨agents_cfgd.2, by decide⟩

theorem witness_SetConfigurationConfigures :
    (unconfigured.Inv ∧ unconfigured.Undisturbed ∧ unconfigured.dev.state.belowAddress = true) ∧
    (cfgd.Inv ∧ cfgd.Undisturbed ∧ cfgd.dev.state.belowAddress = false ∧ cfgd.dev.driver ≠ none ∧
      isNegative cfgd.nextResponse.ret = false ∧ (1 : Half).extractLsb' 0 8 ≠ 0#8 ∧ (0 : Half).extractLsb' 0 8 = 0#8) ∧
    ((withScript [⟨[], 0xFFFFFFFF⟩] cfgd).Inv ∧ (withScript [⟨[], 0xFFFFFFFF⟩] cfgd).Undisturbed ∧
      isNegative (withScript [⟨[], 0xFFFFFFFF⟩] cfgd).nextResponse.ret = true) ∧
    ((cfgd.setDev fun d => { d with driver := none }).Inv ∧ (cfgd.setDev fun d => { d with driver := none }).Undisturbed ∧
      (cfgd.setDev fun d => { d with driver := none }).dev.driver = none) :=
  ⟨⟨agents_unconfigured.1, agents_unconfigured.2, by decide +kernel⟩, ⟨agents_cfgd.1, agents_cfgd.2, by decide +kernel⟩,
    ⟨invOk_sound (by decide +kernel), undisturbedOk_sound (by decide +kernel), by decide +kernel⟩,
    ⟨invOk_sound (by decide +kernel), undisturbedOk_sound (by decide +kernel), by decide +kernel⟩⟩

/-- The class driver queues a reply in its `setup`. -/
theorem witness_RequestsAreForwarded :
    cfgd.Undisturbed ∧ cfgd.dev.driver ≠ none ∧
    ∃ t, upcalled (.setup 0x0040000001000680)
      ((withScript [⟨[.command 0x04 1], 0⟩, ⟨[], 0⟩] cfgd).withCtl .xmit) = .next t ∧ t.betweenMoves = [] :=
  ⟨agents_cfgd.2, by decide +kernel, _, next_got (by decide +kernel), by decide +kernel⟩

theorem witness_VbusOnAttaches :
    cfgd.dev.state ≠ .notAttached ∧ (State.reset.dev.state = .notAttached ∧ State.reset.dev.driver = none) ∧
    ((atState .notAttached cfgd).dev.driver ≠ none ∧ (atState .notAttached cfgd).nextResponse.actions = []) ∧
    ∃ t, upcalled .vbusOn (((atState .notAttached cfgd).afterWrite .ssr 0x1).setDev fun d => { d with state := .attached }) =
      .next t :=
  ⟨by decide +kernel, by decide +kernel, by decide +kernel, next_of_nextOf (by decide +kernel)⟩

theorem witness_VbusOffDetaches : sending.Inv ∧ sending.Undisturbed := agents_sending

theorem witness_BusResetReinitializes :
    sending.Inv ∧ sending.betweenMoves = [] ∧ sending.Undisturbed ∧ 1 < sending.numEps ∧ 2 < sending.numEps :=
  ⟨agents_sending.1, rfl, agents_sending.2, by decide +kernel⟩

theorem witness_SpeedDoneReinitializes :
    sending.Inv ∧ sending.betweenMoves = [] ∧ sending.Undisturbed ∧ 1 < sending.numEps ∧ 2 < sending.numEps :=
  ⟨agents_sending.1, rfl, agents_sending.2, by decide +kernel⟩

theorem witness_SuspendResumeErrorOnlyAcknowledged : cfgd.betweenMoves = [] := rfl

theorem witness_UnhandledEvents :
    ¬(dataShut cfgd).serves (1 : BitVec 4).toNat ∧ ¬cfgd.serves (3 : BitVec 4).toNat ∧
    ((1 : BitVec 4) ≠ 0 ∧ Config.dirOf cfgd.cfg 1 = .IN ∧ cfgd.serves (1 : BitVec 4).toNat) ∧
    ((2 : BitVec 4) ≠ 0 ∧ Config.dirOf cfgd.cfg 2 = .OUT ∧ cfgd.serves (2 : BitVec 4).toNat) := by
  unfold State.serves
  decide +kernel

theorem witness_StallSentRecovers :
    sending.Inv ∧ sending.Undisturbed ∧ (2 : BitVec 4) ≠ 0 ∧ sending.serves (2 : BitVec 4).toNat ∧
    sending.betweenMoves = [] := by
  refine ⟨agents_sending.1, agents_sending.2, ?_⟩
  unfold State.serves
  decide +kernel

theorem witness_FlushRequestDrains :
    received.Inv ∧ received.betweenMoves = [] ∧ received.serves (0 : BitVec 4).toNat ∧ received.serves (1 : BitVec 4).toNat ∧
    Config.dirOf received.cfg 1 = .IN ∧ received.serves (2 : BitVec 4).toNat ∧
    (2 : BitVec 4) ≠ 0 ∧ Config.dirOf received.cfg 2 = .OUT := by
  refine ⟨agents_received.1, ?_⟩
  unfold State.serves
  decide +kernel

theorem witness_TxDoneSendsTheNextPacket :
    sending.Inv ∧ sending.Undisturbed ∧ sending.serves (0 : BitVec 4).toNat ∧ sending.serves (1 : BitVec 4).toNat ∧
    (1 : BitVec 4) ≠ 0 ∧ Config.dirOf sending.cfg 1 = .IN ∧
    (2 : BitVec 4) ≠ 0 ∧ Config.dirOf sending.cfg 2 = .OUT ∧ sending.serves (2 : BitVec 4).toNat := by
  refine ⟨agents_sending.1, agents_sending.2, ?_⟩
  unfold State.serves
  decide +kernel

theorem witness_RxReadyReceivesThePacket :
    (received.Inv ∧ received.Undisturbed ∧ received.serves (2 : BitVec 4).toNat ∧ (2 : BitVec 4) ≠ 0 ∧
      Config.dirOf received.cfg 2 = .OUT) ∧
    ((withSub .recv cfgd).Inv ∧ (withSub .recv cfgd).Undisturbed ∧ (withSub .recv cfgd).serves (0 : BitVec 4).toNat ∧
      (withSub .recv cfgd).dev.ctl = .recv) := by
  refine ⟨⟨agents_received.1, agents_received.2, ?_⟩, invOk_sound (by decide +kernel), undisturbedOk_sound (by decide +kernel),
    ?_⟩ <;>
  (unfold State.serves; decide +kernel)


theorem witness_ReceivedPacketIsStored :
    (received.Inv ∧ received.Undisturbed ∧ (2 : BitVec 4) ≠ 0 ∧ received.serves (2 : BitVec 4).toNat ∧
    Config.dirOf received.cfg 2 = .OUT ∧ (received.ep 2).halted = false ∧ (received.ep 2).queue = .user 3 :: [] ∧
    received.hasRequest 3 = true ∧ (received.req (.user 3)).buf = .sysMem 0x5000 ∧
    (received.sie.ep 2).rxQueue = ⟨[1, 2, 3, 4, 5], false⟩ :: [] ∧ (received.sie.ep 2).rxPos = 0 ∧
    received.sie.vbus = true) ∧
    (interrupted.Inv ∧ interrupted.serves (2 : BitVec 4).toNat ∧ Config.dirOf interrupted.cfg 2 = .OUT ∧
      (interrupted.ep 2).halted = false ∧ (interrupted.ep 2).queue = .user 3 :: [] ∧
      (interrupted.req (.user 3)).callback = none ∧ esrRxReady (interrupted.readValue (.esr 2)) = true ∧
      ∃ t, exec (.rxReady 2 false) interrupted = .next t) := by
  refine ⟨⟨agents_received.1, agents_received.2, ?_⟩, invOk_sound (by decide +kernel), ?_, by decide +kernel, by decide +kernel,
    by decide +kernel, by decide +kernel, by decide +kernel, next_of_nextOf (by decide +kernel)⟩
  all_goals
    unfold State.serves
    decide +kernel

/-- A GET_STATUS packet staged behind an unfinished data stage. -/
def setupStaged : State := withPacket 0 (setupBytes 0x0002000000000080) (withSub .xmit (withQueued 0 4 64 cfgd))

theorem witness_RxReadyExecutesTheSetup :
    setupStaged.Inv ∧ setupStaged.betweenMoves = [] ∧ setupStaged.Undisturbed ∧ setupStaged.dev.ctl ≠ .recv ∧
    (setupStaged.sie.ep 0).rxQueue = ⟨setupBytes 0x0002000000000080, false⟩ :: [] ∧ (setupStaged.sie.ep 0).rxPos = 0 ∧
    ∃ t, exec (decodeSetup 0x0002000000000080) (((setupStaged.finishedAll 0 .protocolError).setSieEp 0
      fun e => { e with stall := false, rxQueue := [] }).setEp 0 fun e => { e with halted := false }) = .next t :=
  ⟨invOk_sound (by decide +kernel), rfl, undisturbedOk_sound (by decide +kernel), by decide +kernel, by decide +kernel,
    by decide +kernel, next_of_nextOf (by decide +kernel)⟩

theorem witness_RxReadyStallsABadSetup :
    (cfgd.Inv ∧ cfgd.Undisturbed ∧ cfgd.dev.ctl ≠ .recv ∧ (cfgd.sie.ep 0).pendingBytes.length ≠ 8) ∧
    ((withPacket 0 [1, 2, 3, 4, 5, 6, 7] cfgd).Inv ∧ (withPacket 0 [1, 2, 3, 4, 5, 6, 7] cfgd).Undisturbed ∧
      ((withPacket 0 [1, 2, 3, 4, 5, 6, 7] cfgd).sie.ep 0).pendingBytes.length ≠ 8) :=
  ⟨⟨agents_cfgd.1, agents_cfgd.2, by decide +kernel⟩, invOk_sound (by decide +kernel),
    undisturbedOk_sound (by decide +kernel), by decide +kernel⟩

/-- 128 bytes with padding at size 64: the third packet, of length 0, is the last. -/
theorem witness_PacketsOfATransfer :
    cfgd.hasRequest 2 = true ∧ 0 < (cfgd.ep 1).mps.toNat ∧
    2 < (cfgd.req (.user 2)).length / (cfgd.ep 1).mps.toNat + 1 ∧
    ((withQueued 1 2 128 cfgd).req (.user 2)).actual = 2 * ((withQueued 1 2 128 cfgd).ep 1).mps.toNat := by decide +kernel

theorem witness_ResetsLeaveTheDeviceShut :
    sending.Inv ∧ (∃ t, exec .reset sending = .next t) ∧ (∃ t, exec (.speedDone true) sending = .next t) ∧
    ∃ t, exec .vbusOff sending = .next t :=
  ⟨agents_sending.1, next_of_nextOf (by decide +kernel), next_of_nextOf (by decide +kernel),
    next_of_nextOf (by decide +kernel)⟩

theorem witness_CommandsKeepTheDevice :
    decodeCmd 0x15 2 = .ok (.dequeue 1 2) ∧ (∃ t, exec (.dequeue 1 2) sending = .next t) ∧ ∃ t, exec .task sending = .next t :=
  ⟨by decide, next_of_nextOf (by decide +kernel), next_of_nextOf (by decide +kernel)⟩

theorem witness_OnlyTaskAcknowledges :
    decodeCmd 0x23 0 = .ok (.disable 2) ∧ receiving.betweenMoves = [] ∧ ∃ t, exec (.disable 2) receiving = .next t :=
  ⟨by decide, rfl, next_of_nextOf (by decide +kernel)⟩

theorem witness_StepsKeepWhatOnlyLaunchSets :
    ∃ t, step { received with inputs := [.command 0 0] } = .next t := next_of_nextOf (by decide +kernel)

/-- An address outside memory, in a state that meets the invariants; a queue with a handle that has no record; and a
request in flight whose class driver made it too short, in states that do not. -/
theorem witness_FaultsNameTheAccess :
    cfgd.Inv ∧ (∃ f, exec (.enable 1 0xFFFFFFFA) cfgd = .fault f) ∧
    exec (.txDone 1 false) (withQueued 1 99 0 cfgd) = .fault (.noRecord (some (.txDone 1 false)) (.user 99)) ∧
    exec (.txDone 1 false) (withRecord 2 (fun r => { r with length := 3 }) sending) =
      .fault (.outOfWidth (some (.txDone 1 false)) (.user 2)) :=
  ⟨agents_cfgd.1, fault_of_isFault (by decide +kernel), fault_of_faultOf (by decide +kernel),
    fault_of_faultOf (by decide +kernel)⟩

theorem witness_MemoryChangesOnlyInBuffers :
    received.Inv ∧ (∀ r ∈ received.driverScript, r.actions = []) ∧ ∃ t, exec (.rxReady 2 false) received = .next t :=
  ⟨agents_received.1, by decide +kernel, next_of_nextOf (by decide +kernel)⟩

theorem witness_OnlyReceptionStores :
    (∀ r ∈ sending.driverScript, r.actions = []) ∧ ∃ t, exec (.txDone 1 true) sending = .next t :=
  ⟨by decide +kernel, next_of_nextOf (by decide +kernel)⟩

theorem witness_EveryInstructionCompletes :
    cfgd.Inv ∧ cfgd.Undisturbed ∧ cfgd.dev.upcallDepth = 0 ∧ (1 : Word) ≠ 0 ∧ cfgd.hasRequest 8 = true ∧
    (0xFFFFFFF9 : Word).toNat + 7 ≤ cfgd.cfg.memSize := ⟨agents_cfgd.1, agents_cfgd.2, by decide +kernel⟩

/-- A configured state, and one below ADDRESS. -/
theorem witness_StepsKeepTheInvariants :
    ({ received with inputs := [.command 0 0] } : State).AtRest ∧
    (∃ t, step { received with inputs := [.command 0 0] } = .next t) ∧ unconfigured.AtRest :=
  ⟨⟨invOk_sound (by decide +kernel), fun h => absurd h (by decide +kernel), rfl⟩, next_of_nextOf (by decide +kernel),
    ⟨agents_unconfigured.1, fun _ => by
      have : ∀ i, i < 3 → 1 ≤ i → (unconfigured.ep i).enabled = false := by decide +kernel
      exact fun i h1 h2 => this i h2 h1, rfl⟩⟩

theorem witness_ControllerInitialization :
    cfgd.cfg.wf = true ∧ cfgd.sie.eps.length = cfgd.numEps ∧ 2 < cfgd.numEps ∧ cfgd.hasRequest 8 = true ∧
    cfgd.hasRequest 9 = false := by decide +kernel

theorem witness_ResetIsWhatInitializationLeaves :
    Config.test.wf = true ∧ 1 < Config.test.numEndpoints ∧ 2 < Config.test.numEndpoints ∧
    (1, ⟨some 0x3000, 18, false, some 1⟩) ∈ Config.test.reqTable ∧ (8, ⟨none, 0, false, some 8⟩) ∈ Config.test.reqTable := by
  decide +kernel

/-- S_CFG's SIE with endpoint 1 stalled. -/
def stalledSie : Sie := cfgd.sie.setEp 1 fun e => { e with stall := true }

theorem witness_MovesOfTheBus :
    Move.error ∈ [Move.vbusOff, .reset, .suspend, .resume, .error] ∧ (stalledSie.ep (1 : BitVec 4).toNat).stall = true ∧
    ((cfgd.sie.setEp 1 fun e => { e with txQueue := [[7]] }).ep (1 : BitVec 4).toNat).stall = false ∧
    ((cfgd.sie.setEp 1 fun e => { e with txQueue := [[7]] }).ep (1 : BitVec 4).toNat).txQueue = [7] :: [] ∧
    (cfgd.sie.ep (2 : BitVec 4).toNat).stall = false ∧ Sie.moveEnabled cfgd.cfg cfgd.sie (.out 2 [1, 2] false) = true ∧
    Sie.moveEnabled cfgd.cfg cfgd.sie (.inToken 1) = false := by decide +kernel

theorem witness_AllowedDriverWritesTakeEffect :
    (findRequest 2 cfgd.reqs = some (cfgd.req (.user 2)) ∧ (cfgd.req (.user 2)).queuedOn = none) ∧
    (Memory.wf receiving.mem ∧ (0x5004 : Word).toNat < receiving.cfg.memSize ∧ (0xFFFFFFFF : Word).toNat < receiving.cfg.memSize ∧
      ∀ p ∈ receiving.reqs, p.2.ownsByte 0x5004 = false ∧ p.2.ownsByte 0xFFFFFFFF = false) ∧
    ∃ t, outcome (driverWrite (.memByte 0x5004 1)) receiving = .next t :=
  ⟨by decide +kernel, by decide +kernel, next_of_nextOf (by decide +kernel)⟩

end Sys2Proof.Tests
end

section
/-! PROOF. The state after reset: CTRL_INIT leaves it unchanged, and it holds the values R208 gives. -/

namespace Sys2Proof.Machine

theorem writeControl_zero_eq_self {e : SieEndpoint} (hs : e.stall = false) (hd : e.dirIn = false) :
    SieEndpoint.writeControl 0 e = e := by
  rw [writeControl_zero]
  cases e
  cases hs
  cases hd
  rfl

/-- CTRL_INIT's writes for endpoints whose registers already hold what it writes change nothing. -/
theorem initEndpointRegisters_eq_self (c : Config) (eps : List Endpoint) (x : Sie) {l : List Nat}
    (hl : ∀ i ∈ l, (x.ep i).stall = false ∧ (x.ep i).dirIn = false ∧ (x.ep i).mps = (eps.getD i Endpoint.absent).mps) :
    initEndpointRegisters c eps x l = x := by
  induction l with
  | nil => rfl
  | cons i l ih =>
    obtain ⟨hs, hd, hm⟩ := hl i (by simp)
    have hecr : Sie.write c x (.ecr i) 0 = x := by
      rw [write_ecr c (.inr (.inl (by decide)))]
      exact sieSetEp_eq_self (writeControl_zero_eq_self hs hd)
    have hmps : Sie.write c x (.mps i) ((eps.getD i Endpoint.absent).mps.zeroExtend 32) = x := by
      refine sieSetEp_eq_self ?_
      rw [low11_zeroExtend, ← hm]
    rw [initEndpointRegisters, hecr, hmps]
    exact ih fun j hj => hl j (by simp [hj])

/-- The SIE's record of each endpoint at launch, whose MPS is the endpoint record's. -/
theorem resetWith_sieEp (c : Config) {i : Nat} (hi : i < c.numEndpoints) :
    (State.resetWith c).sie.ep i = SieEndpoint.launch ((State.resetWith c).ep i).mps := by
  cases i with
  | zero => rfl
  | succ i =>
    have : i < c.numEndpoints - 1 := by omega
    simp [State.resetWith, Sie.ep, State.ep, List.getD_eq_getElem?_getD, this]

theorem resetWith_dataEp (c : Config) {i : Nat} (h1 : 1 ≤ i) (hi : i < c.numEndpoints) :
    (State.resetWith c).ep i = ⟨c.bulkMpsFs, false, true, []⟩ := by
  obtain ⟨i, rfl⟩ := Nat.exists_eq_add_of_le' h1
  have : i < c.numEndpoints - 1 := by omega
  simp [State.resetWith, State.ep, List.getD_eq_getElem?_getD, this]

/-- With distinct handles the table's own record is found. -/
theorem findRequest_of_mem {l : List (Word × Request)} (hl : (l.map (·.1)).Nodup) {h : Word} {r : Request}
    (hm : (h, r) ∈ l) : findRequest h l = some r := by
  induction l with
  | nil => cases hm
  | cons p l ih =>
    obtain ⟨k, q⟩ := p
    rw [List.map_cons, List.nodup_cons] at hl
    rcases List.mem_cons.mp hm with hp | hm
    · cases hp
      simp [findRequest]
    · have hk : k ≠ h := fun hk => hl.1 (hk ▸ List.mem_map_of_mem (f := (·.1)) hm)
      simpa [findRequest, hk] using ih hl.2 hm

theorem resetWith_req {c : Config} (hc : c.wf = true) {h : Word} {r : RequestInit} (hm : (h, r) ∈ c.reqTable) :
    (State.resetWith c).req (.user h) = Request.launch r := by
  simp only [Config.wf, Bool.and_eq_true, decide_eq_true_eq] at hc
  have hf : findRequest h (State.resetWith c).reqs = some (Request.launch r) := by
    refine findRequest_of_mem ?_ (List.mem_map_of_mem (f := fun p : Word × RequestInit => (p.1, Request.launch p.2)) hm)
    simpa [State.resetWith, Function.comp_def] using hc.1.2
  simp [State.req, hf]

/-- Controller initialization leaves the state it has left (R207, R208). -/
theorem ctrlInit_resetWith (c : Config) : ctrlInit (State.resetWith c) = State.resetWith c := by
  have heier : Sie.write c (State.resetWith c).sie .eier 0x1 = (State.resetWith c).sie := by
    have h1 : ((0x1 : Word) &&& epMask c.numEndpoints) ||| 1 = 1 := by
      ext j hj
      simp
      tauto
    simp only [Sie.write, h1]
    rfl
  have hsie : initEndpointRegisters c (State.resetWith c).eps (State.resetWith c).sie (List.range c.numEndpoints) =
      (State.resetWith c).sie := by
    refine initEndpointRegisters_eq_self c _ _ fun i hi => ?_
    rw [resetWith_sieEp c (List.mem_range.mp hi)]
    exact ⟨rfl, rfl, rfl⟩
  have hreqs : (State.resetWith c).reqs.map (fun p => (p.1, p.2.unqueued)) = (State.resetWith c).reqs := by
    simp [State.resetWith, Request.unqueued, Request.launch]
  show ({ State.resetWith c with
    reqs := (State.resetWith c).reqs.map fun p => (p.1, p.2.unqueued)
    sie := initEndpointRegisters c (State.resetWith c).eps (Sie.write c (State.resetWith c).sie .eier 0x1)
      (List.range c.numEndpoints) } : State) = _
  rw [hreqs, heier, hsie]

/-- Settles O58: CTRL_INIT writes back what the state after reset holds, and the rest is read off the records at launch. -/
theorem resetIsWhatInitializationLeaves : Obligations.ResetIsWhatInitializationLeaves := by
  unfold Obligations.ResetIsWhatInitializationLeaves
  intro c hc
  refine ⟨ctrlInit_resetWith c, rfl, rfl, fun i => resetWith_dataEp c, ?_, fun h r hm => ?_, rfl, rfl, rfl, rfl, rfl, rfl,
    rfl, fun i hi => ?_⟩
  · simp [State.resetWith]
  · rw [resetWith_req hc hm]
    refine ⟨?_, rfl, rfl, rfl, rfl⟩
    unfold Request.launch
    cases r.buf <;> rfl
  · rw [resetWith_sieEp c hi]
    refine ⟨rfl, rfl, ?_⟩
    split
    · subst i
      rfl
    · rw [resetWith_dataEp c (by omega) hi]
      rfl

end Sys2Proof.Machine
end

section
/-! SUPPORT. What every command keeps, whatever the class driver and the SIE do: the configuration, the handles, the
invariants, and R25 (b), which `State.Inv` does not hold. -/

namespace Sys2Proof.Machine

/-! ### Two relations at once -/

theorem Within.and {α : Type} {R Q : State → State → Prop} {p : Proc α} (hr : Within R p) (hq : Within Q p) :
    Within (fun s t => R s t ∧ Q s t) p := fun s a t h => ⟨hr s a t h, hq s a t h⟩

theorem CommandKept.and {R Q : State → State → Prop} (k : CommandKept R) (l : CommandKept Q) :
    CommandKept fun s t => R s t ∧ Q s t where
  refl s := ⟨k.refl s, l.refl s⟩
  trans s t u h1 h2 := ⟨k.trans s t u h1.1 h2.1, l.trans s t u h1.2 h2.2⟩
  read s r := ⟨k.read s r, l.read s r⟩
  writeCount s i v := ⟨k.writeCount s i v, l.writeCount s i v⟩
  writeFifo s i v := ⟨k.writeFifo s i v, l.writeFifo s i v⟩
  flush i := (k.flush i).and (l.flush i)
  halt s i v t h1 h2 := ⟨k.halt s i v t h1 h2, l.halt s i v t h1 h2⟩
  shut s i t h1 h2 h3 := ⟨k.shut s i t h1 h2 h3, l.shut s i t h1 h2 h3⟩
  enable s ep d t h1 h2 h3 h4 := ⟨k.enable s ep d t h1 h2 h3 h4, l.enable s ep d t h1 h2 h3 h4⟩
  completed s i h st hm := ⟨k.completed s i h st hm, l.completed s i h st hm⟩
  clearQueue s i := ⟨k.clearQueue s i, l.clearQueue s i⟩
  begin s i h he := ⟨k.begin s i h he, l.begin s i h he⟩
  append s i h h1 h2 h3 := ⟨k.append s i h h1 h2 h3, l.append s i h h1 h2 h3⟩
  advance s h n hn := ⟨k.advance s h n hn, l.advance s h n hn⟩
  mark s h f := ⟨k.mark s h f, l.mark s h f⟩
  byte s a b ha := ⟨k.byte s a b ha, l.byte s a b ha⟩
  statusByte s i b := ⟨k.statusByte s i b, l.statusByte s i b⟩
  returned s r := ⟨k.returned s r, l.returned s r⟩
  record s h f h1 h2 := ⟨k.record s h f h1 h2, l.record s h f h1 h2⟩
  upcall s u ret t h := ⟨k.upcall s u ret t h.1, l.upcall s u ret t h.2⟩

theorem PumpKept.and {R Q : State → State → Prop} (k : PumpKept R) (l : PumpKept Q) :
    PumpKept fun s t => R s t ∧ Q s t where
  toCommandKept := k.toCommandKept.and l.toCommandKept
  cfg s t h := k.cfg s t h.1
  ackSystem s n := ⟨k.ackSystem s n, l.ackSystem s n⟩
  ackInterrupt s i := ⟨k.ackInterrupt s i, l.ackInterrupt s i⟩
  ackEndpoint s i n := ⟨k.ackEndpoint s i n, l.ackEndpoint s i n⟩
  ctl s c := ⟨k.ctl s c, l.ctl s c⟩
  attach s h := ⟨k.attach s h, l.attach s h⟩
  detached s := ⟨k.detached s, l.detached s⟩
  busReset s := ⟨k.busReset s, l.busReset s⟩
  speedDone s hs := ⟨k.speedDone s hs, l.speedDone s hs⟩
  reinit s i t h1 h2 := ⟨k.reinit s i t h1 h2, l.reinit s i t h1 h2⟩
  address s a := ⟨k.address s a, l.address s a⟩
  configure s v := ⟨k.configure s v, l.configure s v⟩
  reply v n := (k.reply v n).and (l.reply v n)
  clearStall := k.clearStall.and l.clearStall

/-! ### The handles that have a record -/

/-- The same handles have a record, under the same configuration. -/
def SameKnown (s t : State) : Prop := t.cfg = s.cfg ∧ ∀ h, t.known h = s.known h

theorem SameKnown.of_eq {s t : State} (cfg : t.cfg = s.cfg) (reqs : t.reqs = s.reqs) : SameKnown s t :=
  ⟨cfg, known_eq_of_eq reqs⟩

theorem SameKnown.effect : EffectKept SameKnown where
  refl _ := .of_eq rfl rfl
  trans _ _ _ h1 h2 := ⟨h2.1.trans h1.1, fun h => (h2.2 h).trans (h1.2 h)⟩
  read s r := .of_eq (by simp) (by simp)
  write s r v := .of_eq (by simp) (by simp)
  setEp _ _ _ := .of_eq rfl rfl
  setReq s h f := ⟨by simp, fun k => known_setReq s h k f⟩
  byte _ _ _ := .of_eq rfl rfl
  statusByte _ _ _ := .of_eq rfl rfl
  returned _ _ := .of_eq rfl rfl
  ctl _ _ := .of_eq rfl rfl
  upcall s u ret t h := by
    obtain ⟨hc, hk⟩ := h
    refine ⟨by simpa using hc, fun x => ?_⟩
    rw [known_eq_of_eq (leaveUpcall_reqs t ret), hk, known_eq_of_eq (s := s) (by simp)]

theorem SameKnown.pump : PumpKept SameKnown :=
  SameKnown.effect.toPumpKept (fun _ _ h => h.1) (fun _ _ _ => .of_eq rfl rfl) fun _ _ _ _ _ h => by
    cases h
    exact .of_eq rfl rfl

/-- The configuration and the handles stay, and the invariants are kept. -/
def RecordsKept (s t : State) : Prop := InvKept s t ∧ SameKnown s t

theorem RecordsKept.pump : PumpKept RecordsKept := InvKept.pump.and SameKnown.pump

/-! ### R25 (b) -/

/-- Every data endpoint is disabled. -/
def State.DataDisabled (s : State) : Prop := ∀ i, 1 ≤ i → i < s.numEps → (s.ep i).enabled = false

/-- R25 (b): below ADDRESS every data endpoint is disabled. -/
def State.DisabledBelowAddress (s : State) : Prop := s.dev.state.belowAddress = true → s.DataDisabled

/-- The configuration stays, and R25 (b) is kept. -/
def UnconfiguredKept (s t : State) : Prop := t.cfg = s.cfg ∧ (s.DisabledBelowAddress → t.DisabledBelowAddress)

/-- No endpoint has become enabled. -/
def StaysDisabled (s t : State) : Prop := ∀ i, (s.ep i).enabled = false → (t.ep i).enabled = false

theorem StaysDisabled.setEp (s : State) (i : Nat) {f : Endpoint → Endpoint}
    (hf : ∀ e, e.enabled = false → (f e).enabled = false) : StaysDisabled s (s.setEp i f) := fun j hj => by
  rcases ep_setEp_cases s i j f with h | ⟨_, _, h⟩
  · rwa [h]
  · rw [h]
    exact hf _ hj

/-- R25 (b) is kept when no endpoint gets enabled and the device does not fall below ADDRESS. -/
theorem UnconfiguredKept.of_le {s t : State} (cfg : t.cfg = s.cfg)
    (state : t.dev.state.belowAddress = true → s.dev.state.belowAddress = true) (enabled : StaysDisabled s t) :
    UnconfiguredKept s t :=
  ⟨cfg, fun h hb i h1 hi => enabled i (h (state hb) i h1 (by rwa [State.numEps, cfg] at hi))⟩

theorem UnconfiguredKept.of_eq {s t : State} (cfg : t.cfg = s.cfg) (dev : t.dev.state = s.dev.state) (eps : t.eps = s.eps) :
    UnconfiguredKept s t := .of_le cfg (by rw [dev]; exact id) fun i h => by rwa [State.ep, eps]

theorem UnconfiguredKept.setEp (s : State) (i : Nat) {f : Endpoint → Endpoint}
    (hf : ∀ e, e.enabled = false → (f e).enabled = false) : UnconfiguredKept s (s.setEp i f) :=
  .of_le rfl id (.setEp s i hf)

theorem UnconfiguredKept.setReq (s : State) (h : Handle) (f : Request → Request) : UnconfiguredKept s (s.setReq h f) :=
  .of_eq (by simp) (by simp) (by simp)

/-- A device at or above ADDRESS meets R25 (b). -/
theorem UnconfiguredKept.of_above {s t : State} (cfg : t.cfg = s.cfg) (h : t.dev.state.belowAddress = false) :
    UnconfiguredKept s t := ⟨cfg, fun _ hb => by rw [h] at hb; cases hb⟩

theorem UnconfiguredKept.refl (s : State) : UnconfiguredKept s s := .of_eq rfl rfl rfl

theorem UnconfiguredKept.trans (s t u : State) (h1 : UnconfiguredKept s t) (h2 : UnconfiguredKept t u) :
    UnconfiguredKept s u := ⟨h2.1.trans h1.1, fun h => h2.2 (h1.2 h)⟩

theorem UnconfiguredKept.afterRead (s : State) (r : Reg) : UnconfiguredKept s (s.afterRead r) :=
  .of_eq (by simp) (by simp) (by simp)

theorem UnconfiguredKept.afterWrite (s : State) (r : Reg) (v : Word) : UnconfiguredKept s (s.afterWrite r v) :=
  .of_eq (by simp) (by simp) (by simp)

/-- ENABLE accepts a descriptor at or above ADDRESS only (R110). -/
theorem descriptorError_none_state {s : State} {ep : BitVec 4} {d : List Byte} (h : descriptorError s ep d = none) :
    s.dev.state.belowAddress = false := by
  unfold descriptorError at h
  split_ifs at h with _ _ _ _ _ hstate
  rw [not_or, not_or, Bool.not_eq_true] at hstate
  exact hstate.2.2

/-- What ENABLE writes leaves the device as it is. -/
theorem enableFields_dev {s t : State} {i : Nat} {size : BitVec 11} (h : enableFields i size s = .ok ((), t)) :
    t.cfg = s.cfg ∧ t.dev = s.dev := by
  unfold enableFields unmaskInterrupt at h
  cases h
  exact ⟨by simp, by simp⟩

theorem UnconfiguredKept.halt {s t : State} {i : Nat} {v : Bool} (h : haltFields i v s = .ok ((), t)) :
    UnconfiguredKept s t := by
  obtain ⟨u, hu, rfl⟩ := haltFields_controlWritten h
  exact .trans _ _ _ (.of_eq hu.cfg (by rw [hu.dev]) hu.eps) (.setEp u i fun _ => id)

/-- A record that an update disables is disabled, the inert one too. -/
theorem disabled_setEp (s : State) (i : Nat) {f : Endpoint → Endpoint} (hf : ∀ e, (f e).enabled = false) :
    ((s.setEp i f).ep i).enabled = false := by
  by_cases hi : i < s.eps.length
  · rw [ep_setEp_self s i f hi]
    exact hf _
  · simp [State.ep, State.setEp, Nat.le_of_not_lt hi, Endpoint.absent]

/-- What shutting endpoint i down does to the device and to the endpoints' `enabled`. -/
theorem shutFields_disables {i : Nat} {s t : State} (h : shutFields i s = .ok ((), t)) :
    t.cfg = s.cfg ∧ t.dev = s.dev ∧ StaysDisabled s t ∧ (t.ep i).enabled = false := by
  unfold shutFields maskInterrupt disableFields at h
  cases h
  exact ⟨by simp, by simp, fun j hj => StaysDisabled.setEp _ i (fun _ _ => rfl) j (by simpa using hj),
    disabled_setEp _ i fun _ => rfl⟩

theorem UnconfiguredKept.shut {s t : State} {i : Nat} (h : shutFields i s = .ok ((), t)) : UnconfiguredKept s t := by
  obtain ⟨hcfg, hdev, hstays, _⟩ := shutFields_disables h
  exact .of_le hcfg (by rw [hdev]; exact id) hstays

theorem UnconfiguredKept.completed (s : State) (i : Nat) (h : Handle) (st : Status) :
    UnconfiguredKept s (s.completed i h st) := by
  have h2 := UnconfiguredKept.trans _ _ _ (.setEp s i (f := fun e => { e with queue := e.queue.erase h }) fun _ => id)
    (.setReq _ h (Request.completed st))
  unfold State.completed
  split
  · exact .trans _ _ _ h2 (.of_eq rfl rfl rfl)
  · exact h2

theorem UnconfiguredKept.commands : CommandKept UnconfiguredKept where
  refl := .refl
  trans := .trans
  read := .afterRead
  writeCount s _ v := .afterWrite s _ v
  writeFifo s _ v := .afterWrite s _ v
  flush i s _ t h := by
    cases h
    exact .trans _ _ _ (.afterRead s _) (.afterWrite _ _ _)
  halt _ _ _ _ _ h := .halt h
  shut _ _ _ _ _ h := .shut h
  enable s ep d t _ _ hd h := by
    obtain ⟨hc, hdev⟩ := enableFields_dev h
    exact .of_above hc (by rw [hdev]; exact descriptorError_none_state hd)
  completed s i h st _ := .completed s i h st
  clearQueue s i := .setEp s i fun _ => id
  begin s _ h _ := .setReq s h _
  append s i h _ _ _ := .trans _ _ _ (.setEp s i (f := fun e => { e with queue := e.queue ++ [h] }) fun _ => id) (.setReq _ h _)
  advance s h _ _ := .setReq s h _
  mark s h _ := .setReq s h _
  byte _ _ _ _ := .of_eq rfl rfl rfl
  statusByte _ _ _ := .of_eq rfl rfl rfl
  returned _ _ := .of_eq rfl rfl rfl
  record s h f _ _ := .setReq s (.user h) f
  upcall s u ret t h := by
    refine .trans _ (s.enterUpcall u).afterResponse _ (.of_eq (by simp) ?_ (by simp))
      (.trans _ t _ h (.of_eq rfl rfl rfl))
    rw [afterResponse_dev]
    rfl

/-! ### Everything a command keeps -/

/-- The configuration and the handles stay, the invariants are kept, and R25 (b) is. -/
def StateKept (s t : State) : Prop := RecordsKept s t ∧ UnconfiguredKept s t

theorem StateKept.commands : CommandKept StateKept := RecordsKept.pump.toCommandKept.and UnconfiguredKept.commands

end Sys2Proof.Machine
end

section
/-! SUPPORT. Every run answers with a state that is kept, or with a fault that the state shows: one lemma per command rule.
A request taken off a queue passes the checks before its packet because the invariants hold there, so the faults and what
is kept are proved together. -/

namespace Sys2Proof.Machine

/-! ### What a run answers -/

/-- The state shows what a ModelFault says of it (R12, R198): the address lies outside memory; the request has no record, or
has one with a count outside its width.  With `g` only the first happens. -/
def Blames (g : Prop) (s : State) : Fault → Prop
  | .modelFault _ a => s.cfg.memSize ≤ a
  | .noRecord _ h => s.known h = false ∧ ¬g
  | .outOfWidth _ h => s.known h = true ∧ ¬g

/-- A run from s answers r: it completes in a state that s is kept in, or stops with a fault that s shows, or is refused.
`g` stands for the claim that s meets the invariants. -/
def Answers {α : Type} (g : Prop) (s : State) (r : Except Stop (α × State)) : Prop :=
  (g → s.Inv) →
    match r with
    | .ok (_, t) => StateKept s t
    | .error (.fault f) => Blames g s f
    | .error (.refusal _) => True

/-- Every run of p answers as `Answers` says. -/
def Tame {α : Type} (g : Prop) (p : Proc α) : Prop := ∀ s, Answers g s (p s)

section
variable {α β : Type} {g : Prop} {s t : State}

theorem StateKept.cfg (h : StateKept s t) : t.cfg = s.cfg := h.1.1.1

theorem StateKept.inv (h : StateKept s t) (hs : s.Inv) : t.Inv := h.1.1.2 hs

theorem StateKept.known (h : StateKept s t) (x : Handle) : t.known x = s.known x := h.1.2.2 x

/-- A change of nothing these read keeps the state. -/
theorem StateKept.same (cfg : t.cfg = s.cfg) (eps : t.eps = s.eps) (sie : t.sie = s.sie) (mem : t.mem = s.mem)
    (state : t.dev.state = s.dev.state) (config : t.dev.config = s.dev.config) (reqs : t.reqs = s.reqs)
    (statusReq : t.statusReq = s.statusReq) : StateKept s t :=
  ⟨⟨.same cfg eps (by rw [sie]) (by rw [sie]) mem state config reqs statusReq, .of_eq cfg reqs⟩, .of_eq cfg state eps⟩

theorem Blames.before (h : StateKept s t) {f : Fault} (hf : Blames g t f) : Blames g s f := by
  cases f with
  | modelFault c a =>
    show s.cfg.memSize ≤ a
    rw [← h.cfg]
    exact hf
  | noRecord c x => exact ⟨h.known x ▸ hf.1, hf.2⟩
  | outOfWidth c x => exact ⟨h.known x ▸ hf.1, hf.2⟩

theorem Answers.ok {a : α} (h : StateKept s t) : Answers g s (.ok (a, t)) := fun _ => h

theorem Answers.refused (r : Refusal) : Answers g s (.error (.refusal r) : Except Stop (α × State)) := fun _ => trivial

/-- What a run answers from a later state, the whole answers. -/
theorem Answers.after {r : Except Stop (α × State)} (h : StateKept s t) (hr : Answers g t r) : Answers g s r := by
  intro hg
  have hr := hr fun hg' => h.inv (hg hg')
  match r with
  | .ok (_, _) => exact StateKept.commands.trans _ _ _ h hr
  | .error (.fault _) => exact Blames.before h hr
  | .error (.refusal _) => trivial

/-- The invariants may be used where they are claimed. -/
theorem Answers.given {r : Except Stop (α × State)} (h : (g → s.Inv) → Answers g s r) : Answers g s r :=
  fun hg => h hg hg

/-- A sequence answers when its parts do; the first part may run from a state u that s need not be kept in. -/
theorem Answers.bind {p : Proc α} {f : α → Proc β} {u : State} (hp : Answers g s (p u))
    (hf : ∀ a t, p u = .ok (a, t) → StateKept s t → Answers g t (f a t)) : Answers g s ((p >>= f) u) := by
  rw [bind_run]
  cases hr : p u with
  | error e =>
    rw [hr] at hp
    cases e <;> exact hp
  | ok q =>
    obtain ⟨a, t⟩ := q
    rw [hr] at hp
    exact .given fun hg => .after (hp hg) (hf a t hr (hp hg))

/-! ### Putting procedures together -/

theorem Tame.bind {p : Proc α} {f : α → Proc β} (hp : Tame g p) (hf : ∀ a, Tame g (f a)) : Tame g (p >>= f) :=
  fun s => .bind (hp s) fun a t _ _ => hf a t

theorem Tame.pure (a : α) : Tame g (pure a : Proc α) := fun s => .ok (StateKept.commands.refl s)

theorem Tame.look {f : State → α} : Tame g (look f) := fun s => .ok (StateKept.commands.refl s)

theorem Tame.refuse (r : Refusal) : Tame g (refuse r : Proc α) := fun _ => .refused r

theorem Tame.ite {c : Prop} [Decidable c] {p q : Proc α} (hp : Tame g p) (hq : Tame g q) :
    Tame g (if c then p else q) := by
  split
  · exact hp
  · exact hq

theorem Tame.onlyIf {c : Bool} {p : Proc Unit} (hp : Tame g p) : Tame g (onlyIf c p) := Tame.ite hp (Tame.pure ())

theorem Tame.eachOf {f : α → Proc Unit} {l : List α} (hf : ∀ x ∈ l, Tame g (f x)) : Tame g (eachOf f l) := by
  induction l with
  | nil => exact Tame.pure ()
  | cons x l ih => exact Tame.bind (hf x (by simp)) fun _ => ih fun y hy => hf y (by simp [hy])

theorem Tame.change {f : State → State} (hf : ∀ s, StateKept s (f s)) : Tame g (change f) := fun s => .ok (hf s)

/-- A procedure that raises no fault itself. -/
def NeverFaults (p : Proc α) : Prop := ∀ s f, p s ≠ .error (.fault f)

theorem NeverFaults.bind {p : Proc α} {f : α → Proc β} (hp : NeverFaults p) (hf : ∀ a, NeverFaults (f a)) :
    NeverFaults (p >>= f) := fun s x h => by
  rw [bind_run] at h
  cases hr : p s with
  | ok q => exact hf q.1 q.2 x (by rwa [hr] at h)
  | error e => exact hp s x (by rw [hr] at h ⊢; exact congrArg Except.error (Except.error.inj h))

theorem NeverFaults.eachOf {f : α → Proc Unit} (hf : ∀ x, NeverFaults (f x)) (l : List α) : NeverFaults (eachOf f l) := by
  induction l with
  | nil => exact fun _ _ => nofun
  | cons x l ih => exact .bind (hf x) fun _ => ih

theorem NeverFaults.pure (a : α) : NeverFaults (pure a : Proc α) := fun _ _ => nofun

theorem NeverFaults.regRead (r : Reg) : NeverFaults (regRead r) := fun _ _ => nofun

theorem NeverFaults.regWrite (r : Reg) (v : Word) : NeverFaults (regWrite r v) := fun _ _ => nofun

/-- A procedure that raises no fault, and keeps the state, is tame. -/
theorem Tame.of_neverFaults {p : Proc α} (hp : Within StateKept p) (hn : NeverFaults p) : Tame g p := fun s => by
  cases hr : p s with
  | ok q => exact .ok (hp s q.1 q.2 hr)
  | error e =>
    cases e with
    | fault f => exact absurd hr (hn s f)
    | refusal r => exact .refused r

end

/-! ### Procedures that raise no fault -/

theorem canStart_neverFaults (i : Nat) : NeverFaults (canStart i) := fun s f => by
  unfold canStart
  rw [look_bind_run, ite_run]
  split <;> nofun

theorem writeWords_neverFaults (i : Nat) (l : List Byte) : NeverFaults (writeWords i l) := by
  induction l using writeWords.induct with
  | case1 => exact .pure ()
  | case2 lo => exact .regWrite _ _
  | case3 lo hi rest ih => exact .bind (.regWrite _ _) fun _ => ih

theorem readWordCount_neverFaults (i : Nat) : NeverFaults (readWordCount i) := .bind (.regRead _) fun _ => .pure _

theorem discardWords_neverFaults (i n : Nat) : NeverFaults (discardWords i n) := by
  induction n with
  | zero => exact .pure ()
  | succ n ih => exact .bind (.regRead _) fun _ => ih

theorem drainPackets_neverFaults (i p : Nat) : NeverFaults (drainPackets i p) := by
  induction p with
  | zero => exact .pure ()
  | succ p ih => exact .bind (readWordCount_neverFaults i) fun w => .bind (discardWords_neverFaults i w) fun _ => ih

theorem flushOut_neverFaults (i : Nat) : NeverFaults (flushOut i) := .bind (.regRead _) fun _ => drainPackets_neverFaults i _

theorem writeRecord_neverFaults (h : Word) (f : Request → Request) : NeverFaults (writeRecord h f) := fun s x => by
  unfold writeRecord
  rw [look_bind_run]
  cases findRequest h s.reqs with
  | none => nofun
  | some r =>
    dsimp only
    rw [ite_run]
    split <;> nofun

/-! ### Memory and the checks of a request -/

section
variable {g : Prop} {s : State}

theorem memReadByte_tame (a : Nat) : Tame g (memReadByte a) := fun s => by
  unfold memReadByte
  split
  · exact .ok (StateKept.commands.refl s)
  · exact fun _ => Nat.le_of_not_lt ‹_›

theorem memRead_tame (a n : Nat) : Tame g (memRead a n) := by
  induction n generalizing a with
  | zero => exact Tame.pure _
  | succ n ih => exact .bind (memReadByte_tame a) fun _ => .bind (ih _) fun _ => .pure _

theorem memWriteByte_tame (a : Nat) (b : Byte) : Tame g (memWriteByte a b) := fun s => by
  unfold memWriteByte
  split
  · exact .ok (StateKept.commands.byte s a b ‹_›)
  · exact fun _ => Nat.le_of_not_lt ‹_›

theorem bufRead_tame (b : Buffer) (off n : Nat) : Tame g (bufRead b off n) := by
  cases b with
  | none => exact .pure _
  | sysMem a => exact memRead_tame _ _
  | coreBytes => exact .look

theorem bufWriteByte_tame (b : Buffer) (off : Nat) (v : Byte) : Tame g (bufWriteByte b off v) := by
  cases b with
  | none => exact .pure _
  | sysMem a => exact memWriteByte_tame _ _
  | coreBytes => exact .change fun s => StateKept.commands.statusByte s off v

theorem regRead_tame (r : Reg) : Tame g (regRead r) := .of_neverFaults (StateKept.commands.regRead r) (.regRead r)

theorem readWords_tame (i : Nat) (b : Buffer) (off n m k : Nat) : Tame g (readWords i b off n m k) := by
  induction m generalizing k with
  | zero => exact .pure ()
  | succ m ih =>
    refine .bind (regRead_tame _) fun w => .bind (.onlyIf (bufWriteByte_tame _ _ _)) fun _ => ?_
    exact .bind (.onlyIf (bufWriteByte_tame _ _ _)) fun _ => ih (k + 1)

theorem readWordCount_tame (i : Nat) : Tame g (readWordCount i) :=
  .of_neverFaults (StateKept.commands.readWordCount i) (readWordCount_neverFaults i)

theorem recordOverflow_tame (h : Handle) (o : Bool) : Tame g (recordOverflow h o) :=
  .change fun s => StateKept.commands.mark s h fun r => if o then .overflowError else r.status

/-- The overflow is recorded in the request's status only (R104). -/
theorem recordOverflow_ok {h : Handle} {o : Bool} {t : State} {u : Unit} (hr : recordOverflow h o s = .ok (u, t)) :
    (∀ i, t.ep i = s.ep i) ∧ (t.req h).length = (s.req h).length ∧ (t.req h).actual = (s.req h).actual := by
  cases hr
  exact ⟨fun i => ep_setReq _ _ _ _, req_setReq_keeps Request.length _ _ _ _ fun _ => rfl,
    req_setReq_keeps Request.actual _ _ _ _ fun _ => rfl⟩

/-- The check of a record raises its fault only where the record is missing. -/
theorem needRecord_answers {h : Handle} (hk : g → s.known h = true) : Answers g s (needRecord h s) := by
  unfold needRecord
  split
  · exact .ok (StateKept.commands.refl s)
  · rename_i hn
    exact fun _ => ⟨Bool.not_eq_true _ ▸ hn, fun hg => hn (hk hg)⟩

/-- The check of the counts raises its fault only where a count is outside its width. -/
theorem needCounts_answers {h : Handle} (hk : s.known h = true) (hw : g → (s.req h).inWidth = true) :
    Answers g s (needCounts h s) := by
  unfold needCounts
  split
  · exact .ok (StateKept.commands.refl s)
  · rename_i hn
    exact fun _ => ⟨hk, fun hg => hn (hw hg)⟩

/-! ### Parts of commands that make no upcall -/

/-- Shutting a data endpoint down, with what follows (R113, R146). -/
theorem shutThen_answers {β : Type} {s : State} {i : Nat} (h1 : 1 ≤ i) (hi : i < s.numEps) {q : Proc β} (hq : Tame g q) :
    Answers g s ((shutFields i >>= fun _ => q) s) :=
  .bind (p := shutFields i) (.ok (StateKept.commands.shut s i _ h1 hi rfl)) fun _ t _ _ => hq t

/-- What QUEUE has checked when it accepts a request (R111). -/
theorem queueError_eq_none {s : State} {i : Nat} {h : Handle} (he : queueError s i h = none) :
    i < s.numEps ∧ s.known h = true ∧ (s.req h).queuedOn = none := by
  unfold queueError at he
  split_ifs at he with hi hr
  rw [not_or, Decidable.not_not] at hr
  exact ⟨Nat.lt_of_not_le hi, known_of_ne Request.buf hr.1, hr.2⟩

theorem withRequest_tame (h : Word) {p : Proc Status} (hp : Tame g p) : Tame g (withRequest h p) :=
  .bind .look fun _ => .ite hp (.refuse _)

theorem haltFields_answers {s : State} {i : Nat} (v : Bool) (hi : i = 0 ∨ (i < s.numEps ∧ (s.ep i).enabled = true)) :
    Answers g s (haltFields i v s) := by
  cases v with
  | false => exact .ok (StateKept.commands.halt s i false _ hi rfl)
  | true => exact .ok (StateKept.commands.halt s i true _ hi rfl)

theorem flushOut_tame (i : Nat) : Tame g (flushOut i) :=
  .of_neverFaults (StateKept.commands.flushOut i) (flushOut_neverFaults i)

theorem fifoFlushRule_tame (ep : BitVec 4) : Tame g (fifoFlushRule ep) := by
  refine .bind .look fun n => .ite (.pure _) (.bind .look fun d => ?_)
  cases d with
  | IN => exact .bind (.of_neverFaults (StateKept.commands.flush _) fun _ _ => nofun) fun _ => .pure _
  | OUT => exact .bind (flushOut_tame _) fun _ => .pure _

theorem topLevelOnly_tame : Tame g topLevelOnly := .bind .look fun _ => .ite (.refuse _) (.pure _)

/-- A ModelFault that gets its command named blames the same. -/
theorem Blames.inCommand {s : State} {f : Fault} (i : Instr) (hf : Blames g s f) : Blames g s (f.inCommand i) := by
  cases f <;> exact hf

theorem inCommand_tame {α : Type} (i : Instr) {p : Proc α} (hp : Tame g p) : Tame g (inCommand i p) := fun s => by
  have h := hp s
  unfold inCommand
  cases hr : p s with
  | ok q =>
    rw [hr] at h
    exact h
  | error e =>
    rw [hr] at h
    cases e with
    | fault f => exact fun hg => (h hg).inCommand i
    | refusal r => exact h

theorem command_tame (i : Instr) {p : Proc Status} (hp : Tame g p) : Tame g (command i p) :=
  .bind (inCommand_tame i hp) fun r => .change fun s => StateKept.commands.returned s r

theorem driverWrite_tame (w : DriverWrite) : Tame g (driverWrite w) := by
  cases w with
  | memByte a b => exact .bind .look fun _ => .ite (.refuse _) (memWriteByte_tame _ _)
  | _ => exact .of_neverFaults (StateKept.commands.driverWrite _) (writeRecord_neverFaults _ _)

end

/-! ### Commands, given that upcalls are tame -/

section command
variable {g : Prop} {up : Upcalls} (hu : ∀ u, Tame g (up u))
include hu

theorem callback_tame (h : Handle) : Tame g (callback up h) := by
  refine .bind .look fun cb => ?_
  cases cb with
  | none => exact .pure ()
  | some c => exact .bind (hu _) fun _ => .pure ()

theorem complete_answers {s : State} {i : Nat} {h : Handle} (st : Status) (hm : s.mayComplete i h) :
    Answers g s (complete up i h st s) := by
  unfold complete
  rw [change_bind_run]
  exact .after (StateKept.commands.completed s i h st hm) (callback_tame hu h _)

theorem cancel_answers {s : State} {i : Nat} (st : Status) {x : Handle × Nat} (hk : g → s.known x.1 = true) :
    Answers g s (cancel up i st x s) := by
  refine .bind (needRecord_answers hk) fun _ t ht _ => ?_
  obtain ⟨rfl, _⟩ := needRecord_ok ht
  rw [look_bind_run, onlyIf_run]
  split
  · rename_i hw
    simp only [State.awaitsNuke, Bool.and_eq_true, decide_eq_true_eq] at hw
    exact complete_answers hu st (.inr hw.2)
  · exact .ok (StateKept.commands.refl t)

theorem eachOf_cancel_answers {s : State} (i : Nat) (st : Status) {l : List (Handle × Nat)}
    (hl : ∀ x ∈ l, g → s.known x.1 = true) : Answers g s (eachOf (cancel up i st) l s) := by
  induction l generalizing s with
  | nil => exact .ok (StateKept.commands.refl s)
  | cons x l ih =>
    rw [eachOf_cons]
    refine .bind (cancel_answers hu st (hl x (by simp))) fun _ t _ hst => ih fun y hy hg => ?_
    rw [hst.known]
    exact hl y (by simp [hy]) hg

/-- The requests of a queue have their records, so a nuke meets none without (R95). -/
theorem nuke_tame (i : Nat) (st : Status) : Tame g (nuke up i st) := fun s => by
  unfold nuke
  rw [look_bind_run, change_bind_run]
  refine .given fun hs => .after (StateKept.commands.clearQueue s i) (eachOf_cancel_answers hu i st fun x hx hg => ?_)
  obtain ⟨h, hh, rfl⟩ := List.mem_map.mp hx
  rw [known_setEp]
  exact (hs hg).requests.known hh

/-- The end of a packet. -/
theorem advanceThen_answers {i : Nat} {h : Handle} {n : Nat} (last : State → Bool) {s : State} (hq : h ∈ (s.ep i).queue)
    (hn : n ≤ (s.req h).length - (s.req h).actual) :
    Answers g s ((advance h n >>= fun _ => look last >>= fun l =>
      if l then (complete up i h .ok >>= fun _ => (pure true : Proc Bool)) else pure false) s) := by
  unfold advance
  rw [change_bind_run, look_bind_run, ite_run]
  refine .after (t := s.advanced h n) (StateKept.commands.advance s h n hn) ?_
  split
  · exact .bind (complete_answers hu .ok (.inl ((advanced_ep s h n i).symm ▸ hq))) fun _ t _ _ => Tame.pure true t
  · exact Tame.pure false _

theorem writeFifo_answers {s : State} {i : Nat} {h : Handle} (hq : h ∈ (s.ep i).queue) :
    Answers g s (writeFifo up i h s) := by
  unfold writeFifo
  rw [look_bind_run, regWrite_bind_run, look_bind_run]
  refine .after (StateKept.commands.writeCount s i _) (.bind (bufRead_tame _ _ _ _) fun bytes t ht _ => ?_)
  obtain rfl := bufRead_ok ht
  refine .bind (Tame.of_neverFaults (StateKept.commands.writeWords i bytes) (writeWords_neverFaults i bytes) _) fun _ v hv _ => ?_
  have hw := SameRequests.trans _ _ _ (SameRequests.afterWrite s (.txBcnt i) _) (writeWords_same i bytes _ _ _ hv)
  refine advanceThen_answers hu _ (hw.ep i ▸ hq) ?_
  rw [hw.req]
  exact Nat.min_le_left _ _

theorem readFifo_answers {s : State} {i : Nat} {h : Handle} (hq : h ∈ (s.ep i).queue) :
    Answers g s (readFifo up i h s) := by
  unfold readFifo
  refine .bind (readWordCount_tame i s) fun wcnt u hr _ => ?_
  have hsu : SameRequests s u := by
    cases hr
    exact SameRequests.afterRead s _
  rw [regRead_bind_run, look_bind_run]
  refine .after (StateKept.commands.read _ (.esr i)) ?_
  have hsv := SameRequests.trans _ _ _ hsu (SameRequests.afterRead u (.esr i))
  rw [← hsv.ep i] at hq
  generalize u.afterRead (.esr i) = v at hq
  refine .bind (recordOverflow_tame h _ v) fun _ w hr _ => ?_
  obtain ⟨hep, hlength, hactual⟩ := recordOverflow_ok hr
  refine .bind (readWords_tame _ _ _ _ _ _ w) fun _ y hr _ => ?_
  have hwy := readWords_same _ _ _ _ _ _ _ _ _ hr
  refine advanceThen_answers hu _ ?_ ?_
  · rwa [hwy.ep, hep]
  · rw [hwy.req, hlength, hactual]
    exact Nat.min_le_right _ _

theorem start_tame (i : Nat) : Tame g (start up i) := fun s => by
  unfold start
  rw [look_bind_run]
  cases hq : (s.ep i).queue with
  | nil => exact Tame.pure false s
  | cons h rest =>
    have hm : h ∈ (s.ep i).queue := by simp [hq]
    refine .given fun hs => .bind (needRecord_answers fun hg => (hs hg).requests.known hm) fun _ t ht _ => ?_
    obtain ⟨rfl, hk⟩ := needRecord_ok ht
    refine .bind (needCounts_answers hk fun hg => (hs hg).requests.inWidth hm) fun _ t ht _ => ?_
    obtain ⟨rfl, _⟩ := needCounts_ok ht
    rw [look_bind_run]
    cases t.epDir i with
    | IN => exact writeFifo_answers hu hm
    | OUT => exact readFifo_answers hu hm

theorem tryStart_tame (i : Nat) : Tame g (tryStart up i) := by
  refine .bind .look fun _ => .ite ?_ (.pure _)
  refine .bind (.of_neverFaults (StateKept.commands.canStart i) (canStart_neverFaults i)) fun _ => .ite ?_ (.pure _)
  exact .bind (start_tame hu i) fun _ => .pure _

theorem resumeIn_tame (i : Nat) : Tame g (resumeIn up i) :=
  .bind .look fun _ => .ite (.bind (tryStart_tame hu i) fun _ => .pure ()) (.pure ())

theorem enableRule_tame (ep : BitVec 4) (addr : Word) : Tame g (enableRule up ep addr) := fun s => by
  unfold enableRule
  rw [look_bind_run, ite_run]
  split
  · exact Tame.pure _ s
  rw [ite_run]
  split
  · exact Tame.pure _ s
  refine .bind (memRead_tame _ _ s) fun d t ht _ => ?_
  obtain ⟨rfl, _⟩ := memRead_ok ht
  rw [look_bind_run]
  cases he : descriptorError t ep d with
  | some e => exact Tame.pure _ t
  | none =>
    refine .bind (p := enableFields _ _) (.ok (StateKept.commands.enable t ep d _ (by omega) (by omega) he rfl)) fun _ u _ _ => ?_
    exact Tame.bind (resumeIn_tame hu _) (fun _ => .pure _) u

theorem disableRule_tame (ep : BitVec 4) : Tame g (disableRule up ep) := fun s => by
  unfold disableRule
  rw [look_bind_run, ite_run]
  split
  · exact Tame.pure _ s
  rw [ite_run]
  split
  · exact Tame.pure _ s
  exact shutThen_answers (by omega) (by omega) (.bind (nuke_tame hu _ _) fun _ => .pure _)

theorem queueRule_tame (i : Nat) (h : Handle) : Tame g (queueRule up i h) := fun s => by
  unfold queueRule
  rw [look_bind_run]
  cases he : queueError s i h with
  | some e => exact Tame.pure _ s
  | none =>
    obtain ⟨hi, hk, hq⟩ := queueError_eq_none he
    unfold beginRequest appendRequest
    simp only [change_bind_run, look_bind_run, ite_run]
    refine .after (StateKept.commands.begin s i h he) ?_
    have hq1 : ((s.setReq h Request.begun).req h).queuedOn = none := by
      rw [req_setReq_self s h _ hk]
      exact hq
    have hk1 : (s.setReq h Request.begun).known h = true := by rwa [known_setReq]
    have hi1 : i < (s.setReq h Request.begun).numEps := by simpa [State.numEps] using hi
    generalize s.setReq h Request.begun = v at hq1 hk1 hi1 ⊢
    split
    · exact .bind (complete_answers hu _ (.inr (.inr hq1))) fun _ t _ _ => Tame.pure _ t
    · refine .after (StateKept.commands.append v i h hi1 hk1 hq1) ?_
      split
      · exact Tame.bind (tryStart_tame hu i) (fun _ => .pure _) _
      · exact Tame.pure _ _

theorem dequeueCommand_tame (ep : BitVec 4) (h : Word) : Tame g (dequeueCommand up ep h) := by
  refine withRequest_tame h (.bind .look fun n => .ite (.pure _) fun s => ?_)
  rw [look_bind_run, ite_run]
  split
  · rename_i hq
    exact .bind (complete_answers hu _ (.inr (.inl (of_decide_eq_true hq)))) fun _ t _ _ => Tame.pure _ t
  · exact Tame.pure _ s

theorem setHaltRule_tame (i : Nat) (v : Bool) : Tame g (setHaltRule up i v) := fun s => by
  unfold setHaltRule
  rw [look_bind_run]
  cases he : setHaltError s i v with
  | some e => exact Tame.pure _ s
  | none =>
    refine .bind (haltFields_answers v (setHaltError_none he).2.1) fun _ t _ _ => ?_
    exact Tame.ite (.pure _) (.bind (resumeIn_tame hu i) fun _ => .pure _) t

theorem bindRule_tame (d : Word) : Tame g (bindRule up d) := by
  refine .ite (.refuse _) (.bind topLevelOnly_tame fun _ => .bind .look fun b => ?_)
  cases b with
  | some x => exact .pure _
  | none => exact .bind (.change fun _ => .same rfl rfl rfl rfl rfl rfl rfl rfl) fun _ => .bind (hu _) fun _ => .pure _

theorem nestedCommand_tame (i : Instr) : Tame g (nestedCommand up i) := by
  cases i with
  | bind d => exact .refuse _
  | enable ep a => exact command_tame _ (enableRule_tame hu ep a)
  | disable ep => exact command_tame _ (disableRule_tame hu ep)
  | queue ep h => exact command_tame _ (withRequest_tame h (queueRule_tame hu _ _))
  | dequeue ep h => exact command_tame _ (dequeueCommand_tame hu ep h)
  | setHalt ep v => exact command_tame _ (setHaltRule_tame hu _ v)
  | fifoFlush ep => exact command_tame _ (fifoFlushRule_tame ep)
  | _ => exact .refuse _

theorem driverAction_tame (a : DriverAction) : Tame g (driverAction up a) := by
  cases a with
  | write w => exact driverWrite_tame w
  | command cmd arg =>
    simp only [driverAction]
    cases decodeCmd cmd arg with
    | ok i => exact nestedCommand_tame hu i
    | error e => exact .refuse _

end command

section
variable {g : Prop}

theorem upcallWith_tame {act : DriverAction → Proc Unit} (ha : ∀ a, Tame g (act a)) (u : Upcall) :
    Tame g (upcallWith act u) := by
  refine .bind (.change fun s => .same rfl rfl rfl rfl rfl rfl rfl rfl) fun _ => .bind .look fun r => ?_
  refine .bind (.change fun s => ?_) fun _ => .bind (.eachOf fun a _ => ha a) fun _ => ?_
  · exact .same (by simp) (by simp) (by simp) (by simp) (by simp) (by simp) (by simp) (by simp)
  · exact .bind (.change fun s => .same rfl rfl rfl rfl rfl rfl rfl rfl) fun _ => .pure _

/-- Every upcall, with every command the class driver issues in it, at any depth. -/
theorem upcalls_tame (n : Nat) (u : Upcall) : Tame g (upcalls n u) := by
  induction n generalizing u with
  | zero => exact upcallWith_tame (fun _ => .pure _) u
  | succ n ih => exact upcallWith_tame (driverAction_tame ih) u

theorem withUpcalls_tame {α : Type} {p : Upcalls → Proc α} (hp : ∀ up, (∀ u, Tame g (up u)) → Tame g (p up)) :
    Tame g (withUpcalls p) := fun s => hp _ (upcalls_tame _) s

end

end Sys2Proof.Machine
end

section
/-! SUPPORT. The same for the setup requests, the events and TASK.  VBUS_OFF, RESET and SPEED_DONE take the device below
ADDRESS first and then disable every data endpoint, before an upcall can run (R121 to R123, R128): R25 (b) holds again at
the end of that loop, so the loop is taken in one piece. -/

namespace Sys2Proof.Machine

/-! ### Shutting every data endpoint -/

/-- What re-initializing endpoint i does to the endpoints' `enabled`. -/
theorem reinitFields_disables {i : Nat} {s t : State} (h : reinitFields i s = .ok ((), t)) :
    StaysDisabled s t ∧ (1 ≤ i → (t.ep i).enabled = false) := by
  unfold reinitFields at h
  split at h
  · cases h
    refine ⟨fun j hj => ?_, by omega⟩
    rw [ep_afterWrite, ep_afterWrite]
    refine StaysDisabled.setEp s 0 ?_ j hj
    exact fun _ => id
  · unfold maskInterrupt at h
    cases h
    refine ⟨fun j hj => ?_, fun _ => ?_⟩
    · rw [ep_afterWrite, ep_afterWrite, ep_afterWrite, ep_afterRead]
      exact StaysDisabled.setEp s i (fun _ _ => rfl) j hj
    · rw [ep_afterWrite, ep_afterWrite, ep_afterWrite, ep_afterRead]
      exact disabled_setEp s i fun _ => rfl

/-- A loop that disables each endpoint of its list, and enables none, leaves them all disabled. -/
theorem eachOf_disables {f : Nat → Proc Unit}
    (hf : ∀ i s t, f i s = .ok ((), t) → StaysDisabled s t ∧ (1 ≤ i → (t.ep i).enabled = false)) {l : List Nat} {s t : State}
    (hr : eachOf f l s = .ok ((), t)) {i : Nat} (hi : i ∈ l) (h1 : 1 ≤ i) : (t.ep i).enabled = false := by
  induction l generalizing s with
  | nil => cases hi
  | cons k l ih =>
    rw [eachOf_cons] at hr
    obtain ⟨_, u, hk, hrest⟩ := bind_ok_iff.mp hr
    rcases List.mem_cons.mp hi with rfl | hi
    · have hl : Within StaysDisabled (eachOf f l) :=
        Within.eachOf (fun _ _ => id) (fun _ _ _ h1 h2 j => h2 j ∘ h1 j) fun i _ s _ t h => (hf i s t h).1
      exact hl u () t hrest i ((hf i s u hk).2 h1)
    · exact ih hrest hi

theorem shutEach_ok {s t : State} (h : eachOf shutFields s.dataEps s = .ok ((), t)) : RecordsKept s t ∧ t.DataDisabled := by
  have hk : RecordsKept s t := RecordsKept.pump.eachEndpoint
    (fun i hi u v hlt hr => RecordsKept.pump.shut u i v (mem_dataEps hi).1 hlt hr) (fun i hi => (mem_dataEps hi).2) h
  refine ⟨hk, fun i h1 hi => ?_⟩
  rw [State.numEps, hk.1.1] at hi
  refine eachOf_disables (fun i u v hr => ?_) h (mem_dataEps_iff.mpr ⟨h1, hi⟩) h1
  obtain ⟨_, _, hstays, hdisabled⟩ := shutFields_disables hr
  exact ⟨hstays, fun _ => hdisabled⟩

theorem reinitEach_ok {s t : State} (h : eachOf reinitFields (0 :: s.dataEps) s = .ok ((), t)) :
    RecordsKept s t ∧ t.DataDisabled := by
  have hk : RecordsKept s t := by
    rw [eachOf_cons] at h
    obtain ⟨_, u, h0, h⟩ := bind_ok_iff.mp h
    have hsu := RecordsKept.pump.reinit s 0 u (.inl rfl) h0
    refine RecordsKept.pump.trans _ _ _ hsu (RecordsKept.pump.eachEndpoint
      (fun i _ v w hlt hr => RecordsKept.pump.reinit v i w (.inr hlt) hr) (fun i hi => ?_) h)
    rw [State.numEps, hsu.1.1]
    exact (mem_dataEps hi).2
  refine ⟨hk, fun i h1 hi => ?_⟩
  rw [State.numEps, hk.1.1] at hi
  exact eachOf_disables (fun i s t hr => reinitFields_disables hr) h (by simp [mem_dataEps_iff.mpr ⟨h1, hi⟩]) h1

theorem StateKept.of_disabled {s t : State} (h : RecordsKept s t) (hd : t.DataDisabled) : StateKept s t :=
  ⟨h, h.1.1, fun _ _ => hd⟩

theorem shutFields_neverFaults (i : Nat) : NeverFaults (shutFields i) := fun _ _ => nofun

theorem reinitFields_neverFaults (i : Nat) : NeverFaults (reinitFields i) := fun s f => by
  unfold reinitFields
  rw [ite_run]
  split <;> nofun

/-- The device's fields change, and a loop that raises no fault leaves every data endpoint disabled, before anything else
happens: R25 (b) holds again when the loop ends (R121 to R123, R128). -/
theorem disabling_answers {g : Prop} {f : Nat → Proc Unit} (hf : ∀ i, NeverFaults (f i)) {l : List Nat} {s u : State}
    (hu : RecordsKept s u) (hl : ∀ t, eachOf f l u = .ok ((), t) → RecordsKept u t ∧ t.DataDisabled) :
    Answers g s (eachOf f l u) := by
  cases hr : eachOf f l u with
  | ok q =>
    obtain ⟨hk, hd⟩ := hl q.2 hr
    exact .ok (.of_disabled (RecordsKept.pump.trans _ _ _ hu hk) hd)
  | error e =>
    cases e with
    | fault x => exact absurd hr (NeverFaults.eachOf hf l u x)
    | refusal r => exact .refused r

/-! ### The setup requests and the events -/

section
variable {g : Prop}

theorem ackSystem_tame (k : Nat) : Tame g (ackSystem k) := fun s => .ok ⟨RecordsKept.pump.ackSystem s k, .afterWrite s _ _⟩

theorem ackEndpoint_tame (i k : Nat) : Tame g (ackEndpoint i k) := fun s =>
  .ok ⟨RecordsKept.pump.ackEndpoint s i k, .afterWrite s _ _⟩

theorem setCtl_tame (c : Ctl) : Tame g (setCtl c) := .change fun _ => .same rfl rfl rfl rfl rfl rfl rfl rfl

theorem haltControl_tame (v : Bool) : Tame g (haltFields 0 v) := fun _ => haltFields_answers v (.inl rfl)

theorem finishSetup_tame (S : BitVec 64) (ret : Word) : Tame g (finishSetup S ret) :=
  .ite (.bind (haltControl_tame true) fun _ => setCtl_tame _) (.ite (setCtl_tame _) (.pure ()))

theorem runSetup_tame (S : BitVec 64) {p : Proc Word} (hp : Tame g p) : Tame g (runSetup S p) :=
  .bind (setCtl_tame _) fun _ => .bind hp fun r => finishSetup_tame S r

theorem prepareStatus_tame (v l : Half) : Tame g (prepareStatus v l) := fun s =>
  .ok ⟨RecordsKept.pump.reply v l s () _ rfl, .of_eq rfl rfl rfl⟩

theorem clearSetupStall_tame : Tame g clearSetupStall := by
  have unconfigured : Within UnconfiguredKept clearSetupStall := by
    refine .bind .trans (UnconfiguredKept.commands.regRead _) fun e => .bind .trans (.onlyIf .refl fun _ s _ t h => ?_) fun _ =>
      .change fun s => .setEp s 0 fun _ => id
    cases h
    exact .afterWrite s _ _
  refine .of_neverFaults (RecordsKept.pump.clearStall.and unconfigured) (.bind (.regRead _) fun e => .bind ?_ fun _ _ _ => nofun)
  cases ecrStall e
  · exact .pure ()
  · exact .regWrite _ _

theorem readSetupPacket_tame : Tame g readSetupPacket :=
  .bind (regRead_tame _) fun _ => .bind (regRead_tame _) fun _ => .bind (regRead_tame _) fun _ =>
    .bind (regRead_tame _) fun _ => .pure _

theorem discardWords_tame (i n : Nat) : Tame g (discardWords i n) :=
  .of_neverFaults (StateKept.commands.discardWords i n) (discardWords_neverFaults i n)

/-- SET_ADDRESS takes no device below ADDRESS (R125). -/
theorem belowAddress_of_afterSetAddress {d : DevState} (h : d.afterSetAddress.belowAddress = true) :
    d.belowAddress = true := by
  cases d with
  | notAttached | attached | default => rfl
  | address | configured => exact h

theorem ifServed_tame (i : Nat) {p : Proc Unit} (hp : Tame g p) : Tame g (ifServed i p) :=
  .bind .look fun _ => .ite hp (.pure ())

theorem flushReqRule_tame (i : Nat) : Tame g (flushReqRule i) := by
  refine .ite (ackEndpoint_tame 0 5) (.bind .look fun d => ?_)
  cases d with
  | IN => exact ackEndpoint_tame i 5
  | OUT => exact .bind (ackEndpoint_tame i 5) fun _ => flushOut_tame i

/-- A loop over endpoints below N. -/
theorem eachOf_answers {f : Nat → Proc Unit} {l : List Nat}
    (hf : ∀ i ∈ l, ∀ s : State, i < s.numEps → Answers g s (f i s)) {s : State} (hl : ∀ i ∈ l, i < s.numEps) :
    Answers g s (eachOf f l s) := by
  induction l generalizing s with
  | nil => exact Tame.pure () s
  | cons i l ih =>
    rw [eachOf_cons]
    refine .bind (hf i (by simp) s (hl i (by simp))) fun _ t _ hst => ih (fun j hj => hf j (by simp [hj])) fun j hj => ?_
    rw [State.numEps, hst.cfg]
    exact hl j (by simp [hj])

variable {up : Upcalls} (hu : ∀ u, Tame g (up u))
include hu

theorem forwardRule_tame (S : BitVec 64) : Tame g (forwardRule up S) := by
  refine .bind .look fun b => ?_
  cases b with
  | none => exact .pure _
  | some d => exact hu _

theorem getStatusRule_tame (S : BitVec 64) : Tame g (getStatusRule up S) := by
  refine .bind .look fun r => ?_
  cases r with
  | none => exact forwardRule_tame hu S
  | some v => exact .bind (prepareStatus_tame v _) fun _ => .bind (queueRule_tame hu 0 .statusReq) fun _ => .pure _

theorem featureRule_tame (v : Bool) (S : BitVec 64) : Tame g (featureRule up v S) :=
  .bind .look fun _ => .ite (.bind (setHaltRule_tame hu _ v) fun _ => .pure _) (forwardRule_tame hu S)

theorem setAddressRule_tame (S : BitVec 64) : Tame g (setAddressRule up S) := by
  refine .ite (forwardRule_tame hu S) (.bind (.change fun s => ?_) fun _ => .pure _)
  exact ⟨RecordsKept.pump.address s _, .of_le rfl belowAddress_of_afterSetAddress fun _ => id⟩

theorem configure_tame (v : Byte) : Tame g (configure up v) := by
  refine .bind (nuke_tame hu 0 _) fun _ => .bind (.change fun s => ?_) fun _ => .ite (fun s => ?_) (.pure ())
  · refine ⟨RecordsKept.pump.configure s v, .of_above rfl ?_⟩
    show DevState.belowAddress (if v = 0 then .address else .configured) = false
    split <;> rfl
  · rw [look_bind_run]
    exact eachOf_answers (fun i hi t hlt => shutThen_answers (mem_dataEps hi).1 hlt (nuke_tame hu i _))
      fun i hi => (mem_dataEps hi).2

theorem setConfigurationRule_tame (S : BitVec 64) : Tame g (setConfigurationRule up S) := by
  refine .bind .look fun _ => .ite (.pure _) (.bind (forwardRule_tame hu S) fun r => .ite (.pure _) ?_)
  exact .bind (configure_tame hu _) fun _ => .pure _

theorem dispatchRule_tame (S : BitVec 64) (i : Instr) : Tame g (dispatchRule up S i) := by
  cases i with
  | getStatus d r v x l => exact getStatusRule_tame hu S
  | clearFeature d r v x l => exact featureRule_tame hu false S
  | setFeature d r v x l => exact featureRule_tame hu true S
  | setAddress d r v x l => exact setAddressRule_tame hu S
  | setConfiguration v x l => exact setConfigurationRule_tame hu S
  | _ => exact forwardRule_tame hu S

theorem processSetup_tame : Tame g (processSetup up) := by
  refine .bind (nuke_tame hu 0 _) fun _ => .bind clearSetupStall_tame fun _ => .bind (readWordCount_tame 0) fun w => ?_
  refine .bind (regRead_tame _) fun e => .ite ?_ (.bind readSetupPacket_tame fun S => runSetup_tame S (dispatchRule_tame hu S _))
  exact .bind (discardWords_tame 0 w) fun _ => .bind (haltControl_tame true) fun _ => setCtl_tame _

theorem notify_tame (u : Upcall) : Tame g (notify up u) := by
  refine .bind .look fun b => ?_
  cases b with
  | none => exact .pure ()
  | some d => exact .bind (hu _) fun _ => .pure ()

theorem vbusOnRule_tame : Tame g (vbusOnRule up) := by
  refine .bind (ackSystem_tame 0) fun _ s => ?_
  rw [look_bind_run, ite_run]
  split
  · rename_i hd
    have hd := of_decide_eq_true hd
    rw [change_bind_run]
    refine .after ⟨RecordsKept.pump.attach s hd, .of_le rfl (fun _ => ?_) fun _ => id⟩ (notify_tame hu _ _)
    rw [hd]
    rfl
  · exact Tame.pure () s

theorem nukeEach_tame (st : Status) (l : List Nat) : Tame g (eachOf (fun i => nuke up i st) l) :=
  .eachOf fun i _ => nuke_tame hu i st

theorem vbusOffRule_tame : Tame g (vbusOffRule up) := by
  refine .bind (ackSystem_tame 1) fun _ s => ?_
  rw [change_bind_run, look_bind_run]
  refine .bind (disabling_answers shutFields_neverFaults (RecordsKept.pump.detached s) fun t => shutEach_ok) fun _ t _ _ => ?_
  exact Tame.bind (nukeEach_tame hu _ _) (fun _ => notify_tame hu _) t

/-- A change of the device's fields with the re-initialization of every endpoint. -/
theorem reinitAll_answers {s u : State} (h : RecordsKept s u) (st : Status) : Answers g s (reinitAll up st u) := by
  unfold reinitAll
  rw [look_bind_run]
  exact .bind (disabling_answers reinitFields_neverFaults h fun t => reinitEach_ok) fun _ t _ _ => nukeEach_tame hu st _ t

theorem resetRule_tame : Tame g (resetRule up) := by
  refine .bind (ackSystem_tame 2) fun _ s => ?_
  rw [change_bind_run]
  exact reinitAll_answers hu (RecordsKept.pump.busReset s) _

theorem speedDoneRule_tame (hs : Bool) : Tame g (speedDoneRule up hs) := by
  refine .bind (ackSystem_tame 3) fun _ s => ?_
  rw [change_bind_run]
  exact reinitAll_answers hu (RecordsKept.pump.speedDone s hs) _

theorem stallSentRule_tame (i : Nat) : Tame g (stallSentRule up i) := by
  refine .ite (.bind (ackEndpoint_tame 0 4) fun _ => .bind (haltControl_tame false) fun _ => ?_) (ackEndpoint_tame i 4)
  exact .bind (nuke_tame hu 0 _) fun _ => setCtl_tame _

theorem tryThen_tame (i : Nat) : Tame g (tryStart up i >>= fun _ => (pure () : Proc Unit)) :=
  .bind (tryStart_tame hu i) fun _ => .pure ()

theorem service_tame (i : Nat) (p : Bool) : Tame g (service up i p) :=
  .bind (tryStart_tame hu i) fun _ => .ite (.ite (tryThen_tame hu i) (.pure ())) (.pure ())

theorem txDoneRule_tame (i : Nat) (p : Bool) : Tame g (txDoneRule up i p) := by
  refine .ite (.bind (ackEndpoint_tame 0 1) fun _ => .bind .look fun _ => .ite (tryThen_tame hu 0) (.pure ())) ?_
  refine .bind .look fun d => ?_
  cases d with
  | IN => exact .bind (ackEndpoint_tame i 1) fun _ => service_tame hu i p
  | OUT => exact ackEndpoint_tame i 1

theorem rxReadyRule_tame (i : Nat) (p : Bool) : Tame g (rxReadyRule up i p) := by
  refine .ite (.bind .look fun _ => .ite (tryThen_tame hu 0) (processSetup_tame hu)) (.bind .look fun d => ?_)
  cases d with
  | IN => exact .pure ()
  | OUT => exact service_tame hu i p

theorem eventRule_tame (i : Instr) : Tame g (eventRule up i) := by
  cases i with
  | vbusOn => exact vbusOnRule_tame hu
  | reset => exact resetRule_tame hu
  | speedDone hs => exact speedDoneRule_tame hu hs
  | suspend => exact ackSystem_tame 5
  | resume => exact ackSystem_tame 6
  | error => exact ackSystem_tame 7
  | vbusOff => exact vbusOffRule_tame hu
  | stallSent ep => exact ifServed_tame _ (stallSentRule_tame hu _)
  | flushReq ep => exact ifServed_tame _ (flushReqRule_tame _)
  | txDone ep p => exact ifServed_tame _ (txDoneRule_tame hu _ p)
  | rxReady ep p => exact ifServed_tame _ (rxReadyRule_tame hu _ p)
  | _ => exact .pure ()

theorem endpointTurn_tame (i : Nat) : Tame g (endpointTurn up i) := by
  refine .bind (p := regWrite _ _) (fun s => .ok ⟨RecordsKept.pump.ackInterrupt s i, .afterWrite s _ _⟩) fun _ => ?_
  exact ifServed_tame i (.bind (regRead_tame _) fun e => .bind .look fun d => .eachOf fun j _ => eventRule_tame hu j)

theorem pump_tame (ssr eir : Word) : Tame g (pump up ssr eir) := by
  refine .bind (.eachOf fun j _ => eventRule_tame hu j) fun _ => .bind .look fun n => .eachOf fun i _ => ?_
  exact .ite (endpointTurn_tame hu i) (.pure ())

theorem taskRule_tame : Tame g (taskRule up) := by
  refine .bind topLevelOnly_tame fun _ => .bind (regRead_tame _) fun ssr => .bind (regRead_tame _) fun eir => ?_
  refine .bind (regRead_tame _) fun eier => .bind .look fun n => .ite (.pure _) ?_
  exact .bind (pump_tame hu ssr eir) fun _ => .pure _

end

end Sys2Proof.Machine
end

section
/-! PROOF. Instructions: each runs a tame procedure whose faults record a command (R198). -/

namespace Sys2Proof.Machine

/-- The command a ModelFault records (R198). -/
def Fault.command : Fault → Option Instr
  | .modelFault c _ => c
  | .noRecord c _ => c
  | .outOfWidth c _ => c

/-- Every fault of p records a command. -/
def NamesCommand {α : Type} (p : Proc α) : Prop := ∀ s f, p s = .error (.fault f) → f.command.isSome = true

theorem inCommand_namesCommand {α : Type} (i : Instr) (p : Proc α) : NamesCommand (inCommand i p) := fun s f h => by
  unfold inCommand at h
  split at h
  · cases h
    rename_i x _
    cases x <;> simp [Fault.inCommand, Fault.command]
  · rename_i hn
    exact absurd h (hn f)

theorem NeverFaults.namesCommand {α : Type} {p : Proc α} (h : NeverFaults p) : NamesCommand p :=
  fun s f hf => absurd hf (h s f)

theorem command_namesCommand (i : Instr) (p : Proc Status) : NamesCommand (command i p) := fun s f h => by
  unfold command at h
  cases hr : inCommand i p s with
  | ok q =>
    rw [bind_run_ok hr] at h
    cases h
  | error e =>
    rw [bind_run_error hr] at h
    cases h
    exact inCommand_namesCommand i p s f hr

theorem ifServed_neverFaults (i : Nat) {p : Proc Unit} (hp : NeverFaults p) : NeverFaults (ifServed i p) := fun s f => by
  unfold ifServed
  rw [look_bind_run, ite_run]
  split
  · exact hp s f
  · nofun

theorem flushReqRule_neverFaults (i : Nat) : NeverFaults (flushReqRule i) := fun s f => by
  unfold flushReqRule
  rw [ite_run]
  split
  · nofun
  rw [look_bind_run]
  cases s.epDir i with
  | IN => nofun
  | OUT => exact NeverFaults.bind (.regWrite _ _) (fun _ => flushOut_neverFaults i) s f

/-- An instruction is the run of a tame procedure whose faults record a command. -/
def RunsTame (g : Prop) (i : Instr) (s : State) : Prop :=
  ∃ p : Proc Unit, exec i s = outcome p s ∧ Tame g p ∧ NamesCommand p

section
variable {g : Prop} {s : State}

theorem RunsTame.ofCommand {p : Upcalls → Proc Status} {i : Instr}
    (he : exec i s = outcome (withUpcalls fun up => command i (p up)) s)
    (hp : ∀ up, (∀ u, Tame g (up u)) → Tame g (p up)) : RunsTame g i s :=
  ⟨_, he, withUpcalls_tame fun up hu => command_tame i (hp up hu), fun _ => command_namesCommand i (p _) _⟩

theorem RunsTame.ofHandler {p : Upcalls → Proc Unit} {i : Instr}
    (he : exec i s = outcome (withUpcalls fun up => inCommand i (p up)) s)
    (hp : ∀ up, (∀ u, Tame g (up u)) → Tame g (p up)) : RunsTame g i s :=
  ⟨_, he, withUpcalls_tame fun up hu => inCommand_tame i (hp up hu), fun _ => inCommand_namesCommand i (p _) _⟩

theorem RunsTame.ofSetup {b : Upcalls → BitVec 64 → Proc Word} {i : Instr} (he : exec i s = execSetup i b s)
    (hb : ∀ up, (∀ u, Tame g (up u)) → ∀ S, Tame g (b up S)) : RunsTame g i s :=
  .ofHandler he fun up hu => runSetup_tame _ (hb up hu _)

theorem RunsTame.ofNeverFaults {p : Proc Unit} {i : Instr} (he : exec i s = outcome p s) (hp : Tame g p)
    (hn : NeverFaults p) : RunsTame g i s := ⟨p, he, hp, hn.namesCommand⟩

/-- Every instruction runs so (R72, R87, R82). -/
theorem exec_runsTame (g : Prop) (i : Instr) (s : State) : RunsTame g i s := by
  cases i with
  | task => exact .ofCommand rfl fun _ hu => taskRule_tame hu
  | bind d => exact .ofCommand rfl fun _ hu => bindRule_tame hu d
  | enable ep a => exact .ofCommand rfl fun _ hu => enableRule_tame hu ep a
  | disable ep => exact .ofCommand rfl fun _ hu => disableRule_tame hu ep
  | queue ep h => exact .ofCommand rfl fun _ hu => withRequest_tame h (queueRule_tame hu _ _)
  | dequeue ep h => exact .ofCommand rfl fun _ hu => dequeueCommand_tame hu ep h
  | setHalt ep v => exact .ofCommand rfl fun _ hu => setHaltRule_tame hu _ v
  | fifoFlush ep => exact ⟨_, rfl, command_tame _ (fifoFlushRule_tame ep), command_namesCommand _ _⟩
  | reservedCmd c a => exact .ofNeverFaults (p := refuse .reservedCommand) rfl (.refuse _) fun _ _ => nofun
  | getStatus d r v x l => exact .ofSetup rfl fun _ hu S => getStatusRule_tame hu S
  | clearFeature d r v x l => exact .ofSetup rfl fun _ hu S => featureRule_tame hu false S
  | setFeature d r v x l => exact .ofSetup rfl fun _ hu S => featureRule_tame hu true S
  | setAddress d r v x l => exact .ofSetup rfl fun _ hu S => setAddressRule_tame hu S
  | setConfiguration v x l => exact .ofSetup rfl fun _ hu S => setConfigurationRule_tame hu S
  | getDescriptor d r v x l => exact .ofSetup rfl fun _ hu S => forwardRule_tame hu S
  | forward S => exact .ofSetup rfl fun _ hu S => forwardRule_tame hu S
  | vbusOn => exact .ofHandler rfl fun _ hu => vbusOnRule_tame hu
  | reset => exact .ofHandler rfl fun _ hu => resetRule_tame hu
  | speedDone hs => exact .ofHandler rfl fun _ hu => speedDoneRule_tame hu hs
  | suspend => exact .ofNeverFaults rfl (ackSystem_tame 5) (.regWrite _ _)
  | resume => exact .ofNeverFaults rfl (ackSystem_tame 6) (.regWrite _ _)
  | error => exact .ofNeverFaults rfl (ackSystem_tame 7) (.regWrite _ _)
  | vbusOff => exact .ofHandler rfl fun _ hu => vbusOffRule_tame hu
  | stallSent ep => exact .ofHandler rfl fun _ hu => ifServed_tame _ (stallSentRule_tame hu _)
  | flushReq ep =>
    exact .ofNeverFaults rfl (ifServed_tame _ (flushReqRule_tame _)) (ifServed_neverFaults _ (flushReqRule_neverFaults _))
  | txDone ep p => exact .ofHandler rfl fun _ hu => ifServed_tame _ (txDoneRule_tame hu _ p)
  | rxReady ep p => exact .ofHandler rfl fun _ hu => ifServed_tame _ (rxReadyRule_tame hu _ p)

end

/-- What an instruction that completes keeps: `g` is taken False, so that nothing is assumed of s. -/
theorem exec_stateKept {i : Instr} {s t : State} (h : exec i s = .next t) : StateKept s t := by
  obtain ⟨p, he, hp, _⟩ := exec_runsTame False i s
  obtain ⟨a, hr⟩ := outcome_next_iff.mp (he ▸ h)
  have := hp s
  rw [hr] at this
  exact this False.elim

theorem outcome_fault_iff {α : Type} {p : Proc α} {s : State} {f : Fault} :
    outcome p s = .fault f ↔ p s = .error (.fault f) := by
  unfold outcome
  split <;> simp_all

/-- What an instruction's fault says: it records a command, and the state shows the rest; `g` is the claim that s meets the
invariants. -/
theorem exec_fault {i : Instr} {s : State} {f : Fault} (h : exec i s = .fault f) :
    f.command.isSome = true ∧ Blames s.Inv s f := by
  obtain ⟨p, he, hp, hn⟩ := exec_runsTame s.Inv i s
  have hr := outcome_fault_iff.mp (he ▸ h)
  have hb := hp s
  rw [hr] at hb
  exact ⟨hn s f hr, hb id⟩

/-- Settles O51: every instruction runs a tame procedure, whose faults the state shows. -/
theorem faultsNameTheAccess : Obligations.FaultsNameTheAccess := by
  unfold Obligations.FaultsNameTheAccess
  intro i s f h
  obtain ⟨hc, hb⟩ := exec_fault h
  cases f with
  | modelFault c a =>
    obtain ⟨c, rfl⟩ := Option.isSome_iff_exists.mp hc
    exact ⟨.inl ⟨c, a, rfl, hb⟩, fun _ => ⟨c, a, rfl⟩⟩
  | noRecord c x =>
    obtain ⟨c, rfl⟩ := Option.isSome_iff_exists.mp hc
    exact ⟨.inr (.inl ⟨c, x, rfl, hb.1⟩), fun hs => absurd hs hb.2⟩
  | outOfWidth c x =>
    obtain ⟨c, rfl⟩ := Option.isSome_iff_exists.mp hc
    exact ⟨.inr (.inr ⟨c, x, rfl, hb.1⟩), fun hs => absurd hs hb.2⟩

end Sys2Proof.Machine
end

section
/-! PROOF. Steps keep the invariants of a state at rest. -/

namespace Sys2Proof.Machine

theorem UnconfiguredKept.move (s : State) (m : Move) : UnconfiguredKept s (s.move m) :=
  .of_eq (by simp) (by simp) (by simp)

theorem UnconfiguredKept.settle (s : State) : UnconfiguredKept s s.settleStatusStage :=
  .of_eq (by simp) (by simp) (by simp)

theorem runCommand_next {cmd arg : Word} {s t : State} (h : runCommand cmd arg s = .next t) :
    ∃ i u, exec i s = .next u ∧ t = u.settleStatusStage := by
  unfold runCommand at h
  cases hd : decodeCmd cmd arg with
  | error e =>
    rw [hd] at h
    cases h
  | ok i =>
    simp only [hd] at h
    cases he : exec i s with
    | next u =>
      rw [he] at h
      cases h
      exact ⟨i, u, he, rfl⟩
    | fault f =>
      rw [he] at h
      cases h
    | refused r =>
      rw [he] at h
      cases h

theorem runInput_unconfigured {x : Input} {s t : State} (h : runInput x s = .next t) : UnconfiguredKept s t := by
  cases x with
  | command cmd arg =>
    obtain ⟨i, u, he, rfl⟩ := runCommand_next h
    exact .trans _ _ _ (exec_stateKept he).2 (.settle u)
  | move m =>
    cases h
    exact .move s m
  | write w => exact ofPlain (UnconfiguredKept.commands.driverWrite w) h

theorem step_unconfigured {s t : State} (h : step s = .next t) : UnconfiguredKept s t := by
  unfold step stepInputs at h
  split at h
  · cases h
    exact .refl s
  · rename_i x rest _
    exact .trans _ ({ s with inputs := rest }) _ (.of_eq rfl rfl rfl) (runInput_unconfigured h)

theorem settle_sieEps (s : State) : s.settleStatusStage.sie.eps = s.sie.eps := by
  unfold State.settleStatusStage
  (repeat' split) <;> rfl

theorem settle_eier (s : State) : s.settleStatusStage.sie.eier = s.sie.eier := by
  unfold State.settleStatusStage
  (repeat' split) <;> rfl

theorem State.Inv.settle {s : State} (h : s.Inv) : s.settleStatusStage.Inv :=
  h.same (by simp) (by simp) (settle_sieEps s) (settle_eier s) (by simp) (by simp) (by simp) (by simp) (by simp)

theorem step_inv {s t : State} (hs : s.Inv) (h : step s = .next t) : t.Inv :=
  (InvKept.pump.step InvKept.bind (fun s m => ⟨move_cfg s m, fun hi => hi.move m⟩)
    (fun s => ⟨settle_cfg s, State.Inv.settle⟩) (fun _ _ => .same rfl rfl rfl rfl rfl rfl rfl rfl rfl) h).2 hs

/-- The configuration and the number of active upcalls stay. -/
def DepthKept (s t : State) : Prop := t.cfg = s.cfg ∧ t.dev.upcallDepth = s.dev.upcallDepth

theorem DepthKept.of_eq {s t : State} (cfg : t.cfg = s.cfg) (dev : t.dev = s.dev) : DepthKept s t := ⟨cfg, by rw [dev]⟩

theorem DepthKept.effect : EffectKept DepthKept where
  refl _ := .of_eq rfl rfl
  trans _ _ _ h1 h2 := ⟨h2.1.trans h1.1, h2.2.trans h1.2⟩
  read s r := .of_eq (by simp) (by simp)
  write s r v := .of_eq (by simp) (by simp)
  setEp _ _ _ := .of_eq rfl rfl
  setReq s h f := .of_eq (by simp) (by simp)
  byte _ _ _ := .of_eq rfl rfl
  statusByte _ _ _ := .of_eq rfl rfl
  returned _ _ := .of_eq rfl rfl
  ctl _ _ := ⟨rfl, rfl⟩
  upcall s u ret t h := by
    obtain ⟨hc, hd⟩ := h
    rw [afterResponse_dev] at hd
    exact ⟨by simpa using hc, Nat.sub_eq_of_eq_add hd⟩

theorem DepthKept.pump : PumpKept DepthKept :=
  DepthKept.effect.toPumpKept (fun _ _ h => h.1) (fun s f hf => ⟨rfl, (hf s.dev).2⟩) fun _ _ _ _ _ h => by
    cases h
    exact .of_eq rfl rfl

theorem step_depth {s t : State} (h : step s = .next t) : t.dev.upcallDepth = s.dev.upcallDepth :=
  (DepthKept.pump.step (fun _ _ _ _ => ⟨rfl, rfl⟩) (fun s m => .of_eq (by simp) (by simp)) (fun s => .of_eq (by simp) (by simp))
    (fun _ _ => .of_eq rfl rfl) h).2

/-- Settles O55: the invariants and the nesting depth are kept by every single effect; R25 (b), which the events that take the
device down break for a moment, is kept by every instruction. -/
theorem stepsKeepTheInvariants : Obligations.StepsKeepTheInvariants := by
  unfold Obligations.StepsKeepTheInvariants
  intro s t hs h
  exact ⟨step_inv hs.inv h, (step_unconfigured h).2 hs.unconfigured, (step_depth h).trans hs.topLevel⟩

end Sys2Proof.Machine
end

section
/-! PROOF. What no instruction or step changes, whatever the class driver and the SIE do: the nesting depth, the device state
under commands, the bound driver, the configuration, the request table's names and the past of the trace. -/

namespace Sys2Proof.Machine

theorem DepthKept.bind : BindKept DepthKept := fun _ _ _ _ => ⟨rfl, rfl⟩

/-- Settles O10: the entry is as defined; every single effect leaves the depth alone, and an upcall's return takes back what its
entry added. -/
theorem upcallDepthBalanced : Obligations.UpcallDepthBalanced :=
  ⟨fun _ _ => rfl, fun i _ _ h => (DepthKept.pump.exec i (fun _ => DepthKept.bind) h).2⟩

/-! ### Commands and the device -/

/-- A command that leaves the device alone but for the end of a control transfer (R94, R119, R127). -/
structure DeviceKept (s t : State) : Prop where
  state : t.dev.state = s.dev.state
  speed : t.dev.speed = s.dev.speed
  config : t.dev.config = s.dev.config
  address : t.dev.address = s.dev.address
  ctl : t.dev.ctl = s.dev.ctl ∨ t.dev.ctl = .waitForSetup

theorem DeviceKept.of_eq {s t : State} (h : t.dev = s.dev) : DeviceKept s t := by
  constructor <;> simp [h]

theorem DeviceKept.trans (s t u : State) (h1 : DeviceKept s t) (h2 : DeviceKept t u) : DeviceKept s u where
  state := h2.state.trans h1.state
  speed := h2.speed.trans h1.speed
  config := h2.config.trans h1.config
  address := h2.address.trans h1.address
  ctl := h2.ctl.elim (fun h => h ▸ h1.ctl) .inr

theorem DeviceKept.completed (s : State) (i : Nat) (h : Handle) (st : Status) : DeviceKept s (s.completed i h st) := by
  unfold State.completed
  split
  · constructor <;> simp
  · exact .of_eq (by simp)

theorem DeviceKept.commands : CommandKept DeviceKept where
  refl _ := .of_eq rfl
  trans := .trans
  read _ _ := .of_eq (by simp)
  writeCount _ _ _ := .of_eq (by simp)
  writeFifo _ _ _ := .of_eq (by simp)
  flush i s _ t h := by
    cases h
    exact .of_eq (by simp)
  halt _ _ _ _ _ h := by
    obtain ⟨u, hu, rfl⟩ := haltFields_controlWritten h
    exact .of_eq hu.dev
  shut _ _ _ _ _ h := .of_eq (shutFields_disables h).2.1
  enable _ _ _ _ _ _ _ h := .of_eq (enableFields_dev h).2
  completed s i h st _ := .completed s i h st
  clearQueue _ _ := .of_eq rfl
  begin _ _ _ _ := .of_eq (by simp)
  append _ _ _ _ _ _ := .of_eq (by simp)
  advance _ _ _ _ := .of_eq (by simp [State.advanced])
  mark _ _ _ := .of_eq (by simp)
  byte _ _ _ _ := .of_eq rfl
  statusByte _ _ _ := .of_eq rfl
  returned _ _ := .of_eq rfl
  record _ _ _ _ _ := .of_eq (by simp)
  upcall s u ret t h := by
    obtain ⟨hstate, hspeed, hconfig, haddress, hctl⟩ := h
    rw [afterResponse_dev] at hstate hspeed hconfig haddress hctl
    exact ⟨hstate, hspeed, hconfig, haddress, hctl⟩

theorem DeviceKept.bind : BindKept DeviceKept := fun s _ _ _ => by constructor <;> simp

/-- The command rows of the table but TASK (R72, R73). -/
def Instr.isCommand : Instr → Bool
  | .bind _ | .enable _ _ | .disable _ | .queue _ _ | .dequeue _ _ | .setHalt _ _ | .fifoFlush _ | .reservedCmd _ _ => true
  | _ => false

/-- A command word decodes to TASK or to another command. -/
theorem decodeCmd_task_or_isCommand {cmd arg : Word} {i : Instr} (h : decodeCmd cmd arg = .ok i) :
    i = .task ∨ Instr.isCommand i = true := by
  unfold decodeCmd at h
  repeat' split at h
  all_goals cases h
  all_goals simp [Instr.isCommand]

/-- Every command but TASK relates its start to its end by what each of a command's effects respects. -/
theorem CommandKept.exec {R : State → State → Prop} (k : CommandKept R) (hb : BindKept R) {i : Instr}
    (hi : Instr.isCommand i = true) {s t : State} (h : Machine.exec i s = .next t) : R s t := by
  have run : ∀ (j : Instr) {p : Upcalls → Proc Status}, (∀ up, (∀ u, Within R (up u)) → Within R (p up)) →
      outcome (withUpcalls fun up => Machine.command j (p up)) s = .next t → R s t := fun j p hp hr =>
    ofPlain (withUpcalls_within k fun up hu => k.command j (hp up hu)) hr
  cases i with
  | bind d => exact run _ (fun _ hu => k.bindRule hb hu d) h
  | enable ep a => exact run _ (fun _ hu => k.enableRule hu ep a) h
  | disable ep => exact run _ (fun _ hu => k.disableRule hu ep) h
  | queue ep w => exact run _ (fun _ hu => k.withRequest w (k.queueRule hu _ _)) h
  | dequeue ep w => exact run _ (fun _ hu => k.dequeueCommand hu ep w) h
  | setHalt ep v => exact run _ (fun _ hu => k.setHaltRule hu _ v) h
  | fifoFlush ep => exact ofPlain (k.command _ (k.fifoFlushRule ep)) h
  | reservedCmd c a => cases h
  | _ => cases hi

/-- The configuration and the driver stay. -/
def DriverKept (s t : State) : Prop := t.cfg = s.cfg ∧ t.dev.driver = s.dev.driver

theorem DriverKept.of_eq {s t : State} (cfg : t.cfg = s.cfg) (dev : t.dev = s.dev) : DriverKept s t := ⟨cfg, by rw [dev]⟩

theorem DriverKept.effect : EffectKept DriverKept where
  refl _ := .of_eq rfl rfl
  trans _ _ _ h1 h2 := ⟨h2.1.trans h1.1, h2.2.trans h1.2⟩
  read _ _ := .of_eq (by simp) (by simp)
  write _ _ _ := .of_eq (by simp) (by simp)
  setEp _ _ _ := .of_eq rfl rfl
  setReq _ _ _ := .of_eq (by simp) (by simp)
  byte _ _ _ := .of_eq rfl rfl
  statusByte _ _ _ := .of_eq rfl rfl
  returned _ _ := .of_eq rfl rfl
  ctl _ _ := ⟨rfl, rfl⟩
  upcall s u ret t h := by
    obtain ⟨hcfg, hdriver⟩ := h
    rw [afterResponse_dev] at hdriver
    exact ⟨by simpa using hcfg, hdriver⟩

theorem DriverKept.pump : PumpKept DriverKept :=
  DriverKept.effect.toPumpKept (fun _ _ h => h.1) (fun s _ hf => ⟨rfl, (hf s.dev).1⟩) fun _ _ _ _ _ h => by
    cases h
    exact .of_eq rfl rfl

/-- Settles O48: no effect of a command writes the device but a completion on endpoint 0, which ends the control transfer;
no effect of any instruction but BIND writes the driver. -/
theorem commandsKeepTheDevice : Obligations.CommandsKeepTheDevice := by
  unfold Obligations.CommandsKeepTheDevice
  refine ⟨fun cmd arg i s t hd ht h => ?_, fun i s t hb h => ?_⟩
  · obtain ⟨hstate, hspeed, hconfig, haddress, hctl⟩ :=
      DeviceKept.commands.exec DeviceKept.bind ((decodeCmd_task_or_isCommand hd).resolve_left ht) h
    exact ⟨hstate, hspeed, hconfig, haddress, hctl⟩
  · exact (DriverKept.pump.exec i (fun ⟨d, hi⟩ => absurd hi (hb d)) h).2

/-! ### What only launch sets -/

/-- The configuration and the request table's names stay, a bound driver stays bound, the trace only grows (R16, R22, R181,
R209). -/
structure LaunchKept (s t : State) : Prop where
  cfg : t.cfg = s.cfg
  handles : t.reqs.map (·.1) = s.reqs.map (·.1)
  driver : ∀ d, s.dev.driver = some d → t.dev.driver = some d
  trace : s.trace <+: t.trace

/-- An update of other fields. -/
theorem LaunchKept.same {s t : State} (cfg : t.cfg = s.cfg) (reqs : t.reqs = s.reqs) (dev : t.dev = s.dev)
    (trace : s.trace <+: t.trace) : LaunchKept s t := ⟨cfg, by rw [reqs], fun _ h => by rw [dev]; exact h, trace⟩

theorem setReq_handles (s : State) (h : Handle) (f : Request → Request) :
    (s.setReq h f).reqs.map (·.1) = s.reqs.map (·.1) := by
  cases h with
  | user k => exact updateRequest_handles k f s.reqs
  | statusReq => rfl

theorem move_trace (s : State) (m : Move) : s.trace <+: (s.move m).trace := by
  unfold State.move
  split
  · exact List.prefix_append _ _
  · exact List.prefix_refl _

theorem moves_trace (s : State) (ms : List Move) : s.trace <+: (s.moves ms).trace := by
  induction ms generalizing s with
  | nil => exact List.prefix_refl _
  | cons m ms ih => exact (move_trace s m).trans (ih _)

theorem busTick_trace (s : State) : s.trace <+: s.busTick.trace := by
  unfold State.busTick
  split
  · exact List.prefix_refl _
  · rename_i ms rest _
    exact moves_trace { s with betweenMoves := rest } ms

theorem LaunchKept.setDev (s : State) {f : Device → Device} (hf : ∀ d, s.dev.driver = some d → (f s.dev).driver = some d) :
    LaunchKept s (s.setDev f) := ⟨rfl, rfl, hf, List.prefix_refl _⟩

theorem LaunchKept.effect : EffectKept LaunchKept where
  refl _ := .same rfl rfl rfl (List.prefix_refl _)
  trans _ _ _ h1 h2 := ⟨h2.cfg.trans h1.cfg, h2.handles.trans h1.handles, fun d h => h2.driver d (h1.driver d h),
    h1.trace.trans h2.trace⟩
  read s r := .same (by simp) (by simp) (by simp) (busTick_trace s)
  write s r v := .same (by simp) (by simp) (by simp) (busTick_trace s)
  setEp _ _ _ := .same rfl rfl rfl (List.prefix_refl _)
  setReq s h f := ⟨by simp, setReq_handles s h f, by simp, by simp⟩
  byte _ _ _ := .same rfl rfl rfl (List.prefix_refl _)
  statusByte _ _ _ := .same rfl rfl rfl (List.prefix_refl _)
  returned _ _ := .same rfl rfl rfl (List.prefix_append _ _)
  ctl s _ := .setDev s fun _ => id
  upcall s u ret t h := by
    obtain ⟨hcfg, hhandles, hdriver, htrace⟩ := h
    rw [afterResponse_dev] at hdriver
    rw [afterResponse_trace] at htrace
    exact ⟨by simpa using hcfg, by simpa using hhandles, hdriver,
      (List.prefix_append s.trace _).trans (htrace.trans (List.prefix_append _ _))⟩

theorem LaunchKept.pump : PumpKept LaunchKept :=
  LaunchKept.effect.toPumpKept (fun _ _ h => h.cfg) (fun s _ hf => .setDev s fun _ h => (hf s.dev).1.trans h)
    fun _ _ _ _ _ h => by
      cases h
      exact .same rfl rfl rfl (List.prefix_refl _)

/-- BIND records a driver only where none is bound (R117). -/
theorem LaunchKept.bind : BindKept LaunchKept := fun s _ _ hn => .setDev s fun _ h => by
  rw [hn] at h
  cases h

/-- Settles O50: each single effect, a move, the status stage and the taking of an input keep them. -/
theorem stepsKeepWhatOnlyLaunchSets : Obligations.StepsKeepWhatOnlyLaunchSets := by
  unfold Obligations.StepsKeepWhatOnlyLaunchSets
  intro s t h
  obtain ⟨hcfg, hhandles, hdriver, htrace⟩ := LaunchKept.pump.step LaunchKept.bind
    (fun s m => .same (by simp) (by simp) (by simp) (move_trace s m))
    (fun s => .same (by simp) (by simp) (by simp) (by simp)) (fun _ _ => .same rfl rfl rfl (List.prefix_refl _)) h
  exact ⟨hcfg, hhandles, hdriver, htrace⟩

end Sys2Proof.Machine
end

section
/-! PROOF. The registers the core writes, bit by bit, and the invariants after reset. -/

namespace Sys2Proof.Machine

theorem eirBit_iff (e : SieEndpoint) : e.eirBit = true ↔ e.eirLatch = true ∨ e.rxQueue ≠ [] := by
  simp [SieEndpoint.eirBit, SieEndpoint.rxReady]

/-- A W1C write of `EIR` clears the endpoint's latch where its bit is 1 (R166). -/
theorem write_eir_ep (c : Config) {x : Sie} (v : Word) {i : Nat} (hi : i < x.eps.length) :
    (Sie.write c x .eir v).ep i = { x.ep i with eirLatch := (x.ep i).eirLatch && !v.getLsbD i } := by
  simp [Sie.write, Sie.ep, List.getD_eq_getElem?_getD, clearLatches_getElem?, hi]

/-- Settles O13: each write clears the bits its word has 1 in, and the reads of `EIR` are taken bit by bit. -/
theorem writeOneToClear : Obligations.WriteOneToClear := by
  unfold Obligations.WriteOneToClear
  intro c x v i hlen hi
  have hread : ∀ k, (Sie.read c x .eir).1.getLsbD k = (decide (k < x.eps.length) && (x.ep k).eirBit) := fun k =>
    getLsbD_eirWord x k (by omega)
  refine ⟨fun k hk => ?_, rfl, write_eir_ep c v hi, rfl, rfl, ?_, fun k hk => ?_⟩
  · simp [Sie.write, hk]
  · rw [hread, ← eirBit_iff]
    simp [hi]
  · rw [hread]
    simp [Nat.not_lt.mpr hk]

/-- `ECR` stores bits 0 and 2 and reads the others as 0 (R43). -/
theorem ecrWord_writeControl (v : Word) (e : SieEndpoint) : (SieEndpoint.writeControl v e).ecrWord = v &&& 0x5 := by
  have mask : ∀ j (hj : j < 32), (0x5 : Word)[j] = (decide (j = 0) || decide (j = 2)) := by decide
  ext j hj
  rw [BitVec.getElem_and, mask j hj]
  by_cases h0 : j = 0
  · subst h0
    simp [SieEndpoint.ecrWord, SieEndpoint.writeControl, ecrStall]
  · by_cases h2 : j = 2
    · subst h2
      simp [SieEndpoint.ecrWord, SieEndpoint.writeControl, ecrDirIn]
    · simp [SieEndpoint.ecrWord, h0, h2]

/-- `MPS` keeps bits 10:0 (R44). -/
theorem zeroExtend_low11 (v : Word) : (low11 v).zeroExtend 32 = v &&& 0x7FF := by
  have mask : ∀ j (hj : j < 32), (0x7FF : Word)[j] = decide (j < 11) := by decide
  ext j hj
  rw [BitVec.getElem_and, mask j hj]
  simp [low11, hj, Bool.and_comm]

/-- `EIER` keeps bits 1 to N-1, and its bit 0 is 1 (R41). -/
theorem getLsbD_write_eier (c : Config) (x : Sie) (v : Word) (k : Nat) (hn : c.numEndpoints ≤ 16) :
    (Sie.write c x .eier v).eier.getLsbD k = (decide (k = 0) || (decide (k < c.numEndpoints) && v.getLsbD k)) := by
  simp only [Sie.write, BitVec.getLsbD_or, BitVec.getLsbD_and, getLsbD_epMask _ _ (show c.numEndpoints ≤ 32 by omega)]
  simp [Bool.or_comm, Bool.and_comm]

/-- Settles O14: what each register stores of the word written, and what of that it reads as. -/
theorem writtenRegistersReadBack : Obligations.WrittenRegistersReadBack := by
  unfold Obligations.WrittenRegistersReadBack
  intro c x v i hn hi
  refine ⟨fun k => getLsbD_write_eier c x v k hn, ?_, ?_, rfl⟩
  · show ((x.setEp i (SieEndpoint.writeControl v)).ep i).ecrWord = _
    rw [sieEp_setEp_self x i _ hi, ecrWord_writeControl]
  · show ((x.setEp i fun e => { e with mps := low11 v }).ep i).mps.zeroExtend 32 = _
    rw [sieEp_setEp_self x i _ hi, zeroExtend_low11]

/-- Settles O56: the invariants are evaluated on the state after reset; its data endpoints are disabled (R32). -/
theorem resetMeetsTheInvariants : Obligations.ResetMeetsTheInvariants where
  inv := invOk_sound (by decide +kernel)
  unconfigured _ i h1 hi := by
    rw [State.reset, resetWith_dataEp Config.test h1 hi]
  topLevel := rfl

end Sys2Proof.Machine
end

section
/-! SUPPORT. Where an instruction may store with a class driver that takes no action.  For a byte at address a outside the buffer
of every queued request, `Spares a` says that the byte, and what keeps it outside, stay.  The only stores are those of READ_FIFO
(R102), into the buffer of the head of a queue; the only requests a rule queues are QUEUE's own and `STATUS_REQ`, whose buffer is
not in system memory (R37). -/

namespace Sys2Proof.Machine

/-- Address a lies outside the request's buffer (R34). -/
def Request.avoids (a : Nat) (r : Request) : Prop :=
  ∀ base, r.buf = .sysMem base → ¬(base.toNat ≤ a ∧ a < base.toNat + r.length)

theorem Request.avoids.of_eq {a : Nat} {r q : Request} (h : r.avoids a) (buf : q.buf = r.buf) (length : q.length = r.length) :
    q.avoids a := by
  unfold Request.avoids
  rwa [buf, length]

/-- The core's own bytes are no system memory (R37). -/
theorem Request.avoids_of_coreBytes {a : Nat} {r : Request} (h : r.buf = .coreBytes) : r.avoids a := fun base hb => by
  rw [h] at hb
  cases hb

/-- The room left in a buffer lies in the buffer. -/
theorem Request.avoids.room_ne {a : Nat} {r : Request} (h : r.avoids a) {base : Word} (hb : r.buf = .sysMem base) {x : Nat}
    (hx : x < r.length - r.actual) : base.toNat + (r.actual + x) ≠ a := fun he => h base hb (by omega)

/-- No rule has a reason to store at address a: no queued request's buffer holds it, and the class driver takes no action. -/
structure State.Spared (s : State) (a : Nat) : Prop where
  memory : Memory.wf s.mem
  idle : ∀ r ∈ s.driverScript, r.actions = []
  reply : s.statusReq.buf = .coreBytes
  queued : ∀ i, ∀ h ∈ (s.ep i).queue, (s.req h).avoids a

/-- The byte at address a stays, and stays spared. -/
def Spares (a : Nat) (s t : State) : Prop := s.Spared a → t.Spared a ∧ t.byte a = s.byte a

section effects
variable {a : Nat}

theorem Spares.refl (s : State) : Spares a s s := fun h => ⟨h, rfl⟩

theorem Spares.trans (s t u : State) (h1 : Spares a s t) (h2 : Spares a t u) : Spares a s u := fun h =>
  ⟨(h2 (h1 h).1).1, (h2 (h1 h).1).2.trans (h1 h).2⟩

/-- An update that stores nothing and queues no request whose buffer holds a. -/
theorem Spares.of_queued {s t : State} (mem : t.mem = s.mem) (script : t.driverScript ⊆ s.driverScript)
    (reply : t.statusReq.buf = s.statusReq.buf)
    (queued : s.Spared a → ∀ i, ∀ h ∈ (t.ep i).queue, (t.req h).avoids a) : Spares a s t := fun hs =>
  ⟨⟨mem ▸ hs.memory, fun r hr => hs.idle r (script hr), reply.trans hs.reply, queued hs⟩, by rw [State.byte, State.byte, mem]⟩

/-- An update of other fields. -/
theorem Spares.same {s t : State} (mem : t.mem = s.mem) (script : t.driverScript = s.driverScript)
    (statusReq : t.statusReq = s.statusReq) (reqs : t.reqs = s.reqs) (eps : t.eps = s.eps) : Spares a s t :=
  .of_queued mem (script ▸ List.Subset.refl _) (by rw [statusReq]) fun hs i h hh => by
    rw [State.ep, eps] at hh
    rw [req_eq_of_eq reqs statusReq]
    exact hs.queued i h hh

theorem Spares.setEp (s : State) (i : Nat) {f : Endpoint → Endpoint} (hf : ∀ e, (f e).queue ⊆ e.queue) :
    Spares a s (s.setEp i f) :=
  .of_queued rfl (List.Subset.refl _) rfl fun hs j h hh => by
    rw [req_setEp]
    rcases ep_setEp_cases s i j f with he | ⟨_, _, he⟩ <;> rw [he] at hh
    · exact hs.queued j h hh
    · exact hs.queued j h (hf _ hh)

theorem avoids_setReq {s : State} {k : Handle} (h : Handle) {f : Request → Request} (hbuf : ∀ r, (f r).buf = r.buf)
    (hlength : ∀ r, (f r).length = r.length) (hk : (s.req k).avoids a) : ((s.setReq h f).req k).avoids a :=
  hk.of_eq (req_setReq_keeps Request.buf s h k f hbuf) (req_setReq_keeps Request.length s h k f hlength)

theorem Spares.setReq (s : State) (h : Handle) {f : Request → Request} (hbuf : ∀ r, (f r).buf = r.buf)
    (hlength : ∀ r, (f r).length = r.length) : Spares a s (s.setReq h f) :=
  .of_queued (by simp) (by simp) (req_setReq_keeps Request.buf s h .statusReq f hbuf) fun hs i k hk => by
    rw [ep_setReq] at hk
    exact avoids_setReq h hbuf hlength (hs.queued i k hk)

theorem Spares.afterRead (s : State) (r : Reg) : Spares a s (s.afterRead r) :=
  .same (by simp) (by simp) (by simp) (by simp) (by simp)

theorem Spares.afterWrite (s : State) (r : Reg) (v : Word) : Spares a s (s.afterWrite r v) :=
  .same (by simp) (by simp) (by simp) (by simp) (by simp)

theorem Spares.setDev (s : State) (f : Device → Device) : Spares a s (s.setDev f) := .same rfl rfl rfl rfl rfl

theorem Spares.setByte (s : State) {x : Nat} (hx : x ≠ a) (b : Byte) : Spares a s (s.setByte x b) := fun hs =>
  ⟨⟨write_wf hs.memory x b, hs.idle, hs.reply, fun i h hh => by
    rw [req_setByte]
    exact hs.queued i h hh⟩, by rw [byte_setByte s hs.memory, if_neg hx.symm]⟩

theorem Spares.completed (s : State) (i : Nat) (h : Handle) (st : Status) : Spares a s (s.completed i h st) := by
  have h2 := Spares.trans (a := a) _ _ _ (.setEp s i (f := fun e => { e with queue := e.queue.erase h }) fun _ => List.erase_subset)
    (.setReq _ h (f := Request.completed st) (fun _ => rfl) fun _ => rfl)
  unfold State.completed
  split
  · exact .trans _ _ _ h2 (.setDev _ _)
  · exact h2

/-- QUEUE appends a request whose buffer does not hold a (R111). -/
theorem Spares.append {s : State} (i : Nat) {h : Handle} (hh : (s.req h).avoids a) :
    Spares a s ((s.setEp i fun e => { e with queue := e.queue ++ [h] }).setReq h fun r => { r with queuedOn := some i }) := by
  refine .of_queued (by simp) (by simp) (req_setReq_keeps Request.buf _ h .statusReq _ fun _ => rfl) fun hs j k hk => ?_
  refine avoids_setReq h (fun _ => rfl) (fun _ => rfl) ?_
  rw [req_setEp]
  rw [ep_setReq] at hk
  rcases ep_setEp_cases s i j (fun e => { e with queue := e.queue ++ [h] }) with he | ⟨_, _, he⟩ <;> rw [he] at hk
  · exact hs.queued j k hk
  · rcases List.mem_append.mp hk with hk | hk
    · exact hs.queued j k hk
    · rwa [List.mem_singleton.mp hk]

theorem State.Spared.nextResponse {s : State} (hs : s.Spared a) : s.nextResponse.actions = [] := by
  unfold State.nextResponse
  cases hd : s.driverScript with
  | nil => rfl
  | cons r rest => exact hs.idle r (by simp [hd])

theorem Spares.afterResponse (s : State) : Spares a s s.afterResponse :=
  .of_queued (by simp) (by rw [afterResponse_driverScript]; exact List.tail_subset _) (by simp) fun hs i h hh => by
    rw [State.ep, afterResponse_eps] at hh
    rw [req_eq_of_eq (afterResponse_reqs s) (afterResponse_statusReq s)]
    exact hs.queued i h hh

end effects

/-! ### Procedures -/

/-- Every completed run of p spares the byte at address a. -/
def Sparing {α : Type} (a : Nat) (p : Proc α) : Prop := Within (Spares a) p

section
variable {a : Nat} {α β : Type}

theorem Sparing.bind {p : Proc α} {f : α → Proc β} (hp : Sparing a p) (hf : ∀ x, Sparing a (f x)) : Sparing a (p >>= f) :=
  Within.bind Spares.trans hp hf

theorem Sparing.pure (x : α) : Sparing a (pure x : Proc α) := Within.pure .refl x

theorem Sparing.look (f : State → α) : Sparing a (look f) := Within.look .refl f

theorem Sparing.refuse (r : Refusal) : Sparing a (refuse r : Proc α) := Within.refuse r

theorem Sparing.change {f : State → State} (hf : ∀ s, Spares a s (f s)) : Sparing a (change f) := Within.change hf

theorem Sparing.ite {c : Prop} [Decidable c] {p q : Proc α} (hp : Sparing a p) (hq : Sparing a q) :
    Sparing a (if c then p else q) := Within.ite (fun _ => hp) fun _ => hq

theorem Sparing.onlyIf {c : Bool} {p : Proc Unit} (hp : c = true → Sparing a p) : Sparing a (onlyIf c p) :=
  Within.onlyIf .refl hp

theorem Sparing.eachOf {f : α → Proc Unit} {l : List α} (hf : ∀ x, Sparing a (f x)) : Sparing a (eachOf f l) :=
  Within.eachOf .refl .trans fun x _ => hf x

theorem Sparing.inCommand {i : Instr} {p : Proc α} (hp : Sparing a p) : Sparing a (inCommand i p) := Within.inCommand hp

/-- A procedure that completes only where it started. -/
theorem Sparing.of_eq {p : Proc α} (hp : ∀ s x t, p s = .ok (x, t) → t = s) : Sparing a p := fun s x t h =>
  (hp s x t h).symm ▸ .refl s

theorem Sparing.regRead (r : Reg) : Sparing a (regRead r) := fun s _ _ h => by
  cases h
  exact .afterRead s r

theorem Sparing.regWrite (r : Reg) (v : Word) : Sparing a (regWrite r v) := fun s _ _ h => by
  cases h
  exact .afterWrite s r v

end

/-! ### What makes no upcall and stores nothing -/

section
variable {a : Nat}

/-- A change of an endpoint's fields other than its queue. -/
theorem Sparing.setFields (i : State → Nat) (f : State → Endpoint → Endpoint) (hf : ∀ s e, (f s e).queue = e.queue) :
    Sparing a (Machine.change fun s => s.setEp (i s) (f s)) :=
  .change fun s => .setEp s _ fun e => by rw [hf]; exact List.Subset.refl _

theorem maskInterrupt_sparing (i : Nat) : Sparing a (maskInterrupt i) := .bind (.regRead _) fun _ => .regWrite _ _

theorem unmaskInterrupt_sparing (i : Nat) : Sparing a (unmaskInterrupt i) := .bind (.regRead _) fun _ => .regWrite _ _

theorem haltFields_sparing (i : Nat) (v : Bool) : Sparing a (haltFields i v) :=
  .bind (.ite (.bind (.regRead _) fun _ => .regWrite _ _) (.bind (.regRead _) fun _ => .regWrite _ _)) fun _ =>
    .setFields (fun _ => i) (fun _ e => { e with halted := v }) fun _ _ => rfl

theorem shutFields_sparing (i : Nat) : Sparing a (shutFields i) :=
  .bind (maskInterrupt_sparing i) fun _ =>
    .setFields (fun _ => i) (fun _ e => { e with enabled := false, halted := true }) fun _ _ => rfl

theorem enableFields_sparing (i : Nat) (size : BitVec 11) : Sparing a (enableFields i size) :=
  .bind (.look _) fun _ => .bind (.regWrite _ _) fun _ => .bind (.regWrite _ _) fun _ =>
    .bind (.setFields (fun _ => i) (fun _ e => { e with mps := size, enabled := true, halted := false }) fun _ _ => rfl)
      fun _ => unmaskInterrupt_sparing i

theorem reinitFields_sparing (i : Nat) : Sparing a (reinitFields i) := by
  refine .ite (.bind ?_ fun _ => ?_) (.bind ?_ fun _ => .bind (maskInterrupt_sparing i) fun _ => ?_)
  · exact .setFields (fun _ => 0) (fun s e => { e with halted := false, mps := Config.ep0Mps s.cfg s.dev.speed }) fun _ _ => rfl
  · exact .bind (.regWrite _ _) fun _ => .bind (.look _) fun _ => .regWrite _ _
  · exact .setFields (fun _ => i)
      (fun s e => { e with enabled := false, halted := true, mps := Config.bulkMps s.cfg s.dev.speed }) fun _ _ => rfl
  · exact .bind (.regWrite _ _) fun _ => .bind (.look _) fun _ => .regWrite _ _

theorem setCtl_sparing (c : Ctl) : Sparing a (setCtl c) := .change fun s => .setDev s _

theorem clearSetupStall_sparing : Sparing a clearSetupStall :=
  .bind (.regRead _) fun _ => .bind (.onlyIf fun _ => .regWrite _ _) fun _ =>
    .setFields (fun _ => 0) (fun _ e => { e with halted := false }) fun _ _ => rfl

theorem readWordCount_sparing (i : Nat) : Sparing a (readWordCount i) := .bind (.regRead _) fun _ => .pure _

theorem discardWords_sparing (i n : Nat) : Sparing a (discardWords i n) := by
  induction n with
  | zero => exact .pure ()
  | succ n ih => exact .bind (.regRead _) fun _ => ih

theorem drainPackets_sparing (i p : Nat) : Sparing a (drainPackets i p) := by
  induction p with
  | zero => exact .pure ()
  | succ p ih => exact .bind (readWordCount_sparing i) fun w => .bind (discardWords_sparing i w) fun _ => ih

theorem flushOut_sparing (i : Nat) : Sparing a (flushOut i) := .bind (.regRead _) fun _ => drainPackets_sparing i _

theorem fifoFlushRule_sparing (ep : BitVec 4) : Sparing a (fifoFlushRule ep) := by
  refine .bind (.look _) fun _ => .ite (.pure _) (.bind (.look _) fun d => ?_)
  cases d with
  | IN => exact .bind (.bind (.regRead _) fun _ => .regWrite _ _) fun _ => .pure _
  | OUT => exact .bind (flushOut_sparing _) fun _ => .pure _

theorem canStart_sparing (i : Nat) : Sparing a (canStart i) :=
  .bind (.look _) fun _ => .ite (.bind (.look _) fun _ => .bind (.regRead _) fun _ => .pure _) (.pure _)

theorem writeWords_sparing (i : Nat) (l : List Byte) : Sparing a (writeWords i l) := by
  induction l using writeWords.induct with
  | case1 => exact .pure ()
  | case2 lo => exact .regWrite _ _
  | case3 lo hi rest ih => exact .bind (.regWrite _ _) fun _ => ih

theorem needRecord_sparing (h : Handle) : Sparing a (needRecord h) := .of_eq fun _ _ _ hr => (needRecord_ok hr).1

theorem needCounts_sparing (h : Handle) : Sparing a (needCounts h) := .of_eq fun _ _ _ hr => (needCounts_ok hr).1

theorem advance_sparing (h : Handle) (n : Nat) : Sparing a (advance h n) :=
  .change fun s => .setReq s h (fun _ => rfl) fun _ => rfl

theorem recordOverflow_sparing (h : Handle) (o : Bool) : Sparing a (recordOverflow h o) :=
  .change fun s => .setReq s h (fun _ => rfl) fun _ => rfl

/-- GET_STATUS gives its reply a new length, but no byte of system memory (R143). -/
theorem prepareStatus_sparing (v l : Half) : Sparing a (prepareStatus v l) := .change fun s =>
  .of_queued rfl (List.Subset.refl _) rfl fun hs i h hh => by
    cases h with
    | user k => exact hs.queued i (.user k) hh
    | statusReq => exact Request.avoids_of_coreBytes hs.reply

theorem topLevelOnly_sparing : Sparing a topLevelOnly := .bind (.look _) fun _ => .ite (.refuse _) (.pure _)

theorem readSetupPacket_sparing : Sparing a readSetupPacket :=
  .bind (.regRead _) fun _ => .bind (.regRead _) fun _ => .bind (.regRead _) fun _ => .bind (.regRead _) fun _ => .pure _

theorem finishSetup_sparing (S : BitVec 64) (ret : Word) : Sparing a (finishSetup S ret) :=
  .ite (.bind (haltFields_sparing 0 true) fun _ => setCtl_sparing _) (.ite (setCtl_sparing _) (.pure ()))

theorem runSetup_sparing (S : BitVec 64) {p : Proc Word} (hp : Sparing a p) : Sparing a (runSetup S p) :=
  .bind (setCtl_sparing _) fun _ => .bind hp fun r => finishSetup_sparing S r

theorem command_sparing (i : Instr) {p : Proc Status} (hp : Sparing a p) : Sparing a (command i p) :=
  .bind (.inCommand hp) fun _ => .change fun _ => .same rfl rfl rfl rfl rfl

theorem ifServed_sparing (i : Nat) {p : Proc Unit} (hp : Sparing a p) : Sparing a (ifServed i p) :=
  .bind (.look _) fun _ => .ite hp (.pure ())

theorem flushReqRule_sparing (i : Nat) : Sparing a (flushReqRule i) := by
  refine .ite (.regWrite _ _) (.bind (.look _) fun d => ?_)
  cases d with
  | IN => exact .regWrite _ _
  | OUT => exact .bind (.regWrite _ _) fun _ => flushOut_sparing i

/-! ### The stores of a received packet -/

theorem bufWriteByte_sparing {b : Buffer} {off : Nat} (v : Byte) (hb : ∀ base, b = .sysMem base → base.toNat + off ≠ a) :
    Sparing a (bufWriteByte b off v) := by
  cases b with
  | none => exact .pure ()
  | coreBytes => exact .change fun _ => .same rfl rfl rfl rfl rfl
  | sysMem base =>
    intro s _ t h
    simp only [bufWriteByte, memWriteByte] at h
    split at h
    · cases h
      exact .setByte s (hb base rfl) v
    · cases h

/-- READ_FIFO stores only at offsets off to off + n - 1 of the buffer (R102). -/
theorem readWords_sparing (i : Nat) {b : Buffer} {off n : Nat}
    (hb : ∀ base, b = .sysMem base → ∀ x, x < n → base.toNat + (off + x) ≠ a) (m k : Nat) :
    Sparing a (readWords i b off n m k) := by
  have store : ∀ x v, Sparing a (onlyIf (decide (x < n)) (bufWriteByte b (off + x) v)) := fun x v =>
    .onlyIf fun hx => bufWriteByte_sparing v fun base hbase => hb base hbase x (of_decide_eq_true hx)
  induction m generalizing k with
  | zero => exact .pure ()
  | succ m ih =>
    exact .bind (.regRead _) fun w => .bind (store (2 * k) _) fun _ => .bind (store (2 * k + 1) _) fun _ => ih (k + 1)

/-! ### Upcalls -/

/-- The class driver answers without an action, so nothing is stored in an upcall. -/
theorem upcallWith_sparing (act : DriverAction → Proc Unit) (u : Upcall) : Sparing a (upcallWith act u) := fun s w t h hs => by
  have hnone : (s.enterUpcall u).nextResponse.actions = [] := hs.nextResponse
  unfold upcallWith at h
  simp only [change_bind_run, look_bind_run, hnone, eachOf_nil, pure_bind_run] at h
  cases h
  exact Spares.trans s (s.enterUpcall u) _ (.same rfl rfl rfl rfl rfl)
    (.trans _ _ _ (.afterResponse _) (.same rfl rfl rfl rfl rfl)) hs

theorem upcalls_sparing (n : Nat) (u : Upcall) : Sparing a (upcalls n u) := by
  cases n with
  | zero => exact upcallWith_sparing _ u
  | succ n => exact upcallWith_sparing _ u

theorem withUpcalls_sparing {α : Type} {p : Upcalls → Proc α} (hp : ∀ up, (∀ u, Sparing a (up u)) → Sparing a (p up)) :
    Sparing a (withUpcalls p) := fun s => hp _ (upcalls_sparing _) s

end

/-! ### The rules, given that upcalls spare the byte -/

section rules
variable {a : Nat} {up : Upcalls} (hu : ∀ u, Sparing a (up u))
include hu

theorem complete_sparing (i : Nat) (h : Handle) (st : Status) : Sparing a (complete up i h st) := by
  refine .bind (.change fun s => .completed s i h st) fun _ => .bind (.look _) fun cb => ?_
  cases cb with
  | none => exact .pure ()
  | some c => exact .bind (hu _) fun _ => .pure ()

theorem nuke_sparing (i : Nat) (st : Status) : Sparing a (nuke up i st) := by
  refine .bind (.look _) fun _ => .bind (.change fun s => .setEp s i fun e => List.nil_subset _) fun _ => .eachOf fun x => ?_
  exact .bind (needRecord_sparing _) fun _ => .bind (.look _) fun _ => .onlyIf fun _ => complete_sparing hu i x.1 st

/-- The end of a packet. -/
theorem completeIf_sparing (i : Nat) (h : Handle) (last : Bool) :
    Sparing a (if last then (complete up i h .ok >>= fun _ => (pure true : Proc Bool)) else pure false) :=
  .ite (.bind (complete_sparing hu i h .ok) fun _ => .pure _) (.pure _)

theorem writeFifo_sparing (i : Nat) (h : Handle) : Sparing a (writeFifo up i h) := by
  refine .bind (.look _) fun n => .bind (.regWrite _ _) fun _ => .bind (.look _) fun r => ?_
  refine .bind (.of_eq fun _ _ _ => bufRead_ok) fun bytes => .bind (writeWords_sparing i bytes) fun _ => ?_
  exact .bind (advance_sparing h n) fun _ => .bind (.look _) fun last => completeIf_sparing hu i h last

/-- A packet received for a queued request is stored into the room left in its buffer (R102 to R104). -/
theorem readFifo_spares {i : Nat} {h : Handle} {s t : State} {b : Bool} (hq : h ∈ (s.ep i).queue)
    (hr : readFifo up i h s = .ok (b, t)) : Spares a s t := fun hs => by
  unfold readFifo at hr
  obtain ⟨wcnt, u, hcount, hr⟩ := bind_ok_iff.mp hr
  rw [regRead_bind_run, look_bind_run] at hr
  have hsu : Spares a s u ∧ SameRequests s u := by
    refine ⟨readWordCount_sparing i s wcnt u hcount, ?_⟩
    cases hcount
    exact .afterRead s _
  have hsame := SameRequests.trans _ _ _ hsu.2 (.afterRead u (.esr i))
  have havoids : ((u.afterRead (.esr i)).req h).avoids a := hsame.req h ▸ hs.queued i h hq
  refine Spares.trans _ _ _ (.trans _ _ _ hsu.1 (.afterRead u (.esr i))) ?_ hs
  refine Sparing.bind (recordOverflow_sparing h _) (fun _ => .bind (readWords_sparing i ?_ _ _) fun _ =>
    .bind (advance_sparing h _) fun _ => .bind (.look _) fun last => completeIf_sparing hu i h last) _ _ _ hr
  exact fun base hbase x hx => havoids.room_ne hbase (Nat.lt_of_lt_of_le hx (Nat.min_le_right _ _))

theorem start_sparing (i : Nat) : Sparing a (start up i) := fun s b t hr => by
  unfold start at hr
  rw [look_bind_run] at hr
  cases hq : (s.ep i).queue with
  | nil =>
    rw [hq] at hr
    exact Sparing.pure false s b t hr
  | cons h rest =>
    rw [hq] at hr
    obtain ⟨_, u, hrecord, hcounted⟩ := bind_ok_iff.mp hr
    obtain ⟨_, v, hcounts, hpacket⟩ := bind_ok_iff.mp hcounted
    obtain rfl := (needRecord_ok hrecord).1
    obtain rfl := (needCounts_ok hcounts).1
    rw [look_bind_run] at hpacket
    cases hd : v.epDir i with
    | IN =>
      rw [hd] at hpacket
      exact writeFifo_sparing hu i h v b t hpacket
    | OUT =>
      rw [hd] at hpacket
      exact readFifo_spares hu (by simp [hq]) hpacket

theorem tryStart_sparing (i : Nat) : Sparing a (tryStart up i) :=
  .bind (.look _) fun _ => .ite (.bind (canStart_sparing i) fun _ =>
    .ite (.bind (start_sparing hu i) fun _ => .pure _) (.pure _)) (.pure _)

theorem tryThen_sparing {α : Type} (i : Nat) (x : α) : Sparing a (tryStart up i >>= fun _ => (pure x : Proc α)) :=
  .bind (tryStart_sparing hu i) fun _ => .pure x

theorem resumeIn_sparing (i : Nat) : Sparing a (resumeIn up i) :=
  .bind (.look _) fun _ => .ite (tryThen_sparing hu i ()) (.pure ())

theorem enableRule_sparing (ep : BitVec 4) (addr : Word) : Sparing a (enableRule up ep addr) := by
  refine .bind (.look _) fun _ => .ite (.pure _) (.ite (.pure _) ?_)
  refine .bind (.of_eq fun _ _ _ hr => (memRead_ok hr).1) fun d => .bind (.look _) fun err => ?_
  cases err with
  | some e => exact .pure e
  | none => exact .bind (enableFields_sparing _ _) fun _ => .bind (resumeIn_sparing hu _) fun _ => .pure _

theorem shutDownEndpoint_sparing (i : Nat) : Sparing a (shutDownEndpoint up i) :=
  .bind (shutFields_sparing i) fun _ => nuke_sparing hu i _

theorem disableRule_sparing (ep : BitVec 4) : Sparing a (disableRule up ep) :=
  .bind (.look _) fun _ => .ite (.pure _) (.ite (.pure _)
    (.bind (shutFields_sparing _) fun _ => .bind (nuke_sparing hu _ _) fun _ => .pure _))

/-- QUEUE of a request whose buffer does not hold a (R111). -/
theorem queueRule_spares {i : Nat} {h : Handle} {s t : State} {st : Status} (hh : (s.req h).avoids a)
    (hr : queueRule up i h s = .ok (st, t)) : Spares a s t := by
  unfold queueRule at hr
  rw [look_bind_run] at hr
  cases he : queueError s i h with
  | some e =>
    rw [he] at hr
    exact Sparing.pure e s st t hr
  | none =>
    rw [he] at hr
    unfold beginRequest appendRequest at hr
    simp only [change_bind_run, look_bind_run, ite_run] at hr
    refine .trans _ _ _ (.setReq s h (f := Request.begun) (fun _ => rfl) fun _ => rfl) ?_
    have hh1 : ((s.setReq h Request.begun).req h).avoids a := avoids_setReq h (fun _ => rfl) (fun _ => rfl) hh
    split at hr
    · exact Sparing.bind (complete_sparing hu 0 h .ok) (fun _ => .pure _) _ _ _ hr
    · refine .trans _ _ _ (.append i hh1) ?_
      split at hr
      · exact tryThen_sparing hu i Status.ok _ _ _ hr
      · exact Sparing.pure _ _ _ _ hr

theorem dequeueCommand_sparing (ep : BitVec 4) (h : Word) : Sparing a (dequeueCommand up ep h) :=
  .bind (.look _) fun _ => .ite (.bind (.look _) fun _ => .ite (.pure _) (.bind (.look _) fun _ =>
    .ite (.bind (complete_sparing hu _ _ _) fun _ => .pure _) (.pure _))) (.refuse _)

theorem setHaltRule_sparing (i : Nat) (v : Bool) : Sparing a (setHaltRule up i v) := by
  refine .bind (.look _) fun err => ?_
  cases err with
  | some e => exact .pure e
  | none =>
    exact .bind (haltFields_sparing i v) fun _ => .ite (.pure _) (.bind (resumeIn_sparing hu i) fun _ => .pure _)

theorem bindRule_sparing (d : Word) : Sparing a (bindRule up d) := by
  refine .ite (.refuse _) (.bind topLevelOnly_sparing fun _ => .bind (.look _) fun b => ?_)
  cases b with
  | some x => exact .pure _
  | none => exact .bind (.change fun s => .setDev s _) fun _ => .bind (hu _) fun _ => .pure _

/-! ### Setup requests -/

theorem forwardRule_sparing (S : BitVec 64) : Sparing a (forwardRule up S) := by
  refine .bind (.look _) fun b => ?_
  cases b with
  | none => exact .pure _
  | some d => exact hu _

theorem getStatusRule_sparing (S : BitVec 64) : Sparing a (getStatusRule up S) := by
  refine .bind (.look _) fun reply => ?_
  cases reply with
  | none => exact forwardRule_sparing hu S
  | some v =>
    refine .bind (prepareStatus_sparing v _) fun _ => .bind (fun s _ t hr hs => ?_) fun _ => .pure _
    exact queueRule_spares hu (h := .statusReq) (Request.avoids_of_coreBytes hs.reply) hr hs

theorem featureRule_sparing (v : Bool) (S : BitVec 64) : Sparing a (featureRule up v S) :=
  .bind (.look _) fun _ => .ite (.bind (setHaltRule_sparing hu _ v) fun _ => .pure _) (forwardRule_sparing hu S)

theorem setAddressRule_sparing (S : BitVec 64) : Sparing a (setAddressRule up S) :=
  .ite (forwardRule_sparing hu S) (.bind (.change fun s => .setDev s _) fun _ => .pure _)

theorem setConfigurationRule_sparing (S : BitVec 64) : Sparing a (setConfigurationRule up S) := by
  refine .bind (.look _) fun _ => .ite (.pure _) (.bind (forwardRule_sparing hu S) fun r => .ite (.pure _) ?_)
  refine .bind (.bind (nuke_sparing hu 0 _) fun _ => .bind (.change fun s => .setDev s _) fun _ => ?_) fun _ => .pure _
  exact .ite (.bind (.look _) fun _ => .eachOf fun i => shutDownEndpoint_sparing hu i) (.pure ())

theorem dispatchRule_sparing (S : BitVec 64) (i : Instr) : Sparing a (dispatchRule up S i) := by
  cases i with
  | getStatus d r v x l => exact getStatusRule_sparing hu S
  | clearFeature d r v x l => exact featureRule_sparing hu false S
  | setFeature d r v x l => exact featureRule_sparing hu true S
  | setAddress d r v x l => exact setAddressRule_sparing hu S
  | setConfiguration v x l => exact setConfigurationRule_sparing hu S
  | _ => exact forwardRule_sparing hu S

theorem processSetup_sparing : Sparing a (processSetup up) := by
  refine .bind (nuke_sparing hu 0 _) fun _ => .bind clearSetupStall_sparing fun _ => ?_
  refine .bind (readWordCount_sparing 0) fun w => .bind (.regRead _) fun _ => .ite ?_ ?_
  · exact .bind (discardWords_sparing 0 w) fun _ => .bind (haltFields_sparing 0 true) fun _ => setCtl_sparing _
  · exact .bind readSetupPacket_sparing fun S => runSetup_sparing S (dispatchRule_sparing hu S _)

/-! ### Events and TASK -/

theorem notify_sparing (u : Upcall) : Sparing a (notify up u) := by
  refine .bind (.look _) fun b => ?_
  cases b with
  | none => exact .pure ()
  | some d => exact .bind (hu _) fun _ => .pure ()

theorem vbusOnRule_sparing : Sparing a (vbusOnRule up) :=
  .bind (.regWrite _ _) fun _ => .bind (.look _) fun _ =>
    .ite (.bind (.change fun s => .setDev s _) fun _ => notify_sparing hu _) (.pure ())

theorem vbusOffRule_sparing : Sparing a (vbusOffRule up) :=
  .bind (.regWrite _ _) fun _ => .bind (.change fun s => .setDev s _) fun _ => .bind (.look _) fun _ =>
    .bind (.eachOf shutFields_sparing) fun _ => .bind (.eachOf fun i => nuke_sparing hu i _) fun _ => notify_sparing hu _

theorem reinitAll_sparing (st : Status) : Sparing a (reinitAll up st) :=
  .bind (.look _) fun _ => .bind (.eachOf reinitFields_sparing) fun _ => .eachOf fun i => nuke_sparing hu i st

theorem resetRule_sparing : Sparing a (resetRule up) :=
  .bind (.regWrite _ _) fun _ => .bind (.change fun s => .setDev s _) fun _ => reinitAll_sparing hu _

theorem speedDoneRule_sparing (hs : Bool) : Sparing a (speedDoneRule up hs) :=
  .bind (.regWrite _ _) fun _ => .bind (.change fun s => .setDev s _) fun _ => reinitAll_sparing hu _

theorem stallSentRule_sparing (i : Nat) : Sparing a (stallSentRule up i) :=
  .ite (.bind (.regWrite _ _) fun _ => .bind (haltFields_sparing 0 false) fun _ =>
    .bind (nuke_sparing hu 0 _) fun _ => setCtl_sparing _) (.regWrite _ _)

theorem service_sparing (i : Nat) (p : Bool) : Sparing a (service up i p) :=
  .bind (tryStart_sparing hu i) fun _ => .ite (.ite (tryThen_sparing hu i ()) (.pure ())) (.pure ())

theorem txDoneRule_sparing (i : Nat) (p : Bool) : Sparing a (txDoneRule up i p) := by
  refine .ite (.bind (.regWrite _ _) fun _ => .bind (.look _) fun _ => .ite (tryThen_sparing hu 0 ()) (.pure ())) ?_
  refine .bind (.look _) fun d => ?_
  cases d with
  | IN => exact .bind (.regWrite _ _) fun _ => service_sparing hu i p
  | OUT => exact .regWrite _ _

theorem rxReadyRule_sparing (i : Nat) (p : Bool) : Sparing a (rxReadyRule up i p) := by
  refine .ite (.bind (.look _) fun _ => .ite (tryThen_sparing hu 0 ()) (processSetup_sparing hu)) (.bind (.look _) fun d => ?_)
  cases d with
  | IN => exact .pure ()
  | OUT => exact service_sparing hu i p

theorem eventRule_sparing (i : Instr) : Sparing a (eventRule up i) := by
  cases i with
  | vbusOn => exact vbusOnRule_sparing hu
  | reset => exact resetRule_sparing hu
  | speedDone hs => exact speedDoneRule_sparing hu hs
  | suspend | resume | error => exact .regWrite _ _
  | vbusOff => exact vbusOffRule_sparing hu
  | stallSent ep => exact ifServed_sparing _ (stallSentRule_sparing hu _)
  | flushReq ep => exact ifServed_sparing _ (flushReqRule_sparing _)
  | txDone ep p => exact ifServed_sparing _ (txDoneRule_sparing hu _ p)
  | rxReady ep p => exact ifServed_sparing _ (rxReadyRule_sparing hu _ p)
  | _ => exact .pure ()

theorem endpointTurn_sparing (i : Nat) : Sparing a (endpointTurn up i) :=
  .bind (.regWrite _ _) fun _ => ifServed_sparing i
    (.bind (.regRead _) fun _ => .bind (.look _) fun _ => .eachOf (eventRule_sparing hu))

theorem taskRule_sparing : Sparing a (taskRule up) := by
  refine .bind topLevelOnly_sparing fun _ => .bind (.regRead _) fun _ => .bind (.regRead _) fun _ => ?_
  refine .bind (.regRead _) fun _ => .bind (.look _) fun _ => .ite (.pure _) (.bind ?_ fun _ => .pure _)
  exact .bind (.eachOf (eventRule_sparing hu)) fun _ => .bind (.look _) fun _ =>
    .eachOf fun i => .ite (endpointTurn_sparing hu i) (.pure ())

end rules

end Sys2Proof.Machine
end

section
/-! PROOF. Instructions store only in the buffers of queued requests (R53). -/

namespace Sys2Proof.Machine

section
variable {a : Nat} {s t : State}

theorem Spares.ofHandler {α : Type} {p : Upcalls → Proc α} (i : Instr)
    (hp : ∀ up, (∀ u, Sparing a (up u)) → Sparing a (p up))
    (h : outcome (withUpcalls fun up => inCommand i (p up)) s = .next t) : Spares a s t :=
  ofPlain (withUpcalls_sparing fun up hu => .inCommand (hp up hu)) h

theorem Spares.ofCommand {p : Upcalls → Proc Status} (i : Instr) (hp : ∀ up, (∀ u, Sparing a (up u)) → Sparing a (p up))
    (h : outcome (withUpcalls fun up => command i (p up)) s = .next t) : Spares a s t :=
  ofPlain (withUpcalls_sparing fun up hu => command_sparing i (hp up hu)) h

theorem Spares.ofSetup {b : Upcalls → BitVec 64 → Proc Word} (i : Instr)
    (hb : ∀ up, (∀ u, Sparing a (up u)) → ∀ S, Sparing a (b up S)) (h : execSetup i b s = .next t) : Spares a s t :=
  .ofHandler i (fun up hu => runSetup_sparing _ (hb up hu _)) h

theorem execQueue_spares {ep : BitVec 4} {k : Word} (hk : (s.req (.user k)).avoids a) (h : execQueue ep k s = .next t) :
    Spares a s t := by
  obtain ⟨_, hr⟩ := outcome_next_iff.mp h
  obtain ⟨st, u, hrule, hreturn⟩ := bind_ok_iff.mp hr
  have hrule := inCommand_ok_iff.mp hrule
  unfold queueCommand withRequest at hrule
  rw [look_bind_run, ite_run] at hrule
  split at hrule
  · refine .trans _ _ _ (queueRule_spares (upcalls_sparing _) hk hrule) ?_
    cases hreturn
    exact .same rfl rfl rfl rfl rfl
  · cases hrule

/-- Every instruction spares a byte outside the buffers of the queued requests and of the request it queues. -/
theorem exec_spares {i : Instr} (hq : ∀ ep k, i = .queue ep k → (s.req (.user k)).avoids a) (h : exec i s = .next t) :
    Spares a s t := by
  cases i with
  | task => exact .ofCommand _ (fun _ hu => taskRule_sparing hu) h
  | bind d => exact .ofCommand _ (fun _ hu => bindRule_sparing hu d) h
  | enable ep x => exact .ofCommand _ (fun _ hu => enableRule_sparing hu ep x) h
  | disable ep => exact .ofCommand _ (fun _ hu => disableRule_sparing hu ep) h
  | queue ep k => exact execQueue_spares (hq ep k rfl) h
  | dequeue ep k => exact .ofCommand _ (fun _ hu => dequeueCommand_sparing hu ep k) h
  | setHalt ep v => exact .ofCommand _ (fun _ hu => setHaltRule_sparing hu _ v) h
  | fifoFlush ep => exact ofPlain (command_sparing _ (fifoFlushRule_sparing ep)) h
  | reservedCmd c x => cases h
  | getStatus d r v x l => exact .ofSetup _ (fun _ hu S => getStatusRule_sparing hu S) h
  | clearFeature d r v x l => exact .ofSetup _ (fun _ hu S => featureRule_sparing hu false S) h
  | setFeature d r v x l => exact .ofSetup _ (fun _ hu S => featureRule_sparing hu true S) h
  | setAddress d r v x l => exact .ofSetup _ (fun _ hu S => setAddressRule_sparing hu S) h
  | setConfiguration v x l => exact .ofSetup _ (fun _ hu S => setConfigurationRule_sparing hu S) h
  | getDescriptor d r v x l => exact .ofSetup _ (fun _ hu S => forwardRule_sparing hu S) h
  | forward S => exact .ofSetup _ (fun _ hu S => forwardRule_sparing hu S) h
  | vbusOn => exact .ofHandler _ (fun _ hu => vbusOnRule_sparing hu) h
  | reset => exact .ofHandler _ (fun _ hu => resetRule_sparing hu) h
  | speedDone hs => exact .ofHandler _ (fun _ hu => speedDoneRule_sparing hu hs) h
  | suspend => exact ofPlain (Sparing.regWrite _ _) h
  | resume => exact ofPlain (Sparing.regWrite _ _) h
  | error => exact ofPlain (Sparing.regWrite _ _) h
  | vbusOff => exact .ofHandler _ (fun _ hu => vbusOffRule_sparing hu) h
  | stallSent ep => exact .ofHandler _ (fun _ hu => ifServed_sparing _ (stallSentRule_sparing hu _)) h
  | flushReq ep => exact ofPlain (ifServed_sparing _ (flushReqRule_sparing _)) h
  | txDone ep p => exact .ofHandler _ (fun _ hu => ifServed_sparing _ (txDoneRule_sparing hu _ p)) h
  | rxReady ep p => exact .ofHandler _ (fun _ hu => ifServed_sparing _ (rxReadyRule_sparing hu _ p)) h

end

/-- Settles O52: such a byte is spared in the start state, and every instruction spares it. -/
theorem memoryChangesOnlyInBuffers : Obligations.MemoryChangesOnlyInBuffers := by
  unfold Obligations.MemoryChangesOnlyInBuffers
  intro i s t a hs hidle h hout
  have hspared : s.Spared a := ⟨hs.memory, hidle, hs.requests.reply.buf, fun j k hk base => hout k base (.inl ⟨j, hk⟩)⟩
  exact (exec_spares (fun ep k hi base => hout (.user k) base (.inr ⟨ep, k, hi, rfl⟩)) h hspared).2

end Sys2Proof.Machine
end

section
/-! SUPPORT. Which rules store nothing in system memory with a class driver that takes no action: all but those that may receive
a packet.  The only stores are those of READ_FIFO (R102), and START runs it on an OUT endpoint only (R97). -/

namespace Sys2Proof.Machine

/-- The class driver answers every upcall to come without an action. -/
def State.Idle (s : State) : Prop := ∀ r ∈ s.driverScript, r.actions = []

/-- With a class driver that takes no action system memory stays, and so does the configuration. -/
def StoresNothing (s t : State) : Prop := s.Idle → t.Idle ∧ t.mem = s.mem ∧ t.cfg = s.cfg

theorem StoresNothing.refl (s : State) : StoresNothing s s := fun h => ⟨h, rfl, rfl⟩

theorem StoresNothing.trans (s t u : State) (h1 : StoresNothing s t) (h2 : StoresNothing t u) : StoresNothing s u := fun h => by
  obtain ⟨ht, hmem, hcfg⟩ := h1 h
  obtain ⟨hu, hmem', hcfg'⟩ := h2 ht
  exact ⟨hu, hmem'.trans hmem, hcfg'.trans hcfg⟩

/-- An update of other fields. -/
theorem StoresNothing.of_eq {s t : State} (mem : t.mem = s.mem) (script : t.driverScript = s.driverScript)
    (cfg : t.cfg = s.cfg) : StoresNothing s t := fun h => ⟨by rwa [State.Idle, script], mem, cfg⟩

theorem StoresNothing.setEp (s : State) (i : Nat) (f : Endpoint → Endpoint) : StoresNothing s (s.setEp i f) := .of_eq rfl rfl rfl

theorem StoresNothing.setDev (s : State) (f : Device → Device) : StoresNothing s (s.setDev f) := .of_eq rfl rfl rfl

theorem StoresNothing.setReq (s : State) (h : Handle) (f : Request → Request) : StoresNothing s (s.setReq h f) :=
  .of_eq (by simp) (by simp) (by simp)

theorem StoresNothing.afterResponse (s : State) : StoresNothing s s.afterResponse :=
  fun h => ⟨fun r hr => h r (List.tail_subset _ (afterResponse_driverScript s ▸ hr)), by simp, by simp⟩

theorem StoresNothing.completed (s : State) (i : Nat) (h : Handle) (st : Status) : StoresNothing s (s.completed i h st) := by
  have h2 := StoresNothing.trans _ _ _ (.setEp s i fun e => { e with queue := e.queue.erase h })
    (.setReq _ h (Request.completed st))
  unfold State.completed
  split
  · exact .trans _ _ _ h2 (.setDev _ _)
  · exact h2

theorem State.Idle.nextResponse {s : State} (h : s.Idle) : s.nextResponse.actions = [] := by
  unfold State.nextResponse
  cases hd : s.driverScript with
  | nil => rfl
  | cons r rest => exact h r (by simp [hd])

/-- The direction of an endpoint is read off the configuration and the sub-state (R27, R28). -/
theorem epDir_eq_of_eq {s t : State} (cfg : t.cfg = s.cfg) (dev : t.dev = s.dev) (i : Nat) : t.epDir i = s.epDir i := by
  rw [State.epDir, State.epDir, cfg, dev]

theorem epDir_data {s : State} {i : Nat} (hi : i ≠ 0) : s.epDir i = Config.dirOf s.cfg i := if_neg hi

/-! ### Procedures -/

/-- No completed run of p stores to system memory with a class driver that takes no action. -/
def Storeless {α : Type} (p : Proc α) : Prop := Within StoresNothing p

section
variable {α β : Type}

theorem Storeless.bind {p : Proc α} {f : α → Proc β} (hp : Storeless p) (hf : ∀ x, Storeless (f x)) : Storeless (p >>= f) :=
  Within.bind StoresNothing.trans hp hf

theorem Storeless.pure (x : α) : Storeless (pure x : Proc α) := Within.pure .refl x

theorem Storeless.look (f : State → α) : Storeless (look f) := Within.look .refl f

theorem Storeless.refuse (r : Refusal) : Storeless (refuse r : Proc α) := Within.refuse r

theorem Storeless.change {f : State → State} (hf : ∀ s, StoresNothing s (f s)) : Storeless (change f) := Within.change hf

theorem Storeless.ite {c : Prop} [Decidable c] {p q : Proc α} (hp : Storeless p) (hq : Storeless q) :
    Storeless (if c then p else q) := Within.ite (fun _ => hp) fun _ => hq

theorem Storeless.onlyIf {c : Bool} {p : Proc Unit} (hp : Storeless p) : Storeless (onlyIf c p) :=
  Within.onlyIf .refl fun _ => hp

theorem Storeless.eachOf {f : α → Proc Unit} {l : List α} (hf : ∀ x, Storeless (f x)) : Storeless (eachOf f l) :=
  Within.eachOf .refl .trans fun x _ => hf x

/-- A procedure that completes only where it started. -/
theorem Storeless.of_eq {p : Proc α} (hp : ∀ s x t, p s = .ok (x, t) → t = s) : Storeless p := fun s x t h =>
  (hp s x t h).symm ▸ .refl s

theorem Storeless.regRead (r : Reg) : Storeless (regRead r) := fun s _ _ h => by
  cases h
  exact .of_eq (by simp) (by simp) (by simp)

theorem Storeless.regWrite (r : Reg) (v : Word) : Storeless (regWrite r v) := fun s _ _ h => by
  cases h
  exact .of_eq (by simp) (by simp) (by simp)

end

/-! ### Register accesses and fields -/

theorem haltFields_storeless (i : Nat) (v : Bool) : Storeless (haltFields i v) :=
  .bind (.ite (.bind (.regRead _) fun _ => .regWrite _ _) (.bind (.regRead _) fun _ => .regWrite _ _)) fun _ =>
    .change fun s => .setEp s i _

theorem shutFields_storeless (i : Nat) : Storeless (shutFields i) :=
  .bind (.bind (.regRead _) fun _ => .regWrite _ _) fun _ => .change fun s => .setEp s i _

theorem enableFields_storeless (i : Nat) (size : BitVec 11) : Storeless (enableFields i size) :=
  .bind (.look _) fun _ => .bind (.regWrite _ _) fun _ => .bind (.regWrite _ _) fun _ =>
    .bind (.change fun s => .setEp s i _) fun _ => .bind (.regRead _) fun _ => .regWrite _ _

theorem reinitFields_storeless (i : Nat) : Storeless (reinitFields i) :=
  .ite (.bind (.change fun s => .setEp s 0 _) fun _ => .bind (.regWrite _ _) fun _ => .bind (.look _) fun _ => .regWrite _ _)
    (.bind (.change fun s => .setEp s i _) fun _ => .bind (.bind (.regRead _) fun _ => .regWrite _ _) fun _ =>
      .bind (.regWrite _ _) fun _ => .bind (.look _) fun _ => .regWrite _ _)

theorem setCtl_storeless (c : Ctl) : Storeless (setCtl c) := .change fun s => .setDev s _

theorem discardWords_storeless (i n : Nat) : Storeless (discardWords i n) := by
  induction n with
  | zero => exact .pure ()
  | succ n ih => exact .bind (.regRead _) fun _ => ih

theorem drainPackets_storeless (i p : Nat) : Storeless (drainPackets i p) := by
  induction p with
  | zero => exact .pure ()
  | succ p ih =>
    exact .bind (.bind (.regRead _) fun _ => .pure _) fun w => .bind (discardWords_storeless i w) fun _ => ih

theorem flushOut_storeless (i : Nat) : Storeless (flushOut i) := .bind (.regRead _) fun _ => drainPackets_storeless i _

theorem fifoFlushRule_storeless (ep : BitVec 4) : Storeless (fifoFlushRule ep) := by
  refine .bind (.look _) fun _ => .ite (.pure _) (.bind (.look _) fun d => ?_)
  cases d with
  | IN => exact .bind (.bind (.regRead _) fun _ => .regWrite _ _) fun _ => .pure _
  | OUT => exact .bind (flushOut_storeless _) fun _ => .pure _

theorem writeWords_storeless (i : Nat) (l : List Byte) : Storeless (writeWords i l) := by
  induction l using writeWords.induct with
  | case1 => exact .pure ()
  | case2 lo => exact .regWrite _ _
  | case3 lo hi rest ih => exact .bind (.regWrite _ _) fun _ => ih

theorem command_storeless (i : Instr) {p : Proc Status} (hp : Storeless p) : Storeless (command i p) :=
  .bind (Within.inCommand hp) fun _ => .change fun _ => .of_eq rfl rfl rfl

theorem ifServed_storeless (i : Nat) {p : Proc Unit} (hp : Storeless p) : Storeless (ifServed i p) :=
  .bind (.look _) fun _ => .ite hp (.pure ())

theorem flushReqRule_storeless (i : Nat) : Storeless (flushReqRule i) := by
  refine .ite (.regWrite _ _) (.bind (.look _) fun d => ?_)
  cases d with
  | IN => exact .regWrite _ _
  | OUT => exact .bind (.regWrite _ _) fun _ => flushOut_storeless i

theorem finishSetup_storeless (S : BitVec 64) (ret : Word) : Storeless (finishSetup S ret) :=
  .ite (.bind (haltFields_storeless 0 true) fun _ => setCtl_storeless _) (.ite (setCtl_storeless _) (.pure ()))

/-! ### Upcalls -/

/-- The class driver answers without an action, so nothing is stored in an upcall. -/
theorem upcallWith_storeless (act : DriverAction → Proc Unit) (u : Upcall) : Storeless (upcallWith act u) := fun s w t h hs => by
  have hnone : (s.enterUpcall u).nextResponse.actions = [] := hs.nextResponse
  unfold upcallWith at h
  simp only [change_bind_run, look_bind_run, hnone, eachOf_nil, pure_bind_run] at h
  cases h
  exact StoresNothing.trans s (s.enterUpcall u) _ (.of_eq rfl rfl rfl)
    (.trans _ _ _ (.afterResponse _) (.of_eq rfl rfl rfl)) hs

theorem upcalls_storeless (n : Nat) (u : Upcall) : Storeless (upcalls n u) := by
  cases n with
  | zero => exact upcallWith_storeless _ u
  | succ n => exact upcallWith_storeless _ u

theorem withUpcalls_storeless {α : Type} {p : Upcalls → Proc α} (hp : ∀ up, (∀ u, Storeless (up u)) → Storeless (p up)) :
    Storeless (withUpcalls p) := fun s => hp _ (upcalls_storeless _) s

/-! ### The rules, given that upcalls store nothing -/

section rules
variable {up : Upcalls} (hu : ∀ u, Storeless (up u))
include hu

theorem complete_storeless (i : Nat) (h : Handle) (st : Status) : Storeless (complete up i h st) := by
  refine .bind (.change fun s => .completed s i h st) fun _ => .bind (.look _) fun cb => ?_
  cases cb with
  | none => exact .pure ()
  | some c => exact .bind (hu _) fun _ => .pure ()

theorem nuke_storeless (i : Nat) (st : Status) : Storeless (nuke up i st) :=
  .bind (.look _) fun _ => .bind (.change fun s => .setEp s i _) fun _ => .eachOf fun x =>
    .bind (.of_eq fun _ _ _ hr => (needRecord_ok hr).1) fun _ => .bind (.look _) fun _ => .onlyIf (complete_storeless hu i x.1 st)

theorem writeFifo_storeless (i : Nat) (h : Handle) : Storeless (writeFifo up i h) := by
  refine .bind (.look _) fun n => .bind (.regWrite _ _) fun _ => .bind (.look _) fun r => ?_
  refine .bind (.of_eq fun _ _ _ => bufRead_ok) fun bytes => .bind (writeWords_storeless i bytes) fun _ => ?_
  refine .bind (.change fun s => .setReq s h _) fun _ => .bind (.look _) fun last => ?_
  exact .ite (.bind (complete_storeless hu i h .ok) fun _ => .pure _) (.pure _)

omit hu in
/-- CAN_START reads `ESR[i]`, or nothing (R96). -/
theorem canStart_ok {i : Nat} {s t : State} {b : Bool} (hr : canStart i s = .ok (b, t)) : t = s ∨ t = s.afterRead (.esr i) := by
  unfold canStart at hr
  rw [look_bind_run, ite_run] at hr
  split at hr
  · cases hr
    exact .inr rfl
  · cases hr
    exact .inl rfl

/-- START sends a packet on an IN endpoint (R97). -/
theorem start_storesNothing {i : Nat} {s t : State} {b : Bool} (hd : s.epDir i = .IN) (hr : start up i s = .ok (b, t)) :
    StoresNothing s t := by
  unfold start at hr
  rw [look_bind_run] at hr
  cases hq : (s.ep i).queue with
  | nil =>
    rw [hq] at hr
    exact Storeless.pure false s b t hr
  | cons h rest =>
    rw [hq] at hr
    obtain ⟨_, u, hrecord, hcounted⟩ := bind_ok_iff.mp hr
    obtain ⟨_, v, hcounts, hpacket⟩ := bind_ok_iff.mp hcounted
    obtain rfl := (needRecord_ok hrecord).1
    obtain rfl := (needCounts_ok hcounts).1
    rw [look_bind_run, hd] at hpacket
    exact writeFifo_storeless hu i h v b t hpacket

theorem tryStart_storesNothing {i : Nat} {s t : State} {b : Bool} (hd : s.epDir i = .IN)
    (hr : tryStart up i s = .ok (b, t)) : StoresNothing s t := by
  unfold tryStart at hr
  rw [look_bind_run, ite_run] at hr
  split at hr
  · obtain ⟨c, u, hcan, hr⟩ := bind_ok_iff.mp hr
    have hu' : StoresNothing s u ∧ u.epDir i = .IN := by
      rcases canStart_ok hcan with rfl | rfl
      · exact ⟨.refl _, hd⟩
      · exact ⟨.of_eq (by simp) (by simp) (by simp), (epDir_eq_of_eq (by simp) (by simp) i).trans hd⟩
    refine .trans _ _ _ hu'.1 ?_
    rw [ite_run] at hr
    split at hr
    · obtain ⟨_, v, hstart, hr⟩ := bind_ok_iff.mp hr
      cases hr
      exact start_storesNothing hu hu'.2 hstart
    · exact Storeless.pure _ _ _ _ hr
  · exact Storeless.pure _ _ _ _ hr

/-- A transfer tried on an IN endpoint, its answer dropped. -/
theorem tryThen_storesNothing {α : Type} {i : Nat} {s t : State} {x y : α} (hd : s.epDir i = .IN)
    (hr : (tryStart up i >>= fun _ => (pure x : Proc α)) s = .ok (y, t)) : StoresNothing s t := by
  obtain ⟨_, u, htry, hr⟩ := bind_ok_iff.mp hr
  cases hr
  exact tryStart_storesNothing hu hd htry

theorem resumeIn_storeless (i : Nat) : Storeless (resumeIn up i) := fun s b t hr => by
  unfold resumeIn at hr
  rw [look_bind_run, ite_run] at hr
  split at hr
  · exact tryThen_storesNothing hu (of_decide_eq_true ‹_›) hr
  · exact Storeless.pure () _ _ _ hr

/-! ### Commands -/

theorem enableRule_storeless (ep : BitVec 4) (addr : Word) : Storeless (enableRule up ep addr) := by
  refine .bind (.look _) fun _ => .ite (.pure _) (.ite (.pure _) ?_)
  refine .bind (.of_eq fun _ _ _ hr => (memRead_ok hr).1) fun d => .bind (.look _) fun err => ?_
  cases err with
  | some e => exact .pure e
  | none => exact .bind (enableFields_storeless _ _) fun _ => .bind (resumeIn_storeless hu _) fun _ => .pure _

theorem shutDownEndpoint_storeless (i : Nat) : Storeless (shutDownEndpoint up i) :=
  .bind (shutFields_storeless i) fun _ => nuke_storeless hu i _

theorem disableRule_storeless (ep : BitVec 4) : Storeless (disableRule up ep) :=
  .bind (.look _) fun _ => .ite (.pure _) (.ite (.pure _)
    (.bind (shutFields_storeless _) fun _ => .bind (nuke_storeless hu _ _) fun _ => .pure _))

theorem dequeueCommand_storeless (ep : BitVec 4) (h : Word) : Storeless (dequeueCommand up ep h) :=
  .bind (.look _) fun _ => .ite (.bind (.look _) fun _ => .ite (.pure _) (.bind (.look _) fun _ =>
    .ite (.bind (complete_storeless hu _ _ _) fun _ => .pure _) (.pure _))) (.refuse _)

theorem setHaltRule_storeless (i : Nat) (v : Bool) : Storeless (setHaltRule up i v) := by
  refine .bind (.look _) fun err => ?_
  cases err with
  | some e => exact .pure e
  | none =>
    exact .bind (haltFields_storeless i v) fun _ => .ite (.pure _) (.bind (resumeIn_storeless hu i) fun _ => .pure _)

theorem bindRule_storeless (d : Word) : Storeless (bindRule up d) := by
  refine .ite (.refuse _) (.bind (.bind (.look _) fun _ => .ite (.refuse _) (.pure _)) fun _ => .bind (.look _) fun b => ?_)
  cases b with
  | some x => exact .pure _
  | none => exact .bind (.change fun s => .setDev s _) fun _ => .bind (hu _) fun _ => .pure _

/-- QUEUE on an IN endpoint (R111). -/
theorem queueRule_storesNothing {i : Nat} {h : Handle} {s t : State} {st : Status} (hd : s.epDir i = .IN)
    (hr : queueRule up i h s = .ok (st, t)) : StoresNothing s t := by
  unfold queueRule at hr
  rw [look_bind_run] at hr
  cases he : queueError s i h with
  | some e =>
    rw [he] at hr
    exact Storeless.pure e s st t hr
  | none =>
    rw [he] at hr
    unfold beginRequest appendRequest at hr
    simp only [change_bind_run, look_bind_run, ite_run] at hr
    refine .trans _ _ _ (.setReq s h Request.begun) ?_
    split at hr
    · exact Storeless.bind (complete_storeless hu 0 h .ok) (fun _ => .pure _) _ _ _ hr
    · refine .trans _ _ _ (.trans _ _ _ (.setEp _ i fun e => { e with queue := e.queue ++ [h] })
        (.setReq _ h fun r => { r with queuedOn := some i })) ?_
      split at hr
      · exact tryThen_storesNothing hu ((epDir_eq_of_eq (by simp) (by simp) i).trans hd) hr
      · exact Storeless.pure _ _ _ _ hr

/-! ### Setup requests -/

theorem forwardRule_storeless (S : BitVec 64) : Storeless (forwardRule up S) := by
  refine .bind (.look _) fun b => ?_
  cases b with
  | none => exact .pure _
  | some d => exact hu _

/-- GET_STATUS queues its reply for a device-to-host request, whose sub-state is XMIT (R140, R143). -/
theorem getStatusRule_storesNothing {S : BitVec 64} {s t : State} {w : Word} (hx : setupDirIn S = true → s.dev.ctl = .xmit)
    (hr : getStatusRule up S s = .ok (w, t)) : StoresNothing s t := by
  unfold getStatusRule at hr
  rw [look_bind_run] at hr
  cases hreply : statusReply s S with
  | none =>
    rw [hreply] at hr
    exact forwardRule_storeless hu S _ _ _ hr
  | some v =>
    rw [hreply] at hr
    have hin : setupDirIn S = true := by
      by_contra hn
      simp [statusReply, hn] at hreply
    unfold prepareStatus at hr
    simp only [change_bind_run] at hr
    obtain ⟨_, u, hqueue, hr⟩ := bind_ok_iff.mp hr
    cases hr
    refine .trans _ _ _ ?_ (queueRule_storesNothing hu ?_ hqueue)
    · exact .of_eq rfl rfl rfl
    · simp [State.epDir, hx hin]

theorem featureRule_storeless (v : Bool) (S : BitVec 64) : Storeless (featureRule up v S) :=
  .bind (.look _) fun _ => .ite (.bind (setHaltRule_storeless hu _ v) fun _ => .pure _) (forwardRule_storeless hu S)

theorem setAddressRule_storeless (S : BitVec 64) : Storeless (setAddressRule up S) :=
  .ite (forwardRule_storeless hu S) (.bind (.change fun s => .setDev s _) fun _ => .pure _)

theorem setConfigurationRule_storeless (S : BitVec 64) : Storeless (setConfigurationRule up S) := by
  refine .bind (.look _) fun _ => .ite (.pure _) (.bind (forwardRule_storeless hu S) fun r => .ite (.pure _) ?_)
  refine .bind (.bind (nuke_storeless hu 0 _) fun _ => .bind (.change fun s => .setDev s _) fun _ => ?_) fun _ => .pure _
  exact .ite (.bind (.look _) fun _ => .eachOf fun i => shutDownEndpoint_storeless hu i) (.pure ())

omit hu in
/-- The branch of the dispatcher runs with the sub-state of the packet's direction (R140). -/
theorem runSetup_storeless {S : BitVec 64} {p : Proc Word}
    (hp : ∀ s w t, (setupDirIn S = true → s.dev.ctl = .xmit) → p s = .ok (w, t) → StoresNothing s t) :
    Storeless (runSetup S p) := fun s _ t hr => by
  unfold runSetup setCtl at hr
  rw [change_bind_run] at hr
  obtain ⟨ret, u, hdispatch, hr⟩ := bind_ok_iff.mp hr
  refine .trans _ _ _ (.setDev s _) (.trans _ _ _ (hp _ ret u (fun hin => ?_) hdispatch) (finishSetup_storeless S ret _ _ _ hr))
  simp [hin]

/-! ### Events -/

theorem notify_storeless (u : Upcall) : Storeless (notify up u) := by
  refine .bind (.look _) fun b => ?_
  cases b with
  | none => exact .pure ()
  | some d => exact .bind (hu _) fun _ => .pure ()

theorem vbusOnRule_storeless : Storeless (vbusOnRule up) :=
  .bind (.regWrite _ _) fun _ => .bind (.look _) fun _ =>
    .ite (.bind (.change fun s => .setDev s _) fun _ => notify_storeless hu _) (.pure ())

theorem vbusOffRule_storeless : Storeless (vbusOffRule up) :=
  .bind (.regWrite _ _) fun _ => .bind (.change fun s => .setDev s _) fun _ => .bind (.look _) fun _ =>
    .bind (.eachOf shutFields_storeless) fun _ => .bind (.eachOf fun i => nuke_storeless hu i _) fun _ => notify_storeless hu _

/-- RESET and SPEED_DONE: a device event that is acknowledged, changes the device's fields and re-initializes every endpoint
(R122, R123). -/
theorem reinitEvent_storeless (k : Nat) (f : Device → Device) (st : Status) :
    Storeless (ackSystem k >>= fun _ => (change fun s => s.setDev f) >>= fun _ => reinitAll up st) :=
  .bind (.regWrite _ _) fun _ => .bind (.change fun s => .setDev s _) fun _ =>
    .bind (.look _) fun _ => .bind (.eachOf reinitFields_storeless) fun _ => .eachOf fun i => nuke_storeless hu i st

theorem stallSentRule_storeless (i : Nat) : Storeless (stallSentRule up i) :=
  .ite (.bind (.regWrite _ _) fun _ => .bind (haltFields_storeless 0 false) fun _ =>
    .bind (nuke_storeless hu 0 _) fun _ => setCtl_storeless _) (.regWrite _ _)

/-- The service of a data IN endpoint, TWO_PACKET included (R107, R155). -/
theorem service_storesNothing {i : Nat} {p : Bool} {s t : State} {b : Unit} (hi : i ≠ 0) (hd : Config.dirOf s.cfg i = .IN)
    (hr : service up i p s = .ok (b, t)) : StoresNothing s t := fun hs => by
  unfold service at hr
  obtain ⟨started, u, htry, hr⟩ := bind_ok_iff.mp hr
  have hsu : StoresNothing s u := tryStart_storesNothing hu ((epDir_data hi).trans hd) htry
  have hdu : u.epDir i = .IN := by rw [epDir_data hi, (hsu hs).2.2, hd]
  refine StoresNothing.trans _ _ _ hsu ?_ hs
  unfold twoPacket at hr
  simp only [ite_run] at hr
  split at hr
  · split at hr
    · exact tryThen_storesNothing hu hdu hr
    · exact Storeless.pure () _ _ _ hr
  · exact Storeless.pure () _ _ _ hr

theorem txDoneRule_storeless (i : Nat) (p : Bool) : Storeless (txDoneRule up i p) := by
  refine Within.ite (fun _ => ?_) fun hi => ?_
  · refine Storeless.bind (.regWrite _ _) fun _ => fun s b t hr => ?_
    rw [look_bind_run, ite_run] at hr
    split at hr
    · have hx : s.dev.ctl = .xmit := of_decide_eq_true ‹_›
      exact tryThen_storesNothing hu (by simp [State.epDir, hx]) hr
    · exact Storeless.pure () _ _ _ hr
  · intro s b t hr
    rw [look_bind_run] at hr
    cases hd : s.epDir i with
    | IN =>
      simp only [hd, ackEndpoint, regWrite_bind_run] at hr
      refine .trans _ _ _ (Storeless.regWrite (.esr i) (bitAt 1 true) s () _ rfl) (service_storesNothing hu hi ?_ hr)
      rw [afterWrite_cfg, ← epDir_data hi, hd]
    | OUT =>
      rw [hd] at hr
      exact Storeless.regWrite _ _ _ _ _ hr

end rules

end Sys2Proof.Machine
end

section
/-! PROOF. Only TASK, QUEUE and RX_READY store to memory (R51, R63). -/

namespace Sys2Proof.Machine

section
variable {s t : State}

theorem StoresNothing.ofHandler {α : Type} {p : Upcalls → Proc α} (i : Instr)
    (hp : ∀ up, (∀ u, Storeless (up u)) → Storeless (p up))
    (h : outcome (withUpcalls fun up => inCommand i (p up)) s = .next t) : StoresNothing s t :=
  ofPlain (withUpcalls_storeless fun up hu => Within.inCommand (hp up hu)) h

theorem StoresNothing.ofCommand {p : Upcalls → Proc Status} (i : Instr) (hp : ∀ up, (∀ u, Storeless (up u)) → Storeless (p up))
    (h : outcome (withUpcalls fun up => command i (p up)) s = .next t) : StoresNothing s t :=
  ofPlain (withUpcalls_storeless fun up hu => command_storeless i (hp up hu)) h

theorem StoresNothing.ofSetup {b : Upcalls → BitVec 64 → Proc Word} (i : Instr)
    (hb : ∀ up, (∀ u, Storeless (up u)) → ∀ S, Storeless (b up S)) (h : execSetup i b s = .next t) : StoresNothing s t :=
  .ofHandler i (fun up hu => runSetup_storeless fun u w v _ => hb up hu _ u w v) h

/-- Every instruction but TASK, QUEUE and RX_READY stores nothing. -/
theorem exec_storesNothing {i : Instr} (htask : i ≠ .task) (hqueue : ∀ ep h, i ≠ .queue ep h)
    (hrx : ∀ ep p, i ≠ .rxReady ep p) (h : exec i s = .next t) : StoresNothing s t := by
  cases i with
  | task => exact absurd rfl htask
  | bind d => exact .ofCommand _ (fun _ hu => bindRule_storeless hu d) h
  | enable ep x => exact .ofCommand _ (fun _ hu => enableRule_storeless hu ep x) h
  | disable ep => exact .ofCommand _ (fun _ hu => disableRule_storeless hu ep) h
  | queue ep k => exact absurd rfl (hqueue ep k)
  | dequeue ep k => exact .ofCommand _ (fun _ hu => dequeueCommand_storeless hu ep k) h
  | setHalt ep v => exact .ofCommand _ (fun _ hu => setHaltRule_storeless hu _ v) h
  | fifoFlush ep => exact ofPlain (command_storeless _ (fifoFlushRule_storeless ep)) h
  | reservedCmd c x => cases h
  | getStatus d r v x l =>
    exact .ofHandler _ (fun _ hu => runSetup_storeless fun _ _ _ hx => getStatusRule_storesNothing hu hx) h
  | clearFeature d r v x l => exact .ofSetup _ (fun _ hu S => featureRule_storeless hu false S) h
  | setFeature d r v x l => exact .ofSetup _ (fun _ hu S => featureRule_storeless hu true S) h
  | setAddress d r v x l => exact .ofSetup _ (fun _ hu S => setAddressRule_storeless hu S) h
  | setConfiguration v x l => exact .ofSetup _ (fun _ hu S => setConfigurationRule_storeless hu S) h
  | getDescriptor d r v x l => exact .ofSetup _ (fun _ hu S => forwardRule_storeless hu S) h
  | forward S => exact .ofSetup _ (fun _ hu S => forwardRule_storeless hu S) h
  | vbusOn => exact .ofHandler _ (fun _ hu => vbusOnRule_storeless hu) h
  | reset => exact .ofHandler _ (fun _ hu => reinitEvent_storeless hu 2 _ _) h
  | speedDone hs => exact .ofHandler _ (fun _ hu => reinitEvent_storeless hu 3 _ _) h
  | suspend => exact ofPlain (Storeless.regWrite _ _) h
  | resume => exact ofPlain (Storeless.regWrite _ _) h
  | error => exact ofPlain (Storeless.regWrite _ _) h
  | vbusOff => exact .ofHandler _ (fun _ hu => vbusOffRule_storeless hu) h
  | stallSent ep => exact .ofHandler _ (fun _ hu => ifServed_storeless _ (stallSentRule_storeless hu _)) h
  | flushReq ep => exact ofPlain (ifServed_storeless _ (flushReqRule_storeless _)) h
  | txDone ep p => exact .ofHandler _ (fun _ hu => ifServed_storeless _ (txDoneRule_storeless hu _ p)) h
  | rxReady ep p => exact absurd rfl (hrx ep p)

end

/-- Settles O53: every other instruction runs rules that store nothing. -/
theorem onlyReceptionStores : Obligations.OnlyReceptionStores := by
  unfold Obligations.OnlyReceptionStores
  intro i s t hidle h htask hqueue hrx
  exact (exec_storesNothing htask hqueue hrx h hidle).2.1

end Sys2Proof.Machine
end

section
/-! SUPPORT. One received packet in parts, whatever the SIE does between the accesses: START hands the head request to READ_FIFO,
READ_FIFO reads the words of the packet, and the request ends when the packet was its last (R97, R102, R106). -/

namespace Sys2Proof.Machine

/-! ### Bytes stored into a buffer -/

theorem storeBytes_append (b : Buffer) (off : Nat) (l l' : List Byte) (s : State) :
    State.storeBytes b off (l ++ l') s = State.storeBytes b (off + l.length) l' (State.storeBytes b off l s) := by
  induction l generalizing off s with
  | nil => rfl
  | cons x xs ih =>
    rw [List.cons_append, storeBytes_cons, ih, storeBytes_cons (xs := xs), List.length_cons, Nat.add_assoc, Nat.add_comm 1]

/-- Bytes stored into a buffer in system memory lie at its base plus their offsets, and every other byte stays (R57, R183). -/
theorem byte_storeBytes {s : State} (h : Memory.wf s.mem) (base : Word) (off : Nat) (l : List Byte) (a : Nat) :
    (State.storeBytes (.sysMem base) off l s).byte a =
      if base.toNat + off ≤ a ∧ a < base.toNat + off + l.length then l.getD (a - (base.toNat + off)) 0 else s.byte a := by
  induction l generalizing off s with
  | nil => simp [State.storeBytes]
  | cons x xs ih =>
    have h1 : State.storeBytes (.sysMem base) off (x :: xs) s =
        State.storeBytes (.sysMem base) (off + 1) xs (s.setByte (base.toNat + off) x) := rfl
    rw [h1, ih (write_wf h _ x), byte_setByte s h, List.length_cons]
    rcases Nat.lt_trichotomy a (base.toNat + off) with ha | rfl | ha
    · rw [if_neg (by omega), if_neg (by omega), if_neg (by omega)]
    · rw [if_neg (by omega), if_pos rfl, if_pos (by omega), Nat.sub_self, List.getD_cons_zero]
    · obtain ⟨d, rfl⟩ : ∃ d, a = base.toNat + off + (d + 1) := ⟨a - (base.toNat + off) - 1, by omega⟩
      have e1 : base.toNat + off + (d + 1) - (base.toNat + (off + 1)) = d := by omega
      have e2 : base.toNat + off + (d + 1) - (base.toNat + off) = d + 1 := by omega
      rw [e1, e2, List.getD_cons_succ, if_neg (c := _ = _) (by omega)]
      congr 1
      apply propext
      omega

/-! ### The end of a packet -/

/-- Request h of endpoint i has ended when `last` says so, and its callback has run (R94, R102). -/
def State.endedIf (s : State) (last : Bool) (i : Nat) (h : Handle) : State := if last then s.finished i h .ok else s

@[simp] theorem endedIf_sie (s : State) (last : Bool) (i : Nat) (h : Handle) : (s.endedIf last i h).sie = s.sie := by
  unfold State.endedIf
  split <;> simp

@[simp] theorem endedIf_mem (s : State) (last : Bool) (i : Nat) (h : Handle) : (s.endedIf last i h).mem = s.mem := by
  unfold State.endedIf
  split <;> simp

theorem req_completed_self {s : State} {h : Handle} (hk : s.known h = true) (i : Nat) (st : Status) :
    (s.completed i h st).req h = Request.completed st (s.req h) := by
  have hs : ((s.setEp i fun e => { e with queue := e.queue.erase h }).setReq h (Request.completed st)).req h =
      Request.completed st (s.req h) := by rw [req_setReq_self _ _ _ (by rwa [known_setEp]), req_setEp]
  unfold State.completed
  split
  · rwa [req_setDev]
  · exact hs

theorem req_finished_self {s : State} {h : Handle} (hk : s.known h = true) (i : Nat) (st : Status) :
    (s.finished i h st).req h = Request.completed st (s.req h) := by
  unfold State.finished
  split
  · exact req_completed_self hk i st
  · rw [req_afterUpcall, req_completed_self hk]

/-- The record of a request after its packet, the last or not (R94). -/
theorem endedIf_req {s : State} {h : Handle} (hk : s.known h = true) (last : Bool) (i : Nat) :
    (s.endedIf last i h).req h = if last then Request.completed .ok (s.req h) else s.req h := by
  unfold State.endedIf
  split
  · exact req_finished_self hk i .ok
  · rfl

/-- The queue after a packet of its head request: the head leaves it when the packet was its last (R94). -/
theorem endedIf_queue {s : State} {i : Nat} {h : Handle} {rest : List Handle} (hi : i < s.eps.length)
    (hq : (s.ep i).queue = h :: rest) (last : Bool) :
    ((s.endedIf last i h).ep i).queue = if last then rest else h :: rest := by
  unfold State.endedIf
  split
  · rw [finished_ep, ep_setEp_self s i _ hi, hq, List.erase_cons_head]
  · exact hq

/-- A completion without a callback makes no upcall (R94). -/
theorem complete_silent {s : State} {h : Handle} (hk : s.known h = true) (hc : (s.req h).callback = none) (up : Upcalls) (i : Nat)
    (st : Status) : complete up i h st s = .ok ((), s.finished i h st) := by
  have hn : ((s.completed i h st).req h).callback = none := by rw [req_completed_self hk, completed_callback, hc]
  unfold complete callback State.finished
  simp only [change_bind_run, look_bind_run, hn, pure_run]

theorem req_advanced {s : State} {h : Handle} (hk : s.known h = true) (n : Nat) :
    (s.advanced h n).req h = { s.req h with actual := (s.req h).actual + n } := req_setReq_self s h _ hk

/-- The end of READ_FIFO: the bytes are counted, and the request completes when the packet was its last (R102). -/
def endPacket (up : Upcalls) (i : Nat) (h : Handle) (n : Nat) (last : State → Bool) : Proc Bool := do
  advance h n
  let l ← look last
  if l then do
    complete up i h .ok
    pure true
  else pure false

theorem endPacket_run {up : Upcalls} {i : Nat} {h : Handle} {n : Nat} (last : State → Bool) {s : State}
    (hc : complete up i h .ok (s.advanced h n) = .ok ((), (s.advanced h n).finished i h .ok)) :
    endPacket up i h n last s = .ok (last (s.advanced h n), (s.advanced h n).endedIf (last (s.advanced h n)) i h) := by
  have h1 : endPacket up i h n last s = (if last (s.advanced h n) then (complete up i h .ok >>= fun _ => pure true)
      else (pure false : Proc Bool)) (s.advanced h n) := rfl
  rw [h1, ite_run]
  unfold State.endedIf
  split
  · rename_i hl
    rw [bind_run_ok hc, hl]
    rfl
  · rename_i hl
    rw [Bool.eq_false_iff.mpr hl]
    rfl

/-! ### READ_FIFO from the accesses on -/

/-- The word count READ_FIFO reads (R102). -/
def State.wordCount (s : State) (i : Nat) : Nat := (low11 (s.readValue (.rxWcnt i))).toNat

/-- The status READ_FIFO reads after the word count (R102). -/
def State.packetStatus (s : State) (i : Nat) : Word := (s.afterRead (.rxWcnt i)).readValue (.esr i)

/-- The state after READ_FIFO's reads of the word count and the status. -/
def State.counted (s : State) (i : Nat) : State := (s.afterRead (.rxWcnt i)).afterRead (.esr i)

/-- How many bytes the word count and the status say have arrived (R103). -/
def State.avail (s : State) (i : Nat) : Nat := receivedBytes (s.wordCount i) (s.packetStatus i)

/-- How many of m bytes fit the request (R104). -/
def Request.fitting (r : Request) (m : Nat) : Nat := min m (r.length - r.actual)

/-- The status of the request when m bytes have arrived for it (R104). -/
def Request.marked (r : Request) (m : Nat) : Status := if r.length - r.actual < m then .overflowError else r.status

/-- How many of the bytes that have arrived fit the request. -/
def State.fitting (s : State) (i : Nat) (h : Handle) : Nat := (s.req h).fitting (s.avail i)

/-- The state after the two reads, with an overflow recorded (R104). -/
def State.overflowMarked (s : State) (i : Nat) (h : Handle) : State :=
  (s.counted i).setReq h fun r =>
    { r with status := if (s.req h).length - (s.req h).actual < s.avail i then .overflowError else r.status }

theorem counted_req (s : State) (i : Nat) (h : Handle) : (s.counted i).req h = s.req h := by simp [State.counted]

/-- Recording an overflow keeps what does not read the status. -/
theorem overflowMarked_keeps {β : Type} (g : Request → β) (hg : ∀ r st, g { r with status := st } = g r) (s : State) (i : Nat)
    (h k : Handle) : g ((s.overflowMarked i h).req k) = g (s.req k) :=
  (req_setReq_keeps g _ h k _ fun r => hg r _).trans (congrArg g (counted_req s i k))

@[simp] theorem overflowMarked_cfg (s : State) (i : Nat) (h : Handle) : (s.overflowMarked i h).cfg = s.cfg := by
  simp [State.overflowMarked, State.counted]

@[simp] theorem overflowMarked_eps (s : State) (i : Nat) (h : Handle) : (s.overflowMarked i h).eps = s.eps := by
  simp [State.overflowMarked, State.counted]

@[simp] theorem overflowMarked_mem (s : State) (i : Nat) (h : Handle) : (s.overflowMarked i h).mem = s.mem := by
  simp [State.overflowMarked, State.counted]

@[simp] theorem overflowMarked_driverScript (s : State) (i : Nat) (h : Handle) :
    (s.overflowMarked i h).driverScript = s.driverScript := by
  simp [State.overflowMarked, State.counted]

/-- READ_FIFO in parts: the two reads, the words, the end (R102). -/
theorem readFifo_eq (up : Upcalls) (i : Nat) (h : Handle) (s : State) :
    readFifo up i h s =
      (readWords i (s.req h).buf (s.req h).actual (s.fitting i h) (s.wordCount i) 0 >>= fun _ =>
        endPacket up i h (s.fitting i h) fun t => t.lastOut i h (s.avail i) (s.packetStatus i)) (s.overflowMarked i h) := by
  have hcount : readWordCount i s = .ok (s.wordCount i, s.afterRead (.rxWcnt i)) := rfl
  have hr : ((s.afterRead (.rxWcnt i)).afterRead (.esr i)).req h = s.req h := by simp
  unfold readFifo recordOverflow
  rw [bind_run_ok hcount, regRead_bind_run, look_bind_run]
  simp only [hr, change_bind_run, decide_eq_true_eq]
  rfl

theorem lastOut_data {i : Nat} (hi : i ≠ 0) (s : State) (h : Handle) (avail : Nat) (esr : Word) :
    s.lastOut i h avail esr = (decide (avail < (s.ep i).mps.toNat) || decide ((s.req h).actual = (s.req h).length)) := by
  simp [State.lastOut, hi]

/-! ### From the instruction to READ_FIFO -/

/-- Data endpoint i is an OUT endpoint that is served, and its head request h can take a packet (R96, R97, R156). -/
structure State.Receives (s : State) (i : Nat) (h : Handle) (rest : List Handle) : Prop where
  inv : s.Inv
  data : i ≠ 0
  served : s.serves i
  out : Config.dirOf s.cfg i = .OUT
  running : (s.ep i).halted = false
  queue : (s.ep i).queue = h :: rest

section
variable {s : State} {i : Nat} {h : Handle} {rest : List Handle} (hs : s.Receives i h rest)
include hs

theorem State.Receives.mem : h ∈ (s.ep i).queue := by simp [hs.queue]

theorem State.Receives.known : s.known h = true := hs.inv.requests.known hs.mem

theorem State.Receives.below : i < s.eps.length := hs.inv.endpoints ▸ hs.served.1

theorem State.Receives.epDir : s.epDir i = .OUT := (if_neg hs.data).trans hs.out

/-- START hands the head request to READ_FIFO (R97). -/
theorem State.Receives.tryStart (up : Upcalls) (hr : esrRxReady (s.readValue (.esr i)) = true) :
    tryStart up i s = (readFifo up i h >>= fun _ => pure true) (s.afterRead (.esr i)) := by
  have hcan : Machine.canStart i s = .ok (true, s.afterRead (.esr i)) := by
    unfold Machine.canStart
    rw [look_bind_run, if_pos (by simp [hs.running, hs.data]), look_bind_run, regRead_bind_run, hs.epDir, pure_run, hr]
  have hstart : Machine.start up i (s.afterRead (.esr i)) = readFifo up i h (s.afterRead (.esr i)) := by
    unfold Machine.start
    rw [look_bind_run, ep_afterRead, hs.queue]
    dsimp only
    rw [needHead_run (hs.inv.afterRead _) (i := i) (by rw [ep_afterRead]; exact hs.mem) fun _ _ => _, look_bind_run,
      epDir_eq_of_eq (afterRead_cfg s _) (afterRead_dev s _), hs.epDir]
  unfold Machine.tryStart
  rw [look_bind_run, if_pos (by simp [hs.queue]), bind_run_ok hcan, if_pos rfl, bind_run, hstart, bind_run]

/-- RX_READY receives one packet into the head request (R156). -/
theorem State.Receives.exec_rxReady_iff {ep : BitVec 4} (he : ep.toNat = i) (hr : esrRxReady (s.readValue (.esr i)) = true)
    {t : State} : exec (.rxReady ep false) s = .next t ↔
      ∃ last, readFifo (upcalls s.driverScript.length) i h (s.afterRead (.esr i)) = .ok (last, t) := by
  subst he
  have hserved : endpointServed s ep.toNat = true := by
    obtain ⟨hlt, h0 | hen⟩ := hs.served
    · exact absurd h0 hs.data
    · simp [endpointServed, hlt, hen]
  have hrun : (ifServed ep.toNat (rxReadyRule (upcalls s.driverScript.length) ep.toNat false)) s =
      (readFifo (upcalls s.driverScript.length) ep.toNat h >>= fun _ => pure ()) (s.afterRead (.esr ep.toNat)) := by
    unfold ifServed rxReadyRule service twoPacket
    rw [look_bind_run, if_pos hserved, if_neg hs.data, look_bind_run, hs.epDir]
    dsimp only
    rw [bind_run, hs.tryStart _ hr, bind_run, bind_run]
    cases readFifo (upcalls s.driverScript.length) ep.toNat h (s.afterRead (.esr ep.toNat)) <;> rfl
  show outcome (withUpcalls fun up => inCommand _ (ifServed ep.toNat (rxReadyRule up ep.toNat false))) s = .next t ↔ _
  rw [outcome_next_iff]
  unfold withUpcalls
  simp only [inCommand_ok_iff, hrun, bind_ok_iff, pure_run]
  simp

theorem State.Receives.afterRead (r : Reg) : (s.afterRead r).Receives i h rest where
  inv := hs.inv.afterRead r
  data := hs.data
  served := by simpa [State.serves, State.numEps] using hs.served
  out := by rw [afterRead_cfg, hs.out]
  running := by rw [ep_afterRead, hs.running]
  queue := by rw [ep_afterRead, hs.queue]

/-- What the SIE will do between the accesses does not matter for it. -/
theorem State.Receives.withMoves (l : List (List Move)) : ({ s with betweenMoves := l } : State).Receives i h rest :=
  ⟨hs.inv.same rfl rfl rfl rfl rfl rfl rfl rfl rfl, hs.data, hs.served, hs.out, hs.running, hs.queue⟩

end

/-! ### READ_FIFO, with what its word reads leave -/

/-- Whether a packet of m bytes is the request's last (R106). -/
def State.isLast (s : State) (i : Nat) (h : Handle) (m : Nat) : Bool :=
  decide (m < (s.ep i).mps.toNat) || decide ((s.req h).actual + (s.req h).fitting m = (s.req h).length)

/-- The word reads of READ_FIFO complete in w (R102). -/
def State.WordsRead (s : State) (i : Nat) (h : Handle) (w : State) : Prop :=
  readWords i (s.req h).buf (s.req h).actual (s.fitting i h) (s.wordCount i) 0 (s.overflowMarked i h) = .ok ((), w)

/-- The state after READ_FIFO, when its word reads leave w: the bytes counted, and the request ended when the packet was its
last. -/
def State.receivedAfter (s : State) (i : Nat) (h : Handle) (w : State) : State :=
  (w.advanced h (s.fitting i h)).endedIf (s.isLast i h (s.avail i)) i h

theorem State.WordsRead.sameRequests {s w : State} {i : Nat} {h : Handle} (hw : s.WordsRead i h w) :
    SameRequests (s.overflowMarked i h) w := readWords_same _ _ _ _ _ _ _ _ _ hw

theorem State.WordsRead.ep {s w : State} {i : Nat} {h : Handle} (hw : s.WordsRead i h w) : w.ep i = s.ep i := by
  rw [hw.sameRequests.ep, State.ep, overflowMarked_eps]
  rfl

section
variable {s w : State} {i : Nat} {h : Handle} {rest : List Handle} (hw : s.WordsRead i h w) (hs : s.Receives i h rest)
include hw hs

theorem State.WordsRead.known : w.known h = true := by
  rw [hw.sameRequests.known]
  simpa [State.overflowMarked, State.counted] using hs.known

theorem State.WordsRead.req : w.req h = { s.req h with status := (s.req h).marked (s.avail i) } := by
  rw [hw.sameRequests.req, State.overflowMarked,
    req_setReq_self _ _ _ (by simpa [State.counted] using hs.known), counted_req]
  rfl

/-- READ_FIFO completes when its word reads and the completion of the request do (R102). -/
theorem State.WordsRead.readFifo_run {up : Upcalls}
    (hc : complete up i h .ok (w.advanced h (s.fitting i h)) = .ok ((), (w.advanced h (s.fitting i h)).finished i h .ok)) :
    readFifo up i h s = .ok (s.isLast i h (s.avail i), s.receivedAfter i h w) := by
  have hlast : (w.advanced h (s.fitting i h)).lastOut i h (s.avail i) (s.packetStatus i) = s.isLast i h (s.avail i) := by
    rw [lastOut_data hs.data, advanced_ep, hw.ep, req_advanced (hw.known hs),
      hw.req hs]
    rfl
  rw [readFifo_eq, bind_run_ok hw, endPacket_run _ hc, hlast]
  rfl

/-- The request and the queue after a packet of m bytes (R94, R102, R104, R106). -/
theorem State.WordsRead.ended {m : Nat} (hm : s.avail i = m) :
    ((s.receivedAfter i h w).req h).actual = (s.req h).actual + (s.req h).fitting m ∧
    ((s.receivedAfter i h w).req h).status = (if s.isLast i h m then
      (if (s.req h).marked m = .overflowError then .overflowError else .ok) else (s.req h).marked m) ∧
    ((s.receivedAfter i h w).req h).queuedOn = (if s.isLast i h m then none else (s.req h).queuedOn) ∧
    ((s.receivedAfter i h w).ep i).queue = (if s.isLast i h m then rest else h :: rest) := by
  subst hm
  have hk := hw.known hs
  have hreq : (s.receivedAfter i h w).req h =
      if s.isLast i h (s.avail i) then Request.completed .ok { w.req h with actual := (w.req h).actual + s.fitting i h }
      else { w.req h with actual := (w.req h).actual + s.fitting i h } := by
    rw [State.receivedAfter, endedIf_req (by rwa [State.advanced, known_setReq]), req_advanced hk]
  have hi : i < (w.advanced h (s.fitting i h)).eps.length := by
    rw [State.advanced, setReq_eps, hw.sameRequests.2.2, overflowMarked_eps]
    exact hs.below
  rw [hreq, hw.req hs]
  refine ⟨?_, ?_, ?_, endedIf_queue hi (by rw [advanced_ep, hw.ep, hs.queue]) _⟩
  · split <;> rfl
  · split
    · simp only [completed_status, true_and]
      split <;> simp_all
    · rfl
  · split <;> rfl

end

/-- Counting the bytes and ending the request touch neither the SIE nor memory. -/
theorem receivedAfter_sie (s : State) (i : Nat) (h : Handle) (w : State) : (s.receivedAfter i h w).sie = w.sie := by
  rw [State.receivedAfter, endedIf_sie, State.advanced, setReq_sie]

theorem receivedAfter_byte (s : State) (i : Nat) (h : Handle) (w : State) (a : Nat) :
    (s.receivedAfter i h w).byte a = w.byte a := by
  rw [State.byte, State.byte, State.receivedAfter, endedIf_mem, State.advanced, setReq_mem]

/-! ### The count and the status of a packet the SIE leaves alone -/

section
variable {s : State} {i : Nat} (hv : s.Servable i) (hcount : s.busTick.sie = s.sie)
  (hstatus : (s.afterRead (.rxWcnt i)).busTick.sie = (s.afterRead (.rxWcnt i)).sie)
include hv hcount

theorem wordCount_untouched : s.wordCount i = (s.sie.ep i).readWordCount.1 := by
  unfold State.wordCount State.readValue
  rw [hcount]
  simp only [Sie.read]
  rw [low11_ofNat_toNat (Nat.mod_lt _ (by decide)), Nat.mod_eq_of_lt (receivedBytes_eq hv.fifo 0 0).1]

omit hv in
theorem afterRead_rxWcnt_sie : (s.afterRead (.rxWcnt i)).sie = s.sie.setEp i fun e => e.readWordCount.2 := by
  show (Sie.read s.busTick.cfg s.busTick.sie (.rxWcnt i)).2 = _
  rw [hcount]
  rfl

include hstatus

theorem avail_untouched : s.avail i = (s.sie.ep i).pendingBytes.length := by
  have hesr : s.packetStatus i = (s.sie.ep i).readWordCount.2.esrWord (s.afterRead (.rxWcnt i)).busTick.cfg.fifoPkts i := by
    unfold State.packetStatus State.readValue
    rw [hstatus, afterRead_rxWcnt_sie hcount]
    simp only [Sie.read]
    rw [sieEp_setEp_self _ _ _ hv.exists_]
  rw [State.avail, wordCount_untouched hv hcount, hesr, (receivedBytes_eq hv.fifo _ i).2]

omit hv in
theorem counted_untouched_sie : (s.counted i).sie = s.sie.setEp i fun e => e.readWordCount.2 := by
  show (s.afterRead (.rxWcnt i)).busTick.sie = _
  rw [hstatus, afterRead_rxWcnt_sie hcount]

end

/-! ### The word reads of a packet the SIE leaves alone, and of one that a bus reset cuts off -/

theorem fitting_le (s : State) (i : Nat) (h : Handle) : s.fitting i h ≤ (s.req h).length - (s.req h).actual := Nat.min_le_right _ _

/-- The packet that has arrived at endpoint i is stored for request h as far as it fits, and taken off the FIFO (R102, R105). -/
def State.packetStored (s : State) (i : Nat) (h : Handle) : State :=
  (State.storeBytes (s.req h).buf (s.req h).actual ((s.sie.ep i).pendingBytes.take (s.fitting i h))
    { s.overflowMarked i h with sie := s.sie }).setSieEp i (SieEndpoint.dropPackets 1)

section
variable {s : State} (hu : s.Undisturbed) {i : Nat}
include hu

theorem counted_quiet : s.counted i = s.setSieEp i fun e => e.readWordCount.2 := by
  have hq : (s.afterRead (.rxWcnt i)).betweenMoves = [] := by
    rw [afterRead_quiet hu.quiet]
    exact hu.quiet
  rw [State.counted, afterRead_pure hq rfl, afterRead_quiet hu.quiet]
  rfl

theorem overflowMarked_undisturbed (h : Handle) : (s.overflowMarked i h).Undisturbed := by
  rw [State.overflowMarked, counted_quiet hu]
  exact (hu.setSieEp i _).setReq h (fun _ => rfl) fun _ => rfl

theorem packetStored_undisturbed (h : Handle) : (s.packetStored i h).Undisturbed :=
  (((overflowMarked_undisturbed hu h).withSie _).storeBytes _ _ _).setSieEp _ _

theorem avail_idle (hv : s.Servable i) : s.avail i = (s.sie.ep i).pendingBytes.length :=
  avail_untouched hv (by rw [busTick_quiet hu.quiet])
    (by rw [busTick_quiet (by rw [afterRead_quiet hu.quiet]; exact hu.quiet)])

/-- Between quiet accesses the bytes that fit are stored, and the packet leaves the FIFO. -/
theorem wordsRead_idle (hv : s.Servable i) (h : Handle) : s.WordsRead i h (s.packetStored i h) := by
  have hn : s.fitting i h ≤ (s.sie.ep i).pendingBytes.length := avail_idle hu hv ▸ Nat.min_le_left _ _
  unfold State.WordsRead
  rw [wordCount_untouched hv (by rw [busTick_quiet hu.quiet])]
  refine readWords_packet hv.exists_ hv.fifo hn (hu.inMemory h (fitting_le s i h)) ?_ (overflowMarked_undisturbed hu h).quiet
    (overflowMarked_cfg s i h)
  rw [State.overflowMarked, setReq_sie, counted_quiet hu, setSieEp_sie]

end

/-- The packet's own bytes, as far as they fit, lie in the buffer from `actual` on, and every other byte stays (R57, R104). -/
theorem packetStored_byte {s : State} (hm : Memory.wf s.mem) {i : Nat} {h : Handle} {base : Word} {bytes : List Byte}
    (hb : (s.req h).buf = .sysMem base) (hp : (s.sie.ep i).pendingBytes = bytes) (hn : s.fitting i h ≤ bytes.length) (a : Nat) :
    (s.packetStored i h).byte a =
      if base.toNat + (s.req h).actual ≤ a ∧ a < base.toNat + (s.req h).actual + s.fitting i h
        then bytes.getD (a - (base.toNat + (s.req h).actual)) 0 else s.byte a := by
  have hkept : State.byte { s.overflowMarked i h with sie := s.sie } a = s.byte a :=
    congrArg (Memory.read · a) (overflowMarked_mem s i h)
  rw [State.packetStored, hb, hp]
  show (State.storeBytes _ _ _ _).byte a = _
  rw [byte_storeBytes (s := { s.overflowMarked i h with sie := s.sie }) (by rw [overflowMarked_mem]; exact hm), hkept, List.length_take,
    Nat.min_eq_left hn]
  split
  · rw [List.getD_eq_getElem?_getD, List.getElem?_take_of_lt (by omega), List.getD_eq_getElem?_getD]
  · rfl

/-- Words read from a FIFO that is empty from the first access on are 0x0000, and every byte that fits is stored as 0 (R169). -/
theorem readWords_cutOff {i : Nat} {b : Buffer} {off n : Nat} (m : Nat) {k : Nat} {s : State}
    (hempty : (s.busTick.sie.ep i).rxQueue = []) (hquiet : s.busTick.betweenMoves = []) (hn : n ≤ 2 * (k + (m + 1)))
    (hmem : ∀ a, b = .sysMem a → n ≤ 2 * k ∨ a.toNat + off + n ≤ s.cfg.memSize) :
    readWords i b off n (m + 1) k s =
      .ok ((), State.storeBytes b (off + 2 * k) (List.replicate (n - 2 * k) 0) s.busTick) := by
  induction m generalizing k s with
  | zero =>
    rw [readWords_emptied hempty hmem, show min 2 (n - 2 * k) = n - 2 * k by omega]
    rfl
  | succ m ih =>
    have hback : ∀ l, (State.storeBytes b (off + 2 * k) l s.busTick).busTick = State.storeBytes b (off + 2 * k) l s.busTick :=
      fun l => busTick_quiet (by rw [storeBytes_betweenMoves, hquiet])
    rw [readWords_emptied hempty hmem, ih (by rw [hback, storeBytes_sie, hempty])
      (by rw [hback, storeBytes_betweenMoves, hquiet]) (by omega)
      (fun a ha => by rw [storeBytes_cfg, busTick_cfg]; have := hmem a ha; omega), hback]
    rcases Nat.lt_or_ge (2 * k + 2) n with hlt | hge
    · rw [show n - 2 * k = min 2 (n - 2 * k) + (n - 2 * (k + 1)) by omega, ← List.replicate_append_replicate, storeBytes_append,
        List.length_replicate, show min 2 (min 2 (n - 2 * k) + (n - 2 * (k + 1))) = min 2 (n - 2 * k) by omega,
        show off + 2 * k + min 2 (n - 2 * k) = off + 2 * (k + 1) by omega]
    · rw [show n - 2 * (k + 1) = 0 by omega, show min 2 (n - 2 * k) = n - 2 * k by omega]
      rfl

/-- The tick that brings a bus reset (R170). -/
theorem busTick_reset {s : State} (h : s.betweenMoves = [[.reset]]) (hv : s.sie.vbus = true) :
    s.busTick.sie = s.sie.moveEffect .reset ∧ s.busTick.betweenMoves = [] := by
  unfold State.busTick
  rw [h]
  simp [State.moves, State.move, Sie.moveEnabled, hv]

/-- A bus reset empties every FIFO and sets its event bit (R170). -/
theorem moveEffect_reset (x : Sie) (i : Nat) :
    ((x.moveEffect .reset).ep i).rxQueue = [] ∧ (x.moveEffect .reset).ssr = x.ssr ||| 0x04 := by
  refine ⟨?_, rfl⟩
  simp only [Sie.moveEffect, Sie.raise, Sie.emptyFifos, Sie.ep, List.getD_eq_getElem?_getD, List.getElem?_map]
  cases x.eps[i]? <;> rfl

/-- Two bytes a word at most (R103). -/
theorem avail_le (s : State) (i : Nat) : s.avail i ≤ 2 * s.wordCount i := by
  unfold State.avail receivedBytes
  split <;> omega

/-- The bytes of a packet of which nothing has been read. -/
theorem pendingBytes_head {e : SieEndpoint} {p : RxPacket} {ps : List RxPacket} (hp : e.rxQueue = p :: ps) (hpos : e.rxPos = 0) :
    e.pendingBytes = p.bytes := by
  simp [SieEndpoint.pendingBytes, hp, hpos]

/-- The state in which the SIE lets two accesses pass and makes a bus reset before the third. -/
def State.resetAhead (s : State) : State := { s with betweenMoves := [[], [], [.reset]] }

/-- The state in which a packet's bytes have been read as zeros and stored as far as they fit, a bus reset having come before. -/
def State.zerosStored (s : State) (i : Nat) (h : Handle) : State :=
  State.storeBytes (s.req h).buf (s.req h).actual (List.replicate (s.resetAhead.fitting i h) 0)
    (s.resetAhead.overflowMarked i h).busTick

/-- Zeros lie in the buffer from `actual` on, as far as the packet's bytes fit, and every other byte stays. -/
theorem zerosStored_byte {s : State} (hm : Memory.wf s.mem) {i : Nat} {h : Handle} {base : Word}
    (hb : (s.req h).buf = .sysMem base) (a : Nat) :
    (s.zerosStored i h).byte a =
      if base.toNat + (s.req h).actual ≤ a ∧ a < base.toNat + (s.req h).actual + s.resetAhead.fitting i h
        then 0 else s.byte a := by
  have hmem : (s.resetAhead.overflowMarked i h).busTick.mem = s.mem := by rw [busTick_mem, overflowMarked_mem]; rfl
  rw [State.zerosStored, hb, byte_storeBytes (by rwa [hmem]), List.length_replicate, State.byte, hmem]
  split
  · rw [List.getD_replicate _ (by omega)]
  · rfl

section
variable {s : State} {i : Nat} {p : RxPacket} {ps : List RxPacket} (hv : s.Servable i) (hp : (s.sie.ep i).rxQueue = p :: ps)
include hv hp

theorem resetAhead_avail (hpos : (s.sie.ep i).rxPos = 0) : s.resetAhead.avail i = p.bytes.length := by
  rw [avail_untouched (s := s.resetAhead) ⟨hv.exists_, hv.fifo⟩ rfl rfl]
  exact congrArg List.length (pendingBytes_head hp hpos)

variable (hne : p.bytes ≠ []) (hvbus : s.sie.vbus = true)
include hne hvbus

omit hv in
/-- The bus reset comes with the first word. -/
theorem resetAhead_tick (h : Handle) : (s.resetAhead.overflowMarked i h).busTick.sie = s.sie.moveEffect .reset ∧
    (s.resetAhead.overflowMarked i h).busTick.betweenMoves = [] := by
  have hsie : (s.resetAhead.overflowMarked i h).sie = s.sie := by
    rw [State.overflowMarked, setReq_sie, counted_untouched_sie (s := s.resetAhead) rfl rfl]
    exact sieSetEp_eq_self (x := s.sie) (f := fun e => e.readWordCount.2) (by simp [SieEndpoint.readWordCount, hp, hne])
  have hmoves : (s.resetAhead.overflowMarked i h).betweenMoves = [[.reset]] := by
    rw [State.overflowMarked, setReq_betweenMoves]
    rfl
  rw [← hsie]
  exact busTick_reset hmoves (by rw [hsie, hvbus])

/-- The bytes that fit are stored as zeros (R169). -/
theorem resetAhead_wordsRead (hu : s.Undisturbed) (hpos : (s.sie.ep i).rxPos = 0) (h : Handle) :
    s.resetAhead.WordsRead i h (s.zerosStored i h) := by
  obtain ⟨hsie, hquiet⟩ := resetAhead_tick hp hne hvbus h
  have havail := resetAhead_avail hv hp hpos
  have hlen : 0 < p.bytes.length := List.length_pos_iff.mpr hne
  have hwords := avail_le s.resetAhead i
  have hfit : s.resetAhead.fitting i h ≤ s.resetAhead.avail i := Nat.min_le_left _ _
  obtain ⟨m, hm⟩ : ∃ m, s.resetAhead.wordCount i = m + 1 := ⟨s.resetAhead.wordCount i - 1, by omega⟩
  unfold State.WordsRead
  rw [hm, readWords_cutOff m (by rw [hsie]; exact (moveEffect_reset _ i).1) hquiet (by omega)]
  · rfl
  · intro a ha
    have hin : s.resetAhead.fitting i h = 0 ∨ a.toNat + (s.resetAhead.req h).actual + s.resetAhead.fitting i h ≤
        s.resetAhead.cfg.memSize := hu.inMemory h (fitting_le s.resetAhead i h) a ha
    rw [overflowMarked_cfg]
    omega

omit hv in
theorem zerosStored_sie (h : Handle) : (s.zerosStored i h).sie = s.sie.moveEffect .reset := by
  rw [State.zerosStored, storeBytes_sie, (resetAhead_tick hp hne hvbus h).1]

omit hv in
theorem zerosStored_undisturbed (hu : s.Undisturbed) (h : Handle) : (s.zerosStored i h).Undisturbed := by
  refine State.Undisturbed.storeBytes ⟨(resetAhead_tick hp hne hvbus h).2, ?_, fun k a => ?_⟩ _ _ _
  · rw [busTick_driverScript, overflowMarked_driverScript]
    exact hu.idle
  · rw [req_eq_of_eq (busTick_reqs _) (busTick_statusReq _), overflowMarked_keeps Request.buf fun _ _ => rfl,
      overflowMarked_keeps Request.length fun _ _ => rfl, busTick_cfg, overflowMarked_cfg]
    exact hu.buffers k a

end

/-! ### The instruction -/

theorem exists_wordsRead {up : Upcalls} {i : Nat} {h : Handle} {s t : State} {b : Bool}
    (hr : readFifo up i h s = .ok (b, t)) : ∃ w, s.WordsRead i h w := by
  rw [readFifo_eq] at hr
  obtain ⟨_, w, hw, _⟩ := bind_ok_iff.mp hr
  exact ⟨w, hw⟩

section
variable {ep : BitVec 4} {s : State} {h : Handle} {rest : List Handle} (hs : s.Receives ep.toNat h rest)
include hs

/-- Whatever the SIE does, RX_READY for a request without a callback leaves what READ_FIFO does (R102, R156). -/
theorem exec_rxReady_silent {t : State} (hc : (s.req h).callback = none)
    (hr : esrRxReady (s.readValue (.esr ep.toNat)) = true) (hx : exec (.rxReady ep false) s = .next t) :
    ∃ w, (s.afterRead (.esr ep.toNat)).WordsRead ep.toNat h w ∧ t = (s.afterRead (.esr ep.toNat)).receivedAfter ep.toNat h w := by
  have hf := hs.afterRead (.esr ep.toNat)
  obtain ⟨last, hrun⟩ := (hs.exec_rxReady_iff rfl hr).mp hx
  obtain ⟨w, hw⟩ := exists_wordsRead hrun
  have hk := hw.known hf
  refine ⟨w, hw, ?_⟩
  rw [hw.readFifo_run hf (complete_silent (by rwa [State.advanced, known_setReq]) ?_ _ _ _)] at hrun
  · cases hrun
    rfl
  · rw [req_advanced hk, hw.req hf, req_afterRead, hc]

/-- RX_READY completes when READ_FIFO's word reads do and the class driver answers without an action. -/
theorem exec_rxReady_idle {w : State} (hr : esrRxReady (s.readValue (.esr ep.toNat)) = true)
    (hw : (s.afterRead (.esr ep.toNat)).WordsRead ep.toNat h w) (hu : w.Undisturbed) :
    exec (.rxReady ep false) s = .next ((s.afterRead (.esr ep.toNat)).receivedAfter ep.toNat h w) :=
  (hs.exec_rxReady_iff rfl hr).mpr ⟨_, hw.readFifo_run (hs.afterRead _)
    (complete_idle (hu.setReq h (f := fun r => { r with actual := r.actual + (s.afterRead (.esr ep.toNat)).fitting ep.toNat h })
      (fun _ => rfl) fun _ => rfl) _ _ _ _)⟩

end

end Sys2Proof.Machine
end

section
/-! PROOF. A received packet, byte by byte, also when the SIE acts in between (R57, R102 to R106, R169). -/

namespace Sys2Proof.Machine

theorem toNat_ne_zero {ep : BitVec 4} (h : ep ≠ 0) : ep.toNat ≠ 0 := fun h0 => h (BitVec.eq_of_toNat_eq h0)

theorem isLast_afterRead (s : State) (r : Reg) (i : Nat) (h : Handle) (m : Nat) :
    (s.afterRead r).isLast i h m = s.isLast i h m := by simp [State.isLast]

section
variable {ep : BitVec 4} {s : State} {h : Handle} {rest : List Handle} {p : RxPacket} {ps : List RxPacket}
  (hs : s.Receives ep.toNat h rest) (hu : s.Undisturbed) (hp : (s.sie.ep ep.toNat).rxQueue = p :: ps)
include hs hu hp

/-- RX_READY between quiet accesses. -/
theorem exec_rxReady_quiet :
    exec (.rxReady ep false) s = .next (s.receivedAfter ep.toNat h (s.packetStored ep.toNat h)) := by
  have hfound : s.afterRead (.esr ep.toNat) = s := afterRead_pure hu.quiet rfl
  have hready : esrRxReady (s.readValue (.esr ep.toNat)) = true := by
    rw [readValue_quiet hu.quiet]
    simp [Sie.read, SieEndpoint.rxReady, hp]
  have hx := exec_rxReady_idle hs hready (w := s.packetStored ep.toNat h)
    (by rw [hfound]; exact wordsRead_idle hu (hs.inv.servable hs.served.1) h) (packetStored_undisturbed hu h)
  rwa [hfound] at hx

/-- RX_READY with a bus reset between the status and the first word. -/
theorem exec_rxReady_reset (hpos : (s.sie.ep ep.toNat).rxPos = 0) (hne : p.bytes ≠ []) (hvbus : s.sie.vbus = true) :
    exec (.rxReady ep false) { s with betweenMoves := [[], [], [], [.reset]] } =
      .next (s.resetAhead.receivedAfter ep.toNat h (s.zerosStored ep.toNat h)) := by
  have hv := hs.inv.servable hs.served.1
  have hready : esrRxReady ((s.sie.ep ep.toNat).esrWord s.cfg.fifoPkts ep.toNat) = true := by
    simp [SieEndpoint.rxReady, hp]
  exact exec_rxReady_idle (hs.withMoves _) hready (resetAhead_wordsRead hv hp hne hvbus hu hpos h)
    (zerosStored_undisturbed hp hne hvbus hu h)

end

/-- Settles O43: RX_READY hands the head request to READ_FIFO, whose word reads leave the packet's bytes stored, whatever they
leave, or zeros; the bytes are counted then, and the request ends when the packet was its last. -/
theorem receivedPacketIsStored : Obligations.ReceivedPacketIsStored := by
  unfold Obligations.ReceivedPacketIsStored
  refine ⟨?_, ?_, ?_⟩
  · intro ep h base rest p ps s hs hu h0 hserved hout hrun hq hknown hbuf hp hpos i r room n status last
    have hr : s.Receives i (.user h) rest := ⟨hs, toNat_ne_zero h0, hserved, hout, hrun, hq⟩
    have hv := hs.servable hserved.1
    have hpending := pendingBytes_head hp hpos
    have havail : s.avail i = p.bytes.length := by rw [avail_idle hu hv, hpending]
    have hfit : s.fitting i (.user h) = n := congrArg r.fitting havail
    have hsie : (s.receivedAfter i (.user h) (s.packetStored i (.user h))).sie.ep i = (s.sie.ep i).dropPackets 1 := by
      rw [receivedAfter_sie, State.packetStored, setSieEp_sie, storeBytes_sie, sieEp_setEp_self _ _ _ hv.exists_]
    refine ⟨_, exec_rxReady_quiet hr hu hp, fun a => ?_, ?_, ?_, (wordsRead_idle hu hv _).ended hr havail⟩
    · rw [receivedAfter_byte, packetStored_byte hs.memory hbuf hpending (hfit ▸ Nat.min_le_left _ _), hfit]
    · rw [hsie, SieEndpoint.dropPackets, hp]
      rfl
    · rw [hsie, SieEndpoint.dropPackets]
      rfl
  · intro ep h rest s t hs h0 hserved hout hrun hq hcallback hready hx i r found counted avail n last
    have hr : s.Receives i (.user h) rest := ⟨hs, toNat_ne_zero h0, hserved, hout, hrun, hq⟩
    obtain ⟨w, hw, rfl⟩ := exec_rxReady_silent hr hcallback hready hx
    obtain ⟨hactual, -, hqueued, hqueue⟩ := hw.ended (hr.afterRead _) rfl
    simp only [req_afterRead, isLast_afterRead] at hactual hqueued hqueue
    exact ⟨hactual, hqueued, hqueue⟩
  · intro ep h base rest p ps s hs hu h0 hserved hout hrun hq hknown hbuf hp hpos hne hvbus i r n last
    have hr : s.Receives i (.user h) rest := ⟨hs, toNat_ne_zero h0, hserved, hout, hrun, hq⟩
    have hv := hs.servable hserved.1
    have havail := resetAhead_avail hv hp hpos
    obtain ⟨hactual, -, hqueued, hqueue⟩ := (resetAhead_wordsRead hv hp hne hvbus hu hpos _).ended (hr.withMoves _) havail
    have hfit : s.resetAhead.fitting i (.user h) = n := congrArg r.fitting havail
    have hsie := zerosStored_sie hp hne hvbus (.user h)
    refine ⟨_, exec_rxReady_reset hr hu hp hpos hne hvbus, fun a => ?_, ?_, ?_, hactual, hqueued, hqueue⟩
    · rw [receivedAfter_byte, zerosStored_byte hs.memory hbuf, hfit]
    · rw [receivedAfter_sie, hsie, (moveEffect_reset s.sie i).1]
    · rw [receivedAfter_sie, hsie, (moveEffect_reset s.sie i).2]

end Sys2Proof.Machine
end

section
/-! SUPPORT. Command words and setup packets by their fields: reading a field back from a word put together from fields, a
word put together from its own fields, and what a SETUP row's mask and match ask of the fields (R71, R75, R76, R87). -/

namespace Sys2Proof.Machine

/-! ### Command words -/

section
variable (opc ep : BitVec 4) (v : Bool)

@[simp] theorem cmdOpc_cmdWord : cmdOpc (cmdWord opc ep v) = opc := by
  refine BitVec.eq_of_getLsbD_eq fun j hj => ?_
  simp only [cmdOpc, cmdWord, BitVec.getLsbD_append, BitVec.getLsbD_extractLsb']
  grind

@[simp] theorem cmdEp_cmdWord : cmdEp (cmdWord opc ep v) = ep := by
  refine BitVec.eq_of_getLsbD_eq fun j hj => ?_
  simp only [cmdEp, cmdWord, BitVec.getLsbD_append, BitVec.getLsbD_extractLsb']
  grind

@[simp] theorem cmdV_cmdWord : cmdV (cmdWord opc ep v) = v := by
  simp only [cmdV, cmdWord, BitVec.getLsbD_append]
  simp

@[simp] theorem cmdRsv_cmdWord : cmdRsv (cmdWord opc ep v) = 0 := by
  refine BitVec.eq_of_getLsbD_eq fun j hj => ?_
  simp only [cmdRsv, cmdWord, BitVec.getLsbD_append, BitVec.getLsbD_extractLsb', BitVec.getLsbD_ofBool]
  grind

/-- CMD[3] is the top bit of OPC. -/
theorem getLsbD_three_eq (cmd : Word) : cmd.getLsbD 3 = (cmdOpc cmd).getLsbD 3 := by simp [cmdOpc]

@[simp] theorem getElem_three_cmdWord : (cmdWord opc ep v)[3] = opc[3] := by
  simpa using getLsbD_three_eq (cmdWord opc ep v)

end

/-- A command word with RSV = 0 is put together from its other fields. -/
theorem cmdWord_fields {cmd : Word} (h : cmdRsv cmd = 0) : cmdWord (cmdOpc cmd) (cmdEp cmd) (cmdV cmd) = cmd := by
  refine BitVec.eq_of_getLsbD_eq fun j hj => ?_
  have hr : (cmdRsv cmd).getLsbD (j - 9) = false := by simp [h]
  simp only [cmdRsv, BitVec.getLsbD_extractLsb'] at hr
  simp only [cmdWord, cmdOpc, cmdEp, cmdV, BitVec.getLsbD_append, BitVec.getLsbD_extractLsb', BitVec.getLsbD_ofBool]
  grind

/-! ### Setup packets -/

theorem bitVec_append_inj {m n : Nat} {a c : BitVec m} {b d : BitVec n} : a ++ b = c ++ d ↔ a = c ∧ b = d :=
  ⟨fun h => ⟨BitVec.extractLsb'_append_eq_left.symm.trans ((congrArg (BitVec.extractLsb' n m) h).trans
      BitVec.extractLsb'_append_eq_left),
    BitVec.extractLsb'_append_eq_right.symm.trans ((congrArg (BitVec.extractLsb' 0 n) h).trans
      BitVec.extractLsb'_append_eq_right)⟩, fun ⟨h1, h2⟩ => h1 ▸ h2 ▸ rfl⟩

/-- The two bytes of a packet that the SETUP rows look at. -/
theorem extractLsb'_zero_sixteen (S : BitVec 64) : S.extractLsb' 0 16 = setupRequest S ++ setupRequestType S := by
  refine BitVec.eq_of_getLsbD_eq fun j hj => ?_
  simp only [setupRequest, setupRequestType, BitVec.getLsbD_append, BitVec.getLsbD_extractLsb']
  grind

theorem setupType_eq (S : BitVec 64) : setupType S = (setupRequestType S).extractLsb' 5 2 := by
  refine BitVec.eq_of_getLsbD_eq fun j hj => ?_
  simp only [setupType, setupRequestType, BitVec.getLsbD_extractLsb']
  grind

/-- A row of a standard request takes the packets of type 0 with its request code (R76, R87). -/
theorem setupRowTakes_standard (q : Byte) (S : BitVec 64) :
    setupRowTakes (q ++ 0#8) 0xFF60 S = true ↔ setupType S = 0#2 ∧ setupRequest S = q := by
  have hmask : (0xFF60 : Half) = BitVec.allOnes 8 ++ 0x60#8 := rfl
  have htype : ∀ t : Byte, t &&& 0x60#8 = 0#8 ↔ t.extractLsb' 5 2 = 0#2 := by decide
  rw [setupRowTakes, beq_iff_eq, extractLsb'_zero_sixteen, hmask, BitVec.and_append, bitVec_append_inj,
    BitVec.and_allOnes, htype, ← setupType_eq, and_comm]

/-- A row with a full mask takes the packets with its request type and request code (R87). -/
theorem setupRowTakes_exact (t q : Byte) (S : BitVec 64) :
    setupRowTakes (q ++ t) 0xFFFF S = true ↔ setupRequestType S = t ∧ setupRequest S = q := by
  have hmask : (0xFFFF : Half) = BitVec.allOnes 16 := rfl
  rw [setupRowTakes, beq_iff_eq, extractLsb'_zero_sixteen, hmask, BitVec.and_allOnes, bitVec_append_inj, and_comm]

/-- The decoder of setup packets, by the packet's fields: table order plays no part, since no two rows but the last take
the same packet (R87, R90). -/
theorem decodeSetup_eq (S : BitVec 64) : decodeSetup S =
    if setupType S = 0#2 ∧ setupRequest S = 0x00 then
      .getStatus (setupDirIn S) (setupRecipient S) (setupValue S) (setupIndex S) (setupLength S)
    else if setupType S = 0#2 ∧ setupRequest S = 0x01 then
      .clearFeature (setupDirIn S) (setupRecipient S) (setupValue S) (setupIndex S) (setupLength S)
    else if setupType S = 0#2 ∧ setupRequest S = 0x03 then
      .setFeature (setupDirIn S) (setupRecipient S) (setupValue S) (setupIndex S) (setupLength S)
    else if setupType S = 0#2 ∧ setupRequest S = 0x05 then
      .setAddress (setupDirIn S) (setupRecipient S) (setupValue S) (setupIndex S) (setupLength S)
    else if setupRequestType S = 0x00 ∧ setupRequest S = 0x09 then
      .setConfiguration (setupValue S) (setupIndex S) (setupLength S)
    else if setupType S = 0#2 ∧ setupRequest S = 0x06 then
      .getDescriptor (setupDirIn S) (setupRecipient S) (setupValue S) (setupIndex S) (setupLength S)
    else .forward S := by
  have h0 : setupRowTakes 0x0000 0xFF60 S = true ↔ _ := setupRowTakes_standard 0x00 S
  have h1 : setupRowTakes 0x0100 0xFF60 S = true ↔ _ := setupRowTakes_standard 0x01 S
  have h3 : setupRowTakes 0x0300 0xFF60 S = true ↔ _ := setupRowTakes_standard 0x03 S
  have h5 : setupRowTakes 0x0500 0xFF60 S = true ↔ _ := setupRowTakes_standard 0x05 S
  have h9 : setupRowTakes 0x0900 0xFFFF S = true ↔ _ := setupRowTakes_exact 0x00 0x09 S
  have h6 : setupRowTakes 0x0600 0xFF60 S = true ↔ _ := setupRowTakes_standard 0x06 S
  simp only [decodeSetup, h0, h1, h3, h5, h9, h6]

/-- The packets of the FORWARD row: no standard request of the table, and no SET_CONFIGURATION (R87). -/
theorem isForwardPacket_iff (S : BitVec 64) : isForwardPacket S = true ↔
    ¬(setupType S = 0#2 ∧ (setupRequest S = 0x00 ∨ setupRequest S = 0x01 ∨ setupRequest S = 0x03 ∨
      setupRequest S = 0x05 ∨ setupRequest S = 0x06)) ∧
    ¬(setupRequestType S = 0x00 ∧ setupRequest S = 0x09) := by
  have h9 : setupRequest S ++ setupRequestType S = 0x0900#16 ↔ _ := bitVec_append_inj (c := 0x09#8) (d := 0x00#8)
  have hand : isForwardPacket S = (!(setupType S == 0#2 && (setupRequest S == 0x00 || setupRequest S == 0x01 ||
      setupRequest S == 0x03 || setupRequest S == 0x05 || setupRequest S == 0x06)) &&
      !(setupRequest S ++ setupRequestType S == 0x0900#16)) := by
    rw [← extractLsb'_zero_sixteen]
    rfl
  simp only [hand, Bool.and_eq_true, Bool.not_eq_true', Bool.eq_false_iff, ne_eq, Bool.or_eq_true, beq_iff_eq, h9, or_assoc,
    and_comm (a := setupRequest S = 9#8)]
  rfl

/-- A packet is put together from its fields (R75). -/
theorem setupWord_of_fields (S : BitVec 64) :
    setupWord (setupRequestType S) (setupRequest S) (setupValue S) (setupIndex S) (setupLength S) = S := by
  refine BitVec.eq_of_getLsbD_eq fun j hj => ?_
  simp only [setupWord, setupRequestType, setupRequest, setupValue, setupIndex, setupLength, BitVec.getLsbD_append,
    BitVec.getLsbD_extractLsb']
  grind

/-- The request type of a standard request is put together from its direction and its recipient (R76). -/
theorem standardType_of_fields {S : BitVec 64} (h : setupType S = 0#2) :
    standardType (setupDirIn S) (setupRecipient S) = setupRequestType S := by
  refine BitVec.eq_of_getLsbD_eq fun j hj => ?_
  have ht : (setupType S).getLsbD (j - 5) = false := by simp [h]
  simp only [setupType, BitVec.getLsbD_extractLsb'] at ht
  simp only [standardType, setupDirIn, setupRecipient, setupRequestType, BitVec.getLsbD_append, BitVec.getLsbD_extractLsb',
    BitVec.getLsbD_ofBool]
  grind

end Sys2Proof.Machine
end

section
/-! PROOF. The decoder and the encoder are inverse to each other, and the SETUP rows by the fields of a packet (R71 to R73,
R75 to R78, R83, R84, R87, R90). -/

namespace Sys2Proof.Machine

/-- Settles O4, by evaluating the decoder on each word. -/
theorem specWordsDecode : Obligations.SpecWordsDecode := by
  unfold Obligations.SpecWordsDecode
  decide

/-- Settles O3: each clause is one branch of `decodeSetup_eq`. -/
theorem setupRowsByFields : Obligations.SetupRowsByFields := by
  unfold Obligations.SetupRowsByFields
  intro S
  refine ⟨?_, ?_, ?_, ?_, ?_, ?_, fun hstandard hconfigure => ?_⟩
  iterate 6 exact fun ht hq => by simp [decodeSetup_eq, ht, hq]
  rw [decodeSetup_eq, if_neg fun h => hstandard ⟨h.1, .inl h.2⟩, if_neg fun h => hstandard ⟨h.1, .inr (.inl h.2)⟩,
    if_neg fun h => hstandard ⟨h.1, .inr (.inr (.inl h.2))⟩,
    if_neg fun h => hstandard ⟨h.1, .inr (.inr (.inr (.inl h.2)))⟩, if_neg hconfigure,
    if_neg fun h => hstandard ⟨h.1, .inr (.inr (.inr (.inr h.2)))⟩]

/-- Settles O1, by cases on the instruction: a command or a request has the fields it was put together from, an event is a
word with its own bit. -/
theorem decodeAfterEncode : Obligations.DecodeAfterEncode := by
  unfold Obligations.DecodeAfterEncode
  intro i hwf
  cases i with
  | task | bind | enable | disable | queue | dequeue | setHalt | fifoFlush => simp [encode, decode, decodeCmd]
  | reservedCmd cmd arg =>
    have h : cmd.getLsbD 3 = true := hwf
    simp [encode, decode, decodeCmd, h]
  | getStatus | clearFeature | setFeature | setAddress | getDescriptor =>
    simp [encode, decode, decodeSetup_eq, setupWord_fields, standardType_fields]
  | setConfiguration v x l => simp [encode, decode, decodeSetup_eq, setupWord_fields]
  | forward S =>
    obtain ⟨hstandard, hconfigure⟩ := (isForwardPacket_iff S).mp hwf
    obtain ⟨-, -, -, -, -, -, hforward⟩ := setupRowsByFields S
    exact congrArg _ (hforward hstandard hconfigure)
  | vbusOn | reset | suspend | resume | error | vbusOff | stallSent | flushReq => rfl
  | speedDone b | txDone ep b | rxReady ep b => cases b <;> rfl

theorem opcode_below_eight : ∀ opc : BitVec 4, ¬opc.getLsbD 3 = true →
    opc = 0#4 ∨ opc = 1#4 ∨ opc = 2#4 ∨ opc = 3#4 ∨ opc = 4#4 ∨ opc = 5#4 ∨ opc = 6#4 ∨ opc = 7#4 := by decide

section
variable {c : Prop} [Decidable c] {e : Reject} {x : Except Reject Instr} {i : Instr}

@[simp] theorem ite_reject_eq_ok_iff : (if c then .error e else x) = .ok i ↔ ¬c ∧ x = .ok i := by split <;> simp_all

@[simp] theorem ite_else_reject_eq_ok_iff : (if c then x else .error e) = .ok i ↔ c ∧ x = .ok i := by split <;> simp_all

end

/-- What a word that is put together from an opcode below 8 and other fields decodes to (R72). -/
theorem encode_of_decodeCmd_cmdWord {opc ep : BitVec 4} {v : Bool} {arg : Word} {i : Instr} (hopc : ¬opc.getLsbD 3 = true)
    (h : decodeCmd (cmdWord opc ep v) arg = .ok i) :
    encode i = .command (cmdWord opc ep v) arg ∧ (i.wf = true ∨ i = .bind 0) := by
  rcases opcode_below_eight opc hopc with rfl | rfl | rfl | rfl | rfl | rfl | rfl | rfl
  · obtain ⟨rfl, ⟨rfl, rfl⟩, rfl⟩ : v = false ∧ (ep = 0 ∧ arg = 0) ∧ .task = i := by simpa [decodeCmd] using h
    exact ⟨rfl, .inl rfl⟩
  · obtain ⟨rfl, rfl, rfl⟩ : v = false ∧ ep = 0 ∧ .bind arg = i := by simpa [decodeCmd] using h
    by_cases hd : arg = 0
    · exact ⟨rfl, .inr (congrArg _ hd)⟩
    · exact ⟨rfl, .inl (bne_iff_ne.mpr hd)⟩
  · obtain ⟨rfl, rfl⟩ : v = false ∧ .enable ep arg = i := by simpa [decodeCmd] using h
    exact ⟨rfl, .inl rfl⟩
  · obtain ⟨rfl, rfl, rfl⟩ : v = false ∧ arg = 0 ∧ .disable ep = i := by simpa [decodeCmd] using h
    exact ⟨rfl, .inl rfl⟩
  · obtain ⟨rfl, rfl⟩ : v = false ∧ .queue ep arg = i := by simpa [decodeCmd] using h
    exact ⟨rfl, .inl rfl⟩
  · obtain ⟨rfl, rfl⟩ : v = false ∧ .dequeue ep arg = i := by simpa [decodeCmd] using h
    exact ⟨rfl, .inl rfl⟩
  · obtain ⟨rfl, rfl⟩ : arg = 0 ∧ .setHalt ep v = i := by simpa [decodeCmd] using h
    exact ⟨rfl, .inl rfl⟩
  · obtain ⟨rfl, rfl, rfl⟩ : v = false ∧ arg = 0 ∧ .fifoFlush ep = i := by simpa [decodeCmd] using h
    exact ⟨rfl, .inl rfl⟩

/-- A command word that decodes is the encoding of what it decodes to, and only BIND 0 is not well-formed (R72, R117). -/
theorem encode_of_decodeCmd {cmd arg : Word} {i : Instr} (h : decodeCmd cmd arg = .ok i) :
    encode i = .command cmd arg ∧ (i.wf = true ∨ i = .bind 0) := by
  by_cases h3 : cmd.getLsbD 3 = true
  · rw [decodeCmd, if_pos h3] at h
    cases h
    exact ⟨rfl, .inl h3⟩
  by_cases hrsv : cmdRsv cmd = 0
  · rw [← cmdWord_fields hrsv] at h ⊢
    exact encode_of_decodeCmd_cmdWord (getLsbD_three_eq cmd ▸ h3) h
  · rw [decodeCmd, if_neg h3, if_pos (by simpa using hrsv)] at h
    cases h

/-- A packet that is decoded as a standard request is the encoding of its fields (R75, R76). -/
theorem setupWord_of_standard {S : BitVec 64} {q : Byte} (ht : setupType S = 0#2) (hq : setupRequest S = q) :
    setupWord (standardType (setupDirIn S) (setupRecipient S)) q (setupValue S) (setupIndex S) (setupLength S) = S := by
  rw [standardType_of_fields ht, ← hq, setupWord_of_fields]

/-- Every setup packet is the encoding of what it decodes to, which is well-formed (R87, R90). -/
theorem encode_decodeSetup (S : BitVec 64) : encode (decodeSetup S) = .setup S ∧ (decodeSetup S).wf = true := by
  rw [decodeSetup_eq]
  split_ifs with h0 h1 h3 h5 h9 h6
  · exact ⟨congrArg _ (setupWord_of_standard h0.1 h0.2), rfl⟩
  · exact ⟨congrArg _ (setupWord_of_standard h1.1 h1.2), rfl⟩
  · exact ⟨congrArg _ (setupWord_of_standard h3.1 h3.2), rfl⟩
  · exact ⟨congrArg _ (setupWord_of_standard h5.1 h5.2), rfl⟩
  · exact ⟨congrArg _ (h9.1 ▸ h9.2 ▸ setupWord_of_fields S), rfl⟩
  · exact ⟨congrArg _ (setupWord_of_standard h6.1 h6.2), rfl⟩
  · refine ⟨rfl, (isForwardPacket_iff S).mpr ⟨?_, h9⟩⟩
    rintro ⟨ht, hq | hq | hq | hq | hq⟩
    exacts [h0 ⟨ht, hq⟩, h1 ⟨ht, hq⟩, h3 ⟨ht, hq⟩, h5 ⟨ht, hq⟩, h6 ⟨ht, hq⟩]

/-- Settles O2: the branches of the command decoder and of `decodeSetup_eq`, each put together again from its fields. -/
theorem encodeAfterDecode : Obligations.EncodeAfterDecode :=
  ⟨fun _ _ _ => encode_of_decodeCmd, encode_decodeSetup⟩

end Sys2Proof.Machine
end

section
/-! PROOF. What is refused, and the endpoint indices no command takes (R73, R74, R117, R179, R197). -/

namespace Sys2Proof.Machine

theorem outcome_refused {α : Type} {p : Proc α} {s : State} {r : Refusal} (h : p s = .error (.refusal r)) :
    outcome p s = .refused r := by
  unfold outcome
  rw [h]

/-- A command whose rule refuses is refused. -/
theorem command_refused {p : Upcalls → Proc Status} {i : Instr} {s : State} {r : Refusal}
    (h : p (upcalls s.driverScript.length) s = .error (.refusal r)) :
    outcome (withUpcalls fun up => command i (p up)) s = .refused r := by
  have hrule : inCommand i (p (upcalls s.driverScript.length)) s = .error (.refusal r) := by
    unfold inCommand
    rw [h]
  exact outcome_refused (bind_run_error hrule)

/-! ### Command words -/

/-- A reserved or ill-formed command word, or the word of BIND 0 (R73, R117). -/
def illFormed (cmd arg : Word) : Prop :=
  8 ≤ (cmdOpc cmd).toNat ∨ cmdRsv cmd ≠ 0 ∨ (cmdV cmd = true ∧ cmdOpc cmd ≠ 6#4) ∨
    (cmdEp cmd ≠ 0 ∧ (cmdOpc cmd = 0#4 ∨ cmdOpc cmd = 1#4)) ∨
    (arg ≠ 0 ∧ (cmdOpc cmd = 0#4 ∨ cmdOpc cmd = 3#4 ∨ cmdOpc cmd = 6#4 ∨ cmdOpc cmd = 7#4)) ∨
    (arg = 0 ∧ cmdOpc cmd = 1#4)

/-- What such a word decodes to, when it decodes. -/
theorem decodeCmd_illFormed {cmd arg : Word} {i : Instr} (hbad : illFormed cmd arg) (h : decodeCmd cmd arg = .ok i) :
    i = .reservedCmd cmd arg ∨ i = .bind 0 := by
  obtain ⟨he, -⟩ := encode_of_decodeCmd h
  cases i with
  | reservedCmd c a =>
    obtain ⟨rfl, rfl⟩ := Fetched.command.inj he
    exact .inl rfl
  | bind d =>
    obtain ⟨rfl, rfl⟩ := Fetched.command.inj he
    simpa [illFormed] using hbad
  | task | enable | disable | queue | dequeue | setHalt | fifoFlush =>
    obtain ⟨rfl, rfl⟩ := Fetched.command.inj he
    simp [illFormed] at hbad
  | _ => cases he

theorem exec_bind_zero (s : State) : exec (.bind 0) s = .refused .reservedCommand :=
  command_refused (s := s) (i := .bind 0) (p := fun up => bindRule up 0) rfl

theorem runCommand_illFormed {cmd arg : Word} (hbad : illFormed cmd arg) (s : State) :
    runCommand cmd arg s = .refused .reservedCommand := by
  unfold runCommand
  cases h : decodeCmd cmd arg with
  | error e => rfl
  | ok i =>
    rcases decodeCmd_illFormed hbad h with rfl | rfl
    · rfl
    · show afterCommand _ = _
      rw [exec_bind_zero]
      rfl

/-! ### Handles and nesting -/

theorem withRequest_unknown {h : Word} {s : State} (hn : findRequest h s.reqs = none) (rule : Proc Status) :
    withRequest h rule s = .error (.refusal .unknownHandle) := by
  unfold withRequest
  rw [look_bind_run, State.hasRequest, hn]
  rfl

theorem withRequest_known {h : Word} {s : State} (hk : s.hasRequest h = true) (rule : Proc Status) :
    withRequest h rule s = rule s := by
  unfold withRequest
  rw [look_bind_run, if_pos hk]

theorem topLevelOnly_nested {s : State} (hd : 0 < s.dev.upcallDepth) :
    topLevelOnly s = .error (.refusal .reentrantTask) := by
  unfold topLevelOnly
  rw [look_bind_run, if_pos hd]
  rfl

theorem exec_task_nested {s : State} (hd : 0 < s.dev.upcallDepth) : exec .task s = .refused .reentrantTask :=
  command_refused (p := taskRule) (bind_run_error (topLevelOnly_nested hd))

theorem exec_bind_nested {s : State} (hd : 0 < s.dev.upcallDepth) {d : Word} (h0 : d ≠ 0) :
    exec (.bind d) s = .refused .reentrantTask := by
  refine command_refused (p := fun up => bindRule up d) ?_
  unfold bindRule
  rw [if_neg h0]
  exact bind_run_error (topLevelOnly_nested hd)

/-! ### Class-driver writes -/

/-- A field of a queued request's record is not the class driver's to write (R179). -/
theorem writeRecord_queued {h : Word} {r : Request} {s : State} (hr : findRequest h s.reqs = some r)
    (hq : r.queuedOn ≠ none) (f : Request → Request) : writeRecord h f s = .error (.refusal .ownershipViolation) := by
  unfold writeRecord
  rw [look_bind_run, hr]
  dsimp only
  rw [if_pos (Option.isSome_iff_ne_none.mpr hq)]
  rfl

theorem ownsByte_of_mem {r : Request} {base : Word} {a : Nat} (hq : r.queuedOn ≠ none) (hb : r.buf = .sysMem base)
    (h1 : base.toNat ≤ a) (h2 : a < base.toNat + r.length) : r.ownsByte a = true := by
  simp [Request.ownsByte, hb, Option.isSome_iff_ne_none, hq, h1, h2]

/-- A byte of a queued request's buffer is not the class driver's to write (R179). -/
theorem driverWrite_owned {addr : Word} {s : State} (h : (s.reqs.any fun p => p.2.ownsByte addr.toNat) = true) (b : Byte) :
    driverWrite (.memByte addr b) s = .error (.refusal .ownershipViolation) := by
  unfold driverWrite
  dsimp only
  rw [look_bind_run, h]
  rfl

/-- Settles O5: an ill-formed word does not decode, or decodes to what is refused; the other refusals are the first check of
their rules. -/
theorem refusedCommandsAndActions : Obligations.RefusedCommandsAndActions := by
  unfold Obligations.RefusedCommandsAndActions
  refine ⟨fun cmd arg s hbad => runCommand_illFormed hbad s, fun _ _ _ => rfl, fun ep h s hn => ⟨?_, ?_⟩,
    fun s hd => ⟨exec_task_nested hd, fun d h0 => exec_bind_nested hd h0⟩, fun h r s hr hq => ?_,
    fun h r base addr b s hm hq hb h1 h2 => ?_⟩
  · exact command_refused (p := fun up => queueCommand up ep h) (withRequest_unknown hn _)
  · exact command_refused (p := fun up => dequeueCommand up ep h) (withRequest_unknown hn _)
  · have hw := fun f => outcome_refused (writeRecord_queued hr hq f)
    exact ⟨fun _ => hw _, fun _ => hw _, fun _ => hw _, fun _ => hw _⟩
  · exact outcome_refused (driverWrite_owned (List.any_eq_true.mpr ⟨(h, r), hm, ownsByte_of_mem hq hb h1 h2⟩) b)

/-- Settles O15: the index is the first check of each rule, after the handle's. -/
theorem endpointIndexOutOfRange : Obligations.EndpointIndexOutOfRange := by
  unfold Obligations.EndpointIndexOutOfRange
  intro ep s hep
  refine ⟨fun addr => ?_, ?_, fun h hk => ?_, fun h hk => ?_, fun v => ?_, ?_⟩
  · exact command_next (p := fun up => enableRule up ep addr) (by unfold enableRule; rw [look_bind_run, if_pos hep]; rfl)
  · exact command_next (p := fun up => disableRule up ep) (by unfold disableRule; rw [look_bind_run, if_pos hep]; rfl)
  · refine command_next (p := fun up => queueCommand up ep h) ?_
    rw [queueCommand, withRequest_known hk, queueRule, look_bind_run, queueError, if_pos hep]
    rfl
  · refine command_next (p := fun up => dequeueCommand up ep h) ?_
    rw [dequeueCommand, withRequest_known hk, look_bind_run, if_pos hep]
    rfl
  · refine command_next (p := fun up => setHaltRule up ep.toNat v) ?_
    rw [setHaltRule, look_bind_run, setHaltError, if_pos hep]
    rfl
  · exact command_next (p := fun _ => fifoFlushRule ep) (by unfold fifoFlushRule; rw [look_bind_run, if_pos hep]; rfl)

end Sys2Proof.Machine
end

section
/-! PROOF. ENABLE's checks, in order (R81, R110, R190). -/

namespace Sys2Proof.Machine

/-- The seven bytes ENABLE reads at an address (R81, R110). -/
def State.descriptorBytes (s : State) (addr : Word) : List Byte := (List.range' addr.toNat 7).map s.byte

/-- The fields of the descriptor that stands in memory, in the terms of Safety.lean. -/
theorem descriptorMatches_iff {s : State} {ep : BitVec 4} {addr : Word} : s.descriptorMatches ep addr ↔
    descType (s.descriptorBytes addr) = 0x05 ∧ descNumber (s.descriptorBytes addr) = ep ∧
    descDir (s.descriptorBytes addr) = Config.dirOf s.cfg ep.toNat ∧ descTransferType (s.descriptorBytes addr) = 2 := by
  have hdir : ∀ (b : Bool) (d : Dir), (if b then Dir.IN else .OUT) = d ↔ (b = true ↔ d = .IN) := by
    intro b d
    cases b <;> cases d <;> simp
  rw [descDir, hdir]
  rfl

theorem descriptorFits_iff {s : State} {ep : BitVec 4} {addr : Word} : s.descriptorFits ep addr ↔
    ¬(descSize (s.descriptorBytes addr) = 0 ∨ descExtra (s.descriptorBytes addr) ≠ 0 ∨
      descSize (s.descriptorBytes addr) ≠ (s.ep ep.toNat).mps) := by
  rw [not_or, not_or, not_not, not_not]
  rfl

theorem belowAddress_iff (d : DevState) : d.belowAddress = true ↔ ¬(d = .address ∨ d = .configured) := by
  cases d <;> decide

theorem mayEnable_iff {s : State} : s.mayEnable ↔
    ¬(s.dev.driver = none ∨ s.dev.speed = .unknown ∨ s.dev.state.belowAddress = true) := by
  rw [belowAddress_iff, not_or, not_or, not_not]
  rfl

/-- A descriptor that does not match is refused first. -/
theorem descriptorError_of_not_matches {s : State} {ep : BitVec 4} {addr : Word} (h : ¬s.descriptorMatches ep addr) :
    descriptorError s ep (s.descriptorBytes addr) = some .invalidArgument := by
  rw [descriptorMatches_iff] at h
  unfold descriptorError
  split_ifs with h1 h2 h3 h4
  · rfl
  · rfl
  · rfl
  · rfl
  all_goals exact absurd ⟨not_not.mp h1, not_not.mp h2, not_not.mp h3, not_not.mp h4⟩ h

/-- Of one that matches, the size and then the device are checked. -/
theorem descriptorError_of_matches {s : State} {ep : BitVec 4} {addr : Word} (h : s.descriptorMatches ep addr) :
    descriptorError s ep (s.descriptorBytes addr) =
      if descSize (s.descriptorBytes addr) = 0 ∨ descExtra (s.descriptorBytes addr) ≠ 0 ∨
        descSize (s.descriptorBytes addr) ≠ (s.ep ep.toNat).mps then some .rangeError
      else if s.dev.driver = none ∨ s.dev.speed = .unknown ∨ s.dev.state.belowAddress then some .shutdownError
      else none := by
  obtain ⟨h1, h2, h3, h4⟩ := descriptorMatches_iff.mp h
  rw [descriptorError, if_neg (not_not.mpr h1), if_neg (not_not.mpr h2), if_neg (not_not.mpr h3), if_neg (not_not.mpr h4)]

/-- ENABLE of a data endpoint whose descriptor lies in memory and fails a check returns that check's error. -/
theorem exec_enable_error {ep : BitVec 4} {addr : Word} {s : State} {e : Status} (hep : ep.toNat < s.numEps) (h0 : ep ≠ 0)
    (hmem : addr.toNat + 7 ≤ s.cfg.memSize) (he : descriptorError s ep (s.descriptorBytes addr) = some e) :
    exec (.enable ep addr) s = .next (s.returned e) := by
  refine command_next (p := fun up => enableRule up ep addr) ?_
  have hread : memRead addr.toNat 7 s = .ok (s.descriptorBytes addr, s) := memRead_run hmem
  rw [enableRule, look_bind_run, if_neg (by omega), if_neg (toNat_ne_zero h0), bind_run_ok hread, look_bind_run, he]
  rfl

/-- Endpoint 0 is not enabled by command. -/
theorem exec_enable_control {ep : BitVec 4} (h0 : ep = 0) (addr : Word) {s : State} (hep : ep.toNat < s.numEps) :
    exec (.enable ep addr) s = .next (s.returned .invalidArgument) := by
  refine command_next (p := fun up => enableRule up ep addr) ?_
  rw [enableRule, look_bind_run, if_neg (by omega), if_pos (c := ep.toNat = 0) (congrArg BitVec.toNat h0)]
  rfl

/-- Settles O18: ENABLE returns the first of its checks that fails. -/
theorem enableChecksInOrder : Obligations.EnableChecksInOrder := by
  unfold Obligations.EnableChecksInOrder
  intro ep addr s hep
  refine ⟨fun h0 => exec_enable_control h0 addr hep, fun h0 hmem => ⟨fun hm => ?_, fun hm hf => ?_, fun hm hf hd => ?_⟩⟩
  · exact exec_enable_error hep h0 hmem (descriptorError_of_not_matches hm)
  · refine exec_enable_error hep h0 hmem ?_
    rw [descriptorError_of_matches hm, if_pos (not_not.mp (descriptorFits_iff.not.mp hf))]
  · refine exec_enable_error hep h0 hmem ?_
    rw [descriptorError_of_matches hm, if_neg (descriptorFits_iff.mp hf), if_pos (not_not.mp (mayEnable_iff.not.mp hd))]

end Sys2Proof.Machine
end

section
/-! PROOF. Setup reception: RX_READY on endpoint 0 outside RECV (R92, R109, R134, R136 to R139, R141). -/

namespace Sys2Proof.Machine

/-! ### Up to the packet -/

/-- What PROCESS_SETUP needs to reach the packet undisturbed: no move of the SIE, and no request to end or idle agents. -/
structure State.TakesSetup (s : State) : Prop where
  inv : s.Inv
  quiet : s.betweenMoves = []
  idle : (s.ep 0).queue = [] ∨ s.Undisturbed

/-- The state in which PROCESS_SETUP looks at the packet: the queued requests have ended, and the stall and the halt with
them (R136, R138). -/
def State.setupCleared (s : State) : State :=
  ((s.finishedAll 0 .protocolError).setSieEp 0 fun e => { e with stall := false }).setEp 0 fun e => { e with halted := false }

theorem setupCleared_sie (s : State) : s.setupCleared.sie = s.sie.setEp 0 fun e => { e with stall := false } := by
  show (s.finishedAll 0 .protocolError).sie.setEp 0 _ = _
  rw [finishedAll_sie]

/-- What the SIE does next to endpoint 0 may as well be done before its halt ends. -/
theorem setupCleared_setSieEp (s : State) (f : SieEndpoint → SieEndpoint) :
    s.setupCleared.setSieEp 0 f = ((s.finishedAll 0 .protocolError).setSieEp 0 fun e => f { e with stall := false }).setEp 0
      fun e => { e with halted := false } :=
  congrArg (fun t => State.setEp t 0 fun e => { e with halted := false }) (setSieEp_setSieEp _ 0 _ f)

section
variable {s : State} (hs : s.TakesSetup)
include hs

theorem State.TakesSetup.exists_ : 0 < s.sie.eps.length :=
  hs.inv.sieEndpoints ▸ (show 0 < s.numEps from Nat.lt_of_lt_of_le (by decide) (config_bounds hs.inv.configuration).1)

theorem State.TakesSetup.nuke (n : Nat) :
    Machine.nuke (upcalls n) 0 .protocolError s = .ok ((), s.finishedAll 0 .protocolError) := by
  rcases hs.idle with hq | hu
  · unfold Machine.nuke State.finishedAll State.snapshot
    rw [look_bind_run, change_bind_run, hq]
    rfl
  · exact nuke_idle hs.inv hu n 0 .protocolError

theorem State.TakesSetup.cleared_quiet : s.setupCleared.betweenMoves = [] := by
  show (s.finishedAll 0 .protocolError).betweenMoves = []
  rcases hs.idle with hq | hu
  · rw [State.finishedAll, hq]
    exact hs.quiet
  · exact (hu.finishedAll 0 .protocolError).quiet

/-- Ending the requests takes answers off the class driver's script and adds none. -/
theorem State.TakesSetup.cleared_script : s.setupCleared.driverScript.length ≤ s.driverScript.length := by
  show (s.finishedAll 0 .protocolError).driverScript.length ≤ _
  exact ScriptShrinks.effect.toCommandKept.nuke (ScriptShrinks.effect.toCommandKept.upcalls 0) 0 .protocolError _ _ _ (hs.nuke 0)

theorem State.TakesSetup.cleared_sieEp : s.setupCleared.sie.ep 0 = { s.sie.ep 0 with stall := false } := by
  rw [setupCleared_sie, sieEp_setEp_self _ _ _ hs.exists_]

theorem State.TakesSetup.cleared_servable : s.setupCleared.Servable 0 where
  exists_ := by
    rw [setupCleared_sie, sieSetEp_length]
    exact hs.exists_
  fifo := by
    have hcfg : s.setupCleared.cfg = s.cfg := finishedAll_cfg s 0 .protocolError
    have he := hs.inv.fifo 0
    rw [hs.cleared_sieEp, hcfg]
    exact ⟨he.rxSizes, he.rxCount, he.rxEven, he.rxInside, he.txSizes, he.txCount, he.txLacks⟩

/-- The count read of the packet, where the endings left it. -/
theorem State.TakesSetup.readWordCount : Machine.readWordCount 0 s.setupCleared =
    .ok ((s.setupCleared.sie.ep 0).readWordCount.1, s.setupCleared.setSieEp 0 fun e => e.readWordCount.2) :=
  readWordCount_quiet hs.cleared_quiet 0 (receivedBytes_eq hs.cleared_servable.fifo 0 0).1

/-- PROCESS_SETUP ends the requests, the stall and the halt, and then counts the packet's bytes (R136, R138). -/
theorem State.TakesSetup.processSetup (n : Nat) : Machine.processSetup (upcalls n) s =
    (if (s.sie.ep 0).pendingBytes.length ≠ 8 then
      discardWords 0 (s.setupCleared.sie.ep 0).readWordCount.1 >>= fun _ => stallEp0 >>= fun _ => setCtl .waitForSetup
    else readSetupPacket >>= fun S => runSetup S (dispatchRule (upcalls n) S (decodeSetup S)))
      (s.setupCleared.setSieEp 0 fun e => e.readWordCount.2) := by
  have hclear : clearSetupStall (s.finishedAll 0 .protocolError) = .ok ((), s.setupCleared) :=
    clearSetupStall_quiet hs.cleared_quiet
  have hcounted : ∀ fp, receivedBytes (s.setupCleared.sie.ep 0).readWordCount.1
      (((s.setupCleared.sie.setEp 0 fun e => e.readWordCount.2).ep 0).esrWord fp 0) = (s.sie.ep 0).pendingBytes.length := by
    intro fp
    rw [sieEp_setEp_self _ _ _ hs.cleared_servable.exists_, (receivedBytes_eq hs.cleared_servable.fifo fp 0).2,
      hs.cleared_sieEp]
    rfl
  unfold Machine.processSetup
  rw [bind_run_ok (hs.nuke n), bind_run_ok hclear, bind_run_ok hs.readWordCount,
    bind_run_ok (regRead_quiet (s := s.setupCleared.setSieEp 0 fun e => e.readWordCount.2) (r := .esr 0) hs.cleared_quiet rfl)]
  simp only [Sie.read, setSieEp_sie, hcounted]

/-- RX_READY on endpoint 0 outside RECV runs PROCESS_SETUP (R134). -/
theorem State.TakesSetup.exec_rxReady (hctl : s.dev.ctl ≠ .recv) (p : Bool) {t : State}
    (h : Machine.processSetup (upcalls s.driverScript.length) s = .ok ((), t)) : exec (.rxReady 0 p) s = .next t := by
  refine handler_next (p := fun up => ifServed 0 (rxReadyRule up 0 p)) ?_
  have hserved : endpointServed s 0 = true := by
    have := hs.inv.sieEndpoints ▸ hs.exists_
    simpa [endpointServed] using this
  rw [ifServed, look_bind_run, if_pos hserved, rxReadyRule, if_pos rfl, ep0RxReady, look_bind_run,
    if_neg (by simpa using hctl), h]

end

/-! ### A packet that is no setup packet -/

theorem setEp_halted_halted (s : State) (i : Nat) (a b : Bool) :
    (s.setEp i fun e => { e with halted := a }).setEp i (fun e => { e with halted := b }) =
      s.setEp i fun e => { e with halted := b } := by
  simp only [State.setEp, List.modify_modify_eq]
  rfl

/-- Settles O45: the packet is drained from where the requests' end left it, and endpoint 0 is stalled again. -/
theorem rxReadyStallsABadSetup : Obligations.RxReadyStallsABadSetup := by
  unfold Obligations.RxReadyStallsABadSetup
  intro p s hinv hu hctl hlen
  have hs : s.TakesSetup := ⟨hinv, hu.quiet, .inr hu⟩
  refine hs.exec_rxReady hctl p ?_
  have hdrain := drainOne_quiet hs.cleared_quiet hs.cleared_servable
    fun _ => stallEp0 >>= fun _ => setCtl .waitForSetup
  rw [bind_run_ok hs.readWordCount] at hdrain
  rw [hs.processSetup, if_pos hlen, hdrain, stallEp0,
    bind_run_ok (haltFields_quiet (s := s.setupCleared.setSieEp 0 (SieEndpoint.dropPackets 1)) hs.cleared_quiet 0 true),
    setupCleared_setSieEp]
  exact congrArg (fun t => Except.ok ((), State.withCtl t .waitForSetup)) (setEp_halted_halted
    (((s.finishedAll 0 .protocolError).setSieEp 0 fun e => { SieEndpoint.dropPackets 1 e with stall := false }).stallWritten
      0 true) 0 false true)

/-! ### A setup packet -/

/-- A SETUP row as an instruction is the dispatch of its packet (R136, R141). -/
theorem exec_setup_next_iff {i : Instr} {S : BitVec 64} (hi : encode i = .setup S) {s t : State} :
    exec i s = .next t ↔ runSetup S (dispatchRule (upcalls s.driverScript.length) S i) s = .ok ((), t) := by
  have hrow : exec i s = outcome (withUpcalls fun up => inCommand i (runSetup S (dispatchRule up S i))) s := by
    obtain rfl : setupPacketOf i = S := by rw [setupPacketOf, hi]
    cases i with
    | getStatus | clearFeature | setFeature | setAddress | setConfiguration | getDescriptor | forward => rfl
    | _ => cases hi
  rw [hrow, outcome_next_iff]
  exact ⟨fun ⟨_, h⟩ => inCommand_ok_iff.mp h, fun h => ⟨(), inCommand_ok_iff.mpr h⟩⟩

/-- More levels of upcalls than the script has answers change nothing of a dispatch (R200). -/
theorem runSetup_fuel {s : State} {m : Nat} (hm : s.driverScript.length ≤ m) (S : BitVec 64) (i : Instr) :
    runSetup S (dispatchRule (upcalls m) S i) s = runSetup S (dispatchRule (upcalls s.driverScript.length) S i) s :=
  ((Alike.runSetup S (Alike.dispatchRule (fun u => upcalls_fuel hm u) S i)).same s (Nat.le_refl _)).symm

/-- A setup packet at the head: its eight bytes are counted, and the count read leaves it there. -/
theorem State.TakesSetup.processSetup_packet {s : State} (hs : s.TakesSetup) (n : Nat) {S : BitVec 64} {eot : Bool}
    {rest : List RxPacket} (hq : (s.sie.ep 0).rxQueue = ⟨setupBytes S, eot⟩ :: rest) (hpos : (s.sie.ep 0).rxPos = 0) :
    Machine.processSetup (upcalls n) s = runSetup S (dispatchRule (upcalls n) S (decodeSetup S))
      (((s.finishedAll 0 .protocolError).setSieEp 0 fun e => { e with stall := false, rxQueue := rest }).setEp 0
        fun e => { e with halted := false }) := by
  have hlen : (s.sie.ep 0).pendingBytes.length = 8 := by
    rw [pendingBytes_head hq hpos]
    rfl
  have hcleared := hs.cleared_sieEp
  have hcount : (s.setupCleared.setSieEp 0 fun e => e.readWordCount.2) = s.setupCleared := by
    unfold State.setSieEp
    rw [sieSetEp_eq_self]
    rw [hcleared, SieEndpoint.readWordCount]
    simp only [hq]
    rfl
  have hread := readSetupPacket_quiet hs.cleared_quiet hs.cleared_servable.exists_ (S := S) (eot := eot) (rest := rest)
    (hcleared ▸ hq) (hcleared ▸ hpos)
  rw [hs.processSetup, if_neg (not_not.mpr hlen), hcount, bind_run_ok hread, setupCleared_setSieEp,
    setSieEp_congr (g := fun e => { e with stall := false, rxQueue := rest })]
  rw [finishedAll_sie, hpos]

/-- Settles O44: the packet is read where the requests' end left it, and its row's dispatch is the row's instruction; the
upcalls may nest as deep as before the requests ended. -/
theorem rxReadyExecutesTheSetup : Obligations.RxReadyExecutesTheSetup := by
  unfold Obligations.RxReadyExecutesTheSetup
  intro S eot p rest s t hinv hquiet hidle hctl hq hpos hexec
  have hs : s.TakesSetup := ⟨hinv, hquiet, hidle⟩
  refine hs.exec_rxReady hctl p ?_
  rw [hs.processSetup_packet _ hq hpos, runSetup_fuel (by exact hs.cleared_script)]
  exact (exec_setup_next_iff (encode_decodeSetup S).1).mp hexec

end Sys2Proof.Machine
end

section
/-! PROOF. BIND, ENABLE and DISABLE where they succeed (R110, R113, R117, R197). -/

namespace Sys2Proof.Machine

/-! ### BIND -/

/-- An upcall whose answer holds no action, whatever the answers after it are. -/
theorem upcalls_inactive {s : State} (ha : s.nextResponse.actions = []) (n : Nat) (u : Upcall) :
    upcalls n u s = .ok (s.nextResponse.ret, s.afterUpcall u) := by
  have hr : (s.enterUpcall u).nextResponse = s.nextResponse := rfl
  cases n with
  | zero | succ n =>
    simp only [upcalls, upcallWith, change_bind_run, look_bind_run, hr, ha, eachOf_nil, pure_bind_run]
    rfl

/-- The state in which BIND calls `init` (R117). -/
def State.bound (s : State) (d : Word) : State := s.setDev fun v => { v with driver := some d }

theorem topLevelOnly_run {s : State} (hd : s.dev.upcallDepth = 0) : topLevelOnly s = .ok ((), s) := by
  unfold topLevelOnly
  rw [look_bind_run, if_neg (by omega)]
  rfl

section
variable {d : Word} {s : State} (h0 : d ≠ 0) (hd : s.dev.upcallDepth = 0)
include h0 hd

theorem exec_bind_bound (hb : s.dev.driver ≠ none) : exec (.bind d) s = .next (s.returned .invalidArgument) := by
  obtain ⟨e, he⟩ := Option.ne_none_iff_exists'.mp hb
  refine command_next (p := fun up => bindRule up d) ?_
  rw [bindRule, if_neg h0, bind_run_ok (topLevelOnly_run hd), look_bind_run, he]
  rfl

/-- BIND with none bound is the driver recorded and the upcall, whatever happens in it. -/
theorem exec_bind_of_upcall (hb : s.dev.driver = none) {w : Word} {t : State}
    (hu : upcalls s.driverScript.length .init (s.bound d) = .ok (w, t)) : exec (.bind d) s = .next (t.returned .ok) := by
  refine command_next (p := fun up => bindRule up d) ?_
  rw [bindRule, if_neg h0, bind_run_ok (topLevelOnly_run hd), look_bind_run, hb]
  unfold State.bound at hu
  dsimp only
  rw [change_bind_run, bind_run_ok hu]
  rfl

end

/-- Settles O17: the two refusals are BIND's first checks; past them it looks at the driver and calls `init`. -/
theorem bindRegistersTheDriver : Obligations.BindRegistersTheDriver := by
  unfold Obligations.BindRegistersTheDriver
  intro d s
  refine ⟨fun h0 => h0 ▸ exec_bind_zero s, fun h0 hd => exec_bind_nested hd h0, fun h0 hd hb => exec_bind_bound h0 hd hb,
    fun h0 hd hb => ⟨fun t ht => ?_, fun ha => ?_⟩⟩
  · obtain ⟨w, hw⟩ := outcome_next_iff.mp ht
    exact exec_bind_of_upcall h0 hd hb hw
  · exact exec_bind_of_upcall h0 hd hb (upcalls_inactive (s := s.bound d) ha _ _)

/-! ### ENABLE -/

/-- Two updates that agree on the record are one. -/
theorem setEp_congr {s : State} {i : Nat} {f g : Endpoint → Endpoint} (h : f (s.ep i) = g (s.ep i)) :
    s.setEp i f = s.setEp i g := by
  have hl : s.eps.modify i f = s.eps.modify i g := by
    refine List.ext_getElem? fun j => ?_
    rw [List.getElem?_modify, List.getElem?_modify]
    by_cases hj : i = j
    · subst hj
      cases he : s.eps[i]? with
      | none => rfl
      | some e => simpa [State.ep, List.getD_eq_getElem?_getD, he] using h
    · simp [hj]
  rw [State.setEp, hl, State.setEp]

/-- Data endpoint i bound by ENABLE with the size it has: direction and size in the registers, enabled, not halted, its
interrupt unmasked (R110). -/
def State.enabled (s : State) (i : Nat) : State :=
  ((s.setSieEp i fun e =>
    { e with stall := false, dirIn := decide (Config.dirOf s.cfg i = .IN), mps := (s.ep i).mps }).setEp i
      fun e => { e with enabled := true, halted := false }).unmasked i

theorem enableFields_enabled {s : State} (hs : s.Inv) (hu : s.Undisturbed) {i : Nat} (hi : i < s.numEps) :
    enableFields i (s.ep i).mps s = .ok ((), s.enabled i) := by
  rw [enableFields_quiet hs hu hi, setEp_congr (g := fun e => { e with enabled := true, halted := false }) rfl]
  rfl

theorem State.Undisturbed.enabled {s : State} (hu : s.Undisturbed) (i : Nat) : (s.enabled i).Undisturbed :=
  hu.of_eq rfl rfl rfl rfl rfl

/-- A descriptor with which ENABLE succeeds: its size is the endpoint's (R110). -/
theorem descriptor_accepted {s : State} {ep : BitVec 4} {addr : Word} (hm : s.descriptorMatches ep addr)
    (hf : s.descriptorFits ep addr) (hd : s.mayEnable) :
    descriptorError s ep (s.descriptorBytes addr) = none ∧ descSize (s.descriptorBytes addr) = (s.ep ep.toNat).mps :=
  ⟨by rw [descriptorError_of_matches hm, if_neg (descriptorFits_iff.mp hf), if_neg (mayEnable_iff.mp hd)], hf.2.2⟩

/-- Settles O19: the checks pass, the registers and fields are written, and the endpoint is tried if it is an IN
endpoint. -/
theorem enableBindsTheEndpoint : Obligations.EnableBindsTheEndpoint := by
  unfold Obligations.EnableBindsTheEndpoint
  intro ep addr s hs hu h0 hi hmem hm hf hd
  obtain ⟨herr, hsize⟩ := descriptor_accepted hm hf hd
  have hread : memRead addr.toNat 7 s = .ok (s.descriptorBytes addr, s) := memRead_run hmem
  have henable := enableFields_enabled hs hu hi
  have hinv : (s.enabled ep.toNat).Inv := (InvKept.commands.enable s ep _ _
    (Nat.one_le_iff_ne_zero.mpr (toNat_ne_zero h0)) hi herr (hsize ▸ henable)).2 hs
  have hdir : (s.enabled ep.toNat).epDir ep.toNat = Config.dirOf s.cfg ep.toNat := if_neg (toNat_ne_zero h0)
  refine command_next (p := fun up => enableRule up ep addr) ?_
  rw [enableRule, look_bind_run, if_neg (Nat.not_le.mpr hi), if_neg (toNat_ne_zero h0), bind_run_ok hread, look_bind_run,
    herr]
  dsimp only
  rw [hsize, bind_run_ok henable, bind_run_ok (resumeIn_idle hinv (hu.enabled _) _ hi), hdir]
  rfl

/-! ### DISABLE -/

/-- Settles O21: the endpoint is shut, then its queue is nuked. -/
theorem disableShutsTheEndpoint : Obligations.DisableShutsTheEndpoint := by
  unfold Obligations.DisableShutsTheEndpoint
  intro ep s hi
  refine ⟨fun h0 => ?_, fun h0 hs hu => ?_⟩
  · refine command_next (p := fun up => disableRule up ep) ?_
    rw [disableRule, look_bind_run, if_neg (Nat.not_le.mpr hi), if_pos (c := ep.toNat = 0) (congrArg BitVec.toNat h0)]
    rfl
  · have h1 : 1 ≤ ep.toNat := Nat.one_le_iff_ne_zero.mpr (toNat_ne_zero h0)
    refine command_next (p := fun up => disableRule up ep) ?_
    rw [disableRule, look_bind_run, if_neg (Nat.not_le.mpr hi), if_neg (toNat_ne_zero h0),
      bind_run_ok (shutFields_quiet hs hu.quiet h1),
      bind_run_ok (nuke_idle (hs.shutDown hu h1 hi) (hu.shutDown _) _ _ _)]
    rfl

end Sys2Proof.Machine
end

section
/-! PROOF. QUEUE, DEQUEUE, SET_HALT and FIFO_FLUSH (R94, R98, R99, R111, R112, R114 to R116, R190). -/

namespace Sys2Proof.Machine

/-! ### QUEUE -/

/-- QUEUE of a known handle returns what its rule returns. -/
theorem exec_queue_next {ep : BitVec 4} {h : Word} {s t : State} {r : Status} (hk : s.hasRequest h = true)
    (hr : queueRule (upcalls s.driverScript.length) ep.toNat (.user h) s = .ok (r, t)) :
    exec (.queue ep h) s = .next (t.returned r) := by
  refine command_next (p := fun up => queueCommand up ep h) ?_
  rw [queueCommand, withRequest_known hk, hr]

theorem exec_queue_error {ep : BitVec 4} {h : Word} {s : State} {e : Status} (hk : s.hasRequest h = true)
    (he : queueError s ep.toNat (.user h) = some e) : exec (.queue ep h) s = .next (s.returned e) := by
  refine exec_queue_next hk ?_
  rw [queueRule, look_bind_run, he]
  rfl

/-- Settles O22: QUEUE returns the first of its checks that fails. -/
theorem queueChecksInOrder : Obligations.QueueChecksInOrder := by
  unfold Obligations.QueueChecksInOrder
  intro ep h s hi hk
  refine ⟨fun hbad => exec_queue_error hk ?_, fun hbuf hfree hbad => exec_queue_error hk ?_⟩
  · rw [queueError, if_neg (Nat.not_le.mpr hi), if_pos hbad]
  · rw [queueError, if_neg (Nat.not_le.mpr hi), if_neg (by simp [hbuf, hfree])]
    by_cases hdev : s.dev.driver = none ∨ s.dev.speed = .unknown
    · rw [if_pos hdev]
    · have hend : ep ≠ 0 ∧ (s.ep ep.toNat).enabled = false := by
        rcases hbad with hbad | hbad | hbad
        · exact absurd (.inl hbad) hdev
        · exact absurd (.inr hbad) hdev
        · exact hbad
      rw [if_neg hdev, if_pos ⟨toNat_ne_zero hend.1, hend.2⟩]

theorem exec_queue_accepts {ep : BitVec 4} {h : Word} {s : State} (hs : s.Inv) (hu : s.Undisturbed) (hi : ep.toNat < s.numEps)
    (hk : s.hasRequest h = true) (hm : s.mayQueue ep.toNat (.user h)) :
    exec (.queue ep h) s = .next ((s.queued ep.toNat (.user h)).returned .ok) :=
  exec_queue_next hk (queueRule_idle hs hu _ hi hm)

/-- Settles O23: its rule, in one piece, on a handle that is known. -/
theorem queueAcceptsTheRequest : Obligations.QueueAcceptsTheRequest := by
  unfold Obligations.QueueAcceptsTheRequest
  intro ep h s hs hu hi hk hm
  exact exec_queue_accepts hs hu hi hk hm

/-! ### The first packet of an IN request -/

/-- Request h, accepted by QUEUE, stands at the end of endpoint i's queue (R111). -/
def State.appended (s : State) (i : Nat) (h : Handle) : State :=
  ((s.setReq h Request.begun).setEp i fun e => { e with queue := e.queue ++ [h] }).setReq h
    fun r => { r with queuedOn := some i }

/-- The state after WRITE_FIFO's packet, before the request may end (R98). -/
def State.packetStaged (s : State) (i : Nat) (h : Handle) : State :=
  (s.setSieEp i fun e => { e with
    txQueue := e.txQueue ++ [s.bufferBytes (s.req h).buf (s.req h).actual (s.nextPacket i h)], txCur := none }).advanced h
      (s.nextPacket i h)

/-- Whether the next IN packet of request h is its last (R99). -/
def State.lastPacket (s : State) (i : Nat) (h : Handle) : Bool := (s.packetStaged i h).lastIn i h (s.nextPacket i h)

theorem sentPacket_eq (s : State) (i : Nat) (h : Handle) :
    s.sentPacket i h = (s.packetStaged i h).endedIf (s.lastPacket i h) i h := rfl

theorem sentPacket_mem (s : State) (i : Nat) (h : Handle) : (s.sentPacket i h).mem = s.mem := by
  rw [sentPacket_eq, endedIf_mem, State.packetStaged, State.advanced, setReq_mem, setSieEp_mem]

section
variable {s : State} {i : Nat} {h : Handle}

/-- LAST_IN after a packet of n bytes has been counted (R99). -/
theorem lastIn_advanced (hk : s.known h = true) (n : Nat) : (s.advanced h n).lastIn i h n =
    (decide (n < (s.ep i).mps.toNat) || (decide ((s.req h).actual + n = (s.req h).length) && !(s.req h).zero)) := by
  rw [State.lastIn, req_advanced hk, State.advanced, ep_setReq]

theorem lastPacket_eq (hk : s.known h = true) : s.lastPacket i h = (decide (s.nextPacket i h < (s.ep i).mps.toNat) ||
    (decide ((s.req h).actual + s.nextPacket i h = (s.req h).length) && !(s.req h).zero)) := by
  rw [State.lastPacket, State.packetStaged, lastIn_advanced (by exact hk), setSieEp_ep, setSieEp_req]

/-- The record of a request after one IN packet (R94, R98). -/
theorem sentPacket_req (hk : s.known h = true) : (s.sentPacket i h).req h =
    if s.lastPacket i h then Request.completed .ok { s.req h with actual := (s.req h).actual + s.nextPacket i h }
    else { s.req h with actual := (s.req h).actual + s.nextPacket i h } := by
  have hk' : (s.packetStaged i h).known h = true := by
    rw [State.packetStaged, State.advanced, known_setReq]
    exact hk
  rw [sentPacket_eq, endedIf_req hk', State.packetStaged, req_advanced (by exact hk), setSieEp_req]

/-- The queue after one IN packet of its head request (R94). -/
theorem sentPacket_queue (hi : i < s.eps.length) {rest : List Handle} (hq : (s.ep i).queue = h :: rest) :
    ((s.sentPacket i h).ep i).queue = if s.lastPacket i h then rest else h :: rest := by
  rw [sentPacket_eq, endedIf_queue]
  · rwa [State.packetStaged, State.advanced, setReq_eps]
  · rwa [State.packetStaged, State.advanced, ep_setReq]

theorem appended_req (hk : s.known h = true) :
    (s.appended i h).req h = { (s.req h).begun with queuedOn := some i } := by
  rw [State.appended, req_setReq_self _ _ _ (by rwa [known_setEp, known_setReq]), req_setEp, req_setReq_self _ _ _ hk]

theorem appended_ep (hi : i < s.eps.length) :
    (s.appended i h).ep i = { s.ep i with queue := (s.ep i).queue ++ [h] } := by
  rw [State.appended, ep_setReq, ep_setEp_self _ _ _ (by rwa [setReq_eps]), ep_setReq]

@[simp] theorem appended_sie (s : State) (i : Nat) (h : Handle) : (s.appended i h).sie = s.sie := by simp [State.appended]
@[simp] theorem appended_cfg (s : State) (i : Nat) (h : Handle) : (s.appended i h).cfg = s.cfg := by simp [State.appended]
@[simp] theorem appended_eps (s : State) (i : Nat) (h : Handle) : (s.appended i h).eps.length = s.eps.length := by
  simp [State.appended]
@[simp] theorem appended_mem (s : State) (i : Nat) (h : Handle) : (s.appended i h).mem = s.mem := by simp [State.appended]
@[simp] theorem appended_known (s : State) (i : Nat) (h k : Handle) : (s.appended i h).known k = s.known k := by
  simp [State.appended]

/-- The first packet is cut from the start of the buffer (R98, R111). -/
theorem appended_nextPacket (hk : s.known h = true) (hi : i < s.eps.length) :
    (s.appended i h).nextPacket i h = min (s.req h).length (s.ep i).mps.toNat := by
  rw [State.nextPacket, appended_req hk, appended_ep hi]
  rfl

theorem appended_lastPacket (hk : s.known h = true) (hi : i < s.eps.length) : (s.appended i h).lastPacket i h =
    (decide (min (s.req h).length (s.ep i).mps.toNat < (s.ep i).mps.toNat) ||
      (decide (min (s.req h).length (s.ep i).mps.toNat = (s.req h).length) && !(s.req h).zero)) := by
  rw [lastPacket_eq (by rwa [appended_known]), appended_nextPacket hk hi, appended_req hk, appended_ep hi, begun_actual,
    Nat.zero_add]
  rfl

/-- QUEUE on a data endpoint that has no other request tries to serve it at once (R111). -/
theorem queued_alone (hi : i < s.eps.length) (h0 : i ≠ 0) (hq : (s.ep i).queue = []) :
    s.queued i h = (s.appended i h).tried i := by
  have hq' : ((s.appended i h).ep i).queue = [h] := by rw [appended_ep hi, hq, List.nil_append]
  unfold State.queued
  dsimp only
  rw [if_neg (by simp [h0])]
  exact if_pos hq'

/-- An IN data endpoint whose head request is h, with room for a packet, stages one (R96, R97). -/
theorem tried_in (h0 : i ≠ 0) (hd : Config.dirOf s.cfg i = .IN) (hh : (s.ep i).halted = false) {rest : List Handle}
    (hq : (s.ep i).queue = h :: rest) (hsp : (s.sie.ep i).txSpace s.cfg.fifoPkts = true) :
    s.tried i = s.sentPacket i h := by
  have hdir : s.epDir i = .IN := (epDir_data h0).trans hd
  have hready : s.ready i = true := by simp [State.ready, State.canStart, hq, hh, h0, hdir, hsp]
  rw [State.tried, if_pos hready, State.served, hq]
  dsimp only
  rw [hdir]

end

/-- Settles O24: the request stands alone in the queue of an endpoint with room, so its first packet is staged. -/
theorem queueSendsTheFirstPacket : Obligations.QueueSendsTheFirstPacket := by
  unfold Obligations.QueueSendsTheFirstPacket
  intro ep h base s hs hu h0 hi hk hm hbuf hd hh hq htx hroom i r n last
  have hi' : i < s.eps.length := hs.endpoints ▸ hi
  have hknown : (s.appended i (.user h)).known (.user h) = true := (appended_known ..).trans hk
  have hep : (s.appended i (.user h)).ep i = { s.ep i with queue := [.user h] } := by
    rw [appended_ep hi', hq, List.nil_append]
  have hreq : (s.appended i (.user h)).req (.user h) = { r.begun with queuedOn := some i } := appended_req hk
  have hn : (s.appended i (.user h)).nextPacket i (.user h) = n := appended_nextPacket (h := .user h) hk hi'
  have hlast : (s.appended i (.user h)).lastPacket i (.user h) = last := appended_lastPacket (h := .user h) hk hi'
  have hsent : s.queued i (.user h) = (s.appended i (.user h)).sentPacket i (.user h) := by
    rw [queued_alone hi' (toNat_ne_zero h0) hq]
    refine tried_in (toNat_ne_zero h0) (by rwa [appended_cfg]) (by rwa [hep]) (by rw [hep]) ?_
    rw [appended_sie, appended_cfg]
    simp [SieEndpoint.txSpace, i, htx, hroom]
  have hend := sentPacket_req (i := i) hknown
  rw [hlast, hn, hreq, begun_actual, Nat.zero_add] at hend
  have hx := exec_queue_accepts hs hu hi hk hm
  rw [hsent] at hx
  refine ⟨_, hx, rfl, ?_, ?_, ?_, ?_, ?_, fun a => ?_⟩
  · have hbytes : (s.appended i (.user h)).bufferBytes r.buf 0 n = (List.range n).map fun k => s.byte (base.toNat + k) := by
      simp only [r, hbuf, State.bufferBytes, State.byte, appended_mem, Nat.add_zero]
    show (((s.appended i (.user h)).sentPacket i (.user h)).sie.ep i).txQueue = _
    rw [sentPacket_sie, hn, hreq, appended_sie, sieEp_setEp_self _ _ _ (hs.sieEndpoints ▸ hi)]
    exact congrArg (fun b => (s.sie.ep i).txQueue ++ [b]) hbytes
  · rw [req_returned, hend]
    split <;> rfl
  · rw [req_returned, hend]
    split <;> rfl
  · rw [req_returned, hend]
    split <;> rfl
  · rw [ep_returned, sentPacket_queue (rest := []) (by rwa [appended_eps]) (by rw [hep]), hlast]
  · exact congrArg (Memory.read · a) ((sentPacket_mem ..).trans (appended_mem ..))

/-! ### DEQUEUE -/

/-- What the end of a request does to the control sub-state (R94). -/
theorem finished_ctl (s : State) (i : Nat) (h : Handle) (st : Status) :
    (s.finished i h st).dev.ctl = if i = 0 then .waitForSetup else s.dev.ctl := by
  have hc : (s.completed i h st).dev.ctl = if i = 0 then .waitForSetup else s.dev.ctl := by
    unfold State.completed
    split <;> simp
  unfold State.finished
  split
  · exact hc
  · rw [← hc]
    show ((s.completed i h st).enterUpcall _).afterResponse.dev.ctl = _
    rw [afterResponse_dev]
    rfl

/-- Settles O25: the completion of COMPLETE, wherever the request stands. -/
theorem dequeueEndsTheRequest : Obligations.DequeueEndsTheRequest := by
  unfold Obligations.DequeueEndsTheRequest
  intro ep h s hi hk
  refine ⟨fun hn => ?_, fun hq hs hu => ?_⟩
  · refine command_next (p := fun up => dequeueCommand up ep h) ?_
    rw [dequeueCommand, withRequest_known hk, look_bind_run, if_neg (Nat.not_le.mpr hi), look_bind_run,
      if_neg (by simpa using hn)]
    rfl
  · have hx : exec (.dequeue ep h) s = .next ((s.finished ep.toNat (.user h) .connectionReset).returned .ok) := by
      refine command_next (p := fun up => dequeueCommand up ep h) ?_
      rw [dequeueCommand, withRequest_known hk, look_bind_run, if_neg (Nat.not_le.mpr hi), look_bind_run,
        if_pos (by simpa using hq), bind_run_ok (complete_idle hu _ _ _ _)]
      rfl
    refine ⟨_, hx, rfl, ?_, ?_, ?_, finished_sie .., finished_mem .., fun g hg => ?_, fun j hj => ?_⟩
    · rw [ep_returned, finished_ep, ep_setEp_self _ _ _ (hs.endpoints ▸ hi)]
    · rw [req_returned, req_finished_self (h := .user h) hk]
      rfl
    · show (s.finished ep.toNat (.user h) .connectionReset).dev.ctl = _
      have h0 : ep.toNat = 0 ↔ ep = 0 := BitVec.toNat_inj (y := 0)
      simp only [finished_ctl, h0]
    · rw [req_returned, req_finished_ne hg]
    · rw [ep_returned, finished_ep, ep_setEp_ne _ _ (Ne.symm hj)]

/-! ### SET_HALT -/

theorem exec_setHalt_error {ep : BitVec 4} {v : Bool} {s : State} {e : Status} (he : setHaltError s ep.toNat v = some e) :
    exec (.setHalt ep v) s = .next (s.returned e) := by
  refine command_next (p := fun up => setHaltRule up ep.toNat v) ?_
  rw [setHaltRule, look_bind_run, he]
  rfl

/-- Settles O26: SET_HALT returns the first of its checks that fails, and sets the halt when none does. -/
theorem setHaltStallsTheEndpoint : Obligations.SetHaltStallsTheEndpoint := by
  unfold Obligations.SetHaltStallsTheEndpoint
  intro ep v s hi
  refine ⟨fun h0 hen => exec_setHalt_error ?_, fun hen => ⟨fun hq => exec_setHalt_error ?_, fun hq hs hu => ?_⟩⟩
  · rw [setHaltError, if_neg (Nat.not_le.mpr hi), if_pos ⟨toNat_ne_zero h0, hen⟩]
  · have hen' : ¬(ep.toNat ≠ 0 ∧ (s.ep ep.toNat).enabled = false) := fun ⟨h0, hdis⟩ =>
      hen.elim (fun he => h0 (congrArg BitVec.toNat he)) fun he => Bool.noConfusion (hdis.symm.trans he)
    rw [setHaltError, if_neg (Nat.not_le.mpr hi), if_neg hen', if_pos hq]
  · have hen' : ep.toNat = 0 ∨ (s.ep ep.toNat).enabled = true := hen.imp_left (congrArg BitVec.toNat)
    exact command_next (p := fun up => setHaltRule up ep.toNat v)
      (setHaltRule_idle hs hu _ hi hen' (setHaltError_isNone hi hen' hq))

/-! ### FIFO_FLUSH -/

/-- Settles O27: the IN branch discards with one control write, the OUT branch drains. -/
theorem fifoFlushDiscards : Obligations.FifoFlushDiscards := by
  unfold Obligations.FifoFlushDiscards
  intro ep s hs hb hi
  refine ⟨fun hd => ?_, fun hd => ?_⟩
  · refine command_next (p := fun _ => fifoFlushRule ep) ?_
    rw [fifoFlushRule, look_bind_run, if_neg (Nat.not_le.mpr hi), look_bind_run, hd]
    dsimp only
    rw [bind_run_ok (flushIn_quiet hb _)]
    rfl
  · refine command_next (p := fun _ => fifoFlushRule ep) ?_
    rw [fifoFlushRule, look_bind_run, if_neg (Nat.not_le.mpr hi), look_bind_run, hd]
    dsimp only
    rw [bind_run_ok (flushOut_quiet hb (hs.servable hi))]
    rfl

end Sys2Proof.Machine
end

section
/-! PROOF. RESET and SPEED_DONE: every endpoint is re-initialized before the first request ends (R108, R122, R123, R128, R129,
R219). -/

namespace Sys2Proof.Machine

/-! ### Before the first request ends -/

/-- Every data endpoint is disabled and halted once all are re-initialized (R108). -/
theorem allReinitialized_shut {s : State} (hs : s.Inv) (hb : s.betweenMoves = []) {j : Nat} (h1 : 1 ≤ j) (hj : j < s.numEps) :
    (s.allReinitialized.ep j).enabled = false ∧ (s.allReinitialized.ep j).halted = true := by
  obtain ⟨hrun, hinv, -, hcfg⟩ := eachOf_reinitFields_quiet hs hb fun i hi => dataEps_below hs hi
  have hj' : j < s.allReinitialized.numEps := by
    rw [State.numEps, State.allReinitialized, hcfg]
    exact hj
  have hdisabled : (s.allReinitialized.ep j).enabled = false := (reinitEach_ok hrun).2 j h1 hj'
  exact ⟨hdisabled, hinv.disabledHalted j h1 hj' hdisabled⟩

theorem allReinitialized_driverScript (s : State) : s.allReinitialized.driverScript = s.driverScript := by
  unfold State.allReinitialized
  generalize 0 :: s.dataEps = l
  induction l generalizing s with
  | nil => rfl
  | cons i l ih =>
    rw [List.foldl_cons, ih]
    unfold State.reinitialized
    dsimp only
    split <;> rfl

/-! ### The events -/

theorem outcome_congr {α : Type} {p q : Proc α} {s t : State} (h : p s = q t) : outcome p s = outcome q t := by
  rw [outcome, h, outcome]

theorem inCommand_congr {α : Type} (i : Instr) {p q : Proc α} {s t : State} (h : p s = q t) :
    inCommand i p s = inCommand i q t := by
  rw [inCommand, h, inCommand]

/-- A system event acknowledged, and the device record changed by f. -/
def State.eventAcked (s : State) (k : Nat) (f : Device → Device) : State := (s.systemAcked k).setDev f

/-- RESET and SPEED_DONE (R122, R123). -/
def reinitRule (k : Nat) (f : Device → Device) (up : Upcalls) : Proc Unit := do
  ackSystem k
  change fun s => s.setDev f
  reinitAll up .connectionReset

theorem exec_reset_eq (s : State) :
    exec .reset s = outcome (withUpcalls fun up => inCommand .reset (reinitRule 2 Device.busReset up)) s := rfl

theorem exec_speedDone_eq (hs : Bool) (s : State) : exec (.speedDone hs) s =
    outcome (withUpcalls fun up => inCommand (.speedDone hs) (reinitRule 3 (Device.speedDone hs) up)) s := rfl

section
variable {s : State} {k : Nat} (hk : k < 8) (hb : s.betweenMoves = []) {f : Device → Device} (hs : (s.eventAcked k f).Inv)
include hk hb

theorem reinitRule_acked (up : Upcalls) : reinitRule k f up s = reinitAll up .connectionReset (s.eventAcked k f) := by
  rw [reinitRule, bind_run_ok (ackSystem_quiet hb hk)]
  rfl

include hs

/-- The nukes run in the state in which every endpoint is re-initialized, whatever the class driver is. -/
theorem reinitRule_outcome (i : Instr) : outcome (withUpcalls fun up => inCommand i (reinitRule k f up)) s =
    outcome (withUpcalls fun up => inCommand i (eachOf (fun j => nuke up j .connectionReset) (0 :: s.dataEps)))
      (s.eventAcked k f).allReinitialized := by
  refine outcome_congr (inCommand_congr i ?_)
  rw [allReinitialized_driverScript, reinitRule_acked hk hb]
  exact reinitAll_quiet hs hb _ _

theorem reinitRule_idle (hu : s.Undisturbed) (i : Instr) : outcome (withUpcalls fun up => inCommand i (reinitRule k f up)) s =
    .next ((0 :: s.dataEps).foldl (fun t j => t.finishedAll j .connectionReset) (s.eventAcked k f).allReinitialized) := by
  refine handler_next (p := reinitRule k f) ?_
  rw [reinitRule_acked hk hb]
  exact reinitAll_idle hs (hu.of_eq rfl rfl rfl rfl rfl) _ _

end

/-- An acknowledged event that leaves the device unconfigured keeps the invariants. -/
theorem State.Inv.eventAcked {s : State} (hs : s.Inv) (k : Nat) {f : Device → Device} (hf : (f s.dev).config = 0) :
    (s.eventAcked k f).Inv := by
  have hacked : (s.systemAcked k).Inv := hs.same rfl rfl rfl rfl rfl rfl rfl rfl rfl
  exact (InvKept.device (s := s.systemAcked k) fun _ h0 => absurd hf h0).2 hacked

/-- Settles O35: the re-initialization with what RESET writes to the device. -/
theorem busResetReinitializes : Obligations.BusResetReinitializes := by
  unfold Obligations.BusResetReinitializes
  intro s hs hb
  have hinv : (s.eventAcked 2 Device.busReset).Inv := hs.eventAcked 2 rfl
  rw [exec_reset_eq]
  exact ⟨fun j => allReinitialized_shut hinv hb, reinitRule_outcome (by decide) hb hinv .reset,
    fun hu => reinitRule_idle (by decide) hb hinv hu .reset⟩

/-- Settles O36: the re-initialization with what SPEED_DONE writes to the device. -/
theorem speedDoneReinitializes : Obligations.SpeedDoneReinitializes := by
  unfold Obligations.SpeedDoneReinitializes
  intro hs s hi hb
  have hinv : (s.eventAcked 3 (Device.speedDone hs)).Inv := hi.eventAcked 3 rfl
  rw [exec_speedDone_eq]
  exact ⟨fun j => allReinitialized_shut hinv hb, reinitRule_outcome (by decide) hb hinv (.speedDone hs),
    fun hu => reinitRule_idle (by decide) hb hinv hu (.speedDone hs)⟩

end Sys2Proof.Machine
end

section
/-! PROOF. FLUSH_REQ, TX_DONE and RX_READY as data (R107, R116, R133 to R135, R155, R156, R158), and the packets of an IN
request (R99, R100). -/

namespace Sys2Proof.Machine

/-! ### Events of a served endpoint -/

/-- The handler of a served endpoint runs (R154). -/
theorem ifServed_run {s : State} {i : Nat} (h : s.serves i) (p : Proc Unit) : ifServed i p s = p s := by
  have hserved : endpointServed s i = true := by
    obtain ⟨hi, h0 | hen⟩ := h
    · simpa [endpointServed, h0] using h0 ▸ hi
    · simp [endpointServed, hi, hen]
  rw [ifServed, look_bind_run, if_pos hserved]

theorem State.Inv.acked {s : State} (hs : s.Inv) (hb : s.betweenMoves = []) (i k : Nat) :
    (s.setSieEp i (SieEndpoint.clearEvents (bitAt k true))).Inv := by
  have h := (InvKept.pump.ackEndpoint s i k).2 hs
  rwa [afterWrite_quiet hb] at h

section
variable {ep : BitVec 4} {s t : State} (h : s.serves ep.toNat)
include h

theorem exec_flushReq_next (hr : flushReqRule ep.toNat s = .ok ((), t)) : exec (.flushReq ep) s = .next t :=
  outcome_of_ok (a := ()) ((ifServed_run h _).trans hr)

theorem exec_txDone_next {p : Bool} (hr : txDoneRule (upcalls s.driverScript.length) ep.toNat p s = .ok ((), t)) :
    exec (.txDone ep p) s = .next t :=
  handler_next (p := fun up => ifServed ep.toNat (txDoneRule up ep.toNat p)) ((ifServed_run h _).trans hr)

theorem exec_rxReady_next {p : Bool} (hr : rxReadyRule (upcalls s.driverScript.length) ep.toNat p s = .ok ((), t)) :
    exec (.rxReady ep p) s = .next t :=
  handler_next (p := fun up => ifServed ep.toNat (rxReadyRule up ep.toNat p)) ((ifServed_run h _).trans hr)

end

/-! ### FLUSH_REQ -/

theorem ackFlushReq_quiet {s : State} (hb : s.betweenMoves = []) (i : Nat) :
    ackEndpoint i 5 s = .ok ((), s.setSieEp i fun e => { e with flushReq := false }) := by
  rw [ackEndpoint_quiet hb, funext clearEvents_flushReq]

/-- Acknowledging FLUSH_REQ leaves the staged packets. -/
theorem stagedPackets_flushAcked {s : State} {i : Nat} (hi : i < s.sie.eps.length) :
    (s.setSieEp i fun e => { e with flushReq := false }).stagedPackets i = s.stagedPackets i := by
  unfold State.stagedPackets
  rw [setSieEp_sie, sieEp_setEp_self _ _ _ hi]
  rfl

/-- Settles O40: the acknowledgement leaves the staged packets, which an OUT endpoint then drains. -/
theorem flushRequestDrains : Obligations.FlushRequestDrains := by
  unfold Obligations.FlushRequestDrains
  intro ep s hs hb hserved
  refine ⟨fun hd => exec_flushReq_next hserved ?_, fun h0 hd => exec_flushReq_next hserved ?_⟩
  · by_cases h0 : ep.toNat = 0
    · rw [flushReqRule, if_pos h0, h0, ackFlushReq_quiet hb]
    · have hin := hd.resolve_left fun he => h0 (congrArg BitVec.toNat he)
      rw [flushReqRule, if_neg h0, look_bind_run, epDir_data h0, hin]
      exact ackFlushReq_quiet hb _
  · have hv := hs.servable hserved.1
    have hacked : (s.setSieEp ep.toNat fun e => { e with flushReq := false }).Inv := by
      have h := hs.acked hb ep.toNat 5
      rwa [funext clearEvents_flushReq] at h
    rw [flushReqRule, if_neg (toNat_ne_zero h0), look_bind_run, epDir_data (toNat_ne_zero h0), hd]
    dsimp only
    rw [bind_run_ok (ackFlushReq_quiet hb _), flushOut_quiet (by exact hb) (hacked.servable hserved.1),
      stagedPackets_flushAcked hv.exists_]

/-! ### TX_DONE -/

theorem ackTxDone_quiet {s : State} (hb : s.betweenMoves = []) (i : Nat) :
    ackEndpoint i 1 s = .ok ((), s.setSieEp i fun e => { e with txDone := false }) := by
  rw [ackEndpoint_quiet hb, funext clearEvents_txDone]

/-- EP0_TX_DONE (R133). -/
theorem ep0TxDone_idle {s a : State} (hack : ackEndpoint 0 1 s = .ok ((), a)) (hctl : a.dev.ctl = s.dev.ctl) (hs : a.Inv)
    (hu : a.Undisturbed) (n : Nat) (hi : 0 < a.numEps) :
    ep0TxDone (upcalls n) s = .ok ((), if s.dev.ctl = .xmit then a.tried 0 else a) := by
  rw [ep0TxDone, bind_run_ok hack, look_bind_run, hctl]
  by_cases hx : s.dev.ctl = .xmit
  · rw [if_pos (by simpa using hx), if_pos hx, bind_run_ok (tryStart_idle hs hu n hi)]
    rfl
  · rw [if_neg (by simpa using hx), if_neg hx]
    rfl

/-- Settles O41: the acknowledgement keeps the invariants, and the endpoint is served after it. -/
theorem txDoneSendsTheNextPacket : Obligations.TxDoneSendsTheNextPacket := by
  unfold Obligations.TxDoneSendsTheNextPacket
  intro ep p s hs hu hserved a
  have hack : ackEndpoint ep.toNat 1 s = .ok ((), a) := ackTxDone_quiet hu.quiet _
  have hinv : a.Inv := by
    have h := hs.acked hu.quiet ep.toNat 1
    rwa [funext clearEvents_txDone] at h
  have hua : a.Undisturbed := hu.setSieEp _ _
  refine ⟨fun h0 => ?_, fun h0 hd => exec_txDone_next hserved ?_, fun h0 hd => exec_txDone_next hserved ?_⟩
  · subst h0
    exact exec_txDone_next hserved (ep0TxDone_idle hack rfl hinv hua _ hserved.1)
  · rw [txDoneRule, if_neg (toNat_ne_zero h0), look_bind_run, epDir_data (toNat_ne_zero h0), hd]
    dsimp only
    rw [bind_run_ok hack, service_idle hinv hua _ hserved.1]
  · rw [txDoneRule, if_neg (toNat_ne_zero h0), look_bind_run, epDir_data (toNat_ne_zero h0), hd]
    exact hack

/-! ### RX_READY as data -/

/-- EP0_RX_READY in RECV (R134). -/
theorem ep0RxReady_idle {s : State} (hs : s.Inv) (hu : s.Undisturbed) (n : Nat) (hi : 0 < s.numEps) (hctl : s.dev.ctl = .recv) :
    ep0RxReady (upcalls n) s = .ok ((), s.tried 0) := by
  rw [ep0RxReady, look_bind_run, if_pos (by simpa using hctl), bind_run_ok (tryStart_idle hs hu n hi)]
  rfl

/-- Settles O42: endpoint 0 is tried once, a data OUT endpoint is serviced. -/
theorem rxReadyReceivesThePacket : Obligations.RxReadyReceivesThePacket := by
  unfold Obligations.RxReadyReceivesThePacket
  intro ep p s hs hu hserved
  refine ⟨fun h0 hctl => ?_, fun h0 hd => exec_rxReady_next hserved ?_⟩
  · subst h0
    exact exec_rxReady_next hserved (ep0RxReady_idle hs hu _ hserved.1 hctl)
  · rw [rxReadyRule, if_neg (toNat_ne_zero h0), look_bind_run, epDir_data (toNat_ne_zero h0), hd]
    exact service_idle hs hu _ hserved.1 p

/-! ### The packets of an IN request -/

/-- Packet k of L bytes cut into packets of M: the k-th is whole while k is below L / M, and the rest after that. -/
theorem packet_size {L M k : Nat} (hM : 0 < M) (hk : k ≤ L / M) :
    min (L - k * M) M = if k < L / M then M else L % M := by
  have hdiv := Nat.div_add_mod' L M
  have hmod := Nat.mod_lt L hM
  split
  · rename_i h
    have := Nat.mul_le_mul_right M (Nat.succ_le_of_lt h)
    rw [Nat.succ_mul] at this
    omega
  · rw [show k = L / M by omega]
    omega

/-- A whole packet k ends the L bytes exactly when it is packet L / M - 1 and nothing is left over. -/
theorem packet_ends_iff {L M k : Nat} (hM : 0 < M) (hk : k < L / M) :
    k * M + M = L ↔ k + 1 = L / M ∧ L % M = 0 := by
  have hdiv := Nat.div_add_mod' L M
  rw [← Nat.succ_mul]
  constructor
  · rintro rfl
    exact ⟨(Nat.mul_div_cancel _ hM).symm, Nat.mul_mod_left ..⟩
  · rintro ⟨h1, h2⟩
    rw [Nat.succ_eq_add_one, h1]
    omega

/-- Settles O46: a packet before the last L / M is whole; packet L / M, where there is one, is short. -/
theorem packetsOfATransfer : Obligations.PacketsOfATransfer := by
  unfold Obligations.PacketsOfATransfer
  intro s i h k hknown r M count hM hk hactual n
  have hone : count ≤ r.length / M + 1 := by
    simp only [count]
    split <;> omega
  have hle : k ≤ r.length / M := by omega
  have hn : n = if k < r.length / M then M else r.length % M := by
    rw [← packet_size hM hle, ← hactual]
    rfl
  refine ⟨hn, ?_⟩
  have hlast : (s.setReq (.user h) fun q => { q with actual := q.actual + n }).lastIn i (.user h) n =
      (decide (n < M) || (decide (k * M + n = r.length) && !r.zero)) := hactual ▸ lastIn_advanced (h := .user h) hknown n
  rw [hlast, Bool.or_eq_true, Bool.and_eq_true, decide_eq_true_eq, decide_eq_true_eq, Bool.not_eq_true']
  by_cases hwhole : k < r.length / M
  · rw [if_pos hwhole] at hn
    have hpos : r.length ≠ 0 := by
      intro h0
      rw [h0, Nat.zero_div] at hwhole
      omega
    rw [hn, packet_ends_iff hM hwhole]
    simp only [count]
    by_cases hmod : r.length % M = 0
    · cases hz : r.zero <;> simp [hmod, hpos]
      omega
    · simp [hmod]
      omega
  · rw [if_neg hwhole] at hn
    have hshort : n < M := hn ▸ Nat.mod_lt _ hM
    have hcount : k + 1 = count := by omega
    simp [hshort, hcount]

end Sys2Proof.Machine
end

section
/-! PROOF. SET_ADDRESS and SET_CONFIGURATION (R125, R126, R136, R140, R144, R146). -/

namespace Sys2Proof.Machine

/-! ### FORWARD -/

theorem forwardRule_unbound (up : Upcalls) (S : BitVec 64) {s : State} (hd : s.dev.driver = none) :
    forwardRule up S s = .ok (minusOne, s) := by
  rw [forwardRule, look_bind_run, hd]
  rfl

theorem forwardRule_bound {s : State} (hu : s.Undisturbed) (n : Nat) (S : BitVec 64) (hd : s.dev.driver ≠ none) :
    forwardRule (upcalls n) S s = .ok (s.nextResponse.ret, s.afterUpcall (.setup S)) := by
  rw [forwardRule_idle hu, if_neg hd]

/-- A SETUP row whose branch hands the packet on answers as FORWARD does (R142). -/
theorem setup_forwarded {b : Upcalls → BitVec 64 → Proc Word} {i : Instr} {s : State} {S : BitVec 64}
    (hS : setupPacketOf i = S) (hu : s.Undisturbed) (hb : ∀ up, b up S = forwardRule up S) :
    execSetup i b s = .next (s.forwarded S) := by
  have ht : (s.withCtl (if setupDirIn S then .xmit else .recv)).Undisturbed := hu.setDev _
  unfold State.forwarded
  by_cases hd : s.dev.driver = none
  · rw [if_pos hd]
    exact setup_next hS (by rw [hb]; exact forwardRule_unbound _ S hd) (finishSetup_quiet ht.quiet S _)
  · rw [if_neg hd]
    exact setup_next hS (by rw [hb]; exact forwardRule_bound ht _ S hd) (finishSetup_quiet (ht.afterUpcall _).quiet S _)

/-! ### SET_ADDRESS -/

/-- The request type 0x00 is a write to the device (R76). -/
theorem standardType_eq_zero_iff {d : Bool} {rcpt : BitVec 5} : standardType d rcpt = 0x00 ↔ d = false ∧ rcpt = 0 := by
  have hzero : (0x00 : Byte) = BitVec.ofBool false ++ 0#2 ++ 0#5 := rfl
  have hbool : BitVec.ofBool d = BitVec.ofBool false ↔ d = false := by cases d <;> decide
  rw [standardType, hzero, bitVec_append_inj, bitVec_append_inj, hbool]
  simp

/-- The states SET_ADDRESS leaves are NOT_ATTACHED and CONFIGURED (R125). -/
theorem afterSetAddress_eq (d : DevState) :
    d.afterSetAddress = if d = .notAttached ∨ d = .configured then d else .address := by cases d <;> rfl

section
variable {d : Bool} {rcpt : BitVec 5} {v x l : Half}

/-- SET_ADDRESS resolved by the core: three changes of the device, no access to a register (R144). -/
theorem exec_setAddress_inline (s : State) (hd : d = false) (hr : rcpt = 0) (hl : l = 0) :
    exec (.setAddress d rcpt v x l) s = .next (((s.withCtl .recv).setDev (Device.withAddress (v.extractLsb' 0 7))).withCtl
      .waitForSetup) := by
  subst hd hr hl
  obtain ⟨htype, -, hvalue, -, hlength⟩ := setupWord_fields (standardType false 0) 0x05 v x 0
  obtain ⟨hdir, -, -⟩ := standardType_fields false 0 0x05 v x 0
  refine setup_next (b := setAddressRule) (r := 0) (S := setupWord (standardType false 0) 0x05 v x 0)
    (t := (s.withCtl .recv).setDev (Device.withAddress (v.extractLsb' 0 7))) rfl ?_ ?_
  · rw [hdir, setAddressRule, htype, hvalue, hlength, if_neg (by decide)]
    rfl
  · rw [finishSetup, hlength]
    rfl

/-- SET_ADDRESS in any other form is forwarded (R144). -/
theorem exec_setAddress_forwarded {s : State} (hu : s.Undisturbed) (h : ¬(d = false ∧ rcpt = 0 ∧ l = 0)) :
    exec (.setAddress d rcpt v x l) s = .next (s.forwarded (setupWord (standardType d rcpt) 0x05 v x l)) := by
  obtain ⟨htype, -, -, -, hlength⟩ := setupWord_fields (standardType d rcpt) 0x05 v x l
  refine setup_forwarded rfl hu fun up => ?_
  have hother : standardType d rcpt ≠ 0x00 ∨ l ≠ 0 := by
    rw [ne_eq, standardType_eq_zero_iff]
    tauto
  rw [setAddressRule, htype, hlength, if_pos hother]

end

/-- Settles O30: the core resolves the one form with three changes of the device, and hands any other on. -/
theorem setAddressRecordsTheAddress : Obligations.SetAddressRecordsTheAddress := by
  unfold Obligations.SetAddressRecordsTheAddress
  refine fun d rcpt v x l s => ⟨fun hd hr hl => ?_, fun h hu => exec_setAddress_forwarded hu h⟩
  rw [exec_setAddress_inline s hd hr hl]
  simp only [State.withCtl, State.setDev, Device.withAddress, afterSetAddress_eq]

/-! ### SET_CONFIGURATION -/

/-- Endpoint 0's requests have ended and configuration c is recorded (R126, R146). -/
def State.configRecorded (s : State) (c : Byte) : State :=
  (s.finishedAll 0 .connectionReset).setDev fun d =>
    { d with config := c, state := if c = 0 then .address else .configured }

/-- The core's part of an accepted SET_CONFIGURATION: value 0 shuts every data endpoint down (R146). -/
def State.configuredWith (s : State) (c : Byte) : State :=
  if c = 0 then s.dataEps.foldl (fun t i => (t.shutDown i).finishedAll i .shutdownError) (s.configRecorded c)
  else s.configRecorded c

theorem dataEps_of_cfg {s t : State} (h : t.cfg = s.cfg) : t.dataEps = s.dataEps := by
  rw [State.dataEps, State.dataEps, State.numEps, State.numEps, h]

theorem configure_idle {s : State} (hs : s.Inv) (hu : s.Undisturbed) (n : Nat) (c : Byte) :
    configure (upcalls n) c s = .ok ((), s.configuredWith c) ∧ (s.configuredWith c).Undisturbed := by
  have hended := (hs.sweepable hu).finishedAll 0 .connectionReset
  have hrecorded : (s.configRecorded c).Sweepable s.cfg :=
    ⟨(InvKept.pump.configure _ c).2 hended.inv, hended.undisturbed.setDev _, hended.cfg⟩
  rw [configure, bind_run_ok (nuke_idle hs hu n 0 .connectionReset), bind_run_ok (t := s.configRecorded c) rfl,
    State.configuredWith]
  by_cases hc : c = 0
  · obtain ⟨hrun, hshut⟩ := eachOf_shutDownEndpoint_idle hrecorded n fun i => mem_dataEps (s := s)
    rw [if_pos hc, if_pos hc, look_bind_run, dataEps_of_cfg hrecorded.cfg]
    exact ⟨hrun, hshut.undisturbed⟩
  · rw [if_neg hc, if_neg hc]
    exact ⟨rfl, hrecorded.undisturbed⟩

/-- Below ADDRESS the core answers -1 itself (R146). -/
theorem setConfigurationRule_below (up : Upcalls) (S : BitVec 64) {s : State} (hb : s.dev.state.belowAddress = true) :
    setConfigurationRule up S s = .ok (minusOne, s) := by
  rw [setConfigurationRule, look_bind_run, if_pos hb]
  rfl

/-- From ADDRESS on a negative answer is the result, and any other is followed by the core's part (R146). -/
theorem setConfigurationRule_answered {up : Upcalls} {S : BitVec 64} {s u : State} {r : Word}
    (hfwd : forwardRule up S s = .ok (r, u)) (hb : s.dev.state.belowAddress = false) :
    setConfigurationRule up S s = if isNegative r then .ok (r, u) else
      (configure up ((setupValue S).extractLsb' 0 8) >>= fun _ => pure r) u := by
  rw [setConfigurationRule, look_bind_run, if_neg (Bool.eq_false_iff.mp hb), bind_run_ok hfwd, ite_run]
  rfl

section
variable {v x l : Half} {s : State}

/-- SET_CONFIGURATION is its branch of the dispatcher and the end of the setup stage (R136, R140). -/
theorem exec_setConfiguration_next {r : Word} {u : State} (hrun : setConfigurationRule (upcalls s.driverScript.length)
      (setupWord 0x00 0x09 v x l) (s.withCtl .recv) = .ok (r, u)) (hq : u.betweenMoves = []) :
    exec (.setConfiguration v x l) s = .next (u.setupEnded (setupWord 0x00 0x09 v x l) r) := by
  have hdir : setupDirIn (setupWord 0x00 0x09 v x l) = false := (standardType_fields false 0 0x09 v x l).1
  refine setup_next (S := setupWord 0x00 0x09 v x l) (b := setConfigurationRule) rfl ?_ (finishSetup_quiet hq _ r)
  rw [hdir]
  exact hrun

theorem exec_setConfiguration_rejected (hb : s.dev.state.belowAddress = false) {r : Word} {u : State}
    (hfwd : forwardRule (upcalls s.driverScript.length) (setupWord 0x00 0x09 v x l) (s.withCtl .recv) = .ok (r, u))
    (hr : isNegative r = true) (hq : u.betweenMoves = []) :
    exec (.setConfiguration v x l) s = .next (u.setupEnded (setupWord 0x00 0x09 v x l) r) :=
  exec_setConfiguration_next (by rw [setConfigurationRule_answered hfwd hb, if_pos hr]) hq

theorem exec_setConfiguration_accepted (hb : s.dev.state.belowAddress = false) {r : Word} {u : State}
    (hfwd : forwardRule (upcalls s.driverScript.length) (setupWord 0x00 0x09 v x l) (s.withCtl .recv) = .ok (r, u))
    (hr : isNegative r = false) (hi : u.Inv) (hu : u.Undisturbed) : exec (.setConfiguration v x l) s =
      .next ((u.configuredWith (v.extractLsb' 0 8)).setupEnded (setupWord 0x00 0x09 v x l) r) := by
  obtain ⟨hrun, hdone⟩ := configure_idle hi hu s.driverScript.length (v.extractLsb' 0 8)
  obtain ⟨-, -, hvalue, -, -⟩ := setupWord_fields 0x00 0x09 v x l
  refine exec_setConfiguration_next ?_ hdone.quiet
  rw [setConfigurationRule_answered hfwd hb, if_neg (Bool.eq_false_iff.mp hr), hvalue, bind_run_ok hrun]
  rfl

end

theorem State.Inv.afterUpcall {s : State} (hs : s.Inv) (hu : s.Undisturbed) (u : Upcall) : (s.afterUpcall u).Inv :=
  (InvKept.commands.upcalls 0 u _ _ _ (upcalls_idle hu 0 u)).2 hs

@[simp] theorem afterUpcall_cfg (s : State) (u : Upcall) : (s.afterUpcall u).cfg = s.cfg := by simp [State.afterUpcall]

/-- Settles O31: the checks of the rule in order, with FORWARD and the core's part each in one piece. -/
theorem setConfigurationConfigures : Obligations.SetConfigurationConfigures := by
  unfold Obligations.SetConfigurationConfigures
  intro v x l s hs hu S t c ret w
  have ht : t.Undisturbed := hu.setDev _
  have hasked : s.dev.driver ≠ none →
      forwardRule (upcalls s.driverScript.length) S t = .ok (ret, t.afterUpcall (.setup S)) := forwardRule_bound ht _ S
  have haccepted : s.dev.state.belowAddress = false → s.dev.driver ≠ none → isNegative ret = false →
      exec (.setConfiguration v x l) s = .next (((t.afterUpcall (.setup S)).configuredWith c).setupEnded S ret) :=
    fun hb hd hr => exec_setConfiguration_accepted hb (hasked hd) hr ((hs.setCtl .recv).afterUpcall ht _) (ht.afterUpcall _)
  refine ⟨fun hb => exec_setConfiguration_next (setConfigurationRule_below _ _ hb) ht.quiet,
    fun hb hd => exec_setConfiguration_rejected hb (forwardRule_unbound _ S hd) (by decide) ht.quiet,
    fun hb hd hr => exec_setConfiguration_rejected hb (hasked hd) hr (ht.afterUpcall _).quiet,
    fun hb hd hr hc => ?_, fun hb hd hr hc => ?_⟩
  · rw [haccepted hb hd hr, State.configuredWith, if_neg hc, State.configRecorded, if_neg hc]
  · have heps : (t.afterUpcall (.setup S)).dataEps = s.dataEps := dataEps_of_cfg (afterUpcall_cfg t _)
    rw [haccepted hb hd hr, State.configuredWith, if_pos hc, State.configRecorded, if_pos hc, hc, heps]

end Sys2Proof.Machine
end

section
/-! PROOF. The events that make no re-initialization: VBUS_ON, VBUS_OFF, SUSPEND, RESUME and ERROR (R120, R121, R124,
R151). -/

namespace Sys2Proof.Machine

/-- Settles O37: each is the one write that acknowledges it. -/
theorem suspendResumeErrorOnlyAcknowledged : Obligations.SuspendResumeErrorOnlyAcknowledged := by
  unfold Obligations.SuspendResumeErrorOnlyAcknowledged
  refine fun s => ⟨rfl, rfl, rfl, fun hq => ?_⟩
  have hacked : ∀ k < 8, outcome (ackSystem k) s = .next (s.systemAcked k) := fun _ hk =>
    outcome_of_ok (ackSystem_quiet hq hk)
  exact ⟨hacked 5 (by decide), hacked 6 (by decide), hacked 7 (by decide)⟩

/-! ### VBUS_ON -/

theorem notify_unbound (up : Upcalls) (u : Upcall) {s : State} (hd : s.dev.driver = none) : notify up u s = .ok ((), s) := by
  rw [notify, look_bind_run, hd]
  rfl

theorem notify_bound {up : Upcalls} {u : Upcall} {s t : State} {w : Word} (hd : s.dev.driver ≠ none)
    (h : up u s = .ok (w, t)) : notify up u s = .ok ((), t) := by
  obtain ⟨d, hd⟩ := Option.ne_none_iff_exists'.mp hd
  rw [notify, look_bind_run, hd]
  exact bind_run_ok h

theorem nextResponse_of_eq {s t : State} (script : t.driverScript = s.driverScript) (free : t.freeCount = s.freeCount) :
    t.nextResponse = s.nextResponse := by rw [State.nextResponse, State.nextResponse, script, free]

/-- The state in which VBUS_ON calls `vbus_on` (R120). -/
def State.attached (s : State) : State := (s.afterWrite .ssr 0x1).setDev fun d => { d with state := .attached }

theorem vbusOnRule_run (up : Upcalls) (s : State) : vbusOnRule up s =
    if s.dev.state = .notAttached then notify up .vbusOn s.attached else .ok ((), s.afterWrite .ssr 0x1) := by
  have hone : bitAt 0 true = 0x1 := rfl
  rw [vbusOnRule, ackSystem, hone, regWrite_bind_run, look_bind_run, afterWrite_dev, ite_run]
  simp only [decide_eq_true_eq]
  rfl

section
variable {s : State}

theorem exec_vbusOn_acknowledged (hst : s.dev.state ≠ .notAttached) : exec .vbusOn s = .next (s.afterWrite .ssr 0x1) :=
  handler_next (p := vbusOnRule) (by rw [vbusOnRule_run, if_neg hst])

theorem exec_vbusOn_of_notify (hst : s.dev.state = .notAttached) {t : State}
    (h : notify (upcalls s.driverScript.length) .vbusOn s.attached = .ok ((), t)) : exec .vbusOn s = .next t :=
  handler_next (p := vbusOnRule) (by rw [vbusOnRule_run, if_pos hst, h])

end

/-- Settles O33: the acknowledgement keeps the device and the script, so the rule looks at the state it started in. -/
theorem vbusOnAttaches : Obligations.VbusOnAttaches := by
  unfold Obligations.VbusOnAttaches
  intro s a b
  have hdriver : b.dev.driver = s.dev.driver := by
    show a.dev.driver = _
    rw [afterWrite_dev]
  have hscript : b.driverScript = s.driverScript := afterWrite_driverScript s .ssr 0x1
  have hanswer : b.nextResponse = s.nextResponse := nextResponse_of_eq hscript (afterWrite_freeCount s .ssr 0x1)
  refine ⟨exec_vbusOn_acknowledged, fun hst hd => exec_vbusOn_of_notify hst (notify_unbound _ _ (hdriver.trans hd)),
    fun hst hd => ⟨fun t ht => ?_, fun ha => ?_⟩⟩
  · obtain ⟨w, hw⟩ := outcome_next_iff.mp ht
    rw [withUpcalls, hscript] at hw
    exact exec_vbusOn_of_notify hst (notify_bound (hdriver ▸ hd) hw)
  · exact exec_vbusOn_of_notify hst (notify_bound (hdriver ▸ hd) (upcalls_inactive (hanswer ▸ ha) _ _))

/-! ### VBUS_OFF -/

/-- The loops of VBUS_OFF keep the driver. -/
theorem driverKept_sweep {n : Nat} {st : Status} {l m : List Nat} {s t u : State} (hshut : eachOf shutFields l s = .ok ((), t))
    (hnuke : eachOf (fun i => nuke (upcalls n) i st) m t = .ok ((), u)) : u.dev.driver = s.dev.driver := by
  have k := DriverKept.pump
  have hst := Within.eachOf k.refl k.trans (fun i _ => DriverKept.effect.shut i) _ _ _ hshut
  have htu := Within.eachOf k.refl k.trans (fun i _ => k.nuke (k.upcalls n) i st) _ _ _ hnuke
  exact htu.2.trans hst.2

/-- Settles O34: the acknowledgement and the two loops, each in one piece; they keep the driver. -/
theorem vbusOffDetaches : Obligations.VbusOffDetaches := by
  unfold Obligations.VbusOffDetaches
  intro s hs hu a b
  have hinv : a.Inv := hs.eventAcked 1 (f := Device.detached) rfl
  have hsweep : a.Sweepable s.cfg := hinv.sweepable (hu.of_eq rfl rfl rfl rfl rfl)
  obtain ⟨hshut, hshutSweep⟩ := eachOf_shutFields_idle hsweep fun i => mem_dataEps (s := s)
  obtain ⟨hnuke, hnukeSweep⟩ := eachOf_nuke_idle hshutSweep s.driverScript.length .shutdownError (0 :: s.dataEps)
  have hdriver : b.dev.driver = s.dev.driver := (driverKept_sweep hshut hnuke).trans rfl
  refine handler_next (p := vbusOffRule) ?_
  rw [← hdriver, vbusOffRule, bind_run_ok (ackSystem_quiet hu.quiet (by decide)), bind_run_ok (t := a) rfl, look_bind_run,
    dataEps_of_cfg hsweep.cfg, bind_run_ok hshut, bind_run_ok hnuke, notify_idle hnukeSweep.undisturbed]

end Sys2Proof.Machine
end

section
/-! PROOF. RESET, SPEED_DONE and VBUS_OFF leave the device unconfigured and its data endpoints shut, whatever the class driver
and the SIE do (R121 to R123, R128): the endpoints are shut before an upcall can run, and below ADDRESS no command enables
one. -/

namespace Sys2Proof.Machine

/-- The device fields these events leave (R121 to R123). -/
structure Device.UnconfiguredIn (d : Device) (state : DevState) (speed : Speed) : Prop where
  state : d.state = state
  speed : d.speed = speed
  config : d.config = 0
  address : d.address = 0
  ctl : d.ctl = .waitForSetup

/-- A state that meets the invariants, with those device fields and every data endpoint disabled. -/
structure State.ShutIn (s : State) (state : DevState) (speed : Speed) : Prop where
  inv : s.Inv
  device : s.dev.UnconfiguredIn state speed
  disabled : s.DataDisabled

theorem DeviceKept.unconfiguredIn {s t : State} (h : DeviceKept s t) {state : DevState} {speed : Speed}
    (hs : s.dev.UnconfiguredIn state speed) : t.dev.UnconfiguredIn state speed where
  state := h.state.trans hs.state
  speed := h.speed.trans hs.speed
  config := h.config.trans hs.config
  address := h.address.trans hs.address
  ctl := h.ctl.elim (fun hc => hc.trans hs.ctl) id

/-- What commands keep of the device, and of the state. -/
def ShutKept (s t : State) : Prop := DeviceKept s t ∧ StateKept s t

theorem ShutKept.commands : CommandKept ShutKept := DeviceKept.commands.and StateKept.commands

/-- Below ADDRESS commands leave the device shut (R25, R110). -/
theorem State.ShutIn.kept {s t : State} {state : DevState} {speed : Speed} (hb : state.belowAddress = true)
    (hs : s.ShutIn state speed) (h : ShutKept s t) : t.ShutIn state speed := by
  obtain ⟨hdev, hrecords, hunconfigured⟩ := h
  have hdevice := hdev.unconfiguredIn hs.device
  exact ⟨hrecords.1.2 hs.inv, hdevice, hunconfigured.2 (fun _ => hs.disabled) (by rw [hdevice.state]; exact hb)⟩

/-- A disabled data endpoint is halted (R29). -/
theorem State.ShutIn.shut {s : State} {state : DevState} {speed : Speed} (hs : s.ShutIn state speed) (j : Nat) (h1 : 1 ≤ j)
    (hj : j < s.numEps) : (s.ep j).enabled = false ∧ (s.ep j).halted = true :=
  ⟨hs.disabled j h1 hj, hs.inv.disabledHalted j h1 hj (hs.disabled j h1 hj)⟩

/-- A loop over the endpoints that leaves the device alone leaves the state shut when it disables them all. -/
theorem shutIn_of_loop {f : Nat → Proc Unit} (hf : ∀ i s t, f i s = .ok ((), t) → t.dev = s.dev) {l : List Nat}
    {s t : State} {state : DevState} {speed : Speed} (hs : s.Inv) (hdev : s.dev.UnconfiguredIn state speed)
    (hrun : eachOf f l s = .ok ((), t)) (hloop : RecordsKept s t ∧ t.DataDisabled) : t.ShutIn state speed := by
  have hkept : DeviceKept s t := Within.eachOf DeviceKept.commands.refl DeviceKept.trans
    (fun i _ u _ v h => .of_eq (hf i u v h)) _ _ _ hrun
  exact ⟨hloop.1.1.2 hs, hkept.unconfiguredIn hdev, hloop.2⟩

theorem reinitFields_dev {i : Nat} {s t : State} (h : reinitFields i s = .ok ((), t)) : t.dev = s.dev := by
  unfold reinitFields at h
  split at h
  · cases h
    simp
  · unfold maskInterrupt at h
    cases h
    simp

/-- An acknowledged event that leaves the device unconfigured keeps the invariants, whatever the SIE does meanwhile. -/
theorem State.Inv.ackedDev {s : State} (hs : s.Inv) (k : Nat) {f : Device → Device} (hf : ∀ d, (f d).config = 0) :
    ((s.afterWrite .ssr (bitAt k true)).setDev f).Inv :=
  (InvKept.device fun _ h0 => absurd (hf _) h0).2 ((InvKept.pump.ackSystem s k).2 hs)

section
variable {up : Upcalls} (hup : ∀ u, Within ShutKept (up u))
include hup

theorem nukeEach_shutKept (st : Status) (l : List Nat) : Within ShutKept (eachOf (fun i => nuke up i st) l) :=
  Within.eachOf ShutKept.commands.refl ShutKept.commands.trans fun i _ => ShutKept.commands.nuke hup i st

theorem notify_shutKept (u : Upcall) : Within ShutKept (notify up u) := by
  refine Within.bind ShutKept.commands.trans (ShutKept.commands.look _) fun bound => ?_
  cases bound with
  | none => exact ShutKept.commands.pure ()
  | some d => exact Within.bind ShutKept.commands.trans (hup u) fun _ => ShutKept.commands.pure ()

theorem reinitRule_shuts {k : Nat} {f : Device → Device} {state : DevState} {speed : Speed} {s t : State} (hs : s.Inv)
    (hf : (f s.dev).UnconfiguredIn state speed) (hf0 : ∀ d, (f d).config = 0) (hb : state.belowAddress = true)
    (h : reinitRule k f up s = .ok ((), t)) : t.ShutIn state speed := by
  rw [reinitRule, ackSystem, regWrite_bind_run, change_bind_run, reinitAll, look_bind_run] at h
  obtain ⟨_, v, hloop, hnukes⟩ := bind_ok_iff.mp h
  have hdev : ((s.afterWrite .ssr (bitAt k true)).setDev f).dev.UnconfiguredIn state speed := by
    rw [setDev_dev, afterWrite_dev]
    exact hf
  have hshut := shutIn_of_loop (fun _ _ _ => reinitFields_dev) (hs.ackedDev k hf0) hdev hloop (reinitEach_ok hloop)
  exact hshut.kept hb (nukeEach_shutKept hup _ _ _ _ _ hnukes)

theorem vbusOffRule_shuts {s t : State} (hs : s.Inv) (h : vbusOffRule up s = .ok ((), t)) :
    t.ShutIn .notAttached .unknown := by
  rw [vbusOffRule, ackSystem, regWrite_bind_run, change_bind_run, look_bind_run] at h
  obtain ⟨_, v, hloop, hrest⟩ := bind_ok_iff.mp h
  have hdev : ∀ i u v, shutFields i u = .ok ((), v) → v.dev = u.dev := fun _ _ _ hr => (shutFields_disables hr).2.1
  have hshut := shutIn_of_loop hdev (hs.ackedDev 1 (f := Device.detached) fun _ => rfl) ⟨rfl, rfl, rfl, rfl, rfl⟩ hloop
    (shutEach_ok hloop)
  exact hshut.kept rfl (Within.bind ShutKept.commands.trans (nukeEach_shutKept hup _ _)
    (fun _ => notify_shutKept hup _) _ _ _ hrest)

end

/-- An event that answers a next state has run its rule to there. -/
theorem rule_of_handler_next {p : Upcalls → Proc Unit} {i : Instr} {s t : State}
    (h : outcome (withUpcalls fun up => inCommand i (p up)) s = .next t) :
    p (upcalls s.driverScript.length) s = .ok ((), t) := by
  obtain ⟨_, hrun⟩ := outcome_next_iff.mp h
  exact inCommand_ok_iff.mp hrun

theorem exec_reset_shuts {s t : State} (hs : s.Inv) (h : exec .reset s = .next t) : t.ShutIn .attached s.dev.speed :=
  reinitRule_shuts (ShutKept.commands.upcalls _) hs ⟨rfl, rfl, rfl, rfl, rfl⟩ (fun _ => rfl) rfl
    (rule_of_handler_next (exec_reset_eq s ▸ h))

theorem exec_speedDone_shuts {hs : Bool} {s t : State} (hi : s.Inv) (h : exec (.speedDone hs) s = .next t) :
    t.ShutIn .default (if hs then .high else .full) :=
  reinitRule_shuts (ShutKept.commands.upcalls _) hi ⟨rfl, rfl, rfl, rfl, rfl⟩ (fun _ => rfl) rfl
    (rule_of_handler_next (exec_speedDone_eq hs s ▸ h))

theorem exec_vbusOff_shuts {s t : State} (hs : s.Inv) (h : exec .vbusOff s = .next t) : t.ShutIn .notAttached .unknown :=
  vbusOffRule_shuts (ShutKept.commands.upcalls _) hs (rule_of_handler_next (p := vbusOffRule) h)

/-- Settles O47: each event shuts the device before its first upcall, and the commands in the upcalls leave it shut. -/
theorem resetsLeaveTheDeviceShut : Obligations.ResetsLeaveTheDeviceShut := by
  unfold Obligations.ResetsLeaveTheDeviceShut
  intro s t hs
  have hfields : ∀ {state speed}, t.ShutIn state speed →
      t.dev.config = 0 ∧ t.dev.address = 0 ∧ t.dev.ctl = .waitForSetup ∧
      ∀ j, 1 ≤ j → j < t.numEps → (t.ep j).enabled = false ∧ (t.ep j).halted = true :=
    fun h => ⟨h.device.config, h.device.address, h.device.ctl, h.shut⟩
  refine ⟨fun h => ?_, fun _ h => ?_, fun h => ?_, ?_⟩
  · obtain ⟨-, hdevice, -⟩ := exec_reset_shuts hs h
    exact ⟨hdevice.state, hdevice.speed⟩
  · obtain ⟨-, hdevice, -⟩ := exec_speedDone_shuts hs h
    exact ⟨hdevice.state, hdevice.speed⟩
  · obtain ⟨-, hdevice, -⟩ := exec_vbusOff_shuts hs h
    exact ⟨hdevice.state, hdevice.speed⟩
  · rintro (h | ⟨_, h⟩ | h)
    · exact hfields (exec_reset_shuts hs h)
    · exact hfields (exec_speedDone_shuts hs h)
    · exact hfields (exec_vbusOff_shuts hs h)

end Sys2Proof.Machine
end

section
/-! PROOF. GET_STATUS, CLEAR_FEATURE, SET_FEATURE and the requests that are forwarded (R136, R140, R142, R143, R145, R148),
and STALL_SENT (R132, R157). -/

namespace Sys2Proof.Machine

/-! ### Forwarding -/

/-- The branch of the dispatcher runs with the sub-state of the packet's direction (R140). -/
theorem runSetup_run (S : BitVec 64) (p : Proc Word) (s : State) :
    runSetup S p s = (p >>= finishSetup S) (s.withCtl (if setupDirIn S then .xmit else .recv)) := rfl

/-- A SETUP row's answer depends on its branch only in the state the sub-state is set in (R140). -/
theorem execSetup_congr {b c : Upcalls → BitVec 64 → Proc Word} {i : Instr} {s : State} {S : BitVec 64}
    (hS : setupPacketOf i = S)
    (h : ∀ up, b up S (s.withCtl (if setupDirIn S then .xmit else .recv)) =
      c up S (s.withCtl (if setupDirIn S then .xmit else .recv))) : execSetup i b s = execSetup i c s := by
  subst hS
  have hrun : ∀ up, runSetup (setupPacketOf i) (b up (setupPacketOf i)) s =
      runSetup (setupPacketOf i) (c up (setupPacketOf i)) s := fun up => by
    rw [runSetup_run, runSetup_run, bind_run, bind_run, h up]
  simp only [execSetup, outcome, withUpcalls, inCommand, hrun]

/-- A SETUP row whose branch hands the packet on in this state answers as FORWARD does (R142). -/
theorem setup_forwarded_here {b : Upcalls → BitVec 64 → Proc Word} {i : Instr} {s : State} {S : BitVec 64}
    (hS : setupPacketOf i = S) (hu : s.Undisturbed)
    (h : ∀ up, b up S (s.withCtl (if setupDirIn S then .xmit else .recv)) =
      forwardRule up S (s.withCtl (if setupDirIn S then .xmit else .recv))) : execSetup i b s = .next (s.forwarded S) :=
  (execSetup_congr hS h).trans (setup_forwarded hS hu fun _ => rfl)

/-- FORWARD to a bound driver that may act: what its `setup` leaves, with the result acted on (R136, R142). -/
theorem exec_forward_answered {S : BitVec 64} {s t : State} (hd : s.dev.driver ≠ none)
    (hup : upcalled (.setup S) (s.withCtl (if setupDirIn S then .xmit else .recv)) = .next t) (hq : t.betweenMoves = []) :
    exec (.forward S) s = .next (t.setupEnded S s.nextResponse.ret) := by
  obtain ⟨w, hw⟩ := outcome_next_iff.mp hup
  rw [withUpcalls] at hw
  obtain rfl := upcalls_returns hw
  obtain ⟨d, hd⟩ := Option.ne_none_iff_exists'.mp hd
  refine setup_next (b := forwardRule) (S := S) rfl ?_ (finishSetup_quiet hq S _)
  rw [forwardRule, look_bind_run, State.withCtl, setDev_dev, hd]
  exact hw

/-- Settles O32: both rows are FORWARD; its answer to a driver that acts is what the upcall gives back. -/
theorem requestsAreForwarded : Obligations.RequestsAreForwarded := by
  unfold Obligations.RequestsAreForwarded
  refine ⟨fun d rcpt v x l s hu => setup_forwarded (b := forwardRule) rfl hu fun _ => rfl,
    fun S s hu => setup_forwarded (b := forwardRule) rfl hu fun _ => rfl, fun S s t => exec_forward_answered⟩

/-! ### GET_STATUS -/

/-- `wIndex[3:0]` of a packet put together from its fields (R77). -/
theorem requestEndpoint_setupWord (t q : Byte) (v x l : Half) :
    requestEndpoint (setupWord t q v x l) = (x.extractLsb' 0 4).toNat := by
  obtain ⟨-, -, -, hindex, -⟩ := setupWord_fields t q v x l
  rw [requestEndpoint, hindex]

theorem State.Inv.zero_lt_numEps {s : State} (hs : s.Inv) : 0 < s.numEps := dataEps_below hs List.mem_cons_self

theorem State.Inv.statusReq_buf_ne {s : State} (hs : s.Inv) : (s.req .statusReq).buf ≠ .none :=
  fun h => Buffer.noConfusion (hs.requests.reply.buf.symm.trans h)

theorem queueRule_error (up : Upcalls) {s : State} {i : Nat} {h : Handle} {e : Status} (he : queueError s i h = some e) :
    queueRule up i h s = .ok (e, s) := by
  rw [queueRule, look_bind_run, he]
  rfl

/-- What QUEUE checks of the core's own request on endpoint 0 (R37, R111, R143). -/
theorem queueError_statusReq {s : State} (hs : s.Inv) : queueError s 0 .statusReq =
    if s.statusReq.queuedOn ≠ none then some .invalidArgument
    else if s.dev.driver = none ∨ s.dev.speed = .unknown then some .shutdownError else none := by
  have hcontrol : ¬((0 : Nat) ≠ 0 ∧ (s.ep 0).enabled = false) := fun h => h.1 rfl
  rw [queueError, if_neg (Nat.not_le.mpr hs.zero_lt_numEps), if_neg hcontrol]
  simp only [hs.statusReq_buf_ne, false_or]
  rfl

/-- QUEUE takes the core's own request on endpoint 0 when none of those checks fails. -/
theorem mayQueue_statusReq {s : State} (hs : s.Inv) (hfree : s.statusReq.queuedOn = none)
    (hdev : ¬(s.dev.driver = none ∨ s.dev.speed = .unknown)) : s.mayQueue 0 .statusReq :=
  ⟨hs.statusReq_buf_ne, hfree, fun h => hdev (.inl h), fun h => hdev (.inr h), fun h => absurd rfl h⟩

/-- The reply bytes filled and `STATUS_REQ` set up for a reply of at most n bytes (R34, R143). -/
def State.statusPrepared (s : State) (w : Half) (n : Nat) : State :=
  { s with
    statusBytes := (w.extractLsb' 0 8, w.extractLsb' 8 8)
    statusReq := { s.statusReq.withLength (min 2 n) with zero := false } }

theorem prepareStatus_run (w l : Half) (s : State) : prepareStatus w l s = .ok ((), s.statusPrepared w l.toNat) := rfl

theorem State.Inv.statusPrepared {s : State} (hs : s.Inv) (w l : Half) : (s.statusPrepared w l.toNat).Inv :=
  (InvKept.pump.reply w l _ _ _ (prepareStatus_run w l s)).2 hs

/-- The core's own request has no buffer in memory, so its new length disturbs nothing. -/
theorem State.Undisturbed.statusPrepared {s : State} (hu : s.Undisturbed) (hs : s.Inv) (w : Half) (n : Nat) :
    (s.statusPrepared w n).Undisturbed := by
  refine ⟨hu.quiet, hu.idle, fun h a hbuf => ?_⟩
  cases h with
  | user k => exact hu.buffers (.user k) a hbuf
  | statusReq =>
    have hcore : s.statusReq.buf = .sysMem a := hbuf
    rw [hs.requests.reply.buf] at hcore
    cases hcore

section
variable {d : Bool} {rcpt : BitVec 5} {v x l : Half} {s : State}

/-- A reply is for a request of the read direction (R143). -/
theorem setupDirIn_of_statusReply {S : BitVec 64} {w : Half} (h : statusReply s S = some w) : setupDirIn S = true := by
  by_contra hn
  simp [statusReply, hn] at h

/-- The status by the fields of the packet (R75 to R77, R143). -/
theorem statusReply_setupWord : statusReply s (setupWord (standardType d rcpt) 0x00 v x l) =
    if d = false then none
    else if rcpt = 0 then some s.cfg.deviceStatus
    else if rcpt = 1 then some 0
    else if rcpt = 2 ∧ (x.extractLsb' 0 4).toNat < s.numEps then
      some (if (s.ep (x.extractLsb' 0 4).toNat).halted then 1 else 0)
    else none := by
  obtain ⟨hdir, hrcpt, -⟩ := standardType_fields d rcpt 0x00 v x l
  rw [statusReply, hdir, hrcpt, requestEndpoint_setupWord]

@[simp] theorem statusReply_withCtl (s : State) (c : Ctl) (S : BitVec 64) : statusReply (s.withCtl c) S = statusReply s S := rfl

/-- GET_STATUS that the core does not resolve is forwarded (R143). -/
theorem exec_getStatus_forwarded (hu : s.Undisturbed)
    (hr : statusReply s (setupWord (standardType d rcpt) 0x00 v x l) = none) : exec (.getStatus d rcpt v x l) s =
      .next (s.forwarded (setupWord (standardType d rcpt) 0x00 v x l)) := by
  refine setup_forwarded_here (b := getStatusRule) rfl hu fun up => ?_
  rw [getStatusRule, look_bind_run, statusReply_withCtl, hr]

/-- GET_STATUS that the core resolves: the reply is set up, and QUEUE's result is the request's (R143). -/
theorem exec_getStatus_replied {w : Half} {r : Status} {t : State}
    (hr : statusReply s (setupWord (standardType d rcpt) 0x00 v x l) = some w)
    (hrun : queueRule (upcalls s.driverScript.length) 0 .statusReq ((s.withCtl .xmit).statusPrepared w l.toNat) = .ok (r, t))
    (hq : t.betweenMoves = []) : exec (.getStatus d rcpt v x l) s =
      .next (t.setupEnded (setupWord (standardType d rcpt) 0x00 v x l) r.code) := by
  obtain ⟨-, -, -, -, hlength⟩ := setupWord_fields (standardType d rcpt) 0x00 v x l
  refine setup_next (b := getStatusRule) (S := setupWord (standardType d rcpt) 0x00 v x l) (r := r.code) rfl ?_
    (finishSetup_quiet hq _ _)
  rw [setupDirIn_of_statusReply hr, getStatusRule, look_bind_run, statusReply_withCtl, hr]
  dsimp only
  rw [bind_run_ok (prepareStatus_run _ _ _), hlength, if_pos rfl, bind_run_ok hrun]
  rfl

/-- GET_STATUS that the core resolves, by QUEUE's checks of the reply in order (R111, R143). -/
theorem exec_getStatus_resolved {w : Half} (hs : s.Inv) (hu : s.Undisturbed)
    (hr : statusReply s (setupWord (standardType d rcpt) 0x00 v x l) = some w) :
    let S := setupWord (standardType d rcpt) 0x00 v x l
    let p := (s.withCtl .xmit).statusPrepared w l.toNat
    exec (.getStatus d rcpt v x l) s = .next (if s.statusReq.queuedOn ≠ none then p.setupEnded S Status.invalidArgument.code
      else if s.dev.driver = none ∨ s.dev.speed = .unknown then p.setupEnded S Status.shutdownError.code
      else (p.queued 0 .statusReq).setupEnded S 0) := by
  intro S p
  have hi : (s.withCtl .xmit).Inv := hs.setCtl .xmit
  have hinv : p.Inv := hi.statusPrepared w l
  have hund : p.Undisturbed := (hu.setDev _).statusPrepared hi w l.toNat
  have hqueued : p.statusReq.queuedOn = s.statusReq.queuedOn := rfl
  have hdriver : p.dev.driver = s.dev.driver := rfl
  have hspeed : p.dev.speed = s.dev.speed := rfl
  have hchecks := queueError_statusReq hinv
  have hreplied : ∀ {r t}, queueRule (upcalls s.driverScript.length) 0 .statusReq p = .ok (r, t) → t.betweenMoves = [] →
      exec (.getStatus d rcpt v x l) s = .next (t.setupEnded S r.code) := exec_getStatus_replied hr
  clear_value p
  rw [hqueued, hdriver, hspeed] at hchecks
  split_ifs at hchecks ⊢ with hq hd
  · exact hreplied (queueRule_error _ hchecks) hund.quiet
  · exact hreplied (queueRule_error _ hchecks) hund.quiet
  · have hm : p.mayQueue 0 .statusReq :=
      mayQueue_statusReq hinv (hqueued.trans (not_not.mp hq)) (by rwa [hdriver, hspeed])
    have hcode : (0 : Word) = Status.ok.code := rfl
    rw [hcode]
    exact hreplied (queueRule_idle hinv hund _ hinv.zero_lt_numEps hm) (hund.queued 0 .statusReq).quiet

end

/-- Settles O28: the status is the one of the packet's fields, and the core resolves exactly the requests it has one for. -/
theorem getStatusReplies : Obligations.GetStatusReplies := by
  unfold Obligations.GetStatusReplies
  intro d rcpt v x l s hs hu S e answer
  have hreply : statusReply s S = answer := statusReply_setupWord
  cases hanswer : answer with
  | none => exact exec_getStatus_forwarded hu (hreply.trans hanswer)
  | some w => exact exec_getStatus_resolved hs hu (hreply.trans hanswer)

/-! ### CLEAR_FEATURE and SET_FEATURE -/

theorem standardType_inj {d d' : Bool} {r r' : BitVec 5} : standardType d r = standardType d' r' ↔ d = d' ∧ r = r' := by
  have hbool : BitVec.ofBool d = BitVec.ofBool d' ↔ d = d' := by cases d <;> cases d' <;> decide
  rw [standardType, standardType, bitVec_append_inj, bitVec_append_inj, hbool]
  simp

/-- SET_HALT's checks all pass (R115). -/
theorem setHaltError_none_iff {s : State} {i : Nat} {v : Bool} (hi : i < s.numEps) : setHaltError s i v = none ↔
    (i = 0 ∨ (s.ep i).enabled = true) ∧ ¬(v = true ∧ s.epDir i = .IN ∧ (s.ep i).queue ≠ []) := by
  refine ⟨fun h => ?_, fun ⟨hen, hq⟩ => setHaltError_isNone hi hen hq⟩
  obtain ⟨-, hen, hq⟩ := setHaltError_none h
  exact ⟨hen.imp_right And.right, fun ⟨hv, hd, hne⟩ => hne (hq hv hd)⟩

/-- SET_HALT, its result left aside: the halt is set when the checks pass, and nothing changes when one fails (R115). -/
def State.haltAsked (s : State) (i : Nat) (v : Bool) : State := if setHaltError s i v = none then s.haltSet i v else s

theorem setHaltRule_run {s : State} (hs : s.Inv) (hu : s.Undisturbed) (n : Nat) {i : Nat} {v : Bool} (hi : i < s.numEps) :
    ∃ r, setHaltRule (upcalls n) i v s = .ok (r, s.haltAsked i v) := by
  cases he : setHaltError s i v with
  | none =>
    rw [State.haltAsked, if_pos he]
    exact ⟨_, setHaltRule_idle hs hu n hi ((setHaltError_none_iff hi).mp he).1 he⟩
  | some e =>
    rw [State.haltAsked, he, setHaltRule, look_bind_run, he]
    exact ⟨e, rfl⟩

/-- Whether FEATURE resolves a request, by the fields of the packet (R145). -/
theorem featureInline_setupWord {s : State} {d : Bool} {rcpt : BitVec 5} {q : Byte} {v x l : Half} :
    featureInline s (setupWord (standardType d rcpt) q v x l) = true ↔
    d = false ∧ rcpt = 2 ∧ v = 0 ∧ l = 0 ∧ (x.extractLsb' 0 4).toNat < s.numEps := by
  obtain ⟨htype, -, hvalue, -, hlength⟩ := setupWord_fields (standardType d rcpt) q v x l
  have htwo : (0x02 : Byte) = standardType false 2 := rfl
  rw [featureInline, decide_eq_true_eq, htype, hvalue, hlength, requestEndpoint_setupWord, htwo, standardType_inj, and_assoc]

/-- A request FEATURE resolves is a write without data stage to an endpoint there is (R145). -/
theorem featureInline_parts {s : State} {S : BitVec 64} (h : featureInline s S = true) :
    setupDirIn S = false ∧ setupLength S = 0 ∧ requestEndpoint S < s.numEps := by
  rw [featureInline, decide_eq_true_eq] at h
  obtain ⟨htype, -, hlength, he⟩ := h
  have hbit : setupDirIn S = (setupRequestType S).getLsbD 7 := by simp [setupDirIn, setupRequestType]
  rw [htype] at hbit
  exact ⟨hbit, hlength, he⟩

section
variable {v : Bool} {i : Instr} {S : BitVec 64} {s : State}

/-- A feature request the core does not resolve is forwarded (R145). -/
theorem setup_feature_forwarded (hS : setupPacketOf i = S) (hu : s.Undisturbed) (hn : ¬featureInline s S = true) :
    execSetup i (fun up => featureRule up v) s = .next (s.forwarded S) := by
  refine setup_forwarded_here hS hu fun up => ?_
  rw [featureRule, look_bind_run]
  exact congrFun (if_neg hn) _

/-- A feature request the core resolves is SET_HALT with its result left aside, and is over (R136, R145). -/
theorem setup_feature_resolved (hS : setupPacketOf i = S) (hs : s.Inv) (hu : s.Undisturbed) (hin : featureInline s S = true) :
    execSetup i (fun up => featureRule up v) s =
      .next (((s.withCtl .recv).haltAsked (requestEndpoint S) v).withCtl .waitForSetup) := by
  obtain ⟨hdir, hlength, he⟩ := featureInline_parts hin
  obtain ⟨r, hrun⟩ := setHaltRule_run (v := v) (hs.setCtl .recv) (hu.setDev _) s.driverScript.length he
  have hresolved : featureInline (s.withCtl .recv) S = true := hin
  refine setup_next (r := 0) (t := (s.withCtl .recv).haltAsked (requestEndpoint S) v) hS ?_ ?_
  · rw [hdir, if_neg Bool.false_ne_true, featureRule, look_bind_run, if_pos hresolved]
    exact bind_run_ok hrun
  · rw [finishSetup, hlength]
    rfl

end

/-- Settles O29: SET_HALT sets the halt exactly when its checks pass, and CLEAR_FEATURE meets only the first of them. -/
theorem featureSetsTheHalt : Obligations.FeatureSetsTheHalt := by
  unfold Obligations.FeatureSetsTheHalt
  intro d rcpt v x l s hs hu e inline_ may
  have hinline : ∀ q, featureInline s (setupWord (standardType d rcpt) q v x l) = true ↔ inline_ :=
    fun _ => featureInline_setupWord
  have hendpoint : ∀ q, requestEndpoint (setupWord (standardType d rcpt) q v x l) = e := fun _ => requestEndpoint_setupWord ..
  have hset : ∀ b (c : Prop) [Decidable c], inline_ →
      (may ∧ ¬(b = true ∧ (s.withCtl .recv).epDir e = .IN ∧ (s.ep e).queue ≠ []) ↔ c) →
      (s.withCtl .recv).haltAsked e b = if c then (s.withCtl .recv).haltSet e b else s.withCtl .recv :=
    fun b c _ ⟨_, _, _, _, he⟩ hc => if_congr ((setHaltError_none_iff (s := s.withCtl .recv) he).trans hc) rfl rfl
  refine ⟨fun hin => ?_, fun hin => ?_, fun hn => setup_feature_forwarded rfl hu (mt (hinline _).mp hn),
    fun hn => setup_feature_forwarded rfl hu (mt (hinline _).mp hn)⟩
  · rw [← hset false may hin (by simp), ← hendpoint 0x01]
    exact setup_feature_resolved rfl hs hu ((hinline _).mpr hin)
  · rw [← hset true _ hin (by simp), ← hendpoint 0x03]
    exact setup_feature_resolved rfl hs hu ((hinline _).mpr hin)

/-! ### STALL_SENT -/

theorem ackStallSent_quiet {s : State} (hb : s.betweenMoves = []) (i : Nat) :
    ackEndpoint i 4 s = .ok ((), s.setSieEp i fun e => { e with stallSent := false }) := by
  rw [ackEndpoint_quiet hb, funext clearEvents_stallSent]

theorem exec_stallSent_next {ep : BitVec 4} {s t : State} (h : s.serves ep.toNat)
    (hr : stallSentRule (upcalls s.driverScript.length) ep.toNat s = .ok ((), t)) : exec (.stallSent ep) s = .next t :=
  handler_next (p := fun up => ifServed ep.toNat (stallSentRule up ep.toNat)) ((ifServed_run h _).trans hr)

/-- Endpoint 0's STALL_SENT acknowledged, and its stall and halt ended (R132). -/
def State.stallRecovered (s : State) : State :=
  (s.setSieEp 0 fun e => { e with stallSent := false, stall := false }).setEp 0 fun e => { e with halted := false }

/-- The acknowledgement and the control write act on the same endpoint. -/
theorem unhaltAcked_quiet {s : State} (hb : s.betweenMoves = []) :
    haltFields 0 false (s.setSieEp 0 fun e => { e with stallSent := false }) = .ok ((), s.stallRecovered) := by
  rw [haltFields_quiet (by exact hb), stallWritten_eq (.inr (.inl rfl)), setSieEp_setSieEp]
  rfl

theorem State.Inv.stallRecovered {s : State} (hs : s.Inv) (hb : s.betweenMoves = []) : s.stallRecovered.Inv := by
  have hacked := hs.acked hb 0 4
  rw [funext clearEvents_stallSent] at hacked
  exact hacked.halt (.inl rfl) (unhaltAcked_quiet hb)

/-- EP0_STALL_SENT (R132). -/
theorem ep0StallSent_idle {s : State} (hs : s.Inv) (hu : s.Undisturbed) (n : Nat) : ep0StallSent (upcalls n) s =
    .ok ((), (s.stallRecovered.finishedAll 0 .connectionAborted).withCtl .waitForSetup) := by
  have hund : s.stallRecovered.Undisturbed := (hu.setSieEp 0 _).setEp 0 _
  rw [ep0StallSent, bind_run_ok (ackStallSent_quiet hu.quiet 0), bind_run_ok (unhaltAcked_quiet hu.quiet),
    bind_run_ok (nuke_idle (hs.stallRecovered hu.quiet) hund n 0 .connectionAborted)]
  rfl

/-- Settles O39: endpoint 0 recovers in four steps, each in one piece; a data endpoint is acknowledged. -/
theorem stallSentRecovers : Obligations.StallSentRecovers := by
  unfold Obligations.StallSentRecovers
  refine ⟨fun s hs hu => exec_stallSent_next ⟨hs.zero_lt_numEps, .inl rfl⟩ (ep0StallSent_idle hs hu _),
    fun ep s h0 hserved hb => exec_stallSent_next hserved ?_⟩
  rw [stallSentRule, if_neg (toNat_ne_zero h0), ackStallSent_quiet hb]

end Sys2Proof.Machine
end

section
/-! PROOF. Events that are not served, and events of the wrong direction (R91, R154 to R156). -/

namespace Sys2Proof.Machine

/-- The handler of an endpoint that is not served is skipped (R154). -/
theorem ifServed_skip {s : State} {i : Nat} (h : ¬s.serves i) (p : Proc Unit) : ifServed i p s = .ok ((), s) := by
  have hserved : ¬endpointServed s i = true := fun he => h (by simpa [endpointServed, State.serves] using he)
  rw [ifServed, look_bind_run, if_neg hserved]
  rfl

section
variable {ep : BitVec 4} {s : State} (h : ¬s.serves ep.toNat)
include h

theorem exec_stallSent_unserved : exec (.stallSent ep) s = .next s :=
  handler_next (p := fun up => ifServed ep.toNat (stallSentRule up ep.toNat)) (ifServed_skip h _)

theorem exec_flushReq_unserved : exec (.flushReq ep) s = .next s := outcome_of_ok (a := ()) (ifServed_skip h _)

theorem exec_txDone_unserved (p : Bool) : exec (.txDone ep p) s = .next s :=
  handler_next (p := fun up => ifServed ep.toNat (txDoneRule up ep.toNat p)) (ifServed_skip h _)

theorem exec_rxReady_unserved (p : Bool) : exec (.rxReady ep p) s = .next s :=
  handler_next (p := fun up => ifServed ep.toNat (rxReadyRule up ep.toNat p)) (ifServed_skip h _)

end

section
variable {ep : BitVec 4} {s : State} (h0 : ep ≠ 0)
include h0

/-- RX_READY of an IN endpoint is ignored (R155). -/
theorem exec_rxReady_in (p : Bool) (hd : Config.dirOf s.cfg ep.toNat = .IN) : exec (.rxReady ep p) s = .next s := by
  by_cases h : s.serves ep.toNat
  · refine exec_rxReady_next h ?_
    rw [rxReadyRule, if_neg (toNat_ne_zero h0), look_bind_run, epDir_data (toNat_ne_zero h0), hd]
    rfl
  · exact exec_rxReady_unserved h p

/-- FLUSH_REQ of an IN endpoint is one acknowledging write, whatever the SIE does before it (R155, D65). -/
theorem exec_flushReq_in (hd : Config.dirOf s.cfg ep.toNat = .IN) (h : s.serves ep.toNat) :
    exec (.flushReq ep) s = .next (s.afterWrite (.esr ep.toNat) 0x20) := by
  refine exec_flushReq_next h ?_
  rw [flushReqRule, if_neg (toNat_ne_zero h0), look_bind_run, epDir_data (toNat_ne_zero h0), hd]
  rfl

/-- TX_DONE of an OUT endpoint is one acknowledging write, whatever the SIE does before it (R156, D65). -/
theorem exec_txDone_out (p : Bool) (hd : Config.dirOf s.cfg ep.toNat = .OUT) (h : s.serves ep.toNat) :
    exec (.txDone ep p) s = .next (s.afterWrite (.esr ep.toNat) 0x2) := by
  refine exec_txDone_next h ?_
  rw [txDoneRule, if_neg (toNat_ne_zero h0), look_bind_run, epDir_data (toNat_ne_zero h0), hd]
  rfl

end

/-- Settles O38: an endpoint that is not served has its handlers skipped; a served one's handler looks at its direction first. -/
theorem unhandledEvents : Obligations.UnhandledEvents := by
  unfold Obligations.UnhandledEvents
  exact fun ep p s =>
    ⟨fun h => ⟨exec_stallSent_unserved h, exec_flushReq_unserved h, exec_txDone_unserved h p, exec_rxReady_unserved h p⟩,
      fun h0 hd => ⟨exec_rxReady_in h0 p hd, exec_flushReq_in h0 hd⟩, fun h0 hd => exec_txDone_out h0 p hd⟩

end Sys2Proof.Machine
end

section
/-! PROOF. No command but TASK acknowledges or raises an event (R160). -/

namespace Sys2Proof.Machine

/-- The event bits of an endpoint: the latch of `EIR` and the W1C bits of `ESR` (R42, R166). -/
structure SieEndpoint.SameEvents (e e' : SieEndpoint) : Prop where
  eirLatch : e'.eirLatch = e.eirLatch
  txDone : e'.txDone = e.txDone
  stallSent : e'.stallSent = e.stallSent
  flushReq : e'.flushReq = e.flushReq

theorem SieEndpoint.SameEvents.refl (e : SieEndpoint) : e.SameEvents e := ⟨rfl, rfl, rfl, rfl⟩

theorem SieEndpoint.SameEvents.trans {a b c : SieEndpoint} (h1 : a.SameEvents b) (h2 : b.SameEvents c) : a.SameEvents c :=
  ⟨h2.eirLatch.trans h1.eirLatch, h2.txDone.trans h1.txDone, h2.stallSent.trans h1.stallSent, h2.flushReq.trans h1.flushReq⟩

/-- The event bits of `SSR` and of every endpoint. -/
structure Sie.SameEvents (x y : Sie) : Prop where
  ssr : y.ssr = x.ssr
  eps : ∀ j, (x.ep j).SameEvents (y.ep j)

theorem Sie.SameEvents.refl (x : Sie) : x.SameEvents x := ⟨rfl, fun _ => .refl _⟩

theorem Sie.SameEvents.trans {x y z : Sie} (h1 : x.SameEvents y) (h2 : y.SameEvents z) : x.SameEvents z :=
  ⟨h2.ssr.trans h1.ssr, fun j => (h1.eps j).trans (h2.eps j)⟩

/-- An update of one endpoint that leaves its event bits leaves them all. -/
theorem Sie.SameEvents.setEp (x : Sie) (i : Nat) {f : SieEndpoint → SieEndpoint} (hf : ∀ e : SieEndpoint, e.SameEvents (f e)) :
    x.SameEvents (x.setEp i f) := by
  refine ⟨rfl, fun j => ?_⟩
  by_cases hj : i = j
  · subst hj
    by_cases hi : i < x.eps.length
    · exact sieEp_setEp_self x i f hi ▸ hf _
    · have hsame : (x.setEp i f).ep i = x.ep i := by simp [Sie.ep, Sie.setEp, List.getD_eq_getElem?_getD, hi]
      exact hsame ▸ .refl _
  · exact sieEp_setEp_ne x f hj ▸ .refl _

theorem readFifo_sameEvents (e : SieEndpoint) : e.SameEvents e.readFifo.2 := by
  unfold SieEndpoint.readFifo
  split
  · exact .refl e
  · split <;> exact ⟨rfl, rfl, rfl, rfl⟩

theorem readWordCount_sameEvents (e : SieEndpoint) : e.SameEvents e.readWordCount.2 := by
  unfold SieEndpoint.readWordCount
  split
  · exact .refl e
  · split <;> exact ⟨rfl, rfl, rfl, rfl⟩

theorem writeByteCount_sameEvents (n : Nat) (v : Word) (e : SieEndpoint) : e.SameEvents (e.writeByteCount n v) := by
  unfold SieEndpoint.writeByteCount
  split <;> exact ⟨rfl, rfl, rfl, rfl⟩

theorem writeFifo_sameEvents (n : Nat) (w : Half) (e : SieEndpoint) : e.SameEvents (e.writeFifo n w) := by
  unfold SieEndpoint.writeFifo
  split
  · exact .refl e
  · extract_lets b1 b
    split <;> exact ⟨rfl, rfl, rfl, rfl⟩

/-- No read acknowledges an event (R61). -/
theorem read_sameEvents (cfg : Config) (x : Sie) (r : Reg) : x.SameEvents (Sie.read cfg x r).2 := by
  cases r with
  | rxWcnt i => exact .setEp x i readWordCount_sameEvents
  | fifo i => exact .setEp x i readFifo_sameEvents
  | _ => exact .refl x

/-- The registers whose writes acknowledge events (R62). -/
def Reg.acknowledges : Reg → Bool
  | .ssr | .eir | .esr _ => true
  | .eier | .ecr _ | .mps _ | .txBcnt _ | .rxWcnt _ | .fifo _ => false

theorem write_sameEvents (cfg : Config) (x : Sie) {r : Reg} (hr : r.acknowledges = false) (v : Word) :
    x.SameEvents (Sie.write cfg x r v) := by
  cases r with
  | ssr | eir | esr i => cases hr
  | eier => exact ⟨rfl, fun _ => .refl _⟩
  | ecr i =>
    have h := Sie.SameEvents.setEp x i (f := SieEndpoint.writeControl v) fun _ => ⟨rfl, rfl, rfl, rfl⟩
    exact ⟨h.ssr, h.eps⟩
  | mps i => exact .setEp x i fun _ => ⟨rfl, rfl, rfl, rfl⟩
  | txBcnt i => exact .setEp x i (writeByteCount_sameEvents _ v)
  | rxWcnt i => exact .refl x
  | fifo i => exact .setEp x i (writeFifo_sameEvents _ _)

/-- With no move of the SIE to come there is none later either, and every event bit stays. -/
def EventsKept (s t : State) : Prop := s.betweenMoves = [] → t.betweenMoves = [] ∧ s.sie.SameEvents t.sie

theorem EventsKept.refl (s : State) : EventsKept s s := fun hb => ⟨hb, .refl _⟩

theorem EventsKept.trans (s t u : State) (h1 : EventsKept s t) (h2 : EventsKept t u) : EventsKept s u := fun hb =>
  ⟨(h2 (h1 hb).1).1, (h1 hb).2.trans (h2 (h1 hb).1).2⟩

/-- An update of other fields. -/
theorem EventsKept.of_eq {s t : State} (moves : t.betweenMoves = s.betweenMoves) (sie : t.sie = s.sie) : EventsKept s t :=
  fun hb => ⟨moves.trans hb, sie ▸ .refl _⟩

theorem EventsKept.afterRead (s : State) (r : Reg) : EventsKept s (s.afterRead r) := fun hb => by
  rw [afterRead_quiet hb]
  exact ⟨hb, read_sameEvents _ _ r⟩

theorem EventsKept.afterWrite (s : State) {r : Reg} (hr : r.acknowledges = false) (v : Word) :
    EventsKept s (s.afterWrite r v) := fun hb => by
  rw [afterWrite_quiet hb]
  exact ⟨hb, write_sameEvents _ _ hr v⟩

theorem EventsKept.regRead (r : Reg) : Within EventsKept (regRead r) := fun s _ _ h => by
  cases h
  exact .afterRead s r

theorem EventsKept.regWrite {r : Reg} (hr : r.acknowledges = false) (v : Word) : Within EventsKept (regWrite r v) :=
  fun s _ _ h => by
    cases h
    exact .afterWrite s hr v

/-- A register read and written back: the interrupt mask and the control bits. -/
theorem EventsKept.readWrite {r : Reg} (hr : r.acknowledges = false) (f : Word → Word) :
    Within EventsKept (Machine.regRead r >>= fun e => Machine.regWrite r (f e)) :=
  .bind .trans (.regRead r) fun _ => .regWrite hr _

theorem EventsKept.setEp (i : Nat) (f : Endpoint → Endpoint) : Within EventsKept (change fun s => s.setEp i f) :=
  .change fun _ => .of_eq rfl rfl

theorem EventsKept.halt (i : Nat) (v : Bool) : Within EventsKept (haltFields i v) := by
  refine .bind .trans ?_ fun _ => .setEp i _
  cases v with
  | true | false => exact .readWrite (r := .ecr i) rfl _

theorem EventsKept.shut (i : Nat) : Within EventsKept (shutFields i) :=
  .bind .trans (.readWrite (r := .eier) rfl _) fun _ => .setEp i _

theorem EventsKept.enable (i : Nat) (size : BitVec 11) : Within EventsKept (enableFields i size) :=
  .bind .trans (.look .refl _) fun _ => .bind .trans (.regWrite rfl _) fun _ => .bind .trans (.regWrite rfl _) fun _ =>
    .bind .trans (.setEp i _) fun _ => .readWrite (r := .eier) rfl _

theorem EventsKept.completed (s : State) (i : Nat) (h : Handle) (st : Status) : EventsKept s (s.completed i h st) := by
  unfold State.completed
  split <;> exact .of_eq (by simp) (by simp)

theorem EventsKept.commands : CommandKept EventsKept where
  refl := .refl
  trans := .trans
  read := .afterRead
  writeCount s _ v := .afterWrite s rfl v
  writeFifo s _ v := .afterWrite s rfl v
  flush i := .readWrite (r := .ecr i) rfl _
  halt s i v t _ h := EventsKept.halt i v s () t h
  shut s i t _ _ h := EventsKept.shut i s () t h
  enable s _ _ t _ _ _ h := EventsKept.enable _ _ s () t h
  completed s i h st _ := .completed s i h st
  clearQueue _ _ := .of_eq rfl rfl
  begin _ _ _ _ := .of_eq (by simp) (by simp)
  append _ _ _ _ _ _ := .of_eq (by simp) (by simp)
  advance _ _ _ _ := .of_eq (by simp [State.advanced]) (by simp [State.advanced])
  mark _ _ _ := .of_eq (by simp) (by simp)
  byte _ _ _ _ := .of_eq rfl rfl
  statusByte _ _ _ := .of_eq rfl rfl
  returned _ _ := .of_eq rfl rfl
  record _ _ _ _ _ := .of_eq (by simp) (by simp)
  upcall s u ret t h := fun hb => by
    have h := h (by simpa using hb)
    rw [afterResponse_sie, enterUpcall_sie] at h
    exact h

theorem EventsKept.bind : BindKept EventsKept := fun _ _ _ _ => .of_eq rfl rfl

/-- Settles O49: of the registers only SSR, EIR and ESR acknowledge events, and no effect of a command writes them. -/
theorem onlyTaskAcknowledges : Obligations.OnlyTaskAcknowledges := by
  unfold Obligations.OnlyTaskAcknowledges
  intro cmd arg i s t hd ht hb h
  obtain ⟨-, hssr, heps⟩ := EventsKept.commands.exec EventsKept.bind ((decodeCmd_task_or_isCommand hd).resolve_left ht) h hb
  refine ⟨hssr, fun j => ?_⟩
  obtain ⟨hlatch, htx, hstall, hflush⟩ := heps j
  exact ⟨hlatch, htx, hstall, hflush⟩

end Sys2Proof.Machine
end

section
/-! SUPPORT. Every rule completes when the agents around the core do not interfere, in a state of which the same may be said
again: one lemma per rule, put together from the shared operations taken in one piece (R159, R192). -/

namespace Sys2Proof.Machine

/-- From state s procedure p completes, in a state that meets the invariants and whose agents do not interfere; c is the
configuration. -/
def CompletesFrom {α : Type} (c : Config) (s : State) (p : Proc α) : Prop := ∃ a t, p s = .ok (a, t) ∧ t.Sweepable c

/-- From every such state procedure p completes in such a state. -/
def Completes {α : Type} (c : Config) (p : Proc α) : Prop := ∀ s, s.Sweepable c → CompletesFrom c s p

section
variable {α β : Type} {c : Config} {s t : State}

theorem State.Sweepable.of_kept (hs : s.Sweepable c) (hk : InvKept s t) (hu : t.Undisturbed) : t.Sweepable c :=
  ⟨hk.2 hs.inv, hu, hk.1.trans hs.cfg⟩

/-- A run that keeps the invariants and leaves the agents idle. -/
theorem CompletesFrom.of_run {p : Proc α} {a : α} (hs : s.Sweepable c) (hr : p s = .ok (a, t)) (hk : InvKept s t)
    (hu : t.Undisturbed) : CompletesFrom c s p := ⟨a, t, hr, hs.of_kept hk hu⟩

/-- A sequence completes when its first part does, and its rest from where that has ended. -/
theorem CompletesFrom.bind {p : Proc α} {f : α → Proc β} (hp : CompletesFrom c s p) (hf : ∀ a, Completes c (f a)) :
    CompletesFrom c s (p >>= f) := by
  obtain ⟨a, t, hr, ht⟩ := hp
  obtain ⟨b, u, hr', hu⟩ := hf a t ht
  exact ⟨b, u, (bind_run_ok hr).trans hr', hu⟩

/-- What reads the state goes on from it with the value read. -/
theorem CompletesFrom.look {f : State → α} {g : α → Proc β} (h : CompletesFrom c s (g (f s))) :
    CompletesFrom c s (look f >>= g) := h

theorem Completes.bind {p : Proc α} {f : α → Proc β} (hp : Completes c p) (hf : ∀ a, Completes c (f a)) :
    Completes c (p >>= f) := fun s hs => (hp s hs).bind hf

theorem Completes.pure (a : α) : Completes c (pure a : Proc α) := fun s hs => ⟨a, s, rfl, hs⟩

theorem Completes.look {f : State → α} : Completes c (look f) := fun s hs => ⟨f s, s, rfl, hs⟩

theorem Completes.ite {q : Prop} [Decidable q] {p p' : Proc α} (hp : q → Completes c p) (hp' : ¬q → Completes c p') :
    Completes c (if q then p else p') := by
  split
  · exact hp ‹_›
  · exact hp' ‹_›

theorem Completes.eachOf {f : α → Proc Unit} {l : List α} (hf : ∀ x ∈ l, Completes c (f x)) : Completes c (eachOf f l) := by
  induction l with
  | nil => exact .pure ()
  | cons x l ih => exact .bind (hf x (by simp)) fun _ => ih fun y hy => hf y (by simp [hy])

/-- A change of the device record that keeps the invariants. -/
theorem Completes.setDev {f : Device → Device} (hf : ∀ s : State, InvKept s (s.setDev f)) :
    Completes c (Machine.change fun s => s.setDev f) := fun s hs => .of_run hs rfl (hf s) (hs.undisturbed.setDev f)

/-- The data endpoints are those from 1 to N-1. -/
theorem State.Sweepable.dataEps (hs : s.Sweepable c) {i : Nat} (hi : i ∈ s.dataEps) : 1 ≤ i ∧ i < c.numEndpoints := by
  rw [← hs.cfg]
  exact mem_dataEps hi

theorem State.Sweepable.zero_lt (hs : s.Sweepable c) : 0 < c.numEndpoints := by
  rw [← hs.cfg]
  exact hs.inv.zero_lt_numEps

end

section
variable {c : Config}

/-! ### Register accesses -/

theorem State.Sweepable.afterRead {s : State} (hs : s.Sweepable c) (r : Reg) : (s.afterRead r).Sweepable c := by
  refine hs.of_kept (InvKept.commands.read s r) ?_
  rw [afterRead_quiet hs.undisturbed.quiet]
  exact hs.undisturbed.withSie _

theorem State.Sweepable.afterWrite {s : State} (hs : s.Sweepable c) {r : Reg} {v : Word} (hk : InvKept s (s.afterWrite r v)) :
    (s.afterWrite r v).Sweepable c := by
  refine hs.of_kept hk ?_
  rw [afterWrite_quiet hs.undisturbed.quiet]
  exact hs.undisturbed.withSie _

theorem regRead_completes (r : Reg) : Completes c (regRead r) := fun _ hs => ⟨_, _, rfl, hs.afterRead r⟩

/-- A write that keeps the invariants. -/
theorem regWrite_completes {r : Reg} {v : Word} (hk : ∀ s : State, InvKept s (s.afterWrite r v)) :
    Completes c (regWrite r v) := fun s hs => ⟨_, _, rfl, hs.afterWrite (hk s)⟩

theorem ackSystem_completes (k : Nat) : Completes c (ackSystem k) := regWrite_completes fun s => InvKept.pump.ackSystem s k

theorem ackEndpoint_completes (i k : Nat) : Completes c (ackEndpoint i k) :=
  regWrite_completes fun s => InvKept.pump.ackEndpoint s i k

theorem readWordCount_completes (i : Nat) : Completes c (readWordCount i) := .bind (regRead_completes _) fun _ => .pure _

theorem discardWords_completes (i n : Nat) : Completes c (discardWords i n) := by
  induction n with
  | zero => exact .pure ()
  | succ n ih => exact .bind (regRead_completes _) fun _ => ih

theorem drainPackets_completes (i n : Nat) : Completes c (drainPackets i n) := by
  induction n with
  | zero => exact .pure ()
  | succ n ih => exact .bind (readWordCount_completes i) fun w => .bind (discardWords_completes i w) fun _ => ih

theorem flushOut_completes (i : Nat) : Completes c (flushOut i) :=
  .bind (regRead_completes _) fun _ => drainPackets_completes i _

theorem flushIn_completes (i : Nat) : Completes c (flushIn i) := fun _ hs =>
  have hr := flushIn_quiet hs.undisturbed.quiet i
  .of_run hs hr (InvKept.commands.flush i _ _ _ hr) (hs.undisturbed.setSieEp i _)

theorem readSetupPacket_completes : Completes c readSetupPacket :=
  .bind (regRead_completes _) fun _ => .bind (regRead_completes _) fun _ => .bind (regRead_completes _) fun _ =>
    .bind (regRead_completes _) fun _ => .pure _

theorem setCtl_completes (x : Ctl) : Completes c (setCtl x) := .setDev fun s => InvKept.pump.ctl s x

/-- Halting or un-halting endpoint 0 or an enabled data endpoint. -/
theorem haltFields_completes {s : State} (hs : s.Sweepable c) {i : Nat}
    (hi : i = 0 ∨ (i < s.numEps ∧ (s.ep i).enabled = true)) (v : Bool) : CompletesFrom c s (haltFields i v) :=
  have hr := haltFields_quiet hs.undisturbed.quiet i v
  .of_run hs hr (InvKept.commands.halt s i v _ hi hr) ((hs.undisturbed.stallWritten i v).setEp i _)

theorem stallEp0_completes : Completes c stallEp0 := fun _ hs => haltFields_completes hs (.inl rfl) true

theorem clearSetupStall_completes : Completes c clearSetupStall := fun s hs =>
  have hr := clearSetupStall_quiet hs.undisturbed.quiet
  .of_run hs hr (InvKept.pump.clearStall s () _ hr) ((hs.undisturbed.setSieEp 0 _).setEp 0 _)

theorem shutFields_completes {i : Nat} (h1 : 1 ≤ i) (hi : i < c.numEndpoints) : Completes c (shutFields i) := fun _ hs =>
  ⟨(), _, shutFields_quiet hs.inv hs.undisturbed.quiet h1, hs.shutDown h1 hi⟩

theorem reinitFields_completes {i : Nat} (hi : i < c.numEndpoints) : Completes c (reinitFields i) := fun s hs =>
  have hr := reinitFields_quiet hs.inv hs.undisturbed.quiet (hs.below hi)
  .of_run hs hr (InvKept.pump.reinit s i _ (.inr (hs.below hi)) hr) (hs.undisturbed.reinitialized i)

/-! ### Upcalls, completions and transfers -/

theorem upcalls_completes (n : Nat) (u : Upcall) : Completes c (upcalls n u) := fun _ hs =>
  have hr := upcalls_idle hs.undisturbed n u
  .of_run hs hr (InvKept.commands.upcalls n u _ _ _ hr) (hs.undisturbed.afterUpcall u)

theorem complete_completes {s : State} (hs : s.Sweepable c) (n : Nat) {i : Nat} {h : Handle} (st : Status)
    (hm : s.mayComplete i h) : CompletesFrom c s (complete (upcalls n) i h st) :=
  have hr := complete_idle hs.undisturbed n i h st
  .of_run hs hr (InvKept.commands.complete (InvKept.commands.upcalls n) hm hr) (hs.undisturbed.finished i h st)

theorem nuke_completes (n i : Nat) (st : Status) : Completes c (nuke (upcalls n) i st) := fun _ hs =>
  ⟨(), _, nuke_idle hs.inv hs.undisturbed n i st, hs.finishedAll i st⟩

theorem tryStart_completes (n : Nat) {i : Nat} (hi : i < c.numEndpoints) : Completes c (tryStart (upcalls n) i) := fun _ hs =>
  have hr := tryStart_idle hs.inv hs.undisturbed n (hs.below hi)
  .of_run hs hr (InvKept.commands.tryStart (InvKept.commands.upcalls n) i _ _ _ hr) (hs.undisturbed.tried i)

theorem tryThen_completes (n : Nat) {i : Nat} (hi : i < c.numEndpoints) :
    Completes c (tryStart (upcalls n) i >>= fun _ => (pure () : Proc Unit)) := .bind (tryStart_completes n hi) fun _ => .pure ()

theorem resumeIn_completes (n : Nat) {i : Nat} (hi : i < c.numEndpoints) : Completes c (resumeIn (upcalls n) i) :=
  .bind .look fun _ => .ite (fun _ => tryThen_completes n hi) fun _ => .pure ()

theorem service_completes (n : Nat) {i : Nat} (hi : i < c.numEndpoints) (p : Bool) : Completes c (service (upcalls n) i p) :=
  .bind (tryStart_completes n hi) fun _ =>
    .ite (fun _ => .ite (fun _ => tryThen_completes n hi) fun _ => .pure ()) fun _ => .pure ()

/-! ### Commands -/

/-- A request that passes QUEUE's checks may be queued (R111). -/
theorem mayQueue_of_queueError {s : State} {i : Nat} {h : Handle} (he : queueError s i h = none) : s.mayQueue i h := by
  unfold queueError at he
  split_ifs at he with h1 h2 h3 h4
  rw [not_or, not_not] at h2
  rw [not_or] at h3
  exact ⟨h2.1, h2.2, h3.1, h3.2, fun h0 => Bool.not_eq_false _ ▸ fun hdis => h4 ⟨h0, hdis⟩⟩

theorem queueRule_completes (n i : Nat) (h : Handle) : Completes c (queueRule (upcalls n) i h) := fun s hs => by
  cases he : queueError s i h with
  | some e => exact ⟨e, s, queueRule_error _ he, hs⟩
  | none =>
    have hr := queueRule_idle hs.inv hs.undisturbed n (queueError_eq_none he).1 (mayQueue_of_queueError he)
    exact .of_run hs hr (InvKept.commands.queueRule (InvKept.commands.upcalls n) i h _ _ _ hr) (hs.undisturbed.queued i h)

theorem setHaltRule_completes (n i : Nat) (v : Bool) : Completes c (setHaltRule (upcalls n) i v) := fun s hs => by
  refine .look ?_
  cases he : setHaltError s i v with
  | some e => exact Completes.pure e s hs
  | none =>
    obtain ⟨hi, hen, -⟩ := setHaltError_none he
    rw [State.numEps, hs.cfg] at hi
    exact (haltFields_completes hs hen v).bind fun _ => .ite (fun _ => .pure _) fun _ =>
      .bind (resumeIn_completes n hi) fun _ => .pure _

theorem memRead_completes {a n : Nat} (h : a + n ≤ c.memSize) : Completes c (memRead a n) := fun s hs =>
  ⟨_, s, memRead_run (hs.cfg.symm ▸ h), hs⟩

theorem enableFields_completes {s : State} (hs : s.Sweepable c) {ep : BitVec 4} {d : List Byte} (h1 : 1 ≤ ep.toNat)
    (hi : ep.toNat < s.numEps) (he : descriptorError s ep d = none) : CompletesFrom c s (enableFields ep.toNat (descSize d)) :=
  have hr := enableFields_quiet hs.inv hs.undisturbed hi (descSize d)
  .of_run hs hr (InvKept.commands.enable s ep d _ h1 hi he hr) (hs.undisturbed.of_eq rfl rfl rfl rfl rfl)

/-- ENABLE of a descriptor in memory (R110). -/
theorem enableRule_completes (n : Nat) (ep : BitVec 4) {addr : Word} (hmem : addr.toNat + 7 ≤ c.memSize) :
    Completes c (enableRule (upcalls n) ep addr) := fun s hs => by
  refine .look ?_
  split
  · exact Completes.pure _ s hs
  split
  · exact Completes.pure _ s hs
  have h1 : 1 ≤ ep.toNat := by omega
  have hi : ep.toNat < c.numEndpoints := hs.cfg ▸ Nat.lt_of_not_le ‹_›
  refine Completes.bind (memRead_completes hmem) (fun d t ht => .look ?_) s hs
  cases he : descriptorError t ep d with
  | some e => exact Completes.pure e t ht
  | none => exact (enableFields_completes ht h1 (ht.below hi) he).bind fun _ => .bind (resumeIn_completes n hi) fun _ => .pure _

theorem disableRule_completes (n : Nat) (ep : BitVec 4) : Completes c (disableRule (upcalls n) ep) := fun s hs => by
  refine .look ?_
  split
  · exact Completes.pure _ s hs
  split
  · exact Completes.pure _ s hs
  have hi : ep.toNat < c.numEndpoints := hs.cfg ▸ Nat.lt_of_not_le ‹_›
  exact Completes.bind (shutFields_completes (by omega) hi) (fun _ => .bind (nuke_completes n _ _) fun _ => .pure _) s hs

theorem fifoFlushRule_completes (ep : BitVec 4) : Completes c (fifoFlushRule ep) := by
  refine .bind .look fun _ => .ite (fun _ => .pure _) fun _ => .bind .look fun d => ?_
  cases d with
  | IN => exact .bind (flushIn_completes _) fun _ => .pure _
  | OUT => exact .bind (flushOut_completes _) fun _ => .pure _

/-! ### Setup requests -/

theorem forwardRule_completes (n : Nat) (S : BitVec 64) : Completes c (forwardRule (upcalls n) S) := by
  refine .bind .look fun b => ?_
  cases b with
  | none => exact .pure _
  | some d => exact upcalls_completes n _

theorem prepareStatus_completes (v l : Half) : Completes c (prepareStatus v l) := fun s hs =>
  .of_run hs (prepareStatus_run v l s) (InvKept.pump.reply v l s () _ rfl) (hs.undisturbed.statusPrepared hs.inv v l.toNat)

theorem getStatusRule_completes (n : Nat) (S : BitVec 64) : Completes c (getStatusRule (upcalls n) S) := by
  refine .bind .look fun r => ?_
  cases r with
  | none => exact forwardRule_completes n S
  | some v => exact .bind (prepareStatus_completes v _) fun _ => .bind (queueRule_completes n 0 .statusReq) fun _ => .pure _

theorem featureRule_completes (n : Nat) (v : Bool) (S : BitVec 64) : Completes c (featureRule (upcalls n) v S) :=
  .bind .look fun _ => .ite (fun _ => .bind (setHaltRule_completes n _ v) fun _ => .pure _) fun _ => forwardRule_completes n S

theorem setAddressRule_completes (n : Nat) (S : BitVec 64) : Completes c (setAddressRule (upcalls n) S) :=
  .ite (fun _ => forwardRule_completes n S) fun _ => .bind (.setDev fun s => InvKept.pump.address s _) fun _ => .pure _

theorem configure_completes (n : Nat) (v : Byte) : Completes c (configure (upcalls n) v) := fun _ hs =>
  have ⟨hr, hu⟩ := configure_idle hs.inv hs.undisturbed n v
  .of_run hs hr (InvKept.pump.configureRule (InvKept.commands.upcalls n) v _ _ _ hr) hu

theorem setConfigurationRule_completes (n : Nat) (S : BitVec 64) : Completes c (setConfigurationRule (upcalls n) S) :=
  .bind .look fun _ => .ite (fun _ => .pure _) fun _ => .bind (forwardRule_completes n S) fun _ =>
    .ite (fun _ => .pure _) fun _ => .bind (configure_completes n _) fun _ => .pure _

theorem dispatchRule_completes (n : Nat) (S : BitVec 64) (i : Instr) : Completes c (dispatchRule (upcalls n) S i) := by
  cases i with
  | getStatus d r v x l => exact getStatusRule_completes n S
  | clearFeature d r v x l => exact featureRule_completes n false S
  | setFeature d r v x l => exact featureRule_completes n true S
  | setAddress d r v x l => exact setAddressRule_completes n S
  | setConfiguration v x l => exact setConfigurationRule_completes n S
  | _ => exact forwardRule_completes n S

theorem finishSetup_completes (S : BitVec 64) (ret : Word) : Completes c (finishSetup S ret) :=
  .ite (fun _ => .bind stallEp0_completes fun _ => setCtl_completes _) fun _ =>
    .ite (fun _ => setCtl_completes _) fun _ => .pure ()

theorem runSetup_completes (S : BitVec 64) {p : Proc Word} (hp : Completes c p) : Completes c (runSetup S p) :=
  .bind (setCtl_completes _) fun _ => .bind hp fun r => finishSetup_completes S r

theorem processSetup_completes (n : Nat) : Completes c (processSetup (upcalls n)) := by
  refine .bind (nuke_completes n 0 _) fun _ => .bind clearSetupStall_completes fun _ => .bind (readWordCount_completes 0) fun w => ?_
  refine .bind (regRead_completes _) fun e => .ite (fun _ => ?_) fun _ => ?_
  · exact .bind (discardWords_completes 0 w) fun _ => .bind stallEp0_completes fun _ => setCtl_completes _
  · exact .bind readSetupPacket_completes fun S => runSetup_completes S (dispatchRule_completes n S _)

/-! ### Events -/

theorem notify_completes (n : Nat) (u : Upcall) : Completes c (notify (upcalls n) u) := by
  refine .bind .look fun b => ?_
  cases b with
  | none => exact .pure ()
  | some d => exact .bind (upcalls_completes n u) fun _ => .pure ()

theorem vbusOnRule_completes (n : Nat) : Completes c (vbusOnRule (upcalls n)) := by
  refine .bind (ackSystem_completes 0) fun _ s hs => .look ?_
  split
  · have hst : s.dev.state = .notAttached := of_decide_eq_true ‹_›
    exact (CompletesFrom.of_run (p := change fun s => s.setDev fun d => { d with state := .attached }) hs rfl
      (InvKept.pump.attach s hst) (hs.undisturbed.setDev _)).bind fun _ => notify_completes n _
  · exact Completes.pure () s hs

theorem vbusOffRule_completes (n : Nat) : Completes c (vbusOffRule (upcalls n)) := by
  refine .bind (ackSystem_completes 1) fun _ => .bind (.setDev InvKept.pump.detached) fun _ s hs => .look ?_
  have hshut : Completes c (eachOf shutFields s.dataEps) :=
    .eachOf fun i hi => shutFields_completes (hs.dataEps hi).1 (hs.dataEps hi).2
  exact Completes.bind hshut (fun _ => .bind (.eachOf fun i _ => nuke_completes n i _) fun _ => notify_completes n _) s hs

theorem reinitAll_completes (n : Nat) (st : Status) : Completes c (reinitAll (upcalls n) st) := fun s hs => by
  refine .look ?_
  have hreinit : Completes c (eachOf reinitFields (0 :: s.dataEps)) := .eachOf fun i hi => reinitFields_completes (by
    rcases List.mem_cons.mp hi with rfl | hi
    · exact hs.zero_lt
    · exact (hs.dataEps hi).2)
  exact Completes.bind hreinit (fun _ => .eachOf fun i _ => nuke_completes n i st) s hs

theorem stallSentRule_completes (n i : Nat) : Completes c (stallSentRule (upcalls n) i) := by
  refine .ite (fun _ => ?_) fun _ => ackEndpoint_completes i 4
  refine .bind (ackEndpoint_completes 0 4) fun _ => .bind (fun _ hs => haltFields_completes hs (.inl rfl) false) fun _ => ?_
  exact .bind (nuke_completes n 0 _) fun _ => setCtl_completes _

theorem flushReqRule_completes (i : Nat) : Completes c (flushReqRule i) := by
  refine .ite (fun _ => ackEndpoint_completes 0 5) fun _ => .bind .look fun d => ?_
  cases d with
  | IN => exact ackEndpoint_completes i 5
  | OUT => exact .bind (ackEndpoint_completes i 5) fun _ => flushOut_completes i

theorem txDoneRule_completes (n : Nat) {i : Nat} (hi : i < c.numEndpoints) (p : Bool) :
    Completes c (txDoneRule (upcalls n) i p) := by
  refine .ite (fun h0 => ?_) fun _ => .bind .look fun d => ?_
  · refine .bind (ackEndpoint_completes 0 1) fun _ => .bind .look fun _ => ?_
    exact .ite (fun _ => tryThen_completes n (h0 ▸ hi)) fun _ => .pure ()
  · cases d with
    | IN => exact .bind (ackEndpoint_completes i 1) fun _ => service_completes n hi p
    | OUT => exact ackEndpoint_completes i 1

theorem rxReadyRule_completes (n : Nat) {i : Nat} (hi : i < c.numEndpoints) (p : Bool) :
    Completes c (rxReadyRule (upcalls n) i p) := by
  refine .ite (fun h0 => .bind .look fun _ => ?_) fun _ => .bind .look fun d => ?_
  · exact .ite (fun _ => tryThen_completes n (h0 ▸ hi)) fun _ => processSetup_completes n
  · cases d with
    | IN => exact .pure ()
    | OUT => exact service_completes n hi p

/-- An endpoint that is served is one there is (R154). -/
theorem ifServed_completes {i : Nat} {p : Proc Unit} (hp : i < c.numEndpoints → Completes c p) : Completes c (ifServed i p) :=
  fun s hs => by
    refine .look ?_
    split
    · rename_i hserved
      simp only [endpointServed, Bool.and_eq_true, decide_eq_true_eq, State.numEps, hs.cfg] at hserved
      exact hp hserved.1 s hs
    · exact Completes.pure () s hs

theorem eventRule_completes (n : Nat) (i : Instr) : Completes c (eventRule (upcalls n) i) := by
  cases i with
  | vbusOn => exact vbusOnRule_completes n
  | reset => exact .bind (ackSystem_completes 2) fun _ => .bind (.setDev InvKept.pump.busReset) fun _ => reinitAll_completes n _
  | speedDone b =>
    exact .bind (ackSystem_completes 3) fun _ => .bind (.setDev fun s => InvKept.pump.speedDone s b) fun _ =>
      reinitAll_completes n _
  | suspend => exact ackSystem_completes 5
  | resume => exact ackSystem_completes 6
  | error => exact ackSystem_completes 7
  | vbusOff => exact vbusOffRule_completes n
  | stallSent ep => exact ifServed_completes fun _ => stallSentRule_completes n _
  | flushReq ep => exact ifServed_completes fun _ => flushReqRule_completes _
  | txDone ep p => exact ifServed_completes fun hi => txDoneRule_completes n hi p
  | rxReady ep p => exact ifServed_completes fun hi => rxReadyRule_completes n hi p
  | _ => exact .pure ()

end

end Sys2Proof.Machine
end

section
/-! PROOF. TASK: the events its sample shows, each as an instruction (R83, R84, R131, R151 to R158, R166). -/

namespace Sys2Proof.Machine

/-! ### The events a status word shows -/

/-- Of a list of events, each with its bit, those a status word shows, in the list's order (R82). -/
def shownEvents (w : Word) (l : List (Nat × Instr)) : List Instr := (l.filter fun e => w.getLsbD e.1).map fun e => e.2

theorem shownEvents_nil (w : Word) : shownEvents w [] = [] := rfl

theorem shownEvents_cons (w : Word) (k : Nat) (i : Instr) (l : List (Nat × Instr)) :
    shownEvents w ((k, i) :: l) = (if w.getLsbD k then [i] else []) ++ shownEvents w l := by
  unfold shownEvents
  cases h : w.getLsbD k <;> simp [h]

theorem mem_shownEvents {w : Word} {l : List (Nat × Instr)} {i : Instr} (h : i ∈ shownEvents w l) : ∃ e ∈ l, e.2 = i := by
  obtain ⟨e, he, hi⟩ := List.mem_map.mp h
  exact ⟨e, List.mem_of_mem_filter he, hi⟩

/-- The system events in the order TASK takes them (R83, R153). -/
def systemOrder (ssr : Word) : List (Nat × Instr) :=
  [(0, .vbusOn), (2, .reset), (3, .speedDone (ssr.getLsbD 4)), (5, .suspend), (6, .resume), (7, .error), (1, .vbusOff)]

/-- An endpoint's events in the order its turn takes them (R84, R131, R155 to R158). -/
def endpointOrder (ep : BitVec 4) (dir : Dir) (esr : Word) : List (Nat × Instr) :=
  let two := esr.getLsbD 3
  if esr.getLsbD 4 then [(4, .stallSent ep)]
  else if ep = 0 then [(5, .flushReq ep), (1, .txDone ep two), (0, .rxReady ep two)]
  else if dir = .IN then [(5, .flushReq ep), (1, .txDone ep two)]
  else if esr.getLsbD 5 then [(5, .flushReq ep)]
  else [(1, .txDone ep two), (0, .rxReady ep two)]

theorem decodeSsr_eq (ssr : Word) : decodeSsr ssr = shownEvents ssr (systemOrder ssr) := by
  simp only [decodeSsr, systemOrder, shownEvents_cons, shownEvents_nil, List.append_nil, List.append_assoc]

theorem decodeEsr_eq (ep : BitVec 4) (dir : Dir) (esr : Word) :
    decodeEsr ep dir esr = shownEvents esr (endpointOrder ep dir esr) := by
  unfold decodeEsr endpointOrder
  dsimp only
  by_cases h4 : esr.getLsbD 4 = true
  · rw [if_pos h4, if_pos h4, shownEvents_cons, if_pos h4]
    rfl
  rw [if_neg h4, if_neg h4]
  by_cases h0 : ep = 0
  · rw [if_pos (beq_iff_eq.mpr h0), if_pos h0]
    simp only [shownEvents_cons, shownEvents_nil, List.append_nil, List.append_assoc]
  rw [if_neg (mt beq_iff_eq.mp h0), if_neg h0]
  cases dir with
  | IN => simp only [if_true, shownEvents_cons, shownEvents_nil, List.append_nil]
  | OUT =>
    have hout : Dir.OUT ≠ Dir.IN := nofun
    rw [if_neg hout]
    by_cases h5 : esr.getLsbD 5 = true
    · simp only [if_pos h5, shownEvents_cons, shownEvents_nil, List.append_nil]
    · simp only [if_neg h5, shownEvents_cons, shownEvents_nil, List.append_nil]

theorem systemOrder_isEvent (ssr : Word) : ∀ e ∈ systemOrder ssr, isEvent e.2 = true := by simp [systemOrder, isEvent]

theorem endpointOrder_isEvent (ep : BitVec 4) (dir : Dir) (esr : Word) : ∀ e ∈ endpointOrder ep dir esr, isEvent e.2 = true := by
  unfold endpointOrder
  dsimp only
  split_ifs <;> simp [isEvent]

theorem isEvent_of_decodeSsr {ssr : Word} {i : Instr} (h : i ∈ decodeSsr ssr) : isEvent i = true := by
  obtain ⟨e, he, rfl⟩ := mem_shownEvents (decodeSsr_eq ssr ▸ h)
  exact systemOrder_isEvent ssr e he

theorem isEvent_of_decodeEsr {ep : BitVec 4} {dir : Dir} {esr : Word} {i : Instr} (h : i ∈ decodeEsr ep dir esr) :
    isEvent i = true := by
  obtain ⟨e, he, rfl⟩ := mem_shownEvents (decodeEsr_eq ep dir esr ▸ h)
  exact endpointOrder_isEvent ep dir esr e he

/-! ### The pump runs instructions -/

theorem execAll_cons_next_iff {i : Instr} {l : List Instr} {s t : State} :
    execAll (i :: l) s = .next t ↔ ∃ u, exec i s = .next u ∧ execAll l u = .next t := by
  rw [execAll]
  cases exec i s <;> simp

theorem endpointPasses_cons_next_iff {eir : Word} {i : Nat} {l : List Nat} {s t : State} :
    endpointPasses eir (i :: l) s = .next t ↔
      ∃ u, (if eir.getLsbD i then endpointPass i s else .next s) = .next u ∧ endpointPasses eir l u = .next t := by
  rw [endpointPasses]
  by_cases h : eir.getLsbD i = true
  · rw [if_pos h, if_pos h]
    cases endpointPass i s <;> simp
  · rw [if_neg h, if_neg h]
    simp

theorem execAll_cfg {l : List Instr} {s t : State} (h : execAll l s = .next t) : t.cfg = s.cfg := by
  induction l generalizing s with
  | nil =>
    cases h
    rfl
  | cons i l ih =>
    obtain ⟨u, hi, hl⟩ := execAll_cons_next_iff.mp h
    exact (ih hl).trans (exec_stateKept hi).cfg

theorem eventRule_shrinks (m : Nat) (i : Instr) : Within ScriptShrinks (eventRule (upcalls m) i) :=
  (Alike.eventRule (upcalls_alike m) i).shrinks

theorem endpointTurn_shrinks (m i : Nat) : Within ScriptShrinks (endpointTurn (upcalls m) i) := by
  have k := ScriptShrinks.effect
  refine .bind k.trans (k.regWrite _ _) fun _ => .bind k.trans (.look k.refl _) fun _ => .ite (fun _ => ?_) fun _ => .pure k.refl ()
  refine .bind k.trans (k.regRead _) fun _ => .bind k.trans (.look k.refl _) fun _ => ?_
  exact .eachOf k.refl k.trans fun j _ => eventRule_shrinks m j

section
variable {m : Nat} {s t : State} (hm : s.driverScript.length ≤ m)
include hm

/-- Events that complete as instructions complete in the pump, whatever number of levels of upcalls it has left (R200). -/
theorem eachOf_eventRule_of_execAll {l : List Instr} (hl : ∀ i ∈ l, isEvent i = true) (h : execAll l s = .next t) :
    eachOf (eventRule (upcalls m)) l s = .ok ((), t) ∧ t.driverScript.length ≤ m := by
  induction l generalizing s with
  | nil =>
    cases h
    exact ⟨rfl, hm⟩
  | cons i l ih =>
    obtain ⟨u, hi, hrest⟩ := execAll_cons_next_iff.mp h
    have hrun := eventRule_of_exec (hl i (by simp)) hi hm
    rw [eachOf_cons, bind_run_ok hrun]
    exact ih (Nat.le_trans (eventRule_shrinks m i _ _ _ hrun) hm) (fun j hj => hl j (by simp [hj])) hrest

theorem endpointTurn_of_pass {i : Nat} (h : endpointPass i s = .next t) : endpointTurn (upcalls m) i s = .ok ((), t) := by
  unfold endpointPass at h
  dsimp only at h
  rw [endpointTurn, regWrite_bind_run, ifServed, look_bind_run, ite_run]
  split at h
  · rename_i hserved
    rw [if_pos hserved, regRead_bind_run, look_bind_run, afterRead_cfg]
    exact (eachOf_eventRule_of_execAll (by simpa using hm) (fun j => isEvent_of_decodeEsr) h).1
  · rename_i hserved
    cases h
    rw [if_neg hserved]
    rfl

theorem eachOf_endpointTurn_of_passes {eir : Word} {l : List Nat} (h : endpointPasses eir l s = .next t) :
    eachOf (fun i => if eir.getLsbD i then endpointTurn (upcalls m) i else pure ()) l s = .ok ((), t) := by
  induction l generalizing s with
  | nil =>
    cases h
    rfl
  | cons i l ih =>
    obtain ⟨u, hi, hrest⟩ := endpointPasses_cons_next_iff.mp h
    rw [eachOf_cons]
    by_cases hbit : eir.getLsbD i = true
    · rw [if_pos hbit] at hi
      have hrun := endpointTurn_of_pass hm hi
      rw [if_pos hbit, bind_run_ok hrun]
      exact ih (Nat.le_trans (endpointTurn_shrinks m i _ _ _ hrun) hm) hrest
    · rw [if_neg hbit] at hi
      cases hi
      rw [if_neg hbit, pure_bind_run]
      exact ih hm hrest

end

/-! ### TASK -/

/-- The sample shows no unmasked event (R152). -/
abbrev State.NothingPending (s : State) : Prop :=
  s.sampledSsr &&& 0xEF = 0 ∧ s.sampledEir &&& s.sampledEier &&& epMask s.numEps = 0

section
variable {s : State} (hd : s.dev.upcallDepth = 0)
include hd

/-- TASK takes its three samples and, when they show an event, pumps (R151, R152). -/
theorem taskRule_run (up : Upcalls) : taskRule up s =
    if s.NothingPending then .ok (.ok, s.sampled)
    else (pump up s.sampledSsr s.sampledEir >>= fun _ => pure .ok) s.sampled := by
  have hn : s.sampled.numEps = s.numEps := by simp [State.sampled, State.numEps]
  rw [taskRule, bind_run_ok (topLevelOnly_run hd), regRead_bind_run, regRead_bind_run, regRead_bind_run, look_bind_run,
    ite_run]
  unfold State.NothingPending
  rw [← hn]
  rfl

theorem exec_task_poll (h : s.NothingPending) : exec .task s = .next (s.sampled.returned .ok) :=
  command_next (p := taskRule) (by rw [taskRule_run hd, if_pos h])

theorem exec_task_pump (h : ¬s.NothingPending) {t u : State} (hsys : execAll (decodeSsr s.sampledSsr) s.sampled = .next t)
    (heps : endpointPasses s.sampledEir (List.range s.numEps) t = .next u) : exec .task s = .next (u.returned .ok) := by
  have hscript : s.sampled.driverScript.length ≤ s.driverScript.length := by simp [State.sampled]
  have hn : t.numEps = s.numEps := by
    rw [State.numEps, execAll_cfg hsys]
    simp [State.sampled, State.numEps]
  obtain ⟨hrun, ht⟩ := eachOf_eventRule_of_execAll hscript (fun i => isEvent_of_decodeSsr) hsys
  refine command_next (p := taskRule) ?_
  have hpump : pump (upcalls s.driverScript.length) s.sampledSsr s.sampledEir s.sampled = .ok ((), u) := by
    rw [pump, bind_run_ok hrun, look_bind_run, hn]
    exact eachOf_endpointTurn_of_passes ht heps
  rw [taskRule_run hd, if_neg h, bind_run_ok hpump]
  rfl

end

/-! ### TASK completes -/

section
variable {c : Config} {s : State} (hs : s.Sweepable c)
include hs

theorem exec_event_completes {i : Instr} (hi : isEvent i = true) : ∃ t, exec i s = .next t ∧ t.Sweepable c := by
  obtain ⟨_, t, hr, ht⟩ := eventRule_completes s.driverScript.length i s hs
  refine ⟨t, ?_, ht⟩
  cases i with
  | suspend | resume | error | flushReq ep => exact outcome_of_ok hr
  | vbusOn => exact handler_next (p := vbusOnRule) hr
  | reset => exact handler_next (p := resetRule) hr
  | speedDone b => exact handler_next (p := fun up => speedDoneRule up b) hr
  | vbusOff => exact handler_next (p := vbusOffRule) hr
  | stallSent ep => exact handler_next (p := fun up => ifServed ep.toNat (stallSentRule up ep.toNat)) hr
  | txDone ep p => exact handler_next (p := fun up => ifServed ep.toNat (txDoneRule up ep.toNat p)) hr
  | rxReady ep p => exact handler_next (p := fun up => ifServed ep.toNat (rxReadyRule up ep.toNat p)) hr
  | _ => cases hi

theorem execAll_completes {l : List Instr} (hl : ∀ i ∈ l, isEvent i = true) : ∃ t, execAll l s = .next t ∧ t.Sweepable c := by
  induction l generalizing s with
  | nil => exact ⟨s, rfl, hs⟩
  | cons i l ih =>
    obtain ⟨u, hi, hu⟩ := exec_event_completes hs (hl i (by simp))
    obtain ⟨t, hrest, ht⟩ := ih hu fun j hj => hl j (by simp [hj])
    exact ⟨t, execAll_cons_next_iff.mpr ⟨u, hi, hrest⟩, ht⟩

theorem endpointPass_completes (i : Nat) : ∃ t, endpointPass i s = .next t ∧ t.Sweepable c := by
  have hacked : (s.afterWrite .eir (bitAt i true)).Sweepable c := hs.afterWrite (InvKept.pump.ackInterrupt s i)
  unfold endpointPass
  dsimp only
  split
  · exact execAll_completes (hacked.afterRead _) fun j => isEvent_of_decodeEsr
  · exact ⟨_, rfl, hacked⟩

theorem endpointPasses_completes (eir : Word) (l : List Nat) : ∃ t, endpointPasses eir l s = .next t ∧ t.Sweepable c := by
  induction l generalizing s with
  | nil => exact ⟨s, rfl, hs⟩
  | cons i l ih =>
    have hturn : ∃ u, (if eir.getLsbD i then endpointPass i s else .next s) = .next u ∧ u.Sweepable c := by
      split
      · exact endpointPass_completes hs i
      · exact ⟨s, rfl, hs⟩
    obtain ⟨u, hi, hu⟩ := hturn
    obtain ⟨t, hrest, ht⟩ := ih hu
    exact ⟨t, endpointPasses_cons_next_iff.mpr ⟨u, hi, hrest⟩, ht⟩

/-- Undisturbed, every event the sample shows completes. -/
theorem sampledEvents_complete : ∃ t u, execAll (decodeSsr s.sampledSsr) s.sampled = .next t ∧
    endpointPasses s.sampledEir (List.range s.numEps) t = .next u := by
  have hsampled : s.sampled.Sweepable c := ((hs.afterRead .ssr).afterRead .eir).afterRead .eier
  obtain ⟨t, hsys, ht⟩ := execAll_completes hsampled fun i => isEvent_of_decodeSsr (ssr := s.sampledSsr)
  obtain ⟨u, heps, -⟩ := endpointPasses_completes ht s.sampledEir (List.range s.numEps)
  exact ⟨t, u, hsys, heps⟩

theorem exec_task_completes (hd : s.dev.upcallDepth = 0) : ∃ t, exec .task s = .next t := by
  by_cases h : s.NothingPending
  · exact ⟨_, exec_task_poll hd h⟩
  · obtain ⟨t, u, hsys, heps⟩ := sampledEvents_complete hs
    exact ⟨_, exec_task_pump hd h hsys heps⟩

end

/-- Settles O7: the decoders list the events in the stated order; the pump's events answer as the instructions do, and
undisturbed each of them completes. -/
theorem taskRunsItsEvents : Obligations.TaskRunsItsEvents := by
  unfold Obligations.TaskRunsItsEvents
  refine ⟨decodeSsr_eq, decodeEsr_eq, fun s hd => ⟨exec_task_poll hd, fun t u h => exec_task_pump hd h, fun hs hu h => ?_⟩⟩
  obtain ⟨t, u, hsys, heps⟩ := sampledEvents_complete (hs.sweepable hu)
  exact ⟨t, u, hsys, heps, exec_task_pump hd h hsys heps⟩

/-! ### A poll with nothing pending -/

/-- The HS level is no event (R83). -/
theorem ssrWord_pending {x : Sie} (h : x.ssr &&& 0xEF = 0) : x.ssrWord &&& 0xEF = 0 := by
  have hmask : ssrPendingMask = (0xEF : Byte).zeroExtend 32 := rfl
  have hstored : x.ssr.zeroExtend 32 &&& ssrPendingMask = 0 := by
    rw [hmask, BitVec.zeroExtend_eq_setWidth, BitVec.zeroExtend_eq_setWidth, ← BitVec.setWidth_and, h]
    rfl
  rw [Sie.ssrWord, hstored]
  cases x.hs <;> rfl

/-- Only the bits of enabled endpoints with a latch or a staged packet count (R152, R166). -/
theorem eirWord_masked {s : State} (hs : s.Inv) (hquiet : ∀ i, i < s.numEps → (s.ep i).enabled = true →
    (s.sie.ep i).eirLatch = false ∧ (s.sie.ep i).rxQueue = []) : s.sie.eirWord &&& s.sie.eier = 0 := by
  have hlen : s.sie.eps.length ≤ 32 := by
    have := hs.numEps_le
    rw [hs.sieEndpoints]
    omega
  refine BitVec.eq_of_getLsbD_eq fun i _ => ?_
  rw [BitVec.getLsbD_and, getLsbD_eirWord _ _ hlen, hs.interrupts]
  by_cases hi : i < s.numEps ∧ (s.ep i).enabled = true
  · obtain ⟨hlatch, hqueue⟩ := hquiet i hi.1 hi.2
    simp [SieEndpoint.eirBit, SieEndpoint.rxReady, hlatch, hqueue]
  · have hoff : (decide (i < s.numEps) && (s.ep i).enabled) = false := by simpa using hi
    rw [hoff, Bool.and_false]
    exact BitVec.getLsbD_zero.symm

/-- The samples change nothing when the SIE makes no move between them (R61). -/
theorem sampled_quiet {s : State} (hb : s.betweenMoves = []) : s.sampled = s ∧ s.sampledSsr = s.sie.ssrWord ∧
    s.sampledEir = s.sie.eirWord ∧ s.sampledEier = s.sie.eier := by
  have hpure : ∀ r, Reg.consumes r = false → s.afterRead r = s := fun _ hr => afterRead_pure hb hr
  unfold State.sampled State.sampledSsr State.sampledEir State.sampledEier
  rw [hpure .ssr rfl, hpure .eir rfl, hpure .eier rfl, readValue_quiet hb, readValue_quiet hb, readValue_quiet hb]
  exact ⟨rfl, rfl, rfl, rfl⟩

/-- Settles O8: the sample shows nothing, so TASK returns at once. -/
theorem taskIsACheapPoll : Obligations.TaskIsACheapPoll := by
  unfold Obligations.TaskIsACheapPoll
  intro s hs hb hd hssr hquiet
  obtain ⟨hsampled, hS, hE, hM⟩ := sampled_quiet hb
  have hnothing : s.NothingPending := by
    rw [State.NothingPending, hS, hE, hM, eirWord_masked hs hquiet]
    exact ⟨ssrWord_pending hssr, BitVec.zero_and⟩
  rw [exec_task_poll hd hnothing, hsampled]

end Sys2Proof.Machine
end

section
/-! PROOF. Every instruction but the reserved command completes (R159, R187, R192). -/

namespace Sys2Proof.Machine

section
variable {c : Config} {s : State}

/-- A command whose rule completes answers its RESULT (R187). -/
theorem exec_command_completes {i : Instr} {p : Upcalls → Proc Status}
    (he : exec i s = outcome (withUpcalls fun up => command i (p up)) s)
    (hp : CompletesFrom c s (p (upcalls s.driverScript.length))) : ∃ t, exec i s = .next t := by
  obtain ⟨r, t, hr, -⟩ := hp
  exact ⟨_, he.trans (command_next hr)⟩

/-- A SETUP row is the dispatch of its packet (R136, R141). -/
theorem exec_setup_completes {i : Instr} {S : BitVec 64} (hi : encode i = .setup S) (hs : s.Sweepable c) :
    ∃ t, exec i s = .next t := by
  obtain ⟨_, t, hr, -⟩ := runSetup_completes S (dispatchRule_completes s.driverScript.length S i) s hs
  exact ⟨t, (exec_setup_next_iff hi).mpr hr⟩

theorem withRequest_completes {h : Word} {p : Proc Status} (hk : s.hasRequest h = true) (hp : CompletesFrom c s p) :
    CompletesFrom c s (withRequest h p) := by
  obtain ⟨a, t, hr, ht⟩ := hp
  exact ⟨a, t, (withRequest_known hk p).trans hr, ht⟩

/-- DEQUEUE of a record (R114). -/
theorem dequeueCommand_completes (hs : s.Sweepable c) (n : Nat) (ep : BitVec 4) {h : Word} (hk : s.hasRequest h = true) :
    CompletesFrom c s (dequeueCommand (upcalls n) ep h) := by
  refine withRequest_completes hk (.look ?_)
  split
  · exact Completes.pure _ s hs
  refine .look ?_
  split
  · have hqueued : (s.req (.user h)).queuedOn = some ep.toNat := of_decide_eq_true ‹_›
    exact (complete_completes hs n _ (.inr (.inl hqueued))).bind fun _ => .pure _
  · exact Completes.pure _ s hs

/-- BIND of a driver outside an upcall (R117). -/
theorem bindRule_completes (hs : s.Sweepable c) (n : Nat) {d : Word} (h0 : d ≠ 0) (hd : s.dev.upcallDepth = 0) :
    CompletesFrom c s (bindRule (upcalls n) d) := by
  unfold bindRule
  rw [if_neg h0]
  refine .bind ⟨(), s, topLevelOnly_run hd, hs⟩ fun _ => .bind .look fun bound => ?_
  cases bound with
  | some x => exact .pure _
  | none =>
    exact .bind (.setDev fun _ => .same rfl rfl rfl rfl rfl rfl rfl rfl rfl) fun _ => .bind (upcalls_completes n _) fun _ => .pure _

end

/-- Settles O54: the rule of every instruction completes when the agents do not interfere. -/
theorem everyInstructionCompletes : Obligations.EveryInstructionCompletes := by
  unfold Obligations.EveryInstructionCompletes
  intro i s hinv hu hd hreserved hbind hrequest henable
  have hs := hinv.sweepable hu
  cases i with
  | task => exact exec_task_completes hs hd
  | bind d => exact exec_command_completes rfl (bindRule_completes hs _ (hbind d rfl) hd)
  | enable ep addr => exact exec_command_completes rfl (enableRule_completes _ ep (henable ep addr rfl) s hs)
  | disable ep => exact exec_command_completes rfl (disableRule_completes _ ep s hs)
  | queue ep h =>
    exact exec_command_completes rfl
      (withRequest_completes (hrequest ep h (.inl rfl)) (queueRule_completes _ ep.toNat (.user h) s hs))
  | dequeue ep h => exact exec_command_completes rfl (dequeueCommand_completes hs _ ep (hrequest ep h (.inr rfl)))
  | setHalt ep v => exact exec_command_completes rfl (setHaltRule_completes _ ep.toNat v s hs)
  | fifoFlush ep => exact exec_command_completes (p := fun _ => fifoFlushRule ep) rfl (fifoFlushRule_completes ep s hs)
  | reservedCmd cmd arg => exact absurd rfl (hreserved cmd arg)
  | getStatus | clearFeature | setFeature | setAddress | setConfiguration | getDescriptor | forward =>
    exact exec_setup_completes rfl hs
  | vbusOn | reset | speedDone | suspend | resume | error | vbusOff | stallSent | flushReq | txDone | rxReady =>
    exact (exec_event_completes hs rfl).imp fun _ => And.left

end Sys2Proof.Machine
end

section
/-! PROOF. The class driver: an upcall's actions run as instructions, and the writes the driver may make (R177, R179,
R199, R200). -/

namespace Sys2Proof.Machine

/-! ### Outcomes in a row -/

/-- The outcome of going on with `k` where the first outcome is a next state. -/
def proceed (o : Host.Outcome State Fault Refusal) (k : State → Host.Outcome State Fault Refusal) :
    Host.Outcome State Fault Refusal :=
  match o with
  | .next t => k t
  | .fault f => .fault f
  | .refused r => .refused r

@[simp] theorem proceed_next (t : State) (k : State → Host.Outcome State Fault Refusal) : proceed (.next t) k = k t := rfl

@[simp] theorem proceed_refused (r : Refusal) (k : State → Host.Outcome State Fault Refusal) :
    proceed (.refused r) k = .refused r := rfl

/-- Going on alike from every next state the first outcome can be gives the same outcome. -/
theorem proceed_congr {o : Host.Outcome State Fault Refusal} {k l : State → Host.Outcome State Fault Refusal}
    (h : ∀ t, o = .next t → k t = l t) : proceed o k = proceed o l := by
  cases o with
  | next t => exact h t rfl
  | fault f => rfl
  | refused r => rfl

theorem outcome_bind {α : Type} (p : Proc Unit) (f : Unit → Proc α) (s : State) :
    outcome (p >>= f) s = proceed (outcome p s) (outcome (f ())) := by
  unfold outcome
  rw [bind_run]
  cases p s with
  | ok q => rfl
  | error e => cases e <;> rfl

theorem runActions_cons (a : DriverAction) (l : List DriverAction) (s : State) :
    runActions (a :: l) s = proceed (runActions [a] s) (runActions l) := by
  cases a with
  | command cmd arg =>
    rw [runActions, runActions]
    cases decodeCmd cmd arg with
    | error e => rfl
    | ok i =>
      dsimp only
      cases exec i s <;> rfl
  | write w =>
    rw [runActions, runActions]
    cases outcome (driverWrite w) s <;> rfl

/-! ### An action inside an upcall is the instruction -/

theorem runActions_write (w : DriverWrite) (s : State) : runActions [.write w] s = outcome (driverWrite w) s := by
  rw [runActions]
  cases outcome (driverWrite w) s <;> rfl

/-- An upcall is active, and m levels of upcalls are enough for the class driver's script (R200). -/
structure State.InUpcall (m : Nat) (s : State) : Prop where
  depth : 0 < s.dev.upcallDepth
  script : s.driverScript.length ≤ m

section
variable {m : Nat} {s t : State} (hs : s.InUpcall m)
include hs

/-- A command inside an upcall is executed as its instruction; TASK and BIND are refused either way (R177, R197). -/
theorem exec_eq_nestedCommand {i : Instr} (hi : i = .task ∨ Instr.isCommand i = true) :
    exec i s = outcome (nestedCommand (upcalls m) i) s := by
  have hfuel : nestedCommand (upcalls s.driverScript.length) i s = nestedCommand (upcalls m) i s :=
    (Alike.nestedCommand (fun u => upcalls_fuel hs.script u) i).same s (Nat.le_refl _)
  rw [← outcome_congr hfuel]
  have rule : ∀ {p : Upcalls → Proc Status}, exec i s = outcome (withUpcalls fun up => command i (p up)) s →
      nestedCommand (upcalls s.driverScript.length) i = command i (p (upcalls s.driverScript.length)) →
      exec i s = outcome (nestedCommand (upcalls s.driverScript.length) i) s := fun hexec hnested => by
    rw [hexec, hnested]
    rfl
  cases i with
  | task => exact exec_task_nested hs.depth
  | bind d =>
    by_cases h0 : d = 0
    · subst h0
      exact exec_bind_zero s
    · rw [exec_bind_nested hs.depth h0, nestedCommand, if_neg h0]
      rfl
  | enable | disable | queue | dequeue | setHalt => exact rule rfl rfl
  | fifoFlush ep => exact rule (p := fun _ => fifoFlushRule ep) rfl rfl
  | reservedCmd => rfl
  | _ => simp [Instr.isCommand] at hi

theorem runActions_singleton (a : DriverAction) : runActions [a] s = outcome (driverAction (upcalls m) a) s := by
  cases a with
  | write w => exact runActions_write w s
  | command cmd arg =>
    rw [runActions, driverAction]
    cases hd : decodeCmd cmd arg with
    | error e => rfl
    | ok i =>
      dsimp only
      rw [← exec_eq_nestedCommand hs (decodeCmd_task_or_isCommand hd)]
      cases exec i s <;> rfl

/-- An action ends where it began: inside the same upcall, with no more answers to come. -/
theorem State.InUpcall.after_action {a : DriverAction} (h : outcome (driverAction (upcalls m) a) s = .next t) :
    t.InUpcall m where
  depth := by
    have k := DepthKept.effect.toCommandKept
    rw [(ofPlain (k.driverAction (k.upcalls m) a) h).2]
    exact hs.depth
  script :=
    have k := ScriptShrinks.effect.toCommandKept
    Nat.le_trans (ofPlain (k.driverAction (k.upcalls m) a) h) hs.script

theorem runActions_eq_eachOf (l : List DriverAction) :
    runActions l s = outcome (eachOf (driverAction (upcalls m)) l) s := by
  induction l generalizing s with
  | nil => rfl
  | cons a l ih =>
    rw [runActions_cons, eachOf_cons, outcome_bind, runActions_singleton hs]
    exact proceed_congr fun t ht => ih (hs.after_action ht)

end

theorem outcome_upcallWith (act : DriverAction → Proc Unit) (u : Upcall) (s : State) :
    outcome (upcallWith act u) s =
      proceed (outcome (eachOf act s.nextResponse.actions) (s.enterUpcall u).afterResponse)
        fun t => .next (t.leaveUpcall (u.returns s.nextResponse.ret)) :=
  outcome_bind (eachOf act s.nextResponse.actions)
    (fun _ => change (fun t => t.leaveUpcall (u.returns s.nextResponse.ret)) >>= fun _ => pure s.nextResponse.ret)
    (s.enterUpcall u).afterResponse

/-- An upcall, with whatever the class driver does in it: entry, the actions, return (R177, R199, R200). -/
theorem upcalled_eq (u : Upcall) (s : State) :
    upcalled u s = proceed (runActions s.nextResponse.actions (s.enterUpcall u).afterResponse)
      fun t => .next (t.leaveUpcall (u.returns s.nextResponse.ret)) := by
  have hfuel : upcalls s.driverScript.length u s = upcalls (s.driverScript.length + 1) u s :=
    (upcalls_alike s.driverScript.length u).same s (Nat.le_refl _)
  have hin : (s.enterUpcall u).afterResponse.InUpcall s.driverScript.length :=
    { depth := by
        rw [afterResponse_dev]
        exact Nat.succ_pos _
      script := by simp [afterResponse_driverScript] }
  calc upcalled u s = outcome (upcalls (s.driverScript.length + 1) u) s := outcome_congr hfuel
    _ = _ := by rw [upcalls, outcome_upcallWith, runActions_eq_eachOf hin]

/-- Settles O9: the actions of an upcall are run as instructions, so it goes on or ends as they do. -/
theorem upcallRunsItsActions : Obligations.UpcallRunsItsActions := by
  unfold Obligations.UpcallRunsItsActions
  refine fun u s => ⟨fun t h => ?_, fun r h => ?_⟩
  · rw [upcalled_eq, h, proceed_next]
  · rw [upcalled_eq, h, proceed_refused]

/-! ### The writes the class driver may make -/

section
variable {h : Word} {r : Request} {s : State} (hr : findRequest h s.reqs = some r) (hq : r.queuedOn = none)
include hr hq

/-- A write to the record of a request in no queue is made (R179). -/
theorem writeRecord_free (f : Request → Request) : writeRecord h f s = .ok ((), s.setReq (.user h) f) := by
  unfold writeRecord
  rw [look_bind_run, hr]
  dsimp only
  rw [if_neg (by simp [hq])]
  rfl

/-- It changes that record as it says, and nothing else (R179). -/
theorem writeRecord_free_effect (f : Request → Request) : ∃ t, outcome (writeRecord h f) s = .next t ∧
    t.req (.user h) = f r ∧ (∀ g, g ≠ Handle.user h → t.req g = s.req g) ∧
    t.reqs.map (fun p => p.1) = s.reqs.map (fun p => p.1) ∧ { t with reqs := s.reqs } = s := by
  have hknown : s.known (.user h) = true := by simp [State.known, State.hasRequest, hr]
  have hreq : s.req (.user h) = r := by simp [State.req, hr]
  refine ⟨_, outcome_of_ok (writeRecord_free hr hq f), ?_, fun g hg => req_setReq_ne s f hg, ?_, rfl⟩
  · rw [req_setReq_self s _ f hknown, hreq]
  · exact updateRequest_handles h f s.reqs

end

/-- A byte outside the buffers of queued requests is no request's (R34, R179). -/
theorem ownsByte_eq_false {r : Request} {a : Nat}
    (h : ∀ base : Word, r.queuedOn ≠ none → r.buf = .sysMem base → ¬(base.toNat ≤ a ∧ a < base.toNat + r.length)) :
    r.ownsByte a = false := by
  unfold Request.ownsByte
  cases hb : r.buf with
  | none => rfl
  | coreBytes => rfl
  | sysMem base =>
    by_cases hq : r.queuedOn = none
    · simp [hq]
    · have hout := h base hq hb
      simpa [Option.isSome_iff_ne_none, hq] using hout

/-- A byte of memory no queued request owns is the class driver's to write (R179). -/
theorem driverWrite_memByte_free {addr : Word} {s : State} (hin : addr.toNat < s.cfg.memSize)
    (hfree : (s.reqs.any fun p => p.2.ownsByte addr.toNat) = false) (b : Byte) :
    driverWrite (.memByte addr b) s = .ok ((), s.setByte addr.toNat b) := by
  unfold driverWrite
  dsimp only
  rw [look_bind_run, hfree]
  exact if_pos hin

/-- Settles O60: each write is made where the request is in no queue or owns no such byte, and is one update of the state. -/
theorem allowedDriverWritesTakeEffect : Obligations.AllowedDriverWritesTakeEffect := by
  unfold Obligations.AllowedDriverWritesTakeEffect
  refine ⟨fun h r s hr hq => ?_, fun addr b s hwf hin hout => ?_, fun w s t hw => ?_⟩
  · have effect := fun f => writeRecord_free_effect hr hq f
    exact ⟨effect _, fun a => effect _, fun n => effect _, fun z => effect _, fun cb => effect _⟩
  · have hfree : (s.reqs.any fun p => p.2.ownsByte addr.toNat) = false :=
      List.any_eq_false.mpr fun p hp => by simp [ownsByte_eq_false fun base => hout p.1 p.2 base hp]
    refine ⟨_, outcome_of_ok (driverWrite_memByte_free hin hfree b), ?_, fun a ha => ?_, rfl⟩
    · rw [byte_setByte s hwf, if_pos rfl]
    · rw [byte_setByte s hwf, if_neg ha]
  · rw [runActions_write, hw]

end Sys2Proof.Machine
end

section
/-! PROOF. A step's input and the status stage of SET_ADDRESS (R147, R162, R163, R176, R195). -/

namespace Sys2Proof.Machine

/-! ### A step -/

section
variable {s : State} {rest : List Input}

theorem step_no_input (h : s.inputs = []) : step s = .next s := by
  unfold step stepInputs
  rw [h]

theorem step_input {x : Input} (h : s.inputs = x :: rest) : step s = runInput x { s with inputs := rest } := by
  unfold step stepInputs
  rw [h]

theorem step_command {cmd arg : Word} {i : Instr} (h : s.inputs = .command cmd arg :: rest) (hd : decodeCmd cmd arg = .ok i) :
    step s = afterCommand (exec i { s with inputs := rest }) := by
  rw [step_input h, runInput, runCommand, hd]

theorem step_refused_word {cmd arg : Word} {e : Reject} (h : s.inputs = .command cmd arg :: rest)
    (hd : decodeCmd cmd arg = .error e) : step s = .refused .reservedCommand := by
  rw [step_input h, runInput, runCommand, hd]

end

/-! ### The status stage -/

theorem settle_none {s : State} (h : s.sie.pendingAddress = none) : s.settleStatusStage = s := by
  unfold State.settleStatusStage
  rw [h]

section
variable {s : State} {p : PendingAddress} (h : s.sie.pendingAddress = some p)
include h

/-- The three ways a pending address can go at the end of a command (R147, R176). -/
theorem settle_some : s.settleStatusStage =
    if (s.sie.ep 0).rxQueue.length ≤ p.behind then
      if (s.sie.ep 0).stall = true then { s with sie := { s.sie with pendingAddress := none } }
      else if s.dev.ctl = .waitForSetup then
        { s with sie := { s.sie with sieAddress := p.address, pendingAddress := none } }
      else s
    else s := by
  unfold State.settleStatusStage
  rw [h]
  simp only [Sie.setupRead, decide_eq_true_eq]

/-- A write of `ECR[0]` forgets the address when it begins a stall of the transfer whose setup packet has been read (R147,
R176). -/
theorem write_ecr0_pendingAddress (v : Word) : (Sie.write s.cfg s.sie (.ecr 0) v).pendingAddress =
    if (s.sie.ep 0).rxQueue.length ≤ p.behind ∧ v.getLsbD 0 = true ∧ (s.sie.ep 0).stall = false then none else some p := by
  unfold Sie.write
  dsimp only
  by_cases hbegins : v.getLsbD 0 = true ∧ (s.sie.ep 0).stall = false
  · rw [if_pos ⟨rfl, hbegins⟩, Sie.addressAfterStall, h]
    simp [Sie.setupRead, hbegins]
  · rw [if_neg fun hc => hbegins hc.2, if_neg fun hc => hbegins hc.2, h]

end

/-- Settles O6: a step is `runInput` of the first input, and the status stage and the write of `ECR[0]` are read off their
conditions. -/
theorem stepRunsTheInput : Obligations.StepRunsTheInput := by
  unfold Obligations.StepRunsTheInput
  refine fun s rest => ⟨fun cmd arg i h hd => ?_, fun cmd arg e h hd => step_refused_word h hd, fun m h => step_input h,
    fun w h => step_input h, step_no_input, settle_none, fun p h => ?_⟩
  · rw [step_command h hd]
    exact ⟨fun t ht => by rw [ht, afterCommand], fun f hf => by rw [hf, afterCommand], fun r hr => by rw [hr, afterCommand]⟩
  · intro read
    rw [settle_some h]
    refine ⟨fun hread hstall hctl => ?_, fun hread hstall => ?_, fun hkept => ?_,
      fun v => ⟨fun hread hv hstall => ?_, fun hkept => ?_⟩⟩
    · rw [if_pos hread, if_neg (ne_true_of_eq_false hstall), if_pos hctl]
    · rw [if_pos hread, if_pos hstall]
    · rcases hkept with hread | ⟨hstall, hctl⟩
      · rw [if_neg hread]
      · rw [if_neg (ne_true_of_eq_false hstall), if_neg hctl, ite_self]
    · rw [write_ecr0_pendingAddress h, if_pos ⟨hread, hv, hstall⟩]
    · rw [write_ecr0_pendingAddress h, if_neg]
      rintro ⟨hread, hv, hstall⟩
      rcases hkept with hnot | hnot | hnot
      · exact hnot hread
      · exact Bool.noConfusion (hv.symm.trans hnot)
      · exact Bool.noConfusion (hstall.symm.trans hnot)

end Sys2Proof.Machine
end

section
/-! PROOF. What the core reads: the data port and the word count with their effects, and the levels (R165, R169). -/

namespace Sys2Proof.Machine

/-! ### The head packet -/

section
variable {e : SieEndpoint} {p : RxPacket} {rest : List RxPacket}

theorem readFifo_nil (h : e.rxQueue = []) : e.readFifo = (0, e) := by
  unfold SieEndpoint.readFifo
  rw [h]

theorem readFifo_cons (h : e.rxQueue = p :: rest) : e.readFifo = (packetWord p.bytes e.rxPos,
    if p.bytes.length ≤ e.rxPos + 2 then { e with rxQueue := rest, rxPos := 0 } else { e with rxPos := e.rxPos + 2 }) := by
  unfold SieEndpoint.readFifo
  rw [h]

theorem readWordCount_nil (h : e.rxQueue = []) : e.readWordCount = (0, e) := by
  unfold SieEndpoint.readWordCount
  rw [h]

theorem readWordCount_cons (h : e.rxQueue = p :: rest) : e.readWordCount =
    if p.bytes = [] then (0, { e with rxQueue := rest, rxPos := 0 })
    else ((p.bytes.length + 1) / 2 - e.rxPos / 2, e) := by
  unfold SieEndpoint.readWordCount
  rw [h]
  simp [SieEndpoint.rxWordCount, SieEndpoint.rxReady, SieEndpoint.headLength, ceilHalf, h]

end

/-- Settles O11: a read of the data port or of the word count takes from the head packet, and only that changes the SIE. -/
theorem registerReads : Obligations.RegisterReads := by
  unfold Obligations.RegisterReads
  refine fun c x i _ => ⟨fun p rest hq => ⟨?_, ?_⟩, fun hq => ?_, fun p rest hq hb => ?_, fun p rest hq hb => ?_, fun hq => ?_,
    fun r hr => ?_⟩
  · rw [Sie.read, readFifo_cons hq, packetWord]
  · exact sieSetEp_congr (by rw [readFifo_cons hq])
  · have hsame : (x.setEp i fun e => e.readFifo.2) = x := sieSetEp_eq_self (by rw [readFifo_nil hq])
    rw [Sie.read, readFifo_nil hq, hsame]
    rfl
  · have hpop : (x.setEp i fun e => e.readWordCount.2) = x.setEp i fun e => { e with rxQueue := rest, rxPos := 0 } :=
      sieSetEp_congr (by rw [readWordCount_cons hq, if_pos hb])
    rw [Sie.read, hpop, readWordCount_cons hq, if_pos hb]
    rfl
  · exact sieSetEp_eq_self (by rw [readWordCount_cons hq, if_neg hb])
  · exact sieSetEp_eq_self (by rw [readWordCount_nil hq])
  · simp only [List.mem_cons, List.not_mem_nil, or_false] at hr
    rcases hr with rfl | rfl | rfl | rfl | rfl | rfl | rfl <;> rfl

/-! ### The levels -/

theorem rxReady_iff (e : SieEndpoint) : e.rxReady = true ↔ e.rxQueue ≠ [] := by simp [SieEndpoint.rxReady]

theorem lwo_iff (e : SieEndpoint) : e.lwo = true ↔ ∃ p, e.rxQueue.head? = some p ∧ p.bytes.length % 2 = 1 := by
  unfold SieEndpoint.lwo SieEndpoint.rxReady SieEndpoint.headLength
  cases e.rxQueue <;> simp

theorem headEot_iff (e : SieEndpoint) : e.headEot = true ↔ ∃ p, e.rxQueue.head? = some p ∧ p.eot = true := by
  unfold SieEndpoint.headEot
  cases e.rxQueue <;> simp

theorem partialCount_eq (e : SieEndpoint) : e.partialCount = if e.txCur = none then 0 else 1 := by
  unfold SieEndpoint.partialCount
  cases e.txCur <;> simp

theorem psifTwo_iff (f : Nat) (e : SieEndpoint) : e.psifTwo f = true ↔
    if e.dirIn then 2 ≤ f - e.txQueue.length - (if e.txCur = none then 0 else 1) else 2 ≤ e.rxQueue.length := by
  unfold SieEndpoint.psifTwo
  rw [partialCount_eq]
  split <;> exact decide_eq_true_iff

theorem txSpace_iff (f : Nat) (e : SieEndpoint) : e.txSpace f = true ↔ e.txQueue.length < f ∧ e.txCur = none := by
  simp [SieEndpoint.txSpace]

/-- The word count read from a FIFO: the words of the head packet not read yet (R46). -/
theorem readWordCount_fst (e : SieEndpoint) : e.readWordCount.1 =
    match e.rxQueue.head? with
    | none => 0
    | some p => (p.bytes.length + 1) / 2 - e.rxPos / 2 := by
  cases hq : e.rxQueue with
  | nil => rw [readWordCount_nil hq, List.head?_nil]
  | cons p rest =>
    rw [readWordCount_cons hq, List.head?_cons]
    split
    · simp [*]
    · rfl

/-- Nothing of it is lost in the register's 11 bits (R46). -/
theorem read_rxWcnt_toNat (c : Config) {x : Sie} {i f : Nat} (h : (x.ep i).FifoOk f) :
    (Sie.read c x (.rxWcnt i)).1.toNat = (x.ep i).readWordCount.1 := by
  obtain ⟨hlt, -⟩ := receivedBytes_eq h f i
  rw [Sie.read, BitVec.toNat_ofNat]
  omega

theorem ssrWord_hs (x : Sie) : x.ssrWord.getLsbD 4 = x.hs := by
  have hmask : ssrPendingMask.getLsbD 4 = false := by decide
  rw [Sie.ssrWord, BitVec.getLsbD_or, BitVec.getLsbD_and, hmask, getLsbD_bitAt]
  simp

/-- Settles O12: each bit of the status word is the level of that name, and each level is its condition on the FIFOs. -/
theorem statusLevels : Obligations.StatusLevels := by
  unfold Obligations.StatusLevels
  intro c x i _ hfifo e esr head
  refine ⟨ssrWord_hs x, ?_, ?_, ?_, ?_, ?_, ?_⟩
  · exact (Bool.eq_iff_iff.mp (esrRxReady_esrWord c.fifoPkts i e)).trans (rxReady_iff e)
  · exact (Bool.eq_iff_iff.mp (esrLwo_esrWord c.fifoPkts i e)).trans (lwo_iff e)
  · exact (Bool.eq_iff_iff.mp (esrPsifTwo_esrWord c.fifoPkts i e)).trans (psifTwo_iff c.fifoPkts e)
  · exact (Bool.eq_iff_iff.mp (esrTxSpace_esrWord c.fifoPkts i e)).trans (txSpace_iff c.fifoPkts e)
  · refine (Bool.eq_iff_iff.mp (esrCtlEot_esrWord c.fifoPkts i e)).trans ?_
    rw [Bool.and_eq_true, decide_eq_true_eq, headEot_iff]
  · exact (read_rxWcnt_toNat c hfifo).trans (readWordCount_fst e)

end Sys2Proof.Machine
end

section
/-! PROOF. The moves of the SIE and the host (R166, R170 to R174, R181). -/

namespace Sys2Proof.Machine

/-! ### When a move can happen -/

section
variable (c : Config) (x : Sie)

theorem moveEnabled_flushReq_iff (i : BitVec 4) : Sie.moveEnabled c x (.flushReq i) = true ↔
    1 ≤ i.toNat ∧ i.toNat < c.numEndpoints ∧ (x.ep i.toNat).dirIn = false := by
  simp [Sie.moveEnabled, and_assoc]

theorem moveEnabled_setup_iff (S : BitVec 64) : Sie.moveEnabled c x (.setup S) = true ↔
    x.connected = true ∧ (x.ep 0).rxQueue.length < c.fifoPkts := by
  simp [Sie.moveEnabled]

theorem moveEnabled_out_iff (i : BitVec 4) (bytes : List Byte) (eot : Bool) :
    Sie.moveEnabled c x (.out i bytes eot) = true ↔ i.toNat < c.numEndpoints ∧ x.connected = true ∧
      (x.ep i.toNat).dirIn = false ∧ bytes.length ≤ (x.ep i.toNat).mps.toNat ∧
      ((x.ep i.toNat).stall = true ∨ (x.ep i.toNat).rxQueue.length < c.fifoPkts) := by
  simp [Sie.moveEnabled, and_assoc]

theorem moveEnabled_inToken_iff (i : BitVec 4) : Sie.moveEnabled c x (.inToken i) = true ↔
    i.toNat < c.numEndpoints ∧ x.connected = true ∧ ((x.ep i.toNat).dirIn = true ∨ i = 0) ∧
      ((x.ep i.toNat).stall = true ∨ (x.ep i.toNat).txQueue ≠ []) := by
  simp [Sie.moveEnabled, and_assoc]

end

/-! ### What the host gets -/

section
variable {x : Sie} {i : BitVec 4}

/-- A token to a stalled endpoint is answered by a STALL (R174). -/
theorem hostReply_stalled (h : (x.ep i.toNat).stall = true) (bytes : List Byte) (eot : Bool) :
    x.hostReply (.out i bytes eot) = .stall ∧ x.hostReply (.inToken i) = .stall :=
  ⟨if_pos h, if_pos h⟩

theorem hostReply_inToken (h : (x.ep i.toNat).stall = false) {p : List Byte} {rest : List (List Byte)}
    (hq : (x.ep i.toNat).txQueue = p :: rest) : x.hostReply (.inToken i) = .packet p := by
  rw [Sie.hostReply, if_neg (ne_true_of_eq_false h), hq]

theorem hostReply_out (h : (x.ep i.toNat).stall = false) (bytes : List Byte) (eot : Bool) :
    x.hostReply (.out i bytes eot) = .nothing := if_neg (ne_true_of_eq_false h)

end

/-! ### The move in the run -/

theorem move_enabled {s : State} {m : Move} (h : Sie.moveEnabled s.cfg s.sie m = true) :
    s.move m = { s with sie := s.sie.moveEffect m, trace := s.trace ++ [.busMove m (s.sie.hostReply m)] } := if_pos h

theorem move_not_enabled {s : State} {m : Move} (h : Sie.moveEnabled s.cfg s.sie m = false) : s.move m = s :=
  if_neg (ne_true_of_eq_false h)

/-- Settles O59: each move's precondition, effect and reply is its arm of the definition. -/
theorem movesOfTheBus : Obligations.MovesOfTheBus := by
  unfold Obligations.MovesOfTheBus
  intro c x drained room
  refine ⟨⟨?_, fun m hm => ?_, fun hs => ?_, moveEnabled_flushReq_iff c x, moveEnabled_setup_iff c x, moveEnabled_out_iff c x,
    moveEnabled_inToken_iff c x⟩,
    ⟨rfl, rfl, rfl, fun _ => rfl, rfl, rfl, rfl, fun _ => rfl, fun _ => rfl, fun _ _ _ => rfl, fun _ => rfl⟩,
    ⟨fun _ bytes eot h => hostReply_stalled h bytes eot, fun _ _ _ h hq => hostReply_inToken h hq,
      fun _ bytes eot h => hostReply_out h bytes eot⟩,
    fun m s hc hx => ?_⟩
  · simp [Sie.moveEnabled]
  · simp only [List.mem_cons, List.not_mem_nil, or_false] at hm
    rcases hm with rfl | rfl | rfl | rfl | rfl <;> rfl
  · simp [Sie.moveEnabled]
  · subst hc hx
    exact ⟨move_enabled, move_not_enabled⟩

end Sys2Proof.Machine
end

section
/-! PROOF. ENABLE of a descriptor past memory (R12, R183, R198). -/

namespace Sys2Proof.Machine

theorem memReadByte_run {a : Nat} {s : State} (h : a < s.cfg.memSize) : memReadByte a s = .ok (s.byte a, s) := if_pos h

theorem memReadByte_outside {a : Nat} {s : State} (h : s.cfg.memSize ≤ a) :
    memReadByte a s = .error (.fault (.modelFault none a)) := if_neg (Nat.not_lt.mpr h)

/-- `MemRead` past memory stops at the first address outside it. -/
theorem memRead_outside {a n : Nat} {s : State} (hn : 0 < n) (h : s.cfg.memSize < a + n) :
    memRead a n s = .error (.fault (.modelFault none (max a s.cfg.memSize))) := by
  induction n generalizing a with
  | zero => exact absurd hn (Nat.lt_irrefl 0)
  | succ n ih =>
    rw [memRead]
    by_cases ha : s.cfg.memSize ≤ a
    · rw [bind_run_error (memReadByte_outside ha), max_eq_left ha]
    · have hrest : memRead (a + 1) n s = .error (.fault (.modelFault none (max (a + 1) s.cfg.memSize))) :=
        ih (by omega) (by omega)
      have hfirst : max (a + 1) s.cfg.memSize = max a s.cfg.memSize := by omega
      rw [bind_run_ok (memReadByte_run (Nat.not_le.mp ha)), bind_run_error hrest, hfirst]

/-- A command whose rule faults is a fault that names the command (R198). -/
theorem command_fault {p : Upcalls → Proc Status} {i : Instr} {s : State} {f : Fault}
    (h : p (upcalls s.driverScript.length) s = .error (.fault f)) :
    outcome (withUpcalls fun up => command i (p up)) s = .fault (f.inCommand i) := by
  have hrule : inCommand i (p (upcalls s.driverScript.length)) s = .error (.fault (f.inCommand i)) := by
    rw [inCommand, h]
  exact outcome_fault_iff.mpr (bind_run_error hrule)

/-- Settles O20: ENABLE reads the descriptor before it checks anything of it, and the read stops at the first address
outside memory. -/
theorem enablePastMemoryFaults : Obligations.EnablePastMemoryFaults := by
  unfold Obligations.EnablePastMemoryFaults
  intro ep addr s h0 hep hmem
  refine command_fault (p := fun up => enableRule up ep addr) (f := .modelFault none _) ?_
  rw [enableRule, look_bind_run, if_neg (Nat.not_le.mpr hep), if_neg (toNat_ne_zero h0)]
  exact bind_run_error (memRead_outside (by decide) hmem)

end Sys2Proof.Machine
end

section
/-! PROOF. A command that returns an error has changed no state (R191). -/

namespace Sys2Proof.Machine

/-! ### The shape of a rule: checks that change nothing, then writes that end in OK -/

/-- Every completed run gives OK. -/
def AlwaysOk (p : Proc Status) : Prop := ∀ s r t, p s = .ok (r, t) → r = .ok

/-- Every run that gives an error ends in the state it began in. -/
def ErrorsPure (p : Proc Status) : Prop := ∀ s r t, p s = .ok (r, t) → r ≠ .ok → t = s

theorem AlwaysOk.pure : AlwaysOk (pure .ok) := fun s r t h => by
  cases h
  rfl

theorem AlwaysOk.bind {α : Type} {p : Proc α} {f : α → Proc Status} (hf : ∀ a, AlwaysOk (f a)) : AlwaysOk (p >>= f) :=
  fun s r t h => by
    obtain ⟨a, u, _, hrest⟩ := bind_ok_iff.mp h
    exact hf a u r t hrest

theorem AlwaysOk.ite {c : Prop} [Decidable c] {p q : Proc Status} (hp : AlwaysOk p) (hq : AlwaysOk q) :
    AlwaysOk (if c then p else q) := by
  split
  · exact hp
  · exact hq

theorem AlwaysOk.errorsPure {p : Proc Status} (hp : AlwaysOk p) : ErrorsPure p := fun s r t h hr =>
  absurd (hp s r t h) hr

namespace ErrorsPure

theorem pure (r : Status) : ErrorsPure (pure r) := fun s e t h _ => by
  cases h
  rfl

theorem refuse (r : Refusal) : ErrorsPure (refuse r) := fun s e t h _ => by cases h

theorem ite {c : Prop} [Decidable c] {p q : Proc Status} (hp : ErrorsPure p) (hq : ErrorsPure q) :
    ErrorsPure (if c then p else q) := by
  split
  · exact hp
  · exact hq

/-- A check that changes nothing may come first. -/
theorem check {α : Type} {p : Proc α} {f : α → Proc Status} (hp : Within Eq p) (hf : ∀ a, ErrorsPure (f a)) :
    ErrorsPure (p >>= f) := fun s r t h hr => by
  obtain ⟨a, u, hcheck, hrest⟩ := bind_ok_iff.mp h
  obtain rfl := hp s a u hcheck
  exact hf a s r t hrest hr

theorem look {α : Type} {f : State → α} {g : α → Proc Status} (hg : ∀ a, ErrorsPure (g a)) :
    ErrorsPure (Machine.look f >>= g) :=
  check (Within.look Eq.refl f) hg

/-- The checks' verdict: its error, or writes that end in OK. -/
theorem verdict {f : State → Option Status} {p : Proc Status} (hp : AlwaysOk p) :
    ErrorsPure (Machine.look f >>= fun err => match err with | some e => Pure.pure e | none => p) :=
  look fun
    | some e => pure e
    | none => hp.errorsPure

end ErrorsPure

/-! ### The rules of the commands -/

theorem memRead_within_eq (a n : Nat) : Within Eq (memRead a n) := fun _ _ _ h => (memRead_ok h).1.symm

theorem topLevelOnly_within_eq : Within Eq topLevelOnly :=
  Within.bind (R := Eq) (fun _ _ _ => Eq.trans) (.look Eq.refl _) fun _ =>
    .ite (fun _ => .refuse _) fun _ => .pure Eq.refl ()

theorem taskRule_alwaysOk (up : Upcalls) : AlwaysOk (taskRule up) :=
  .bind fun _ => .bind fun _ => .bind fun _ => .bind fun _ => .bind fun _ => .ite .pure (.bind fun _ => .pure)

theorem bindRule_errorsPure (up : Upcalls) (d : Word) : ErrorsPure (bindRule up d) :=
  .ite (.refuse _) <| .check topLevelOnly_within_eq fun _ => .look fun
    | some _ => .pure _
    | none => (AlwaysOk.bind fun _ => .bind fun _ => .pure).errorsPure

theorem enableRule_errorsPure (up : Upcalls) (ep : BitVec 4) (addr : Word) : ErrorsPure (enableRule up ep addr) :=
  .look fun _ => .ite (.pure _) <| .ite (.pure _) <| .check (memRead_within_eq _ _) fun _ =>
    .verdict (.bind fun _ => .bind fun _ => .pure)

theorem disableRule_errorsPure (up : Upcalls) (ep : BitVec 4) : ErrorsPure (disableRule up ep) :=
  .look fun _ => .ite (.pure _) <| .ite (.pure _) (AlwaysOk.bind fun _ => .bind fun _ => .pure).errorsPure

theorem withRequest_errorsPure (h : Word) {p : Proc Status} (hp : ErrorsPure p) : ErrorsPure (withRequest h p) :=
  .look fun _ => .ite hp (.refuse _)

theorem queueRule_errorsPure (up : Upcalls) (i : Nat) (h : Handle) : ErrorsPure (queueRule up i h) :=
  .verdict <| .bind fun _ => .bind fun _ => .ite (.bind fun _ => .pure) <|
    .bind fun _ => .bind fun _ => .ite (.bind fun _ => .pure) .pure

theorem dequeueCommand_errorsPure (up : Upcalls) (ep : BitVec 4) (h : Word) : ErrorsPure (dequeueCommand up ep h) :=
  withRequest_errorsPure h <| .look fun _ => .ite (.pure _) <| .look fun _ =>
    .ite (AlwaysOk.bind fun _ => .pure).errorsPure (.pure _)

theorem setHaltRule_errorsPure (up : Upcalls) (i : Nat) (v : Bool) : ErrorsPure (setHaltRule up i v) :=
  .verdict <| .bind fun _ => .ite .pure (.bind fun _ => .pure)

theorem fifoFlushRule_errorsPure (ep : BitVec 4) : ErrorsPure (fifoFlushRule ep) :=
  .look fun _ => .ite (.pure _) <| .look fun
    | .IN => (AlwaysOk.bind fun _ => .pure).errorsPure
    | .OUT => (AlwaysOk.bind fun _ => .pure).errorsPure

/-! ### From the rules to the commands -/

/-- What a command that completes has done: its rule, and the RESULT. -/
theorem command_next_inv {p : Upcalls → Proc Status} {i : Instr} {s t : State}
    (h : outcome (withUpcalls fun up => command i (p up)) s = .next t) :
    ∃ r u, p (upcalls s.driverScript.length) s = .ok (r, u) ∧ t = u.returned r := by
  obtain ⟨_, hrun⟩ := outcome_next_iff.mp h
  obtain ⟨r, u, hrule, hreturn⟩ := bind_ok_iff.mp hrun
  cases hreturn
  exact ⟨r, u, inCommand_ok_iff.mp hrule, rfl⟩

theorem ErrorsPure.command_error {p : Upcalls → Proc Status} (hp : ∀ up, ErrorsPure (p up)) {i : Instr} {s t : State}
    (h : outcome (withUpcalls fun up => command i (p up)) s = .next t) (hr : t.result ≠ .ok) :
    t = s.returned t.result := by
  obtain ⟨r, u, hrule, rfl⟩ := command_next_inv h
  rw [hp _ s r u hrule hr]
  rfl

/-- A command's error is the whole of what it did. -/
theorem exec_error {i : Instr} (hi : i = .task ∨ Instr.isCommand i = true) {s t : State} (h : exec i s = .next t)
    (hr : t.result ≠ .ok) : t = s.returned t.result := by
  cases i with
  | task => exact ErrorsPure.command_error (fun up => (taskRule_alwaysOk up).errorsPure) h hr
  | bind d => exact ErrorsPure.command_error (fun up => bindRule_errorsPure up d) h hr
  | enable ep addr => exact ErrorsPure.command_error (fun up => enableRule_errorsPure up ep addr) h hr
  | disable ep => exact ErrorsPure.command_error (fun up => disableRule_errorsPure up ep) h hr
  | queue ep k =>
    exact ErrorsPure.command_error (fun up => withRequest_errorsPure k (queueRule_errorsPure up _ _)) h hr
  | dequeue ep k => exact ErrorsPure.command_error (fun up => dequeueCommand_errorsPure up ep k) h hr
  | setHalt ep v => exact ErrorsPure.command_error (fun up => setHaltRule_errorsPure up _ v) h hr
  | fifoFlush ep => exact ErrorsPure.command_error (fun _ => fifoFlushRule_errorsPure ep) h hr
  | reservedCmd => cases h
  | _ => simp [Instr.isCommand] at hi

/-- Settles O16: each command's rule makes its checks, which change nothing, before its writes, which end in OK. -/
theorem errorsChangeNothing : Obligations.ErrorsChangeNothing := by
  unfold Obligations.ErrorsChangeNothing
  intro cmd arg i s t hd h hr
  exact exec_error (decodeCmd_task_or_isCommand hd) h hr

end Sys2Proof.Machine
end

section
/-! PROOF. Controller initialization from any state: what CTRL_INIT writes in the SIE and in the request table (R207). -/

namespace Sys2Proof.Machine

/-! ### The writes to the SIE -/

/-- `EIER <- 0x1` enables endpoint 0 alone, whatever the number of endpoints. -/
theorem write_eier_one (c : Config) (x : Sie) : Sie.write c x .eier 0x1 = { x with eier := 0x1 } := by
  have hword : ((0x1 : Word) &&& epMask c.numEndpoints) ||| 1 = 0x1 := by
    ext j hj
    rw [BitVec.getElem_or, BitVec.getElem_and]
    cases (0x1 : Word)[j] <;> simp
  rw [Sie.write, hword]

/-- The SIE's record of an endpoint after CTRL_INIT's two writes for it, the second of size m. -/
def SieEndpoint.initialized (m : BitVec 11) (e : SieEndpoint) : SieEndpoint :=
  { e with stall := false, dirIn := false, mps := m }

theorem initEndpointRegisters_cons (c : Config) (eps : List Endpoint) (x : Sie) (i : Nat) (l : List Nat) :
    initEndpointRegisters c eps x (i :: l) =
      initEndpointRegisters c eps (x.setEp i (SieEndpoint.initialized (eps.getD i Endpoint.absent).mps)) l := by
  have hboth (m : BitVec 11) : (fun e : SieEndpoint => { e with mps := m }) ∘ SieEndpoint.writeControl 0 =
      SieEndpoint.initialized m := by
    funext e
    rw [Function.comp_apply, writeControl_zero]
    rfl
  rw [initEndpointRegisters, write_ecr c (.inr (.inl (by decide)))]
  simp only [Sie.write, low11_zeroExtend, sieSetEp_setEp, hboth]

/-- CTRL_INIT's writes for the endpoints change nothing of the SIE but its endpoint records. -/
theorem initEndpointRegisters_frame (c : Config) (eps : List Endpoint) (x : Sie) (l : List Nat) :
    initEndpointRegisters c eps x l = { x with eps := (initEndpointRegisters c eps x l).eps } := by
  induction l generalizing x with
  | nil => rfl
  | cons i l ih =>
    rw [initEndpointRegisters_cons]
    exact ih _

theorem initEndpointRegisters_ep (c : Config) (eps : List Endpoint) {x : Sie} (l : List Nat) {j : Nat} (hj : j < x.eps.length) :
    (initEndpointRegisters c eps x l).ep j =
      if j ∈ l then (x.ep j).initialized (eps.getD j Endpoint.absent).mps else x.ep j := by
  induction l generalizing x with
  | nil => rfl
  | cons i l ih =>
    rw [initEndpointRegisters_cons, ih (by simpa using hj)]
    by_cases hi : i = j
    · subst hi
      rw [sieEp_setEp_self x i _ hj]
      simp [SieEndpoint.initialized]
    · rw [sieEp_setEp_ne x _ hi]
      simp [Ne.symm hi]

/-! ### The request table -/

theorem findRequest_map (f : Request → Request) (h : Word) (l : List (Word × Request)) :
    findRequest h (l.map fun p => (p.1, f p.2)) = (findRequest h l).map f := by
  induction l with
  | nil => rfl
  | cons p l ih =>
    obtain ⟨k, r⟩ := p
    by_cases hk : k = h <;> simp [findRequest, hk, ih]

/-! ### CTRL_INIT -/

/-- The endpoint records are those after reset. -/
theorem ctrlInit_ep (s : State) (i : Nat) : (ctrlInit s).ep i = (State.resetWith s.cfg).ep i := rfl

theorem ctrlInit_sie (s : State) : (ctrlInit s).sie =
    initEndpointRegisters s.cfg (initEndpoints s.cfg) { s.sie with eier := 0x1 } (List.range s.cfg.numEndpoints) := by
  rw [← write_eier_one s.cfg s.sie]
  rfl

theorem ctrlInit_sieEp {s : State} (hlen : s.sie.eps.length = s.numEps) {i : Nat} (hi : i < s.numEps) :
    (ctrlInit s).sie.ep i = (s.sie.ep i).initialized ((ctrlInit s).ep i).mps := by
  have hmem : i ∈ List.range s.cfg.numEndpoints := List.mem_range.mpr hi
  rw [ctrlInit_sie, initEndpointRegisters_ep _ _ _ (hlen ▸ hi), if_pos hmem]
  rfl

/-- A record of the table is taken off its queue, and a handle without one gets none. -/
theorem ctrlInit_req (s : State) (h : Word) : (ctrlInit s).req (.user h) =
    if s.hasRequest h then (s.req (.user h)).unqueued else s.req (.user h) := by
  have hfind : findRequest h (ctrlInit s).reqs = (findRequest h s.reqs).map Request.unqueued := findRequest_map _ h _
  rw [State.req, hfind, State.hasRequest, State.req]
  cases findRequest h s.reqs <;> rfl

/-- Settles O57: the endpoint records are those after reset, the SIE's writes reach each endpoint's register record once,
and every request of the table and the core's own is taken off its queue. -/
theorem controllerInitialization : Obligations.ControllerInitialization := by
  unfold Obligations.ControllerInitialization
  intro s _ hlen
  refine ⟨rfl, rfl, fun i h1 hi => ?_, ?_, fun i hi => ?_, ctrlInit_req s, rfl, ?_, rfl⟩
  · rw [ctrlInit_ep, resetWith_dataEp s.cfg h1 hi]
  · rw [ctrlInit_sie, initEndpointRegisters_frame]
  · have hmps : ((ctrlInit s).ep i).mps = if i = 0 then s.cfg.ep0MpsFs else s.cfg.bulkMpsFs := by
      rw [ctrlInit_ep]
      split
      case isTrue h0 => rw [h0]; rfl
      case isFalse h0 => rw [resetWith_dataEp s.cfg (by omega) hi]
    rw [ctrlInit_sieEp hlen hi, hmps]
    rfl
  · rw [ctrlInit_sie, initEndpointRegisters_frame]

end Sys2Proof.Machine
end
